-- ==== Sys2Proof/Word.lean ====
section
/-! DEFINITION. The widths HUFFCORE's values have: bytes, 32-bit words, symbols, node indices, bit sequences
(spec/00_scope.md R11, R12; spec/30_encoding.md R142; spec/10_state.md R59). -/

namespace Sys2Proof

/-- A byte: 8 bits, bit 7 the most significant (R11). -/
abbrev Byte := BitVec 8

/-- A word: 32 bits, the width of every register and command (R11, R140). -/
abbrev Word := BitVec 32

/-- A symbol: the 21-bit number of a format-S operand (R9, R142). -/
abbrev Sym := BitVec 21

/-- A node index: 16 bits (R59). -/
abbrev NodeIdx := BitVec 16

/-- A bit sequence, first bit first; the document's `false` is 0 and its `true` is 1 (R11, R12). -/
abbrev BitSeq := List Bool

/-- A byte sequence, in stream order (R12). -/
abbrev ByteSeq := List Byte

/-- A bit as a 32-bit word. -/
def bitWord (b : Bool) : Word := if b then 1#32 else 0#32

end Sys2Proof
end

