-- ==== Sys2Proof/Config.lean ====
section
/-! DEFINITION. The build-time parameters of spec/00_scope.md R8 and what follows from them (R9, R10).
A machine state carries its `Config`, and no step changes it (spec/70_reset_and_hazards.md R554; log entry 5). -/

namespace Sys2Proof

/-- `SYMBOL_CODEC` (R8): the alphabet and text encoding of a symbol. -/
inductive Codec where
  | byte
  | utf8
deriving DecidableEq, Repr

/-- The parameters of R8 that a build chooses. -/
structure Config where
  codec     : Codec
  maxSyms   : Nat
  flushBits : Nat
  bpCapBits : Nat
  inDepth   : Nat
  outDepth  : Nat
deriving DecidableEq, Repr

namespace Config

/-- `SYM_MAX` (R8). -/
def symMax (c : Config) : Nat :=
  match c.codec with
  | .byte => 0xFF
  | .utf8 => 0x10FFFF

/-- `NODE_CAP = 2*MAX_SYMS - 1` (R8). -/
def nodeCap (c : Config) : Nat := 2 * c.maxSyms - 1

/-- `MAX_CODE_LEN = max(1, MAX_SYMS - 1)` (R8). -/
def maxCodeLen (c : Config) : Nat := max 1 (c.maxSyms - 1)

/-- `HDR_MAX` (R8). -/
def hdrMax : Nat := 65535

/-- `CHUNK_MAX` (R8): the largest count a 16-bit operand holds. -/
def chunkMax : Nat := 65535

/-- The default `BP_CAP_BITS` for a flush threshold and a code length (R8). -/
def defaultCap (flush codeLen : Nat) : Nat := flush + 8 * ((codeLen + 7) / 8)

/-- The default build (R8): `BYTE`. -/
def default : Config :=
  { codec := .byte, maxSyms := 256, flushBits := 131072, bpCapBits := defaultCap 131072 255,
    inDepth := 64, outDepth := 64 }

/-- The default build with `SYMBOL_CODEC = UTF8` (R8). -/
def utf8Default : Config :=
  { codec := .utf8, maxSyms := 4096, flushBits := 131072, bpCapBits := defaultCap 131072 4095,
    inDepth := 64, outDepth := 64 }

/-- The legal values of R8. -/
def wf (c : Config) : Bool :=
  (match c.codec with
    | .byte => c.maxSyms == 256
    | .utf8 => decide (2 ≤ c.maxSyms) && decide (c.maxSyms ≤ 32768)) &&
  decide (8 ≤ c.flushBits) && decide (c.flushBits ≤ 2 ^ 24) &&
  decide (c.flushBits + c.maxCodeLen - 1 ≤ c.bpCapBits) && decide (c.bpCapBits ≤ 2 ^ 24) &&
  decide (1 ≤ c.inDepth) && decide (c.inDepth ≤ 65535) &&
  decide (1 ≤ c.outDepth) && decide (c.outDepth ≤ 65535)

/-- `valid_symbol` (R9): with `BYTE` 0 to 0xFF, with `UTF8` a Unicode scalar value. -/
def validSym (c : Config) (s : Sym) : Bool :=
  match c.codec with
  | .byte => decide (s.toNat ≤ 0xFF)
  | .utf8 => decide (s.toNat ≤ 0x10FFFF) && !(decide (0xD800 ≤ s.toNat) && decide (s.toNat ≤ 0xDFFF))

end Config
end Sys2Proof
end

