-- ==== Sys2Proof/Syntax.lean ====
section
/-! DEFINITION. The command set: one constructor per row of spec/opcode_table.json, in the table's order
(spec/30_encoding.md R147), with the operands of its format (R141 to R146). -/

namespace Sys2Proof

/-- The 25 commands of HUFFCORE. -/
inductive Instr where
  | ftClear
  | ftCount (sym : Sym)
  | ftRead (sym : Sym)
  | tbBuild
  | ctRead (sym : Sym)
  | nodeRead (idx : BitVec 16)
  | treeInfo
  | tsSerialize
  | tsDeserialize
  | bpClear
  | bpAppendBit (bit : Bool)
  | bpAppendBits (len : BitVec 5) (val : BitVec 16)
  | bpSize
  | bpTvb
  | bpDrainReady
  | bpDrainAll
  | encBegin
  | encHeader
  | encSym (sym : Sym)
  | encFinish
  | decBegin
  | decChunk (idx : BitVec 16)
  | decEnd
  | nop
  | abort
deriving DecidableEq, Repr

end Sys2Proof
end

