-- ==== Sys2Proof/WellFormed.lean ====
section
/-! DEFINITION. Which commands are well formed (spec/30_encoding.md R150, R151): a format-S operand is a valid
symbol of the build, a format-L operand has LEN 1 to 16 and no VAL bit above LEN. The other operand fields admit
every value. -/

namespace Sys2Proof

/-- Well-formedness of a command under a build (R150). -/
def Instr.wf (c : Config) : Instr → Bool
  | .ftCount sym => c.validSym sym
  | .ftRead sym => c.validSym sym
  | .ctRead sym => c.validSym sym
  | .encSym sym => c.validSym sym
  | .bpAppendBits len val =>
      decide (1 ≤ len.toNat) && decide (len.toNat ≤ 16) && decide (val.toNat < 2 ^ len.toNat)
  | .ftClear => true
  | .tbBuild => true
  | .nodeRead _ => true
  | .treeInfo => true
  | .tsSerialize => true
  | .tsDeserialize => true
  | .bpClear => true
  | .bpAppendBit _ => true
  | .bpSize => true
  | .bpTvb => true
  | .bpDrainReady => true
  | .bpDrainAll => true
  | .encBegin => true
  | .encHeader => true
  | .encFinish => true
  | .decBegin => true
  | .decChunk _ => true
  | .decEnd => true
  | .nop => true
  | .abort => true

end Sys2Proof
end

