-- ==== Sys2Proof/Decode.lean ====
section
/-! DEFINITION. The command decoder, total on every 32-bit word, rejecting by the ILLEGAL_COMMAND subcodes of
spec/30_encoding.md R148 to R151, and the encoder written from the same formats (R141 to R145, R147). -/

namespace Sys2Proof

/-- The five operand formats (R141 to R145). -/
inductive Format where
  | n
  | s
  | b
  | l
  | i
deriving DecidableEq, Repr

/-- Why a word is no command (R148 to R150), in the order of the checks (R151). -/
inductive Illegal where
  | unassignedOpcode
  | reservedBits
  | symbolNotValid
  | lengthOutOfRange
  | valueBitsAboveLength
deriving DecidableEq, Repr

/-- The info word of ILLEGAL_COMMAND (R148 to R150). -/
def Illegal.subcode : Illegal → Word
  | .unassignedOpcode => 1#32
  | .reservedBits => 2#32
  | .symbolNotValid => 3#32
  | .lengthOutOfRange => 4#32
  | .valueBitsAboveLength => 5#32

/-- What the decoder answers: a well-formed command, or the first check that failed. -/
inductive Decoded where
  | command (i : Instr)
  | illegal (e : Illegal)
deriving DecidableEq, Repr

/-! ### The fields of a command word (R140, R146) -/

/-- OPC, bits [31:24]. -/
def opcField (w : Word) : BitVec 8 := w.extractLsb' 24 8

/-- SYM, bits [20:0]. -/
def symField (w : Word) : Sym := w.extractLsb' 0 21

/-- BIT, bit [0]. -/
def bitField (w : Word) : Bool := w.getLsbD 0

/-- LEN, bits [20:16]. -/
def lenField (w : Word) : BitVec 5 := w.extractLsb' 16 5

/-- VAL, bits [15:0]. -/
def valField (w : Word) : BitVec 16 := w.extractLsb' 0 16

/-- IDX, bits [15:0]. -/
def idxField (w : Word) : BitVec 16 := w.extractLsb' 0 16

/-- The reserved operand bits of a word, read in its format, are all 0 (R149). -/
def reservedClear (f : Format) (w : Word) : Bool :=
  match f with
  | .n => w.extractLsb' 0 24 == 0#24
  | .s => w.extractLsb' 21 3 == 0#3
  | .l => w.extractLsb' 21 3 == 0#3
  | .b => w.extractLsb' 1 23 == 0#23
  | .i => w.extractLsb' 16 8 == 0#8

/-- The opcode map (R147): the row of an opcode, its format and its command with the fields of `w`. -/
def opcodeRow (w : Word) : Option (Format × Instr) :=
  match (opcField w).toNat with
  | 0x10 => some (.n, .ftClear)
  | 0x11 => some (.s, .ftCount (symField w))
  | 0x12 => some (.s, .ftRead (symField w))
  | 0x18 => some (.n, .tbBuild)
  | 0x19 => some (.s, .ctRead (symField w))
  | 0x1A => some (.i, .nodeRead (idxField w))
  | 0x1B => some (.n, .treeInfo)
  | 0x20 => some (.n, .tsSerialize)
  | 0x21 => some (.n, .tsDeserialize)
  | 0x28 => some (.n, .bpClear)
  | 0x29 => some (.b, .bpAppendBit (bitField w))
  | 0x2A => some (.l, .bpAppendBits (lenField w) (valField w))
  | 0x2B => some (.n, .bpSize)
  | 0x2C => some (.n, .bpTvb)
  | 0x2D => some (.n, .bpDrainReady)
  | 0x2E => some (.n, .bpDrainAll)
  | 0x30 => some (.n, .encBegin)
  | 0x31 => some (.n, .encHeader)
  | 0x32 => some (.s, .encSym (symField w))
  | 0x33 => some (.n, .encFinish)
  | 0x38 => some (.n, .decBegin)
  | 0x39 => some (.i, .decChunk (idxField w))
  | 0x3A => some (.n, .decEnd)
  | 0x00 => some (.n, .nop)
  | 0x01 => some (.n, .abort)
  | _ => none

/-- The operand checks of R150, in the order of R151. -/
def checkOperands (c : Config) (f : Format) (w : Word) : Option Illegal :=
  match f with
  | .s => if c.validSym (symField w) then none else some .symbolNotValid
  | .l =>
      let len := (lenField w).toNat
      if len = 0 ∨ 16 < len then some .lengthOutOfRange
      else if len < 16 ∧ (valField w) >>> len ≠ 0#16 then some .valueBitsAboveLength
      else none
  | .n => none
  | .b => none
  | .i => none

/-- `decode(w)` (R151). -/
def decode (c : Config) (w : Word) : Decoded :=
  match opcodeRow w with
  | none => .illegal .unassignedOpcode
  | some (f, i) =>
      if reservedClear f w then
        match checkOperands c f w with
        | some e => .illegal e
        | none => .command i
      else .illegal .reservedBits

/-! ### The encoder -/

/-- A format-N word (R141). -/
def encodeN (opc : BitVec 8) : Word := opc ++ 0#24

/-- A format-S word (R142). -/
def encodeS (opc : BitVec 8) (sym : Sym) : Word := (opc ++ 0#3) ++ sym

/-- A format-B word (R143). -/
def encodeB (opc : BitVec 8) (bit : Bool) : Word := (opc ++ 0#23) ++ BitVec.ofBool bit

/-- A format-L word (R144). -/
def encodeL (opc : BitVec 8) (len : BitVec 5) (val : BitVec 16) : Word := ((opc ++ 0#3) ++ len) ++ val

/-- A format-I word (R145). -/
def encodeI (opc : BitVec 8) (idx : BitVec 16) : Word := (opc ++ 0#8) ++ idx

/-- The command word of a command (R140 to R147). -/
def encode : Instr → Word
  | .ftClear => encodeN 0x10#8
  | .ftCount sym => encodeS 0x11#8 sym
  | .ftRead sym => encodeS 0x12#8 sym
  | .tbBuild => encodeN 0x18#8
  | .ctRead sym => encodeS 0x19#8 sym
  | .nodeRead idx => encodeI 0x1A#8 idx
  | .treeInfo => encodeN 0x1B#8
  | .tsSerialize => encodeN 0x20#8
  | .tsDeserialize => encodeN 0x21#8
  | .bpClear => encodeN 0x28#8
  | .bpAppendBit bit => encodeB 0x29#8 bit
  | .bpAppendBits len val => encodeL 0x2A#8 len val
  | .bpSize => encodeN 0x2B#8
  | .bpTvb => encodeN 0x2C#8
  | .bpDrainReady => encodeN 0x2D#8
  | .bpDrainAll => encodeN 0x2E#8
  | .encBegin => encodeN 0x30#8
  | .encHeader => encodeN 0x31#8
  | .encSym sym => encodeS 0x32#8 sym
  | .encFinish => encodeN 0x33#8
  | .decBegin => encodeN 0x38#8
  | .decChunk idx => encodeI 0x39#8 idx
  | .decEnd => encodeN 0x3A#8
  | .nop => encodeN 0x00#8
  | .abort => encodeN 0x01#8

/-- The word of a table row: `nbits` bits numbered as the opcode table numbers them, the bits above them 0.
A command is one 32-bit word (R140), so the word is the number itself. -/
def tableWord (nbits w : Nat) : Word := BitVec.ofNat 32 (w % 2 ^ nbits)

/-- The host's reading of a table row's word: what the decoder of the default build gives (log entry 10). -/
def decodeTableWord (nbits w : Nat) : Option Instr :=
  match decode Config.default (tableWord nbits w) with
  | .command i => some i
  | .illegal _ => none

end Sys2Proof
end

