-- ==== Sys2Proof/Machine/State.lean ====
section
/-! DEFINITION. The state of HUFFCORE (spec/10_state.md R30 to R68), as plain data, and its value after reset.
The last four fields of `State` are the model's own: the host's side of the interface (log entries 1, 2 and 8). -/

namespace Sys2Proof.Machine

/-- `phase` (R55). -/
inductive Phase where
  | idle
  | eCount
  | eEmit
  | eDone
  | dLen0
  | dLen1
  | dHdr
  | dPay
  | dDone
deriving DecidableEq, Repr

/-- `tstate` (R59): NONE, ABSENT or PRESENT. -/
inductive TState where
  | noTree
  | absent
  | present
deriving DecidableEq, Repr

/-- The error causes of spec/60_exceptions.md R501. -/
inductive Cause where
  | illegalCommand
  | sequence
  | noTree
  | unknownSymbol
  | malformedTree
  | headerTruncated
  | payloadTruncated
  | badMarker
  | truncatedCode
  | invalidCode
  | noTreePayload
  | headerTooLong
  | tableFull
  | freqOverflow
  | bpOverflow
  | bpSealed
deriving DecidableEq, Repr

/-- The part of a node record that depends on its kind (R59): a LEAF has a symbol, an INTERNAL node two children. -/
inductive NodeBody where
  | leaf (sym : Sym)
  | internal (left right : NodeIdx)
deriving DecidableEq, Repr, Inhabited

/-- A node record (R59). -/
structure Node where
  freq : Word
  body : NodeBody
  code : BitSeq
deriving DecidableEq, Repr, Inhabited

/-- A valid code-table record (R60). -/
structure CtEntry where
  code : BitSeq
  freq : Word
deriving DecidableEq, Repr

/-- A finite map from symbols, in canonical form a list with its symbols strictly ascending. -/
abbrev SymMap (α : Type) := List (Sym × α)

/-- What is left of a command's pseudocode: the position of the in-flight command is a list of these (R56).
Blocking points (spec/00_scope.md R16) are in `push`, `walk`, `chunk`, `hdrLo`, `hdrHi` and `hdrBody`. -/
inductive Micro where
  /-- push these bytes to OUT, in order -/
  | push (bytes : ByteSeq)
  /-- `bp := bp[8k ..]`, the end of `drain_ready` (spec/43_bit_packer.md R305) -/
  | keepPartial
  /-- `bp := []; sealed := 1`, the end of `drain_all` (R306) -/
  | sealPacker
  /-- `phase := p` -/
  | setPhase (p : Phase)
  /-- `stat_syms := stat_syms + 1`, the end of `emit` (spec/45_stream_decoder.md R408) -/
  | countSym
  /-- `cur := root` (R406) -/
  | curToRoot
  /-- walk these bits of the payload byte at this offset (R406, R407) -/
  | walk (bits : BitSeq) (off : Word)
  /-- DEC_CHUNK with this many bytes still to consume (R431) -/
  | chunk (n : Nat)
  /-- TS_DESERIALIZE before its first byte (spec/42_tree_serializer.md R261) -/
  | hdrLo
  /-- TS_DESERIALIZE with the low length byte read -/
  | hdrHi (lo : Byte)
  /-- TS_DESERIALIZE with this many header bytes still to consume -/
  | hdrBody (n : Nat)
  /-- the end of `dec_end` (R409): the TRUNCATED_CODE check and `phase := D_DONE` -/
  | decTail
deriving DecidableEq, Repr

/-- What the host does in one step (spec/00_scope.md R15; spec/70_reset_and_hazards.md R550, R575). -/
inductive HostAccess where
  /-- `MemRead(off, 4)` -/
  | read (off : BitVec 8)
  /-- `MemWrite(off, 4, v)` -/
  | write (off : BitVec 8) (v : Word)
  /-- the reset input `rst` is asserted -/
  | rst
  /-- no access: only the core moves -/
  | idle
deriving DecidableEq, Repr

/-- One entry of the host's program: an access, and how many blocking points the core may pass in that step
(`none`: as many as the FIFOs allow; log entry 2). -/
structure HostStep where
  access : HostAccess
  credit : Option Nat
deriving DecidableEq, Repr

/-- The state of HUFFCORE and of the host's side of its interface. -/
structure State where
  -- the build's parameters (spec/00_scope.md R8; constant, R554)
  cfg        : Config
  -- host-visible registers (R36, R39 to R42, R46)
  arg        : Word
  result0    : Word
  result1    : Word
  result2    : Word
  errCause   : BitVec 8
  errInfo    : Word
  errCmd     : Word
  doneIe     : Bool
  errIe      : Bool
  -- stored STATUS flags (R34, R57)
  busy       : Bool
  err        : Bool
  done       : Bool
  cmdOvr     : Bool
  inOvr      : Bool
  -- the in-flight command latch (R56)
  cmdWord    : Word
  cmdArg     : Word
  todo       : List Micro
  -- the session phase (R55)
  phase      : Phase
  -- the frequency table (R58)
  ft         : SymMap Word
  total      : Word
  -- the tree (R59) and the code table (R60)
  tstate     : TState
  nodes      : List Node
  root       : NodeIdx
  ct         : SymMap CtEntry
  -- the bit packer (R61)
  bp         : BitSeq
  tvb        : BitVec 4
  sealed     : Bool
  -- the decoder (R62)
  hlen       : BitVec 16
  hbuf       : ByteSeq
  dpos       : Word
  pend       : List (Byte × Word)
  cur        : NodeIdx
  -- the FIFOs (R63) and the statistics (R64)
  inFifo     : ByteSeq
  outFifo    : ByteSeq
  statSyms   : Word
  statBytes  : Word
  -- the model's own: the host's program, the core's credit in this step, what the host's reads returned, and
  -- whether the host has read STATUS since `busy` was last 0 (log entries 1, 2 and 8)
  script     : List HostStep
  credit     : Option Nat
  reads      : List (BitVec 8 × Word)
  statusSeen : Bool
deriving DecidableEq, Repr

/-- Why the machine stops with a fault: never. Every error of the spec is a next state (spec/60_exceptions.md R520),
and no host access raises one (R502), so this type has no constructor. -/
inductive Fault where
deriving DecidableEq, Repr

/-- Why an instruction has no meaning. -/
inductive Refusal where
  /-- raised by an arm of `exec` whose instruction has no meaning yet; no arm does (safe) -/
  | notModelled (mnemonic : String)
deriving DecidableEq, Repr

/-- The machine right after reset (R68), as a build with these parameters. The latch fields other than `busy` are
unspecified and unobservable after reset (R56); the model's values are named in log entry 4. -/
def State.resetWith (c : Config) : State where
  cfg := c
  arg := 0#32
  result0 := 0#32
  result1 := 0#32
  result2 := 0#32
  errCause := 0#8
  errInfo := 0#32
  errCmd := 0#32
  doneIe := false
  errIe := false
  busy := false
  err := false
  done := false
  cmdOvr := false
  inOvr := false
  cmdWord := 0#32
  cmdArg := 0#32
  todo := []
  phase := .idle
  ft := []
  total := 0#32
  tstate := .noTree
  nodes := []
  root := 0#16
  ct := []
  bp := []
  tvb := 0#4
  sealed := false
  hlen := 0#16
  hbuf := []
  dpos := 0#32
  pend := []
  cur := 0#16
  inFifo := []
  outFifo := []
  statSyms := 0#32
  statBytes := 0#32
  script := []
  credit := none
  reads := []
  statusSeen := false

/-- The machine right after reset, as the default build (R8, R68). -/
def State.reset : State := State.resetWith Config.default

end Sys2Proof.Machine

/-- A free value: what node memory holds where no node is valid (spec/10_state.md R59: "node contents unspecified
and unobservable"; log entry 6). -/
opaque Sys2Proof.Config.freeNode : Nat → Sys2Proof.Machine.Node

/-- A free value: the `left` or `right` field of a LEAF record, which R59 gives to INTERNAL nodes only (log entry 6). -/
opaque Sys2Proof.Config.freeChild : Nat → Sys2Proof.NodeIdx
end

