-- ==== Sys2Proof/Machine/Operands.lean ====
section
/-! DEFINITION. The forms data takes in HUFFCORE: bits in bytes (spec/00_scope.md R13), the bit-string operand
(spec/30_encoding.md R146), symbol texts and their UTF-8 reading (R173 to R175), and the code words CT_READ shows
(spec/41_tree_builder.md R222). -/

namespace Sys2Proof.Machine

/-! ### Bits and bytes (R13) -/

/-- `bits_of(b)`: bit 7 first. -/
def bitsOfByte (b : Byte) : BitSeq :=
  [b.getLsbD 7, b.getLsbD 6, b.getLsbD 5, b.getLsbD 4, b.getLsbD 3, b.getLsbD 2, b.getLsbD 1, b.getLsbD 0]

/-- A bit as a number. -/
def bitNat (b : Bool) : Nat := if b then 1 else 0

/-- `pack8(s)`: the first bit of the sequence is bit 7 of the byte. -/
def pack8 (s : BitSeq) : Byte := BitVec.ofNat 8 (s.foldl (fun acc b => 2 * acc + bitNat b) 0)

/-- The full bytes of a bit sequence, cut from its start (spec/43_bit_packer.md R300). -/
def fullBytes : BitSeq → ByteSeq
  | b0 :: b1 :: b2 :: b3 :: b4 :: b5 :: b6 :: b7 :: rest => pack8 [b0, b1, b2, b3, b4, b5, b6, b7] :: fullBytes rest
  | _ => []

/-- The 0 to 7 bits after the full bytes: `bp[8k ..]` with `k = len(bp) div 8` (R305). -/
def partialBits (s : BitSeq) : BitSeq := s.drop (8 * (s.length / 8))

/-- The zero-padded byte of a partial byte, or nothing where there is none (R306). -/
def paddedByte (p : BitSeq) : ByteSeq :=
  match p with
  | [] => []
  | b :: bs => [pack8 ((b :: bs) ++ List.replicate (8 - (b :: bs).length) false)]

/-- `bitsToBytes(b)` (spec/30_encoding.md R176). -/
def bitsToBytes (s : BitSeq) : ByteSeq := fullBytes s ++ paddedByte (partialBits s)

/-- `tvbOf(n)` (spec/30_encoding.md R177). -/
def tvbOf (n : Nat) : Nat := if n = 0 then 0 else if n % 8 = 0 then 8 else n % 8

/-- The bits of a format-L operand: `[VAL[LEN-1], ..., VAL[0]]` (spec/30_encoding.md R146). -/
def valBits (len : BitVec 5) (val : BitVec 16) : BitSeq :=
  (List.range len.toNat).map fun k => val.getLsbD (len.toNat - 1 - k)

/-! ### Code words (spec/41_tree_builder.md R222) -/

/-- A word from 32 bits, bit 31 first. -/
def wordOfBits (s : BitSeq) : Word := BitVec.ofNat 32 (s.foldl (fun acc b => 2 * acc + bitNat b) 0)

/-- Word `w` of a code: code bit `32w + k` at bit `31 - k`, 0 past the code's end. -/
def codeWord (code : BitSeq) (w : Nat) : Word :=
  wordOfBits ((List.range 32).map fun k => code.getD (32 * w + k) false)

/-! ### Symbol text (spec/30_encoding.md R173, R174) -/

/-- A UTF-8 continuation byte with these six bits. -/
def contByte (v : BitVec 6) : Byte := 0b10#2 ++ v

/-- The UTF-8 encoding of a scalar value (R174). -/
def utf8Text (s : Sym) : ByteSeq :=
  if s.toNat ≤ 0x7F then [s.extractLsb' 0 8]
  else if s.toNat ≤ 0x7FF then [(0b110#3 ++ s.extractLsb' 6 5 : Byte), contByte (s.extractLsb' 0 6)]
  else if s.toNat ≤ 0xFFFF then
    [(0b1110#4 ++ s.extractLsb' 12 4 : Byte), contByte (s.extractLsb' 6 6), contByte (s.extractLsb' 0 6)]
  else
    [(0b11110#5 ++ s.extractLsb' 18 3 : Byte), contByte (s.extractLsb' 12 6), contByte (s.extractLsb' 6 6),
      contByte (s.extractLsb' 0 6)]

/-- `symText(s)` (R173, R174). -/
def symText (c : Config) (s : Sym) : ByteSeq :=
  match c.codec with
  | .byte => [s.extractLsb' 0 8]
  | .utf8 => utf8Text s

/-! ### Reading a symbol text (spec/30_encoding.md R175; spec/42_tree_serializer.md R256, `read_sym`) -/

/-- What `read_sym` finds at a position: a symbol of so many bytes, the header's end, or a byte, at this distance
from the position, that breaks a UTF-8 sequence. -/
inductive SymRead where
  | sym (s : Sym) (len : Nat)
  | headerEnd
  | badUtf8 (at_ : Nat)
deriving DecidableEq, Repr

/-- The row of R175 a first byte selects: the inclusive ranges of its continuation bytes; `none` where the byte is
no first byte. -/
def utf8Row (b : Byte) : Option (List (Nat × Nat)) :=
  let n := b.toNat
  if n ≤ 0x7F then some []
  else if n ≤ 0xC1 then none
  else if n ≤ 0xDF then some [(0x80, 0xBF)]
  else if n = 0xE0 then some [(0xA0, 0xBF), (0x80, 0xBF)]
  else if n = 0xED then some [(0x80, 0x9F), (0x80, 0xBF)]
  else if n ≤ 0xEF then some [(0x80, 0xBF), (0x80, 0xBF)]
  else if n = 0xF0 then some [(0x90, 0xBF), (0x80, 0xBF), (0x80, 0xBF)]
  else if n ≤ 0xF3 then some [(0x80, 0xBF), (0x80, 0xBF), (0x80, 0xBF)]
  else if n = 0xF4 then some [(0x80, 0x8F), (0x80, 0xBF), (0x80, 0xBF)]
  else none

/-- The payload bits of a first byte with `k` continuation bytes, inverting R174. -/
def leadBits (k : Nat) (b : Byte) : Sym :=
  match k with
  | 0 => b.zeroExtend 21
  | 1 => (b.extractLsb' 0 5).zeroExtend 21
  | 2 => (b.extractLsb' 0 4).zeroExtend 21
  | _ => (b.extractLsb' 0 3).zeroExtend 21

/-- The continuation bytes, checked one after another against their ranges: `at_` is the next byte's distance from
the first byte, `acc` the bits gathered so far. -/
def readCont : List (Nat × Nat) → ByteSeq → Nat → Sym → SymRead
  | [], _, at_, acc => .sym acc at_
  | _ :: _, [], _, _ => .headerEnd
  | (lo, hi) :: rows, b :: rest, at_, acc =>
      if lo ≤ b.toNat ∧ b.toNat ≤ hi then
        readCont rows rest (at_ + 1) ((acc <<< 6) ||| (b.extractLsb' 0 6).zeroExtend 21)
      else .badUtf8 at_

/-- `read_sym` on the header bytes from a position on. -/
def readSym (c : Config) (bytes : ByteSeq) : SymRead :=
  match bytes with
  | [] => .headerEnd
  | b :: rest =>
      match c.codec with
      | .byte => .sym (b.zeroExtend 21) 1
      | .utf8 =>
          match utf8Row b with
          | none => .badUtf8 0
          | some rows => readCont rows rest 1 (leadBits rows.length b)

end Sys2Proof.Machine
end

