-- ==== Sys2Proof/Machine/Flags.lean ====
section
/-! DEFINITION. The codes and flags of HUFFCORE: phase, tree and cause codes, the STATUS word and its computed fields
(spec/10_state.md R34), the constant registers, `irq` (spec/60_exceptions.md R530), and the table of legal phases
(spec/46_control.md R455). -/

namespace Sys2Proof.Machine

/-- The 4-bit value of `phase` (R55). -/
def Phase.code : Phase → BitVec 4
  | .idle => 0#4
  | .eCount => 1#4
  | .eEmit => 2#4
  | .eDone => 3#4
  | .dLen0 => 4#4
  | .dLen1 => 5#4
  | .dHdr => 6#4
  | .dPay => 7#4
  | .dDone => 8#4

/-- The value of `tstate` (R59). -/
def TState.code : TState → BitVec 2
  | .noTree => 0#2
  | .absent => 1#2
  | .present => 2#2

/-- The cause codes (spec/60_exceptions.md R501). -/
def Cause.code : Cause → BitVec 8
  | .illegalCommand => 0x01#8
  | .sequence => 0x02#8
  | .noTree => 0x03#8
  | .unknownSymbol => 0x10#8
  | .malformedTree => 0x11#8
  | .headerTruncated => 0x12#8
  | .payloadTruncated => 0x13#8
  | .badMarker => 0x14#8
  | .truncatedCode => 0x15#8
  | .invalidCode => 0x16#8
  | .noTreePayload => 0x17#8
  | .headerTooLong => 0x18#8
  | .tableFull => 0x20#8
  | .freqOverflow => 0x21#8
  | .bpOverflow => 0x22#8
  | .bpSealed => 0x23#8

/-! ### Legality by phase (spec/46_control.md R455) -/

/-- Q, the quiescent set {IDLE, E_DONE, D_DONE}. -/
def Phase.quiescent : Phase → Bool
  | .idle => true
  | .eDone => true
  | .dDone => true
  | .eCount => false
  | .eEmit => false
  | .dLen0 => false
  | .dLen1 => false
  | .dHdr => false
  | .dPay => false

/-- The phases of a decode session that is not finished: {D_LEN0, D_LEN1, D_HDR, D_PAY}. -/
def Phase.decoding : Phase → Bool
  | .dLen0 => true
  | .dLen1 => true
  | .dHdr => true
  | .dPay => true
  | .idle => false
  | .eCount => false
  | .eEmit => false
  | .eDone => false
  | .dDone => false

/-- `LEGAL(name)`: the phases in which a command may run. -/
def legal (i : Instr) (p : Phase) : Bool :=
  match i with
  | .nop => true
  | .abort => true
  | .ftRead _ => true
  | .ctRead _ => true
  | .nodeRead _ => true
  | .treeInfo => true
  | .bpSize => true
  | .bpTvb => true
  | .encBegin => true
  | .decBegin => true
  | .ftCount _ => p.quiescent || p == .eCount
  | .ftClear => p.quiescent
  | .tbBuild => p.quiescent
  | .tsSerialize => p.quiescent
  | .tsDeserialize => p.quiescent
  | .bpClear => p.quiescent
  | .bpAppendBit _ => p.quiescent
  | .bpAppendBits _ _ => p.quiescent
  | .bpDrainReady => p.quiescent
  | .bpDrainAll => p.quiescent
  | .encHeader => p == .eCount
  | .encSym _ => p == .eEmit
  | .encFinish => p == .eEmit
  | .decChunk _ => p.decoding
  | .decEnd => p.decoding

/-! ### The STATUS register (spec/10_state.md R34) -/

/-- The next operation pops IN: the position is at a `pop_in()`. -/
def Micro.atPop : Micro → Bool
  | .chunk n => n != 0
  | .hdrLo => true
  | .hdrHi _ => true
  | .hdrBody n => n != 0
  | .push _ => false
  | .keepPartial => false
  | .sealPacker => false
  | .setPhase _ => false
  | .countSym => false
  | .curToRoot => false
  | .walk _ _ => false
  | .decTail => false

/-- The next operation pushes OUT: the position is at a `push_out()`. -/
def Micro.atPush : Micro → Bool
  | .push bytes => bytes != []
  | .chunk _ => false
  | .hdrLo => false
  | .hdrHi _ => false
  | .hdrBody _ => false
  | .keepPartial => false
  | .sealPacker => false
  | .setPhase _ => false
  | .countSym => false
  | .curToRoot => false
  | .walk _ _ => false
  | .decTail => false

namespace State

/-- IN_FULL: IN holds `IN_DEPTH` bytes. -/
def inFull (s : State) : Bool := s.inFifo.length == s.cfg.inDepth

/-- OUT_EMPTY: OUT holds 0 bytes. -/
def outEmpty (s : State) : Bool := s.outFifo == []

/-- OUT has room for a byte (spec/00_scope.md R16). -/
def outRoom (s : State) : Bool := decide (s.outFifo.length < s.cfg.outDepth)

/-- WAIT_IN: the in-flight command is at a `pop_in()` with IN empty. -/
def waitIn (s : State) : Bool := s.busy && s.inFifo == [] && (s.todo.head?.map Micro.atPop).getD false

/-- WAIT_OUT: the in-flight command is at a `push_out()` with OUT full. -/
def waitOut (s : State) : Bool := s.busy && !s.outRoom && (s.todo.head?.map Micro.atPush).getD false

/-- PEND: `len(pend)`. -/
def pendCount (s : State) : BitVec 2 := BitVec.ofNat 2 s.pend.length

/-- The STATUS word, its fields from bit 31 down to bit 0. -/
def status (s : State) : Word :=
  0#11 ++ BitVec.ofBool s.sealed ++ s.pendCount ++ s.tstate.code ++ s.phase.code ++ 0#3 ++
    BitVec.ofBool s.waitOut ++ BitVec.ofBool s.waitIn ++ BitVec.ofBool s.outEmpty ++ BitVec.ofBool s.inFull ++
    BitVec.ofBool s.inOvr ++ BitVec.ofBool s.cmdOvr ++ BitVec.ofBool s.done ++ BitVec.ofBool s.err ++
    BitVec.ofBool s.busy

/-! ### The other computed registers -/

/-- PARAM (R32): CODEC in bit 0, `MAX_SYMS - 1` in bits [31:16]. -/
def param (s : State) : Word :=
  BitVec.ofNat 16 (s.cfg.maxSyms - 1) ++ 0#15 ++ BitVec.ofBool (s.cfg.codec == .utf8)

/-- LEVELS (R45). -/
def levels (s : State) : Word := BitVec.ofNat 16 s.outFifo.length ++ BitVec.ofNat 16 s.inFifo.length

/-- FIFO_DEPTH (R49). -/
def fifoDepth (s : State) : Word := BitVec.ofNat 16 s.cfg.outDepth ++ BitVec.ofNat 16 s.cfg.inDepth

/-- IRQ_EN (R46). -/
def irqEn (s : State) : Word := 0#30 ++ BitVec.ofBool s.errIe ++ BitVec.ofBool s.doneIe

/-- `irq`, the level output (spec/60_exceptions.md R530). -/
def irq (s : State) : Bool := (s.done && s.doneIe) || (s.err && s.errIe)

/-- `nsym`, the number of keys of FT (R58; log entry 7). -/
def nsym (s : State) : Nat := s.ft.length

/-- `ncount`, the number of valid nodes (R59; log entry 7). -/
def ncount (s : State) : Nat := s.nodes.length

end State
end Sys2Proof.Machine
end

