-- ==== Sys2Proof/Machine/Ops.lean ====
section
/-! DEFINITION. The named operations over HUFFCORE's state that its commands share: the sparse memories FT and CT,
node memory, the FIFO primitives with their blocking points (spec/00_scope.md R16), error entry
(spec/60_exceptions.md R520) and the way out of it, the session clear (spec/44_stream_encoder.md R350), reset
(spec/70_reset_and_hazards.md R550), and how a command ends (spec/46_control.md R451). -/

namespace Sys2Proof.Machine

/-! ### Sparse memories: maps from symbols in canonical form (R58, R60) -/

/-- Read a symbol's value. -/
def symLookup {α : Type} (m : SymMap α) (s : Sym) : Option α :=
  match m with
  | [] => none
  | (k, v) :: rest => if k = s then some v else symLookup rest s

/-- Write a symbol's value, keeping the symbols strictly ascending. -/
def symInsert {α : Type} (m : SymMap α) (s : Sym) (v : α) : SymMap α :=
  match m with
  | [] => [(s, v)]
  | (k, w) :: rest =>
      if s.toNat < k.toNat then (s, v) :: (k, w) :: rest
      else if k = s then (s, v) :: rest
      else (k, w) :: symInsert rest s v

/-- The symbols are strictly ascending. -/
def symAscending {α : Type} : SymMap α → Bool
  | [] => true
  | [_] => true
  | (k, _) :: (k', v') :: rest => decide (k.toNat < k'.toNat) && symAscending ((k', v') :: rest)

/-- FT in canonical form: symbols strictly ascending, and no count 0, which is what an unlisted symbol reads as (R58). -/
def ftWf (m : SymMap Word) : Bool := symAscending m && m.all fun e => e.2 != 0#32

/-- The canonical form of the sparse memories of a state. -/
def Memory.wf (s : State) : Bool := ftWf s.ft && symAscending s.ct

/-- `FT[s]`: a symbol that is not a key reads as count 0 (R58). -/
def State.ftRead (s : State) (sym : Sym) : Word := (symLookup s.ft sym).getD 0#32

/-- `CT[s]`: `none` is the invalid entry (R60). -/
def State.ctRead (s : State) (sym : Sym) : Option CtEntry := symLookup s.ct sym

/-! ### Node memory (R59) -/

/-- `NODE[i]` of a list of valid nodes; above it a free value (log entry 6). -/
def nodeAt (nodes : List Node) (i : NodeIdx) : Node := (nodes[i.toNat]?).getD (Config.freeNode i.toNat)

/-- `NODE[i]` of a state. -/
def State.node (s : State) (i : NodeIdx) : Node := nodeAt s.nodes i

/-- `NODE[i].left` for bit 0, `NODE[i].right` for bit 1; a LEAF has neither, and reads a free value (log entry 6). -/
def childOf (n : Node) (i : NodeIdx) (bit : Bool) : NodeIdx :=
  match n.body with
  | .internal l r => if bit then r else l
  | .leaf _ => Config.freeChild i.toNat

/-! ### Error entry (spec/60_exceptions.md R520) -/

/-- `error_entry(cause, info)`. DONE stays as it is: acceptance cleared it. The position is dropped with the command. -/
def errorEntry (cause : Cause) (info : Word) (s : State) : State :=
  { s with err := true, errCause := cause.code, errInfo := info, errCmd := s.cmdWord, busy := false, todo := [] }

/-! ### How far a command has come -/

/-- What running (a part of) a command's pseudocode answers. -/
inductive Flow where
  /-- it ran to its end -/
  | done (s : State)
  /-- it stopped at a blocking point, with this much left to do -/
  | wait (s : State) (rest : List Micro)
  /-- it raised an error; error entry has been performed -/
  | raised (s : State)
deriving DecidableEq, Repr

/-- `raise CAUSE(info)` (spec/00_scope.md R17). -/
def raise (cause : Cause) (info : Word) (s : State) : Flow := .raised (errorEntry cause info s)

/-- Go on with `k` when `f` ran to its end; `rest` is what `k` runs, left to do where `f` stopped. -/
def Flow.andThen (f : Flow) (k : State → Flow) (rest : List Micro) : Flow :=
  match f with
  | .done s => k s
  | .wait s r => .wait s (r ++ rest)
  | .raised s => .raised s

/-- Completion (spec/46_control.md R451): `busy <- 0; DONE <- 1`. -/
def complete (s : State) : State := { s with busy := false, done := true, todo := [] }

/-- The state a step leaves: completion, a wait with its position latched (R56), or the error state. -/
def finish : Flow → State
  | .done s => complete s
  | .wait s rest => { s with todo := rest }
  | .raised s => s

/-- `execute` after decoding (spec/46_control.md R453): the phase check, the command's pseudocode, completion. -/
def execute (i : Instr) (s : State) (body : State → Flow) : Host.Outcome State Fault Refusal :=
  .next (finish (if legal i s.phase then body s else raise .sequence (s.phase.code.zeroExtend 32) s))

/-- `result(r0, r1, r2)` (spec/00_scope.md R17). -/
def result (r0 r1 r2 : Word) (s : State) : State := { s with result0 := r0, result1 := r1, result2 := r2 }

/-! ### FIFO primitives (spec/00_scope.md R16) -/

/-- The core may pass a blocking point in this step (log entry 2). -/
def State.mayPass (s : State) : Bool := s.credit != some 0

/-- One blocking point passed. -/
def State.spend (s : State) : State := { s with credit := s.credit.map (· - 1) }

/-- `pop_in()`: the oldest byte of IN, or nothing while the core must wait. -/
def popIn (s : State) : Option (Byte × State) :=
  if s.mayPass then
    match s.inFifo with
    | [] => none
    | b :: rest => some (b, { s.spend with inFifo := rest })
  else none

/-- The state after `push_out(b)`, where the core need not wait. -/
def pushed (b : Byte) (s : State) : State :=
  { s.spend with outFifo := s.outFifo ++ [b], statBytes := s.statBytes + 1#32 }

/-- `push_out(b)` for each byte in order. -/
def pushAll : ByteSeq → State → Flow
  | [], s => .done s
  | b :: bs, s => if s.mayPass && s.outRoom then pushAll bs (pushed b s) else .wait s [.push (b :: bs)]

/-! ### Clearing (R350, R550) -/

/-- `ft_clear()` (spec/41_tree_builder.md R201). -/
def ftClear (s : State) : State := { s with ft := [], total := 0#32 }

/-- `tstate := NONE; ncount := 0; root := 0; CT := all invalid`. -/
def treeClear (s : State) : State := { s with tstate := .noTree, nodes := [], root := 0#16, ct := [] }

/-- `bp_clear()` (spec/43_bit_packer.md R302). -/
def bpClear (s : State) : State := { s with bp := [], tvb := 0#4, sealed := false }

/-- `clear_session()` (spec/44_stream_encoder.md R350): the phase, then what `ft_clear()`, the tree clear, `bp_clear()`
and the decoder clear write, then the statistics. -/
def clearSession (s : State) : State :=
  { s with phase := .idle,
           ft := [], total := 0#32,
           tstate := .noTree, nodes := [], root := 0#16, ct := [],
           bp := [], tvb := 0#4, sealed := false,
           hlen := 0#16, hbuf := [], dpos := 0#32, pend := [], cur := 0#16,
           statSyms := 0#32, statBytes := 0#32 }

/-- The way out of the error state (spec/46_control.md R461, spec/60_exceptions.md R523): what ABORT clears before
`clear_session()`. -/
def errorClear (s : State) : State :=
  { s with err := false, errCause := 0#8, errInfo := 0#32, errCmd := 0#32, cmdOvr := false, inOvr := false,
           inFifo := [], outFifo := [] }

/-- What ABORT does before it completes (R461). -/
def abortClear (s : State) : State := clearSession (errorClear s)

/-- `hardware_reset()` (spec/70_reset_and_hazards.md R550); soft reset is the same (R551). The parameters are no state
(R554), and the host's side of the interface is not the core's. The latch fields are unspecified (log entry 4). -/
def hardwareReset (s : State) : State :=
  { State.resetWith s.cfg with script := s.script, credit := s.credit, reads := s.reads }

end Sys2Proof.Machine
end

