-- ==== Sys2Proof/Machine/Packer.lean ====
section
/-! DEFINITION. The operations of the bit packer (spec/43_bit_packer.md R300 to R308). The drains wait at each push, so
they are given as what they have to do, from the packer's bits at their start; nothing but the drain itself changes
those bits while it waits. -/

namespace Sys2Proof.Machine

/-- One bit's update of `tvb` (R301). -/
def tvbNext (t : BitVec 4) : BitVec 4 := if t = 8#4 then 1#4 else t + 1#4

/-- `tvb` after so many appended bits (R301). -/
def tvbAfter (t : BitVec 4) : Nat → BitVec 4
  | 0 => t
  | n + 1 => tvbAfter (tvbNext t) n

/-- `append_bits(seq)` (R303): all or nothing. -/
def appendBits (seq : BitSeq) (s : State) : Flow :=
  if s.sealed then raise .bpSealed 0#32 s
  else if s.cfg.bpCapBits < s.bp.length + seq.length then raise .bpOverflow (BitVec.ofNat 32 s.bp.length) s
  else .done { s with bp := s.bp ++ seq, tvb := tvbAfter s.tvb seq.length }

/-- `drain_ready()` (R305). -/
def drainReady (s : State) : List Micro := [.push (fullBytes s.bp), .keepPartial]

/-- `drain_all()` (R306). -/
def drainAll (s : State) : List Micro := drainReady s ++ [.push (paddedByte (partialBits s.bp)), .sealPacker]

end Sys2Proof.Machine
end

