-- ==== Sys2Proof/Machine/Build.lean ====
section
/-! DEFINITION. The functions of the tree builder (spec/41_tree_builder.md R201 to R208): counting, the greedy merge
and the code assignment. -/

namespace Sys2Proof.Machine

/-! ### The frequency table (R202) -/

/-- `ft_count(s)`. -/
def ftCount (sym : Sym) (s : State) : Flow :=
  if s.total = 0xFFFFFFFF#32 then raise .freqOverflow (sym.zeroExtend 32) s
  else if s.ftRead sym = 0#32 ∧ s.nsym = s.cfg.maxSyms then raise .tableFull (sym.zeroExtend 32) s
  else .done { s with ft := symInsert s.ft sym (s.ftRead sym + 1#32), total := s.total + 1#32 }

/-! ### The greedy merge (R203 to R205) -/

/-- A member of the working collection: a node's frequency and index, its ordering key (R204). -/
structure Key where
  freq : Word
  idx  : NodeIdx
deriving DecidableEq, Repr

/-- The lexicographic order of keys (R204). -/
def Key.lt (a b : Key) : Bool :=
  decide (a.freq.toNat < b.freq.toNat) || (a.freq == b.freq && decide (a.idx.toNat < b.idx.toNat))

/-- The smaller of two keys. -/
def Key.min (a b : Key) : Key := if b.lt a then b else a

/-- The element of W with the smallest key, and W without it. -/
def popMin (w : List Key) : Option (Key × List Key) :=
  match w with
  | [] => none
  | k :: rest =>
      let m := rest.foldl Key.min k
      some (m, (k :: rest).erase m)

/-- One leaf per key of FT, in ascending order of symbol (R203). -/
def leavesOf (ft : SymMap Word) : List Node := ft.map fun e => { freq := e.2, body := .leaf e.1, code := [] }

/-- The working collection of these nodes: `{0, 1, ..., N-1}` with their keys. -/
def keysOf (nodes : List Node) : List Key :=
  nodes.mapIdx fun i n => { freq := n.freq, idx := BitVec.ofNat 16 i }

/-- `while |W| >= 2` of R205: merge the two smallest, `a` to the left and `b` to the right, until one node remains;
that one is the root. `fuel` bounds the number of rounds: each takes one element from W, so `|W|` rounds are enough. -/
def mergeLoop : Nat → List Key → List Node → NodeIdx × List Node
  | 0, _, nodes => (0#16, nodes)
  | fuel + 1, w, nodes =>
      match popMin w with
      | none => (0#16, nodes)
      | some (a, w1) =>
          match popMin w1 with
          | none => (a.idx, nodes)
          | some (b, w2) =>
              let f := a.freq + b.freq
              mergeLoop fuel (w2 ++ [{ freq := f, idx := BitVec.ofNat 16 nodes.length }])
                (nodes ++ [{ freq := f, body := .internal a.idx b.idx, code := [] }])

/-! ### Code assignment (R207, R208) -/

/-- `NODE[i].code := code`. -/
def setCode (nodes : List Node) (i : NodeIdx) (code : BitSeq) : List Node :=
  nodes.modify i.toNat fun n => { n with code := code }

/-- The pre-order traversal of R208 from node `i`, whose code is `code`. `fuel` bounds the depth: a tree of `ncount`
nodes has no path longer than `ncount` (log entry 11). -/
def assignFrom : Nat → NodeIdx → BitSeq → List Node × SymMap CtEntry → List Node × SymMap CtEntry
  | 0, _, _, acc => acc
  | fuel + 1, i, code, (nodes, ct) =>
      let nodes' := setCode nodes i code
      let n := nodeAt nodes' i
      match n.body with
      | .leaf sym => (nodes', symInsert ct sym { code := code, freq := n.freq })
      | .internal l r => assignFrom fuel r (code ++ [true]) (assignFrom fuel l (code ++ [false]) (nodes', ct))

/-- `assign_codes()` (R208): a root that is a leaf has the code `[0]`, another root the empty code. -/
def assignCodes (s : State) : State :=
  match s.tstate with
  | .present =>
      let rootCode : BitSeq :=
        match (s.node s.root).body with
        | .leaf _ => [false]
        | .internal _ _ => []
      let r := assignFrom s.ncount s.root rootCode (s.nodes, [])
      { s with nodes := r.1, ct := r.2 }
  | .noTree => { s with ct := [] }
  | .absent => { s with ct := [] }

/-- `build()` (R205). -/
def build (s : State) : State :=
  let s0 := treeClear s
  match s.ft with
  | [] => { s0 with tstate := .absent }
  | e :: rest =>
      let leaves := leavesOf (e :: rest)
      let r := mergeLoop leaves.length (keysOf leaves) leaves
      assignCodes { s0 with nodes := r.2, root := r.1, tstate := .present }

end Sys2Proof.Machine
end

