-- ==== Sys2Proof/Machine/Header.lean ====
section
/-! DEFINITION. The serializer and the deserializer of the tree (spec/42_tree_serializer.md R250 to R258). -/

namespace Sys2Proof.Machine

/-- The marker bytes `#`, `1` and `0` (spec/30_encoding.md R172). -/
def markAbsent : Byte := 0x23#8
def markLeaf : Byte := 0x31#8
def markInternal : Byte := 0x30#8

/-! ### Serializer (R250 to R253) -/

/-- `visit(i)` of R250, in pre-order. `fuel` bounds the depth (log entry 11). -/
def visit (c : Config) (nodes : List Node) : Nat → NodeIdx → ByteSeq
  | 0, _ => []
  | fuel + 1, i =>
      match (nodeAt nodes i).body with
      | .leaf sym => markLeaf :: symText c sym
      | .internal l r => markInternal :: (visit c nodes fuel l ++ visit c nodes fuel r)

/-- `serialize()` (R250), for `tstate != NONE`. -/
def serialize (s : State) : ByteSeq :=
  match s.tstate with
  | .absent => [markAbsent]
  | .noTree => [markAbsent]
  | .present => visit s.cfg s.nodes s.ncount s.root

/-- The bytes `emit_header()` pushes for a header: its length, little-endian, and the header (R253). -/
def lengthPrefixed (h : ByteSeq) : ByteSeq :=
  BitVec.ofNat 8 (h.length % 256) :: BitVec.ofNat 8 (h.length / 256) :: h

/-- `emit_header()` (R253). -/
def emitHeader (s : State) : Flow :=
  let h := serialize s
  if Config.hdrMax < h.length then raise .headerTooLong (BitVec.ofNat 32 h.length) s
  else pushAll (lengthPrefixed h) s

/-! ### Deserializer (R254 to R257) -/

/-- The MALFORMED subcodes (R255). -/
inductive Malformed where
  | headerEnd
  | badChar
  | absentSub
  | trailing
  | dup
  | badUtf8
  | tooMany
deriving DecidableEq, Repr

/-- The number of a subcode (R255). -/
def Malformed.code : Malformed → Nat
  | .headerEnd => 1
  | .badChar => 2
  | .absentSub => 3
  | .trailing => 4
  | .dup => 5
  | .badUtf8 => 6
  | .tooMany => 7

/-- The info word of MALFORMED_TREE: `(sub << 16) | pos` (R254). -/
def malformedInfo (sub : Malformed) (pos : Nat) : Word :=
  ((BitVec.ofNat 32 sub.code) <<< 16) ||| BitVec.ofNat 32 pos

/-- What `deserialize` returns (R254). -/
inductive Parsed where
  | absent
  | present (nodes : List Node)
  | malformed (sub : Malformed) (pos : Nat)
deriving DecidableEq, Repr

/-- An entry `(p, filled)` of the parser's stack: an internal node and how many of its children are attached. -/
structure OpenNode where
  idx    : Nat
  filled : Nat
deriving DecidableEq, Repr

/-- `if filled = 0 then nodes[p].left := i else nodes[p].right := i`. -/
def setChild (nodes : List Node) (p : OpenNode) (i : Nat) : List Node :=
  nodes.modify p.idx fun n =>
    match n.body with
    | .leaf _ => n
    | .internal l r =>
        if p.filled = 0 then { n with body := .internal (BitVec.ofNat 16 i) r }
        else { n with body := .internal l (BitVec.ofNat 16 i) }

/-- One round of R256 after its marker is read: the node gets the next index, is attached to the innermost open
internal node (the first node, with an empty stack, to none), opens the stack if it is internal, and every node whose
two children are attached is popped. -/
def placeNode (nodes : List Node) (stack : List OpenNode) (body : NodeBody) (opens : Bool) :
    List Node × List OpenNode :=
  let i := nodes.length
  let nodes1 := nodes ++ [{ freq := 0#32, body := body, code := [] }]
  let attached :=
    match stack with
    | [] => (nodes1, [])
    | p :: rest => (setChild nodes1 p i, { p with filled := p.filled + 1 } :: rest)
  let stack2 := if opens then { idx := i, filled := 0 } :: attached.2 else attached.2
  (attached.1, stack2.dropWhile fun p => p.filled == 2)

/-- The loop of R256 at position `pos`, with `bytes` the header bytes from there on and `len` the header's length.
`fuel` bounds the number of markers read: each is at least one byte, so `bytes.length` are enough, and no fuel means
that the header has ended. An internal node leaves the stack non-empty, so only a leaf completes the tree. -/
def parseLoop (c : Config) (len : Nat) :
    Nat → ByteSeq → Nat → List Node → List OpenNode → List Sym → Parsed
  | 0, _, _, _, _, _ => .malformed .headerEnd len
  | fuel + 1, bytes, pos, nodes, stack, seen =>
      match bytes with
      | [] => .malformed .headerEnd len
      | m :: rest =>
          if m = markAbsent then .malformed .absentSub pos
          else if m ≠ markInternal ∧ m ≠ markLeaf then .malformed .badChar pos
          else if nodes.length = c.nodeCap then .malformed .tooMany pos
          else if m = markLeaf then
            match readSym c rest with
            | .headerEnd => .malformed .headerEnd len
            | .badUtf8 k => .malformed .badUtf8 (pos + 1 + k)
            | .sym sym k =>
                if sym ∈ seen then .malformed .dup pos
                else
                  let placed := placeNode nodes stack (.leaf sym) false
                  if placed.2 = [] then
                    if rest.drop k = [] then .present placed.1 else .malformed .trailing (pos + 1 + k)
                  else parseLoop c len fuel (rest.drop k) (pos + 1 + k) placed.1 placed.2 (sym :: seen)
          else
            let placed := placeNode nodes stack (.internal 0#16 0#16) true
            parseLoop c len fuel rest (pos + 1) placed.1 placed.2 seen

/-- `deserialize(h)` (R256). -/
def deserialize (c : Config) (h : ByteSeq) : Parsed :=
  match h with
  | [] => .malformed .headerEnd 0
  | b :: rest =>
      if b = markAbsent then
        match rest with
        | [] => .absent
        | _ :: _ => .malformed .trailing 1
      else parseLoop c h.length h.length h 0 [] [] []

/-- `load_tree(h)` (R258). -/
def loadTree (h : ByteSeq) (s : State) : Flow :=
  let s0 := treeClear s
  match deserialize s.cfg h with
  | .malformed sub pos => raise .malformedTree (malformedInfo sub pos) s0
  | .absent => .done (assignCodes { s0 with tstate := .absent })
  | .present nodes => .done (assignCodes { s0 with nodes := nodes, root := 0#16, tstate := .present })

end Sys2Proof.Machine
end

