-- ==== Sys2Proof/Machine/Walk.lean ====
section
/-! DEFINITION. The functions of the stream decoder (spec/45_stream_decoder.md R401 to R409): the byte feed with its
two pending bytes, the tree walk, and the end of input. -/

namespace Sys2Proof.Machine

/-! ### Tree walk (R405 to R408) -/

/-- The end of `emit`: `stat_syms := (stat_syms + 1) mod 2^32`. -/
def countSym (s : State) : State := { s with statSyms := s.statSyms + 1#32 }

/-- `cur := root`. -/
def curToRoot (s : State) : State := { s with cur := s.root }

/-- `emit(s)` (R408). -/
def emit (sym : Sym) (s : State) : Flow :=
  (pushAll (symText s.cfg sym) s).andThen (fun s => .done (countSym s)) [.countSym]

/-- `walk_bit(bit, o)` for each bit in order: R407 where the root is a LEAF, R406 where it is INTERNAL. -/
def walkBits : BitSeq → Word → State → Flow
  | [], _, s => .done s
  | bit :: bits, off, s =>
      match (s.node s.root).body with
      | .leaf sym =>
          if bit then raise .invalidCode off s
          else (emit sym s).andThen (walkBits bits off) [.walk bits off]
      | .internal _ _ =>
          let s1 := { s with cur := childOf (s.node s.cur) s.cur bit }
          match (s1.node s1.cur).body with
          | .internal _ _ => walkBits bits off s1
          | .leaf sym =>
              (emit sym s1).andThen (fun s2 => walkBits bits off (curToRoot s2)) [.curToRoot, .walk bits off]

/-- `confirm(p, o)` (R405). -/
def confirm (p : Byte) (off : Word) (s : State) : Flow :=
  match s.tstate with
  | .present => walkBits (bitsOfByte p) off s
  | .noTree => raise .noTreePayload off s
  | .absent => raise .noTreePayload off s

/-! ### Byte feed (R401, R402) -/

/-- `header_done()` (R402). -/
def headerDone (s : State) : Flow :=
  (loadTree s.hbuf s).andThen (fun s => .done { curToRoot s with phase := .dPay }) []

/-- `feed(b)` (R401). It is called in the four phases its `case` names only (log entry 12). -/
def feed (b : Byte) (s : State) : Flow :=
  let off := s.dpos
  let s1 := { s with dpos := s.dpos + 1#32 }
  match s.phase with
  | .dLen0 => .done { s1 with hlen := b.zeroExtend 16, phase := .dLen1 }
  | .dLen1 =>
      let s2 := { s1 with hlen := s1.hlen + (b.zeroExtend 16 <<< 8) }
      if s2.hlen = 0#16 then headerDone s2 else .done { s2 with phase := .dHdr }
  | .dHdr =>
      let s2 := { s1 with hbuf := s1.hbuf ++ [b] }
      if s2.hbuf.length = s2.hlen.toNat then headerDone s2 else .done s2
  | .dPay =>
      match s1.pend with
      | p0 :: p1 :: _ => confirm p0.1 p0.2 { s1 with pend := [p1, (b, off)] }
      | [p0] => .done { s1 with pend := [p0, (b, off)] }
      | [] => .done { s1 with pend := [(b, off)] }
  | .idle => .done s1
  | .eCount => .done s1
  | .eEmit => .done s1
  | .eDone => .done s1
  | .dDone => .done s1

/-- `repeat n times: feed(pop_in())` (R431). -/
def chunkLoop : Nat → State → Flow
  | 0, s => .done s
  | n + 1, s =>
      match popIn s with
      | none => .wait s [.chunk (n + 1)]
      | some (b, s1) => (feed b s1).andThen (chunkLoop n) [.chunk n]

/-! ### End of input (R409) -/

/-- The end of `dec_end`: `if cur != root then raise TRUNCATED_CODE(cur); phase := D_DONE`. -/
def decTail (s : State) : Flow :=
  if s.cur ≠ s.root then raise .truncatedCode (s.cur.zeroExtend 32) s else .done { s with phase := .dDone }

/-- `dec_end()` with an ABSENT tree (R412). -/
def decEndAbsent (s : State) : Flow :=
  match s.pend with
  | [] => raise .payloadTruncated 0#32 s
  | [(b, _)] => if b ≠ 0#8 then raise .badMarker (b.zeroExtend 32) s else .done { s with phase := .dDone }
  | (_, off) :: _ :: _ => raise .noTreePayload off s

/-- `dec_end()` with a tree (R409, R410, R413): the final byte gives its `v` most significant bits. -/
def decEndPresent (s : State) : Flow :=
  match s.pend with
  | [] => raise .payloadTruncated 0#32 s
  | [_] => raise .payloadTruncated 1#32 s
  | (p, off) :: (v, _) :: _ =>
      if v.toNat < 1 ∨ 8 < v.toNat then raise .badMarker (v.zeroExtend 32) s
      else (walkBits ((bitsOfByte p).take v.toNat) off s).andThen decTail [.decTail]

/-- `dec_end()` (R409). -/
def decEnd (s : State) : Flow :=
  match s.phase with
  | .dLen0 => raise .headerTruncated s.dpos s
  | .dLen1 => raise .headerTruncated s.dpos s
  | .dHdr => raise .headerTruncated s.dpos s
  | .dPay | .idle | .eCount | .eEmit | .eDone | .dDone =>
      match s.tstate with
      | .absent => decEndAbsent s
      | .noTree => decEndPresent s
      | .present => decEndPresent s

end Sys2Proof.Machine
end

