-- ==== Sys2Proof/Machine/Resume.lean ====
section
/-! DEFINITION. How a command's remaining operations run: the position of spec/10_state.md R56, taken up again where
it stopped (spec/46_control.md R457). -/

namespace Sys2Proof.Machine

/-! ### TS_DESERIALIZE's reads (spec/42_tree_serializer.md R261) -/

/-- `repeat n times: hbuf := hbuf ++ [pop_in()]`, then `load_tree(hbuf)`. -/
def hdrBody : Nat → State → Flow
  | 0, s => loadTree s.hbuf s
  | n + 1, s =>
      match popIn s with
      | none => .wait s [.hdrBody (n + 1)]
      | some (b, s1) => hdrBody n { s1 with hbuf := s1.hbuf ++ [b] }

/-- `hi := pop_in(); L := lo + 256*hi; hbuf := []`, then the header bytes. -/
def hdrHi (lo : Byte) (s : State) : Flow :=
  match popIn s with
  | none => .wait s [.hdrHi lo]
  | some (hi, s1) => hdrBody (lo.toNat + 256 * hi.toNat) { s1 with hbuf := [] }

/-- `lo := pop_in()`, then the rest. -/
def hdrLo (s : State) : Flow :=
  match popIn s with
  | none => .wait s [.hdrLo]
  | some (lo, s1) => hdrHi lo s1

/-- Run one remaining operation. -/
def runMicro : Micro → State → Flow
  | .push bytes, s => pushAll bytes s
  | .keepPartial, s => .done { s with bp := partialBits s.bp }
  | .sealPacker, s => .done { s with bp := [], sealed := true }
  | .setPhase p, s => .done { s with phase := p }
  | .countSym, s => .done (countSym s)
  | .curToRoot, s => .done (curToRoot s)
  | .walk bits off, s => walkBits bits off s
  | .chunk n, s => chunkLoop n s
  | .hdrLo, s => hdrLo s
  | .hdrHi lo, s => hdrHi lo s
  | .hdrBody n, s => hdrBody n s
  | .decTail, s => decTail s

/-- Run the remaining operations in order. -/
def runTodo : List Micro → State → Flow
  | [], s => .done s
  | m :: ms, s => (runMicro m s).andThen (runTodo ms) ms

/-- The core's part of a step in which no command is accepted: the in-flight command goes on from its position. -/
def resume (s : State) : State := if s.busy then finish (runTodo s.todo s) else s

end Sys2Proof.Machine
end

