-- ==== Sys2Proof/Machine/BitPacker.lean ====
section
/-! DEFINITION. The meanings of the bit packer's commands (spec/43_bit_packer.md R310 to R316). -/

namespace Sys2Proof.Machine

/-- BP_CLEAR (R310). -/
def execBpClear (s : State) : Host.Outcome State Fault Refusal := execute .bpClear s fun s => .done (bpClear s)

/-- BP_APPEND_BIT (R311). -/
def execBpAppendBit (bit : Bool) (s : State) : Host.Outcome State Fault Refusal :=
  execute (.bpAppendBit bit) s (appendBits [bit])

/-- BP_APPEND_BITS (R312). -/
def execBpAppendBits (len : BitVec 5) (val : BitVec 16) (s : State) : Host.Outcome State Fault Refusal :=
  execute (.bpAppendBits len val) s (appendBits (valBits len val))

/-- BP_SIZE (R313): `result(len(bp), tvb, sealed)`. -/
def execBpSize (s : State) : Host.Outcome State Fault Refusal :=
  execute .bpSize s fun s =>
    .done (result (BitVec.ofNat 32 s.bp.length) (s.tvb.zeroExtend 32) (bitWord s.sealed) s)

/-- BP_TVB (R314): `result(tvb, len(bp), sealed)`. -/
def execBpTvb (s : State) : Host.Outcome State Fault Refusal :=
  execute .bpTvb s fun s =>
    .done (result (s.tvb.zeroExtend 32) (BitVec.ofNat 32 s.bp.length) (bitWord s.sealed) s)

/-- BP_DRAIN_READY (R315). -/
def execBpDrainReady (s : State) : Host.Outcome State Fault Refusal :=
  execute .bpDrainReady s fun s => runTodo (drainReady s) s

/-- BP_DRAIN_ALL (R316). -/
def execBpDrainAll (s : State) : Host.Outcome State Fault Refusal :=
  execute .bpDrainAll s fun s => runTodo (drainAll s) s

end Sys2Proof.Machine
end

