-- ==== Sys2Proof/Machine/Control.lean ====
section
/-! DEFINITION. The meanings of the control commands (spec/46_control.md R460, R461). -/

namespace Sys2Proof.Machine

/-- NOP (R460): acceptance and completion are its whole effect. -/
def execNop (s : State) : Host.Outcome State Fault Refusal := execute .nop s fun s => .done s

/-- ABORT (R461). -/
def execAbort (s : State) : Host.Outcome State Fault Refusal := execute .abort s fun s => .done (abortClear s)

end Sys2Proof.Machine
end

