-- ==== Sys2Proof/Machine/StreamDecoder.lean ====
section
/-! DEFINITION. The meanings of the stream decoder's commands (spec/45_stream_decoder.md R430 to R432). -/

namespace Sys2Proof.Machine

/-- DEC_BEGIN (R430). -/
def execDecBegin (s : State) : Host.Outcome State Fault Refusal :=
  execute .decBegin s fun s => .done { clearSession s with phase := .dLen0 }

/-- DEC_CHUNK (R431). -/
def execDecChunk (idx : BitVec 16) (s : State) : Host.Outcome State Fault Refusal :=
  execute (.decChunk idx) s (runTodo [.chunk idx.toNat])

/-- DEC_END (R432). -/
def execDecEnd (s : State) : Host.Outcome State Fault Refusal := execute .decEnd s decEnd

end Sys2Proof.Machine
end

