-- ==== Sys2Proof/Machine/StreamEncoder.lean ====
section
/-! DEFINITION. The meanings of the stream encoder's commands (spec/44_stream_encoder.md R360 to R363). -/

namespace Sys2Proof.Machine

/-- ENC_BEGIN (R360). -/
def execEncBegin (s : State) : Host.Outcome State Fault Refusal :=
  execute .encBegin s fun s => .done { clearSession s with phase := .eCount }

/-- ENC_HEADER (R361). -/
def execEncHeader (s : State) : Host.Outcome State Fault Refusal :=
  execute .encHeader s fun s => (emitHeader (build s)).andThen (runTodo [.setPhase .eEmit]) [.setPhase .eEmit]

/-- The periodic flush (R352). -/
def flushIfFull (s : State) : Flow := if s.cfg.flushBits ≤ s.bp.length then runTodo (drainReady s) s else .done s

/-- ENC_SYM (R362). -/
def execEncSym (sym : Sym) (s : State) : Host.Outcome State Fault Refusal :=
  execute (.encSym sym) s fun s =>
    match s.ctRead sym with
    | none => raise .unknownSymbol (sym.zeroExtend 32) s
    | some e => (appendBits e.code s).andThen (fun s => flushIfFull (countSym s)) []

/-- ENC_FINISH (R363): the marker is `tvb` as it was before the drain, which leaves it unchanged. -/
def execEncFinish (s : State) : Host.Outcome State Fault Refusal :=
  execute .encFinish s fun s =>
    runTodo (drainAll s ++ [.push [s.tvb.zeroExtend 8], .setPhase .eDone]) s

end Sys2Proof.Machine
end

