-- ==== Sys2Proof/Machine/TreeBuilder.lean ====
section
/-! DEFINITION. The meanings of the tree builder's commands (spec/41_tree_builder.md R210 to R226). -/

namespace Sys2Proof.Machine

/-- FT_CLEAR (R210). -/
def execFtClear (s : State) : Host.Outcome State Fault Refusal := execute .ftClear s fun s => .done (ftClear s)

/-- FT_COUNT (R211). -/
def execFtCount (sym : Sym) (s : State) : Host.Outcome State Fault Refusal := execute (.ftCount sym) s (ftCount sym)

/-- FT_READ (R212): `result(FT[sym], nsym, total)`. -/
def execFtRead (sym : Sym) (s : State) : Host.Outcome State Fault Refusal :=
  execute (.ftRead sym) s fun s => .done (result (s.ftRead sym) (BitVec.ofNat 32 s.nsym) s.total s)

/-- TB_BUILD (R220). -/
def execTbBuild (s : State) : Host.Outcome State Fault Refusal := execute .tbBuild s fun s => .done (build s)

/-- The three results of CT_READ (R222), for an entry and a word index. -/
def ctResult (e : Option CtEntry) (w : Nat) (s : State) : State :=
  match e with
  | none => result 0#32 0#32 0#32 s
  | some e => result (BitVec.ofNat 32 e.code.length) (codeWord e.code w) e.freq s

/-- CT_READ (R222): the word index is the latched ARG. -/
def execCtRead (sym : Sym) (s : State) : Host.Outcome State Fault Refusal :=
  execute (.ctRead sym) s fun s => .done (ctResult (s.ctRead sym) s.cmdArg.toNat s)

/-- RESULT0 of NODE_READ (R225): the kind (1 LEAF, 2 INTERNAL) and the code length. -/
def nodeKindWord (n : Node) : Word :=
  let kind : Word :=
    match n.body with
    | .leaf _ => 1#32
    | .internal _ _ => 2#32
  kind ||| (BitVec.ofNat 32 n.code.length <<< 16)

/-- RESULT2 of NODE_READ (R225): the symbol, or both children. -/
def nodeBodyWord (n : Node) : Word :=
  match n.body with
  | .leaf sym => sym.zeroExtend 32
  | .internal l r => l.zeroExtend 32 ||| (r.zeroExtend 32 <<< 16)

/-- NODE_READ (R225). -/
def execNodeRead (idx : BitVec 16) (s : State) : Host.Outcome State Fault Refusal :=
  execute (.nodeRead idx) s fun s =>
    if s.ncount ≤ idx.toNat then .done (result 0#32 0#32 0#32 s)
    else .done (result (nodeKindWord (s.node idx)) (s.node idx).freq (nodeBodyWord (s.node idx)) s)

/-- TREE_INFO (R226): `result(tstate, (tstate = PRESENT) ? root : 0, ncount)`. -/
def execTreeInfo (s : State) : Host.Outcome State Fault Refusal :=
  execute .treeInfo s fun s =>
    .done (result (s.tstate.code.zeroExtend 32) (if s.tstate = .present then s.root.zeroExtend 32 else 0#32)
      (BitVec.ofNat 32 s.ncount) s)

end Sys2Proof.Machine
end

