-- ==== Sys2Proof/Machine/TreeSerializer.lean ====
section
/-! DEFINITION. The meanings of the tree serializer's commands (spec/42_tree_serializer.md R260, R261). -/

namespace Sys2Proof.Machine

/-- TS_SERIALIZE (R260). -/
def execTsSerialize (s : State) : Host.Outcome State Fault Refusal :=
  execute .tsSerialize s fun s => if s.tstate = .noTree then raise .noTree 0#32 s else emitHeader s

/-- TS_DESERIALIZE (R261). -/
def execTsDeserialize (s : State) : Host.Outcome State Fault Refusal := execute .tsDeserialize s (runTodo [.hdrLo])

end Sys2Proof.Machine
end

