-- ==== Sys2Proof/Machine/Dispatch.lean ====
section
/-! DEFINITION. One arm per command: its meaning, run on the state its acceptance left (spec/46_control.md R450, R453). -/

namespace Sys2Proof.Machine

def exec (i : Instr) (s : State) : Host.Outcome State Fault Refusal :=
  match i with
  | .ftClear => Sys2Proof.Machine.execFtClear s
  | .ftCount sym => Sys2Proof.Machine.execFtCount sym s
  | .ftRead sym => Sys2Proof.Machine.execFtRead sym s
  | .tbBuild => Sys2Proof.Machine.execTbBuild s
  | .ctRead sym => Sys2Proof.Machine.execCtRead sym s
  | .nodeRead idx => Sys2Proof.Machine.execNodeRead idx s
  | .treeInfo => Sys2Proof.Machine.execTreeInfo s
  | .tsSerialize => Sys2Proof.Machine.execTsSerialize s
  | .tsDeserialize => Sys2Proof.Machine.execTsDeserialize s
  | .bpClear => Sys2Proof.Machine.execBpClear s
  | .bpAppendBit bit => Sys2Proof.Machine.execBpAppendBit bit s
  | .bpAppendBits len val => Sys2Proof.Machine.execBpAppendBits len val s
  | .bpSize => Sys2Proof.Machine.execBpSize s
  | .bpTvb => Sys2Proof.Machine.execBpTvb s
  | .bpDrainReady => Sys2Proof.Machine.execBpDrainReady s
  | .bpDrainAll => Sys2Proof.Machine.execBpDrainAll s
  | .encBegin => Sys2Proof.Machine.execEncBegin s
  | .encHeader => Sys2Proof.Machine.execEncHeader s
  | .encSym sym => Sys2Proof.Machine.execEncSym sym s
  | .encFinish => Sys2Proof.Machine.execEncFinish s
  | .decBegin => Sys2Proof.Machine.execDecBegin s
  | .decChunk idx => Sys2Proof.Machine.execDecChunk idx s
  | .decEnd => Sys2Proof.Machine.execDecEnd s
  | .nop => Sys2Proof.Machine.execNop s
  | .abort => Sys2Proof.Machine.execAbort s

end Sys2Proof.Machine
end

