-- ==== Sys2Proof/Machine/Window.lean ====
section
/-! DEFINITION. The host's side of the register window (spec/20_memory.md R101 to R107), command acceptance
(spec/46_control.md R450), and what one host access does. -/

namespace Sys2Proof.Machine

/-- The register an offset names: offset bits [7:2] (R104). -/
def regIndex (off : BitVec 8) : Nat := off.toNat / 4

/-- The value a host read of a register returns (R101, R102); DATA_OUT shows its oldest byte with VALID (R107). -/
def readReg (off : BitVec 8) (s : State) : Word :=
  match regIndex off with
  | 0 => 0x48554631#32
  | 1 => s.param
  | 3 => s.status
  | 5 => s.arg
  | 6 => s.result0
  | 7 => s.result1
  | 8 => s.result2
  | 9 => s.errCause.zeroExtend 32
  | 10 => s.errInfo
  | 11 => s.errCmd
  | 13 =>
      match s.outFifo with
      | [] => 0#32
      | b :: _ => 0x100#32 ||| b.zeroExtend 32
  | 14 => s.levels
  | 15 => s.irqEn
  | 16 => s.statSyms
  | 17 => s.statBytes
  | 18 => s.fifoDepth
  | 19 => BitVec.ofNat 32 s.cfg.flushBits
  | 20 => BitVec.ofNat 32 s.cfg.bpCapBits
  | _ => 0#32

/-- A host read: DATA_OUT pops OUT (R107), no other read has an effect on the core (R105). The model records what the
read returned, and that STATUS was read while no command was in flight (log entry 8). -/
def hostRead (off : BitVec 8) (s : State) : State :=
  { s with
    outFifo := if regIndex off = 13 then s.outFifo.drop 1 else s.outFifo
    reads := s.reads ++ [(off, readReg off s)]
    statusSeen := s.statusSeen || (regIndex off == 3 && !s.busy) }

/-- A host write of DATA_IN (R106). -/
def pushIn (b : Byte) (s : State) : State :=
  if s.inFifo.length < s.cfg.inDepth then { s with inFifo := s.inFifo ++ [b] } else { s with inOvr := true }

/-- A host write of a register other than CMD: CTRL (R33), STATUS (R34), ARG (R36), DATA_IN (R43) and IRQ_EN (R46);
every other write is ignored (R102). -/
def hostWrite (off : BitVec 8) (v : Word) (s : State) : State :=
  match regIndex off with
  | 2 => if v.getLsbD 0 then hardwareReset s else s
  | 3 => if v.getLsbD 2 then { s with done := false } else s
  | 5 => { s with arg := v }
  | 12 => pushIn (v.extractLsb' 0 8) s
  | 15 => { s with doneIe := v.getLsbD 0, errIe := v.getLsbD 1 }
  | _ => s

/-- The one word the error state accepts: ABORT (R521). -/
def abortWord : Word := 0x01000000#32

/-- Acceptance (R450): `busy <- 1; DONE <- 0` and the latch. -/
def accept (w : Word) (s : State) : State :=
  { s with busy := true, done := false, cmdWord := w, cmdArg := s.arg, todo := [], statusSeen := false }

/-- `execute(w)` (R453): decode, then the command's meaning. -/
def executeWord (w : Word) (s : State) : Host.Outcome State Fault Refusal :=
  match decode s.cfg w with
  | .command i => exec i s
  | .illegal e => .next (errorEntry .illegalCommand e.subcode s)

/-- A host write of CMD (R450). -/
def offerCommand (w : Word) (s : State) : Host.Outcome State Fault Refusal :=
  if s.busy then .next (resume { s with cmdOvr := true })
  else if s.err ∧ w ≠ abortWord then .next s
  else executeWord w (accept w s)

/-- One host access, and then the core's run. A reset ends the in-flight command (R550, R551). -/
def hostAccess (a : HostAccess) (s : State) : Host.Outcome State Fault Refusal :=
  match a with
  | .idle => .next (resume s)
  | .rst => .next (hardwareReset s)
  | .read off => .next (resume (hostRead off s))
  | .write off v => if regIndex off = 4 then offerCommand v s else .next (resume (hostWrite off v s))

/-- The state with the host's next program entry taken from the script. -/
def takeStep (h : HostStep) (rest : List HostStep) (s : State) : State := { s with script := rest, credit := h.credit }

/-- The host program entry that writes a command word to CMD (offset 0x10). -/
def cmdStep (w : Word) : HostStep := { access := .write 0x10#8 w, credit := none }

/-- The state in which the next command word written is accepted: no command in flight and no error (log entry 1). -/
def readyForCommand (s : State) : State :=
  { s with busy := false, todo := [], err := false,
           errCause := if s.err then 0#8 else s.errCause
           errInfo := if s.err then 0#32 else s.errInfo
           errCmd := if s.err then 0#32 else s.errCmd }

end Sys2Proof.Machine
end

