-- ==== Sys2Proof/Machine/Step.lean ====
section
/-! DEFINITION. One step of the machine: the host's next access, then the core's run to its next wait or end
(spec/20_memory.md R114, spec/46_control.md R451, R457; log entries 1 and 2). -/

namespace Sys2Proof.Machine

/-- One step. With no access left in the script the host does nothing, and the in-flight command goes on if it can
(log entry 9). -/
def step (s : State) : Host.Outcome State Fault Refusal :=
  match s.script with
  | [] => .next (resume { s with credit := none })
  | h :: rest => hostAccess h.access (takeStep h rest s)

/-- `s` with the word of a table row as the host's next command write, in a state that accepts it (log entry 1). -/
def State.withFetchWord (s : State) (nbits w : Nat) : State :=
  { readyForCommand s with script := cmdStep (tableWord nbits w) :: s.script }

end Sys2Proof.Machine
end

