-- ==== Sys2Proof/Safety.lean ====
section
/-! DEFINITION. What the claims speak of: the invariants of the state, each from its rule of spec/, the end of a run and
its observation (spec/70_reset_and_hazards.md R574), and runs of several steps. -/

namespace Sys2Proof.Machine

/-- DONE and ERR are never both 1 (spec/60_exceptions.md R526); the ERR_ registers hold 0 while ERR = 0
(spec/10_state.md R40 to R42); a command in flight has neither flag (spec/46_control.md R450, R451); no command in
flight, no position. -/
structure FlagsInv (s : State) : Prop where
  notBoth    : ¬(s.done = true ∧ s.err = true)
  errRegs    : s.err = false → s.errCause = 0#8 ∧ s.errInfo = 0#32 ∧ s.errCmd = 0#32
  busyFlags  : s.busy = true → s.err = false ∧ s.done = false
  idleNoTodo : s.busy = false → s.todo = []

/-- A command in flight is stopped at a blocking point (spec/00_scope.md R16, R20; spec/10_state.md R56). -/
def AtBlockingPoint (s : State) : Prop :=
  s.busy = true → ∃ m rest, s.todo = m :: rest ∧ (m.atPop = true ∨ m.atPush = true)

/-- The FIFOs hold at most their depths (spec/10_state.md R63). -/
structure FifoInv (s : State) : Prop where
  inBound  : s.inFifo.length ≤ s.cfg.inDepth
  outBound : s.outFifo.length ≤ s.cfg.outDepth

/-- The sum of the counts of a frequency table. -/
def ftSum (m : SymMap Word) : Nat := (m.map fun e => e.2.toNat).sum

/-- FT (spec/10_state.md R58): canonical, every key a valid symbol, at most MAX_SYMS keys, `total` the sum of the counts. -/
structure FtInv (s : State) : Prop where
  canonical : ftWf s.ft = true
  validKeys : ∀ e ∈ s.ft, s.cfg.validSym e.1 = true
  capacity  : s.nsym ≤ s.cfg.maxSyms
  sum       : s.total.toNat = ftSum s.ft

/-- Where no tree is present there are no nodes and no valid CT entry (spec/10_state.md R59, R60). -/
def NoTreeInv (s : State) : Prop := s.tstate ≠ .present → s.nodes = [] ∧ s.root = 0#16 ∧ s.ct = []

/-- The node a bit sequence leads to from node `i`, left on 0 and right on 1, through INTERNAL nodes only. -/
def descend (nodes : List Node) : NodeIdx → BitSeq → Option NodeIdx
  | i, [] => some i
  | i, b :: bs =>
      match (nodeAt nodes i).body with
      | .internal l r => descend nodes (if b then r else l) bs
      | .leaf _ => none

/-- The code `code` belongs to node `i` by the rule of spec/41_tree_builder.md R207: a root that is a LEAF has `[0]`,
every other node the path that leads to it. -/
def CodeOf (s : State) (code : BitSeq) (i : NodeIdx) : Prop :=
  match (s.node s.root).body with
  | .leaf _ => i = s.root ∧ code = [false]
  | .internal _ _ => descend s.nodes s.root code = some i

/-- CT in canonical form. A symbol's entry is valid exactly when the tree is PRESENT and some valid LEAF has the symbol,
and then has that leaf's code and frequency; a valid code has 1 to MAX_CODE_LEN bits and is not the beginning of another
symbol's (spec/10_state.md R60; spec/41_tree_builder.md R207, R209). -/
structure CtInv (s : State) : Prop where
  canonical  : symAscending s.ct = true
  nonempty   : ∀ sym e, s.ctRead sym = some e → e.code ≠ []
  codeLen    : ∀ sym e, s.ctRead sym = some e → e.code.length ≤ s.cfg.maxCodeLen
  prefixFree : ∀ a b ea eb, a ≠ b → s.ctRead a = some ea → s.ctRead b = some eb → ¬(ea.code <+: eb.code)
  ofLeaf     : ∀ sym e, s.ctRead sym = some e → s.tstate = .present ∧ ∃ i : NodeIdx, i.toNat < s.ncount ∧
                 (s.node i).body = .leaf sym ∧ (s.node i).freq = e.freq ∧ (s.node i).code = e.code ∧ CodeOf s e.code i
  ofEveryLeaf : ∀ (i : NodeIdx) (sym : Sym), s.tstate = .present → i.toNat < s.ncount → (s.node i).body = .leaf sym →
                 s.ctRead sym = some { code := (s.node i).code, freq := (s.node i).freq }

/-- The bit packer (spec/43_bit_packer.md R309, spec/10_state.md R61). -/
structure PackerInv (s : State) : Prop where
  tvbRange  : s.tvb.toNat ≤ 8
  capacity  : s.bp.length ≤ s.cfg.bpCapBits
  unsealed  : s.sealed = false → s.bp.length % 8 = s.tvb.toNat % 8
  sealedOut : s.sealed = true → s.bp = []
  fresh     : s.tvb = 0#4 → s.bp = []

/-- The operations that end a command whose last drain is on its way (spec/43_bit_packer.md R306). -/
def Micro.isDrain : Micro → Bool
  | .push _ => true
  | .keepPartial => true
  | .sealPacker => true
  | .setPhase _ => false
  | .countSym => false
  | .curToRoot => false
  | .walk _ _ => false
  | .chunk _ => false
  | .hdrLo => false
  | .hdrHi _ => false
  | .hdrBody _ => false
  | .decTail => false

/-- The bit packer in an encode session (spec/44_stream_encoder.md R353): empty and unsealed in the first pass; in the
second pass, with no command in flight, unsealed with fewer than FLUSH_BITS bits. The other fields say where a command in
flight leads: ENC_HEADER to E_EMIT, the flush of ENC_SYM to a partial byte, ENC_FINISH to E_DONE, and no other command
changes the phase by an operation left to do. -/
structure SessionInv (s : State) : Prop where
  firstPass  : s.phase = .eCount → s.bp = [] ∧ s.sealed = false
  headerNext : s.phase = .eCount → s.busy = true → ∃ bytes, s.todo = [.push bytes, .setPhase .eEmit]
  secondPass : s.phase = .eEmit → s.busy = false → s.sealed = false ∧ s.bp.length < s.cfg.flushBits
  drainNext  : s.phase = .eEmit → s.busy = true →
                 (s.sealed = false ∧ ∃ bytes, s.todo = [.push bytes, .keepPartial]) ∨
                 ∃ drains, s.todo = drains ++ [.setPhase .eDone] ∧ ∀ m ∈ drains, m.isDrain = true
  elsewhere  : s.phase ≠ .eCount → s.phase ≠ .eEmit → s.busy = true → ∀ p, .setPhase p ∉ s.todo

/-- At most two pending bytes (spec/10_state.md R62, spec/45_stream_decoder.md R403). -/
def PendInv (s : State) : Prop := s.pend.length ≤ 2

/-- The invariant of the machine. -/
structure Inv (s : State) : Prop where
  flags    : FlagsInv s
  blocking : AtBlockingPoint s
  fifos    : FifoInv s
  ft       : FtInv s
  noTree   : NoTreeInv s
  ct       : CtInv s
  packer   : PackerInv s
  session  : SessionInv s
  pend     : PendInv s

/-! ### The words of the rules -/

/-- Q, the quiescent set (spec/46_control.md R455). -/
def quiescentPhases : List Phase := [.idle, .eDone, .dDone]

/-- The phases of a decode session that is not finished (R455). -/
def decodePhases : List Phase := [.dLen0, .dLen1, .dHdr, .dPay]

/-- Every phase, in the order of its number (spec/10_state.md R55). -/
def allPhases : List Phase := [.idle, .eCount, .eEmit, .eDone, .dLen0, .dLen1, .dHdr, .dPay, .dDone]

/-- The table of R455, row by row: the phases in which a command may run. -/
def phaseTable : Instr → List Phase
  | .nop | .abort => allPhases
  | .ftRead _ | .ctRead _ | .nodeRead _ | .treeInfo | .bpSize | .bpTvb => allPhases
  | .encBegin | .decBegin => allPhases
  | .ftCount _ => quiescentPhases ++ [.eCount]
  | .ftClear | .tbBuild | .tsSerialize | .tsDeserialize => quiescentPhases
  | .bpClear | .bpAppendBit _ | .bpAppendBits _ _ | .bpDrainReady | .bpDrainAll => quiescentPhases
  | .encHeader => [.eCount]
  | .encSym _ | .encFinish => [.eEmit]
  | .decChunk _ | .decEnd => decodePhases

/-- The state that error entry leaves, for a cause code of spec/60_exceptions.md R501 (R520). -/
def State.erred (code : BitVec 8) (info : Word) (s : State) : State :=
  { s with err := true, errCause := code, errInfo := info, errCmd := s.cmdWord, busy := false, todo := [] }

/-- The state after the core has pushed these bytes (spec/00_scope.md R16). -/
def State.sent (bytes : ByteSeq) (s : State) : State :=
  { s with outFifo := s.outFifo ++ bytes, statBytes := s.statBytes + BitVec.ofNat 32 bytes.length }

/-- Nothing makes the core wait before it has pushed `n` bytes: OUT has room for them (spec/00_scope.md R20) and the
step's credit is not limited (log entry 2). -/
abbrev RoomFor (n : Nat) (s : State) : Prop := s.credit = none ∧ s.outFifo.length + n ≤ s.cfg.outDepth

/-- The length-prefixed header, its length little-endian (spec/30_encoding.md R170, R171). -/
def withLength (h : ByteSeq) : ByteSeq := [BitVec.ofNat 8 (h.length % 256), BitVec.ofNat 8 (h.length / 256)] ++ h

/-- The state with the tree of spec/42_tree_serializer.md R258 loaded. -/
def State.withTree (nodes : List Node) (s : State) : State :=
  assignCodes { s with tstate := .present, nodes := nodes, root := 0#16, ct := [] }

/-- What `load_tree` leaves for each result of `deserialize`, and `k` of the state where there is a tree (R258). -/
def loadResult (r : Parsed) (k : State → State) (s : State) : State :=
  match r with
  | .malformed sub pos =>
      State.erred 0x11#8 ((BitVec.ofNat 32 sub.code <<< 16) ||| BitVec.ofNat 32 pos)
        { s with tstate := .noTree, nodes := [], root := 0#16, ct := [] }
  | .absent => complete (k { s with tstate := .absent, nodes := [], root := 0#16, ct := [] })
  | .present nodes => complete (k (s.withTree nodes))

/-- Position `m` of a header is one at which a marker is read (R256): a byte that is no marker is BADCHAR just there. -/
abbrev MarkerAt (c : Config) (h : ByteSeq) (m : Nat) : Prop :=
  deserialize c (h.take m ++ [0x41#8]) = .malformed .badChar m

/-- How many markers are read before position `pos` of a header. -/
def markersBefore (c : Config) (h : ByteSeq) (pos : Nat) : Nat :=
  (List.range pos).countP fun m => decide (MarkerAt c h m)

/-- The node indices of the tree under node `i` in pre-order: the node, its left subtree, its right subtree. `fuel`
bounds the depth. -/
def preOrder (nodes : List Node) : Nat → NodeIdx → List Nat
  | 0, _ => []
  | fuel + 1, i =>
      i.toNat ::
        match (nodeAt nodes i).body with
        | .leaf _ => []
        | .internal l r => preOrder nodes fuel l ++ preOrder nodes fuel r

/-- The state after the host has pushed the bytes `ys` to IN and popped `n` bytes of OUT, the core free to go on. -/
def State.served (ys : ByteSeq) (n : Nat) (s : State) : State :=
  { s with credit := none, inFifo := s.inFifo ++ ys, outFifo := s.outFifo.drop n }

/-- The state in which `ys` is in IN from the start, and OUT has room for `n` bytes more. -/
def State.servedAhead (ys : ByteSeq) (n : Nat) (s : State) : State :=
  { s with credit := none, inFifo := s.inFifo ++ ys, cfg := { s.cfg with outDepth := s.cfg.outDepth + n } }

/-- The state after the host has popped `n` bytes, seen from a run with room for `n` bytes more than the build `c` has. -/
def State.poppedTo (c : Config) (n : Nat) (s : State) : State := { s with cfg := c, outFifo := s.outFifo.drop n }

/-- The state with other values in the registers and flags that the host may change while a command is in flight, and on
the host's side of the interface. -/
def State.withHostSide (arg : Word) (doneIe errIe cmdOvr inOvr : Bool) (script : List HostStep)
    (reads : List (BitVec 8 × Word)) (seen : Bool) (s : State) : State :=
  { s with arg := arg, doneIe := doneIe, errIe := errIe, cmdOvr := cmdOvr, inOvr := inOvr, script := script,
           reads := reads, statusSeen := seen }

/-- The bits an append command appends (spec/43_bit_packer.md R311, R312). -/
def appendedBits : Instr → Option BitSeq
  | .bpAppendBit bit => some [bit]
  | .bpAppendBits len val => some (valBits len val)
  | _ => none

/-- What walking a bit sequence gives: the symbols it decodes to, the node it ends at, and whether it stopped at a bit
that no code starts with (spec/45_stream_decoder.md R406, R407). -/
structure Walked where
  syms : List Sym
  cur  : NodeIdx
  bad  : Bool
deriving DecidableEq, Repr

/-- `walk_bit` for each bit in order, from the node `cur`, as a pure function of the tree (R406, R407). -/
def walkResult (s : State) : BitSeq → NodeIdx → Walked
  | [], cur => { syms := [], cur := cur, bad := false }
  | bit :: bits, cur =>
      match (s.node s.root).body with
      | .leaf sym =>
          if bit then { syms := [], cur := cur, bad := true }
          else { walkResult s bits cur with syms := sym :: (walkResult s bits cur).syms }
      | .internal _ _ =>
          let next := childOf (s.node cur) cur bit
          match (s.node next).body with
          | .leaf sym => { walkResult s bits s.root with syms := sym :: (walkResult s bits s.root).syms }
          | .internal _ _ => walkResult s bits next

/-- The texts of decoded symbols, in order (spec/30_encoding.md R179). -/
def symTexts (c : Config) (syms : List Sym) : ByteSeq := (syms.map (symText c)).flatten

/-- The codes of a symbol sequence, one after another; `none` where a symbol has no valid CT entry. -/
def codesOf (s : State) : List Sym → Option BitSeq
  | [] => some []
  | sym :: syms =>
      match s.ctRead sym, codesOf s syms with
      | some e, some rest => some (e.code ++ rest)
      | _, _ => none

/-! ### What each command may write (spec/10_state.md R39; spec/20_memory.md R112) -/

/-- The query commands (R39). -/
def isQuery : Instr → Bool
  | .ftRead _ | .ctRead _ | .nodeRead _ | .treeInfo | .bpSize | .bpTvb => true
  | _ => false

/-- The commands that write FT (R112). -/
def writesFt : Instr → Bool
  | .ftClear | .ftCount _ | .encBegin | .decBegin | .abort => true
  | _ => false

/-- The commands that write the tree and CT (R112). -/
def writesTree : Instr → Bool
  | .tbBuild | .tsDeserialize | .encHeader | .encBegin | .decBegin | .decChunk _ | .abort => true
  | _ => false

/-- The commands that write the bit packer (R112). -/
def writesPacker : Instr → Bool
  | .bpClear | .bpAppendBit _ | .bpAppendBits _ _ | .bpDrainReady | .bpDrainAll => true
  | .encBegin | .decBegin | .encSym _ | .encFinish | .abort => true
  | _ => false

/-- The commands that write the decoder state (R112). -/
def writesDecoder : Instr → Bool
  | .decBegin | .decChunk _ | .decEnd | .encBegin | .abort => true
  | _ => false

/-- The commands that take bytes from IN (spec/45_stream_decoder.md R431, spec/42_tree_serializer.md R261; ABORT empties it). -/
def writesIn : Instr → Bool
  | .decChunk _ | .tsDeserialize | .abort => true
  | _ => false

/-- The commands that push bytes to OUT (spec/70_reset_and_hazards.md R563; ABORT empties it). -/
def writesOut : Instr → Bool
  | .encHeader | .encSym _ | .encFinish | .tsSerialize | .bpDrainReady | .bpDrainAll => true
  | .decChunk _ | .decEnd | .abort => true
  | _ => false

/-- The table of spec/46_control.md R456 for a command: where the phase may be after it, from a phase. The moves of
DEC_CHUNK are those of the bytes it feeds, one after another. -/
def phaseMoves (i : Instr) (p : Phase) : List Phase :=
  match i with
  | .encBegin => [.eCount]
  | .decBegin => [.dLen0]
  | .abort => [.idle]
  | .encHeader => if p = .eCount then [p, .eEmit] else [p]
  | .encFinish => if p = .eEmit then [p, .eDone] else [p]
  | .decEnd => if p = .dPay then [p, .dDone] else [p]
  | .decChunk _ =>
      match p with
      | .dLen0 => [.dLen0, .dLen1, .dHdr, .dPay]
      | .dLen1 => [.dLen1, .dHdr, .dPay]
      | .dHdr => [.dHdr, .dPay]
      | _ => [p]
  | _ => [p]

/-! ### Runs (R574) -/

/-- The run is over: the host has made its last access, no command is in flight, and the host has read STATUS since. -/
def State.runOver (s : State) : Bool := s.script == [] && !s.busy && s.statusSeen

/-- The observation of a run: the bytes popped from OUT in order, the values read of RESULT0 to RESULT2, and the final
STATUS, ERR_CAUSE, ERR_INFO and ERR_CMD. -/
structure Observation where
  popped  : ByteSeq
  results : List (BitVec 8 × Word)
  status  : Word
  cause   : Word
  info    : Word
  cmd     : Word
deriving DecidableEq, Repr

/-- The observation of a state that a run ends in. -/
def State.observation (s : State) : Observation where
  popped := s.reads.filterMap fun r =>
    if regIndex r.1 = 13 ∧ r.2.getLsbD 8 then some (r.2.extractLsb' 0 8) else none
  results := s.reads.filter fun r => decide (6 ≤ regIndex r.1) && decide (regIndex r.1 ≤ 8)
  status := s.status
  cause := s.errCause.zeroExtend 32
  info := s.errInfo
  cmd := s.errCmd

/-- Run these commands one after another on the states their predecessors left, each newly accepted; `none` as soon as
one does not complete. -/
def runCommands : List Instr → State → Option State
  | [], s => some s
  | i :: is, s =>
      match exec i { s with busy := true, done := false, todo := [] } with
      | .next t => if t.done && !t.busy then runCommands is t else none
      | .fault _ => none
      | .refused _ => none

end Sys2Proof.Machine
end

