-- ==== Sys2Proof/Certificates/Slice0/Obligations.lean ====
section
/-! DEFINITION. The statements about HUFFCORE, in the order of the rules of spec/. A result is stated as the whole next
state, so it is the frame too: a field that the written state does not name keeps its value. The fields `script`,
`credit`, `reads` and `statusSeen` are the model's own (log entries 1, 2 and 8), and so is that a command which ends
leaves `todo` empty: the latch has no meaning then (spec/10_state.md R56; log entry 4). -/

open Sys2Proof Sys2Proof.Machine

/-! ## Encodings (spec/30_encoding.md) -/

/-- R140 to R151: the word of a well-formed command decodes to that command, whatever its operands and the build. -/
def Obligations.DecodeOfEncode : Prop :=
  ∀ (c : Config) (i : Instr), i.wf c = true → decode c (encode i) = .command i

/-- R140 to R151: a word that decodes to a command is the word of that command, and the command is well formed. -/
def Obligations.EncodeOfDecode : Prop :=
  ∀ (c : Config) (w : Word) (i : Instr), decode c w = .command i → encode i = w ∧ i.wf c = true

/-- R148, R149, R150, R151: the subcode of a word that is no command: 1 for the opcodes of R148's list, 2 for a reserved
bit of the opcode's format, and, in a word whose reserved bits are 0, 3, 4 and 5 for the operand values of R150. -/
def Obligations.IllegalWordsAndTheirSubcodes : Prop :=
  ∀ (c : Config) (w : Word),
    let opc := w.toNat / 2 ^ 24
    let sym := w.toNat % 2 ^ 21
    let len := w.toNat / 2 ^ 16 % 2 ^ 5
    let val := w.toNat % 2 ^ 16
    let clear := w.toNat / 2 ^ 21 % 2 ^ 3 = 0
    (decode c w = .illegal .unassignedOpcode ↔
      (0x02 ≤ opc ∧ opc ≤ 0x0F) ∨ (0x13 ≤ opc ∧ opc ≤ 0x17) ∨ (0x1C ≤ opc ∧ opc ≤ 0x1F) ∨
      (0x22 ≤ opc ∧ opc ≤ 0x27) ∨ opc = 0x2F ∨ (0x34 ≤ opc ∧ opc ≤ 0x37) ∨ (0x3B ≤ opc ∧ opc ≤ 0xFF)) ∧
    (decode c w = .illegal .reservedBits ↔
      (opc ∈ [0x10, 0x18, 0x1B, 0x20, 0x21, 0x28, 0x2B, 0x2C, 0x2D, 0x2E, 0x30, 0x31, 0x33, 0x38, 0x3A, 0x00, 0x01] ∧
        w.toNat % 2 ^ 24 ≠ 0) ∨
      (opc ∈ [0x11, 0x12, 0x19, 0x32, 0x2A] ∧ ¬clear) ∨
      (opc = 0x29 ∧ w.toNat / 2 % 2 ^ 23 ≠ 0) ∨
      (opc ∈ [0x1A, 0x39] ∧ w.toNat / 2 ^ 16 % 2 ^ 8 ≠ 0)) ∧
    (decode c w = .illegal .symbolNotValid ↔
      clear ∧ opc ∈ [0x11, 0x12, 0x19, 0x32] ∧
        ((c.codec = .byte ∧ 0xFF < sym) ∨
          (c.codec = .utf8 ∧ (0x10FFFF < sym ∨ (0xD800 ≤ sym ∧ sym ≤ 0xDFFF))))) ∧
    (decode c w = .illegal .lengthOutOfRange ↔ clear ∧ opc = 0x2A ∧ (len = 0 ∨ 16 < len)) ∧
    (decode c w = .illegal .valueBitsAboveLength ↔
      clear ∧ opc = 0x2A ∧ 1 ≤ len ∧ len < 16 ∧ val / 2 ^ len ≠ 0)

/-- R141 to R147: words written out from the formats decode to the commands they stand for. -/
def Obligations.WordsOfEveryFormatDecode : Prop :=
  decode Config.default 0x18000000#32 = .command .tbBuild ∧
  decode Config.default 0x11000041#32 = .command (.ftCount 0x41#21) ∧
  decode Config.default 0x29000001#32 = .command (.bpAppendBit true) ∧
  decode Config.default 0x2A030005#32 = .command (.bpAppendBits 3#5 5#16) ∧
  decode Config.default 0x3900000D#32 = .command (.decChunk 13#16) ∧
  decode Config.utf8Default 0x3210FFFF#32 = .command (.encSym 0x10FFFF#21)

/-- R13, R146, R176: bits are taken most significant first. A format-L operand is VAL[LEN-1], ..., VAL[0]; `bitsToBytes`
gives ceil(len/8) bytes, bit `j` of the sequence at bit 7 - j mod 8 of byte j div 8, and 0 past its end; the full bytes
are the first of them; and a byte's bits pack to the byte. R173, R174: the bytes of a symbol's text, one in a BYTE build
and one to four in UTF8. -/
def Obligations.BitsAreMsbFirst : Prop :=
  (∀ (len : BitVec 5) (val : BitVec 16),
    (valBits len val).length = len.toNat ∧
    ∀ k < len.toNat, (valBits len val)[k]? = some (val.getLsbD (len.toNat - 1 - k))) ∧
  (∀ b : Byte, pack8 (bitsOfByte b) = b) ∧
  (∀ (c : Config) (sym : Sym),
    let n := sym.toNat
    let byte := fun k : Nat => (BitVec.ofNat 8 k : Byte)
    c.validSym sym = true →
    (c.codec = .byte → symText c sym = [byte n]) ∧
    (c.codec = .utf8 → n ≤ 0x7F → symText c sym = [byte n]) ∧
    (c.codec = .utf8 → 0x80 ≤ n → n ≤ 0x7FF → symText c sym = [byte (0xC0 + n / 64), byte (0x80 + n % 64)]) ∧
    (c.codec = .utf8 → 0x800 ≤ n → n ≤ 0xFFFF →
      symText c sym = [byte (0xE0 + n / 4096), byte (0x80 + n / 64 % 64), byte (0x80 + n % 64)]) ∧
    (c.codec = .utf8 → 0x10000 ≤ n →
      symText c sym = [byte (0xF0 + n / 262144), byte (0x80 + n / 4096 % 64), byte (0x80 + n / 64 % 64),
        byte (0x80 + n % 64)])) ∧
  ∀ bits : BitSeq,
    (bitsToBytes bits).length = (bits.length + 7) / 8 ∧
    (∀ j < 8 * ((bits.length + 7) / 8),
      ((bitsToBytes bits).getD (j / 8) 0#8).getLsbD (7 - j % 8) = bits.getD j false) ∧
    fullBytes bits = (bitsToBytes bits).take (bits.length / 8)

/-! ## Acceptance and the error state (spec/46_control.md, spec/60_exceptions.md) -/

/-- R450: a CMD write that is accepted runs the decoded command on the state of its acceptance, in the same step. -/
def Obligations.StepRunsDecodedCommand : Prop :=
  ∀ (s : State) (off : BitVec 8) (w : Word) (k : Option Nat) (rest : List HostStep) (i : Instr),
    s.script = { access := .write off w, credit := k } :: rest → off.toNat / 4 = 4 →
    s.busy = false → (s.err = true → w = 0x01000000#32) → decode s.cfg w = .command i →
    step s = exec i { s with script := rest, credit := k, busy := true, done := false, cmdWord := w, cmdArg := s.arg,
                             todo := [], statusSeen := false }

/-- R453, R520: an accepted word that is no command enters the error state in the same step, with its subcode. -/
def Obligations.IllegalWordEntersErrorState : Prop :=
  ∀ (s : State) (off : BitVec 8) (w : Word) (k : Option Nat) (rest : List HostStep) (e : Illegal),
    s.script = { access := .write off w, credit := k } :: rest → off.toNat / 4 = 4 →
    s.busy = false → s.err = false → decode s.cfg w = .illegal e →
    step s = .next { s with script := rest, credit := k, busy := false, done := false, cmdWord := w, cmdArg := s.arg,
                            todo := [], statusSeen := false, err := true, errCause := 0x01#8, errCmd := w,
                            errInfo := match e with
                              | .unassignedOpcode => 1#32
                              | .reservedBits => 2#32
                              | .symbolNotValid => 3#32
                              | .lengthOutOfRange => 4#32
                              | .valueBitsAboveLength => 5#32 }

/-- R452: a CMD write while a command is in flight is dropped: it only sets CMD_OVR, and the core goes on with the
command in flight; where that waits, it keeps its place. -/
def Obligations.CommandWhileBusyIsDropped : Prop :=
  ∀ (s : State) (off : BitVec 8) (w : Word) (k : Option Nat) (rest : List HostStep),
    s.script = { access := .write off w, credit := k } :: rest → off.toNat / 4 = 4 →
    (s.busy = true → step s = .next (resume { s with script := rest, credit := k, cmdOvr := true })) ∧
    ((s.waitIn = true ∨ s.waitOut = true) → step s = .next { s with script := rest, credit := k, cmdOvr := true })

/-- R521: in the error state every CMD word but ABORT's is discarded with no effect. -/
def Obligations.ErrorStateDiscardsCommands : Prop :=
  ∀ (s : State) (off : BitVec 8) (w : Word) (k : Option Nat) (rest : List HostStep),
    s.script = { access := .write off w, credit := k } :: rest → off.toNat / 4 = 4 →
    s.busy = false → s.err = true → w ≠ 0x01000000#32 →
    step s = .next { s with script := rest, credit := k }

/-- R455: a command outside its legal phases raises SEQUENCE with the phase's number as info, and changes nothing else;
a command in a legal phase raises no SEQUENCE. -/
def Obligations.IllegalPhaseRaisesSequence : Prop :=
  (∀ (i : Instr) (s : State), s.phase ∉ phaseTable i →
    exec i s = .next (State.erred 0x02#8 (BitVec.ofNat 32 (allPhases.idxOf s.phase)) s)) ∧
  ∀ (i : Instr) (s t : State), s.phase ∈ phaseTable i → s.err = false → exec i s = .next t → t.err = true →
    t.errCause ≠ 0x02#8

/-- R456: a command that ends, waits or raises has moved the phase as the transition table says, or not at all. -/
def Obligations.PhaseMovesOnlyByTheTable : Prop :=
  ∀ (i : Instr) (s t : State), exec i s = .next t → t.phase ∈ phaseMoves i s.phase

/-- R502, R520: no command and no host access stops the machine: each answers a next state. -/
def Obligations.EveryStepAnswersNext : Prop :=
  (∀ s : State, ∃ t, step s = .next t) ∧ ∀ (i : Instr) (s : State), ∃ t, exec i s = .next t

/-- R460: NOP only completes. -/
def Obligations.NopOnlyCompletes : Prop :=
  ∀ s : State, exec .nop s = .next { s with busy := false, done := true, todo := [] }

/-- R461: ABORT leaves the error state, empties both FIFOs and clears the session. -/
def Obligations.AbortDiscardsEverything : Prop :=
  ∀ s : State,
    exec .abort s = .next
      { s with err := false, errCause := 0#8, errInfo := 0#32, errCmd := 0#32, cmdOvr := false, inOvr := false,
               inFifo := [], outFifo := [], phase := .idle, ft := [], total := 0#32,
               tstate := .noTree, nodes := [], root := 0#16, ct := [], bp := [], tvb := 0#4, sealed := false,
               hlen := 0#16, hbuf := [], dpos := 0#32, pend := [], cur := 0#16, statSyms := 0#32, statBytes := 0#32,
               busy := false, done := true, todo := [] }

/-- R350, R360, R430: ENC_BEGIN and DEC_BEGIN clear the session and open the new one; FIFOs and registers stay. -/
def Obligations.BeginCommandsOpenASession : Prop :=
  ∀ (s : State) (i : Instr) (p : Phase), (i, p) = (.encBegin, .eCount) ∨ (i, p) = (.decBegin, .dLen0) →
    exec i s = .next
      { s with phase := p, ft := [], total := 0#32,
               tstate := .noTree, nodes := [], root := 0#16, ct := [], bp := [], tvb := 0#4, sealed := false,
               hlen := 0#16, hbuf := [], dpos := 0#32, pend := [], cur := 0#16, statSyms := 0#32, statBytes := 0#32,
               busy := false, done := true, todo := [] }

/-! ## The tree builder (spec/41_tree_builder.md) -/

/-- R201, R210, R302, R310: FT_CLEAR empties FT, BP_CLEAR empties and unseals the bit packer, and neither does more. -/
def Obligations.ClearCommands : Prop :=
  ∀ s : State, s.phase ∈ quiescentPhases →
    exec .ftClear s = .next { s with ft := [], total := 0#32, busy := false, done := true, todo := [] } ∧
    exec .bpClear s = .next { s with bp := [], tvb := 0#4, sealed := false, busy := false, done := true, todo := [] }

/-- R202: `ft_count` checks FREQ_OVERFLOW, then TABLE_FULL, and then counts one occurrence of its symbol. -/
def Obligations.FtCountCountsOneSymbol : Prop :=
  ∀ (s : State) (sym : Sym), s.phase ∈ quiescentPhases ++ [.eCount] → FtInv s →
    (s.total = 0xFFFFFFFF#32 → exec (.ftCount sym) s = .next (State.erred 0x21#8 (sym.zeroExtend 32) s)) ∧
    (s.total ≠ 0xFFFFFFFF#32 → s.ftRead sym = 0#32 → s.nsym = s.cfg.maxSyms →
      exec (.ftCount sym) s = .next (State.erred 0x20#8 (sym.zeroExtend 32) s)) ∧
    (s.total ≠ 0xFFFFFFFF#32 → ¬(s.ftRead sym = 0#32 ∧ s.nsym = s.cfg.maxSyms) →
      ∃ t, exec (.ftCount sym) s = .next t ∧
        t = { s with ft := t.ft, total := t.total, busy := false, done := true, todo := [] } ∧
        t.total.toNat = s.total.toNat + 1 ∧
        (t.ftRead sym).toNat = (s.ftRead sym).toNat + 1 ∧
        (∀ other, other ≠ sym → t.ftRead other = s.ftRead other) ∧
        t.nsym = s.nsym + if s.ftRead sym = 0#32 then 1 else 0)

/-- R212, R226, R313, R314: FT_READ gives the count, the number of keys and the total; TREE_INFO gives `tstate`, the root
of a PRESENT tree and the node count; BP_SIZE and BP_TVB give the size, the trailing valid bits and the seal. -/
def Obligations.QueriesOfTotals : Prop :=
  ∀ s : State,
    (∀ sym : Sym, exec (.ftRead sym) s = .next
      { s with result0 := (symLookup s.ft sym).getD 0#32, result1 := BitVec.ofNat 32 s.ft.length, result2 := s.total,
               busy := false, done := true, todo := [] }) ∧
    exec .treeInfo s = .next
      { s with result0 := match s.tstate with
                 | .noTree => 0#32
                 | .absent => 1#32
                 | .present => 2#32
               result1 := if s.tstate = .present then s.root.zeroExtend 32 else 0#32
               result2 := BitVec.ofNat 32 s.nodes.length
               busy := false, done := true, todo := [] } ∧
    exec .bpSize s = .next { s with result0 := BitVec.ofNat 32 s.bp.length, result1 := s.tvb.zeroExtend 32,
                                    result2 := if s.sealed then 1#32 else 0#32,
                                    busy := false, done := true, todo := [] } ∧
    exec .bpTvb s = .next { s with result0 := s.tvb.zeroExtend 32, result1 := BitVec.ofNat 32 s.bp.length,
                                   result2 := if s.sealed then 1#32 else 0#32,
                                   busy := false, done := true, todo := [] }

/-- R204: the working collection gives up an element with the smallest key, and keeps the others. -/
def Obligations.MergeTakesASmallestKey : Prop :=
  ∀ w : List Key, w ≠ [] →
    ∃ m rest, popMin w = some (m, rest) ∧ m ∈ w ∧ rest = w.erase m ∧
      ∀ k ∈ w, m.freq.toNat < k.freq.toNat ∨ (m.freq = k.freq ∧ m.idx.toNat ≤ k.idx.toNat)

/-- R203, R205, R206: with an empty FT, TB_BUILD gives the ABSENT tree. With N keys it gives 2N - 1 nodes: the leaves in
symbol order, then the merged nodes; the last node is the root. A merged node has as left and right child the smallest
and the second smallest, by frequency and then index (R204), of the earlier nodes that are no child yet, and its
frequency is their sum. Only the tree and CT change. -/
def Obligations.TbBuildMergesGreedily : Prop :=
  ∀ s : State, s.phase ∈ quiescentPhases →
    (s.ft = [] → exec .tbBuild s = .next { s with tstate := .absent, nodes := [], root := 0#16, ct := [],
                                                  busy := false, done := true, todo := [] }) ∧
    (s.ft ≠ [] → s.cfg.wf = true → FtInv s →
      ∃ t, exec .tbBuild s = .next t ∧
        t = { s with tstate := .present, nodes := t.nodes, root := t.root, ct := t.ct,
                     busy := false, done := true, todo := [] } ∧
        t.ncount = 2 * s.nsym - 1 ∧ t.root.toNat = 2 * s.nsym - 2 ∧
        (∀ (j : NodeIdx) (e : Sym × Word), s.ft[j.toNat]? = some e →
          (t.node j).body = .leaf e.1 ∧ (t.node j).freq = e.2) ∧
        let before := fun a b : NodeIdx =>
          (t.node a).freq.toNat < (t.node b).freq.toNat ∨ ((t.node a).freq = (t.node b).freq ∧ a.toNat < b.toNat)
        let noChildYet := fun (k j : NodeIdx) => k.toNat < j.toNat ∧ ∀ (p l r : NodeIdx), s.nsym ≤ p.toNat →
          p.toNat < j.toNat → (t.node p).body = .internal l r → k ≠ l ∧ k ≠ r
        ∀ j : NodeIdx, s.nsym ≤ j.toNat → j.toNat < t.ncount →
          ∃ l r : NodeIdx, (t.node j).body = .internal l r ∧ noChildYet l j ∧ noChildYet r j ∧ before l r ∧
            (∀ k : NodeIdx, noChildYet k j → k ≠ l → k ≠ r → before r k) ∧
            (t.node j).freq.toNat = (t.node l).freq.toNat + (t.node r).freq.toNat)

/-- R60, R206, R209: after TB_BUILD exactly the keys of FT have a code, of 1 to max(1, N - 1) bits, with their counts. -/
def Obligations.TbBuildCodesEveryKey : Prop :=
  ∀ s t : State, s.cfg.wf = true → FtInv s → s.phase ∈ quiescentPhases → exec .tbBuild s = .next t →
    ∀ sym : Sym,
      (s.ftRead sym = 0#32 → t.ctRead sym = none) ∧
      (s.ftRead sym ≠ 0#32 → ∃ e, t.ctRead sym = some e ∧ e.freq = s.ftRead sym ∧
        1 ≤ e.code.length ∧ e.code.length ≤ max 1 (s.nsym - 1))

/-- R222: CT_READ gives the code's length, word `cmd_arg` of its bits with code bit 32w + k at bit 31 - k, and the
frequency; zeros for an invalid entry. -/
def Obligations.CtReadResult : Prop :=
  ∀ (s : State) (sym : Sym),
    (s.ctRead sym = none →
      exec (.ctRead sym) s = .next { s with result0 := 0#32, result1 := 0#32, result2 := 0#32,
                                            busy := false, done := true, todo := [] }) ∧
    ∀ e, s.ctRead sym = some e →
      ∃ w : Word,
        exec (.ctRead sym) s = .next { s with result0 := BitVec.ofNat 32 e.code.length, result1 := w, result2 := e.freq,
                                              busy := false, done := true, todo := [] } ∧
        ∀ k < 32, w.getLsbD (31 - k) = e.code.getD (32 * s.cmdArg.toNat + k) false

/-- R225: NODE_READ gives a node's kind and code length, its frequency, and its symbol or children; zeros for an index
at or above the node count. -/
def Obligations.NodeReadResult : Prop :=
  ∀ (s : State) (idx : BitVec 16),
    exec (.nodeRead idx) s = .next
      (match s.nodes[idx.toNat]? with
      | none => { s with result0 := 0#32, result1 := 0#32, result2 := 0#32, busy := false, done := true, todo := [] }
      | some { freq := f, body := .leaf sym, code := code } =>
          { s with result0 := 1#32 ||| (BitVec.ofNat 32 code.length <<< 16), result1 := f,
                   result2 := sym.zeroExtend 32, busy := false, done := true, todo := [] }
      | some { freq := f, body := .internal l r, code := code } =>
          { s with result0 := 2#32 ||| (BitVec.ofNat 32 code.length <<< 16), result1 := f,
                   result2 := l.zeroExtend 32 ||| (r.zeroExtend 32 <<< 16), busy := false, done := true, todo := [] })

/-! ## The tree serializer (spec/42_tree_serializer.md) -/

/-- R253, R260: TS_SERIALIZE pushes the length-prefixed header, or raises NO_TREE or HEADER_TOO_LONG before any push. -/
def Obligations.TsSerializePushesTheHeader : Prop :=
  ∀ s : State, s.phase ∈ quiescentPhases →
    (s.tstate = .noTree → exec .tsSerialize s = .next (State.erred 0x03#8 0#32 s)) ∧
    (s.tstate ≠ .noTree → 65535 < (serialize s).length →
      exec .tsSerialize s = .next (State.erred 0x18#8 (BitVec.ofNat 32 (serialize s).length) s)) ∧
    (s.tstate ≠ .noTree → (serialize s).length ≤ 65535 → RoomFor (2 + (serialize s).length) s →
      exec .tsSerialize s = .next { s.sent (withLength (serialize s)) with busy := false, done := true, todo := [] })

/-- R258, R261: TS_DESERIALIZE takes 2 + L bytes from IN, and then loads the tree or raises MALFORMED_TREE. -/
def Obligations.TsDeserializeLoadsTheHeader : Prop :=
  ∀ (s : State) (lo hi : Byte) (h rest : ByteSeq), s.phase ∈ quiescentPhases → s.credit = none →
    s.inFifo = lo :: hi :: (h ++ rest) → h.length = lo.toNat + 256 * hi.toNat →
    exec .tsDeserialize s = .next
      (loadResult (deserialize s.cfg h) id { s with inFifo := rest, hbuf := h })

/-- R254, R255, R256: the position of a MALFORMED result is that of the byte its subcode names. END: the header ends at a
marker or inside a symbol's text. TRAILING: the first byte after a complete header. DUP: the marker of a leaf whose symbol
an earlier leaf has. BADUTF8: the first byte of a leaf's text that no symbol's text goes on with. TOOMANY: the marker of
node NODE_CAP + 1. -/
def Obligations.MalformedPositionsNameTheByte : Prop :=
  ∀ (c : Config) (h : ByteSeq) (sub : Malformed) (pos : Nat), deserialize c h = .malformed sub pos →
    match sub with
    | .headerEnd => pos = h.length ∧
        (MarkerAt c h pos ∨ ∃ m, MarkerAt c h m ∧ h[m]? = some 0x31#8 ∧
          ∃ sym, c.validSym sym = true ∧ h.drop (m + 1) <+: symText c sym ∧ h.drop (m + 1) ≠ symText c sym)
    | .badChar => MarkerAt c h pos ∧ ∃ b, h[pos]? = some b ∧ b ≠ 0x30#8 ∧ b ≠ 0x31#8 ∧ b ≠ 0x23#8
    | .absentSub => MarkerAt c h pos ∧ 0 < pos ∧ h[pos]? = some 0x23#8
    | .trailing => pos < h.length ∧
        (deserialize c (h.take pos) = .absent ∨ ∃ nodes, deserialize c (h.take pos) = .present nodes)
    | .dup => MarkerAt c h pos ∧ h[pos]? = some 0x31#8 ∧
        ∃ m sym, m < pos ∧ MarkerAt c h m ∧ h[m]? = some 0x31#8 ∧ c.validSym sym = true ∧
          symText c sym <+: h.drop (m + 1) ∧ symText c sym <+: h.drop (pos + 1)
    | .badUtf8 => c.codec = .utf8 ∧ pos < h.length ∧
        ∃ m, m < pos ∧ MarkerAt c h m ∧ h[m]? = some 0x31#8 ∧
          (∃ sym, c.validSym sym = true ∧ (h.take pos).drop (m + 1) <+: symText c sym) ∧
          ∀ sym, c.validSym sym = true → ¬((h.take (pos + 1)).drop (m + 1) <+: symText c sym)
    | .tooMany => MarkerAt c h pos ∧ (h[pos]? = some 0x30#8 ∨ h[pos]? = some 0x31#8) ∧
        markersBefore c h pos = c.nodeCap

/-- R257: a parsed tree has 1 to NODE_CAP nodes, all of frequency 0, numbered in pre-order from the root 0. -/
def Obligations.ParsedNodesArePreOrder : Prop :=
  ∀ (c : Config) (h : ByteSeq) (nodes : List Node), c.wf = true → deserialize c h = .present nodes →
    1 ≤ nodes.length ∧ nodes.length ≤ c.nodeCap ∧
    preOrder nodes nodes.length 0#16 = List.range nodes.length ∧
    ∀ j n, nodes[j]? = some n → n.freq = 0#32 ∧
      ∀ l r, n.body = .internal l r → l.toNat = j + 1 ∧ l.toNat < r.toNat ∧ r.toNat < nodes.length

/-- R250, R256: a header that loads is the header of the loaded tree. -/
def Obligations.LoadedHeaderSerializesBack : Prop :=
  ∀ (h : ByteSeq) (s t : State), s.cfg.wf = true → loadTree h s = .done t → serialize t = h

/-- R259: the header of a built tree loads, with the same codes and every frequency 0. -/
def Obligations.BuiltTreeReloadsWithItsCodes : Prop :=
  ∀ s : State, s.cfg.wf = true → FtInv s → s.ft ≠ [] →
    ∃ t, loadTree (serialize (build s)) (build s) = .done t ∧ t.tstate = .present ∧
      ∀ sym : Sym, t.ctRead sym = ((build s).ctRead sym).map fun e => { code := e.code, freq := 0#32 }

/-! ## The bit packer (spec/43_bit_packer.md) -/

/-- R303: an append is all or nothing: BP_SEALED, then BP_OVERFLOW, then every bit in order, each with
its update of `tvb`. -/
def Obligations.AppendIsAllOrNothing : Prop :=
  ∀ (s : State) (i : Instr) (bits : BitSeq), appendedBits i = some bits → s.phase ∈ quiescentPhases →
    exec i s = .next
      (if s.sealed then State.erred 0x23#8 0#32 s
      else if s.cfg.bpCapBits < s.bp.length + bits.length then
        State.erred 0x22#8 (BitVec.ofNat 32 s.bp.length) s
      else { s with bp := s.bp ++ bits, tvb := bits.foldl (fun v _ => if v = 8#4 then 1#4 else v + 1#4) s.tvb,
                          busy := false, done := true, todo := [] })

/-- R301: `tvb` after `m` more bits is `tvbOf` of all of them. -/
def Obligations.TvbCountsAppendedBits : Prop :=
  ∀ (t : BitVec 4) (n m : Nat), t.toNat = tvbOf n → (tvbAfter t m).toNat = tvbOf (n + m)

/-- R305, R306, R315, R316: BP_DRAIN_READY pushes the full bytes and keeps the partial one; BP_DRAIN_ALL pushes every
byte, the partial one zero-padded, and seals. -/
def Obligations.BpDrainsPushTheBytes : Prop :=
  ∀ s : State, s.phase ∈ quiescentPhases →
    (RoomFor (s.bp.length / 8) s →
      exec .bpDrainReady s = .next { s.sent (fullBytes s.bp) with bp := s.bp.drop (8 * (s.bp.length / 8)),
                                                                  busy := false, done := true, todo := [] }) ∧
    (RoomFor ((s.bp.length + 7) / 8) s →
      exec .bpDrainAll s = .next { s.sent (bitsToBytes s.bp) with bp := [], sealed := true,
                                                                  busy := false, done := true, todo := [] })

/-- R307: any mix of appends and ready-drains, and then a drain of all, pushes `bitsToBytes` of the appended bits. -/
def Obligations.PackerOutputLaw : Prop :=
  ∀ (s t : State) (cmds : List Instr),
    (∀ i ∈ cmds, i = .bpDrainReady ∨ (appendedBits i).isSome = true) →
    s.phase ∈ quiescentPhases → s.credit = none → s.bp = [] → s.tvb = 0#4 → s.sealed = false →
    runCommands (cmds ++ [.bpDrainAll]) s = some t →
    let bits := (cmds.filterMap appendedBits).flatten
    t.outFifo = s.outFifo ++ bitsToBytes bits ∧ (bitsToBytes bits).length = (bits.length + 7) / 8 ∧
    t.tvb.toNat = tvbOf bits.length ∧ t.bp = [] ∧ t.sealed = true

/-! ## The stream encoder (spec/44_stream_encoder.md) -/

/-- R361: ENC_HEADER builds the tree, pushes its header and moves to E_EMIT; a header that is too long pushes nothing. -/
def Obligations.EncHeaderBuildsAndPushes : Prop :=
  ∀ s : State, s.phase = .eCount →
    let b := build s
    (65535 < (serialize b).length →
      exec .encHeader s = .next (State.erred 0x18#8 (BitVec.ofNat 32 (serialize b).length) b)) ∧
    ((serialize b).length ≤ 65535 → RoomFor (2 + (serialize b).length) s →
      exec .encHeader s = .next { b.sent (withLength (serialize b)) with phase := .eEmit,
                                                                         busy := false, done := true, todo := [] })

/-- R352, R355, R362: ENC_SYM of a symbol with no valid CT entry raises UNKNOWN_SYMBOL with the symbol as info; of another
it appends the code, counts the symbol, and drains the full bytes at FLUSH_BITS bits. R353: the code fits, where fewer
than FLUSH_BITS bits are held, as they are between two commands of the second pass (PackerInvariantKept). -/
def Obligations.EncSymAppendsTheCode : Prop :=
  (∀ (s : State) (sym : Sym), s.phase = .eEmit → s.ctRead sym = none →
    exec (.encSym sym) s = .next (State.erred 0x10#8 (sym.zeroExtend 32) s)) ∧
  (∀ (s : State) (sym : Sym) (e : CtEntry), s.cfg.wf = true → CtInv s → s.ctRead sym = some e →
    s.bp.length < s.cfg.flushBits → s.bp.length + e.code.length ≤ s.cfg.bpCapBits) ∧
  ∀ (s : State) (sym : Sym) (e : CtEntry), s.phase = .eEmit → s.ctRead sym = some e → s.sealed = false →
    s.bp.length + e.code.length ≤ s.cfg.bpCapBits →
    let bits := s.bp ++ e.code
    let s1 := { s with tvb := tvbAfter s.tvb e.code.length, statSyms := s.statSyms + 1#32 }
    (bits.length < s.cfg.flushBits →
      exec (.encSym sym) s = .next { s1 with bp := bits, busy := false, done := true, todo := [] }) ∧
    (s.cfg.flushBits ≤ bits.length → RoomFor (bits.length / 8) s →
      exec (.encSym sym) s = .next { s1.sent (fullBytes bits) with bp := bits.drop (8 * (bits.length / 8)),
                                                                   busy := false, done := true, todo := [] })

/-- R363: ENC_FINISH drains everything and pushes the marker, and ends the session. -/
def Obligations.EncFinishPushesTheMarker : Prop :=
  ∀ s : State, s.phase = .eEmit → RoomFor ((s.bp.length + 7) / 8 + 1) s →
    exec .encFinish s = .next { s.sent (bitsToBytes s.bp ++ [s.tvb.zeroExtend 8]) with
                                bp := [], sealed := true, phase := .eDone, busy := false, done := true, todo := [] }

/-- R354: the second pass and ENC_FINISH push the packed codes of the symbols and the marker, whatever FLUSH_BITS is. -/
def Obligations.EncodedPayloadLaw : Prop :=
  ∀ (s t : State) (syms : List Sym), s.phase = .eEmit → s.credit = none →
    s.bp = [] → s.tvb = 0#4 → s.sealed = false →
    runCommands (syms.map .encSym ++ [.encFinish]) s = some t →
    ∃ bits, codesOf s syms = some bits ∧
      t.outFifo = s.outFifo ++ bitsToBytes bits ++ [BitVec.ofNat 8 (tvbOf bits.length)] ∧
      t.statSyms = s.statSyms + BitVec.ofNat 32 syms.length ∧ t.phase = .eDone

/-! ## The stream decoder (spec/45_stream_decoder.md) -/

/-- R401, R402: what one fed byte does in the three header phases. -/
def Obligations.FeedOfAHeaderByte : Prop :=
  ∀ (s : State) (b : Byte) (rest : ByteSeq), s.credit = none → s.inFifo = b :: rest →
    let s1 := { s with inFifo := rest, dpos := s.dpos + 1#32 }
    let pay := fun t : State => { t with cur := 0#16, phase := .dPay }
    (s.phase = .dLen0 →
      exec (.decChunk 1#16) s = .next { s1 with hlen := b.zeroExtend 16, phase := .dLen1,
                                                busy := false, done := true, todo := [] }) ∧
    (s.phase = .dLen1 →
      let hlen := BitVec.ofNat 16 (s.hlen.toNat + 256 * b.toNat)
      exec (.decChunk 1#16) s = .next
        (if hlen = 0#16 then loadResult (deserialize s.cfg s.hbuf) pay { s1 with hlen := hlen }
        else { s1 with hlen := hlen, phase := .dHdr, busy := false, done := true, todo := [] })) ∧
    (s.phase = .dHdr →
      let hbuf := s.hbuf ++ [b]
      exec (.decChunk 1#16) s = .next
        (if hbuf.length = s.hlen.toNat then loadResult (deserialize s.cfg hbuf) pay { s1 with hbuf := hbuf }
        else { s1 with hbuf := hbuf, busy := false, done := true, todo := [] }))

/-- R401, R403, R404, R431: a payload byte is held back with its stream offset while fewer than two are pending; and a
chunk of no byte does nothing. -/
def Obligations.FeedHoldsBackTwoBytes : Prop :=
  (∀ (s : State) (b : Byte) (rest : ByteSeq), s.credit = none → s.inFifo = b :: rest → s.phase = .dPay →
    s.pend.length < 2 →
    exec (.decChunk 1#16) s = .next { s with inFifo := rest, dpos := s.dpos + 1#32, pend := s.pend ++ [(b, s.dpos)],
                                             busy := false, done := true, todo := [] }) ∧
  ∀ s : State, s.phase ∈ decodePhases →
    exec (.decChunk 0#16) s = .next { s with busy := false, done := true, todo := [] }

/-- R401, R405 to R408: a third payload byte confirms the oldest one, which is walked from bit 7 down; without a tree it
raises NO_TREE_PAYLOAD, and a bit that no code starts with INVALID_CODE, at the byte's offset. -/
def Obligations.ConfirmedByteIsDecoded : Prop :=
  ∀ (s : State) (b p0 : Byte) (o0 : Word) (p1 : Byte × Word) (rest : ByteSeq),
    s.credit = none → s.inFifo = b :: rest → s.phase = .dPay → s.pend = [(p0, o0), p1] →
    let s1 := { s with inFifo := rest, dpos := s.dpos + 1#32, pend := [p1, (b, s.dpos)] }
    let w := walkResult s (bitsOfByte p0) s.cur
    (s.tstate ≠ .present → exec (.decChunk 1#16) s = .next (State.erred 0x17#8 o0 s1)) ∧
    (s.tstate = .present → RoomFor (symTexts s.cfg w.syms).length s →
      let s2 := { s1.sent (symTexts s.cfg w.syms) with
        cur := w.cur, statSyms := s.statSyms + BitVec.ofNat 32 w.syms.length }
      exec (.decChunk 1#16) s = .next
        (if w.bad then State.erred 0x16#8 o0 s2 else { s2 with busy := false, done := true, todo := [] }))

/-- R406, R407, R209: walking the codes of symbols from the root decodes to those symbols and ends at the root. -/
def Obligations.CodesDecodeToTheirSymbols : Prop :=
  ∀ (s : State) (syms : List Sym) (bits : BitSeq), CtInv s → codesOf s syms = some bits →
    walkResult s bits s.root = { syms := syms, cur := s.root, bad := false }

/-- R422: a chunk may be split anywhere: feeding `a` bytes and then `b` bytes is feeding `a + b` bytes. -/
def Obligations.ChunksMayBeSplit : Prop :=
  ∀ (s t : State) (a b : Nat), a + b ≤ 65535 → s.phase ∈ decodePhases → s.credit = none →
    s.busy = true → s.done = false →
    exec (.decChunk (BitVec.ofNat 16 a)) s = .next t → t.done = true →
    exec (.decChunk (BitVec.ofNat 16 (a + b))) s =
      exec (.decChunk (BitVec.ofNat 16 b)) { t with busy := true, done := false }

/-- R409, R412: end of input before the payload, with an ABSENT tree, or with fewer pending bytes than a tree needs, or
a marker that is not 1 to 8. -/
def Obligations.DecEndWithoutAWalk : Prop :=
  ∀ s : State,
    (s.phase ∈ [.dLen0, .dLen1, .dHdr] → exec .decEnd s = .next (State.erred 0x12#8 s.dpos s)) ∧
    (s.phase = .dPay → s.tstate = .absent → s.pend.length ≤ 2 →
      exec .decEnd s = .next
        (match s.pend with
        | [] => State.erred 0x13#8 0#32 s
        | [(m, _)] =>
            if m = 0#8 then { s with phase := .dDone, busy := false, done := true, todo := [] }
            else State.erred 0x14#8 (m.zeroExtend 32) s
        | (_, o) :: _ => State.erred 0x17#8 o s)) ∧
    (s.phase = .dPay → s.tstate = .present → s.pend.length < 2 →
      exec .decEnd s = .next (State.erred 0x13#8 (BitVec.ofNat 32 s.pend.length) s)) ∧
    ∀ p m : Byte × Word, s.phase = .dPay → s.tstate = .present → s.pend = [p, m] →
      (m.1.toNat = 0 ∨ 8 < m.1.toNat) → exec .decEnd s = .next (State.erred 0x14#8 (m.1.zeroExtend 32) s)

/-- R409 to R411, R421: end of input walks the first `v` bits of the final byte, and a walk that does not end at the
root raises TRUNCATED_CODE. -/
def Obligations.DecEndWalksTheValidBits : Prop :=
  ∀ (s : State) (p v : Byte) (o o' : Word), s.phase = .dPay → s.tstate = .present → s.pend = [(p, o), (v, o')] →
    1 ≤ v.toNat → v.toNat ≤ 8 →
    let w := walkResult s ((bitsOfByte p).take v.toNat) s.cur
    RoomFor (symTexts s.cfg w.syms).length s →
    let s1 := { s.sent (symTexts s.cfg w.syms) with
      cur := w.cur, statSyms := s.statSyms + BitVec.ofNat 32 w.syms.length }
    exec .decEnd s = .next
      (if w.bad then State.erred 0x16#8 o s1
      else if w.cur = s.root then { s1 with phase := .dDone, busy := false, done := true, todo := [] }
      else State.erred 0x15#8 (w.cur.zeroExtend 32) s1)

/-- R351, R400, R423: the stream that an encode session pushes for a symbol sequence, with the same second pass as
first, decodes in one chunk to the texts of those symbols; the empty sequence decodes to nothing. -/
def Obligations.DecodeUndoesEncode : Prop :=
  ∀ (s t d : State) (syms : List Sym), s.cfg.wf = true → (∀ sym ∈ syms, s.cfg.validSym sym = true) →
    s.credit = none → s.outFifo = [] →
    runCommands (.encBegin :: syms.map .ftCount ++ .encHeader :: syms.map .encSym ++ [.encFinish]) s = some t →
    d.cfg = s.cfg → d.credit = none → d.inFifo = t.outFifo → d.outFifo = [] →
    (symTexts s.cfg syms).length ≤ s.cfg.outDepth →
    ∃ u, runCommands [.decBegin, .decChunk (BitVec.ofNat 16 t.outFifo.length), .decEnd] d = some u ∧
      u.outFifo = symTexts s.cfg syms ∧ u.inFifo = [] ∧ u.phase = .dDone ∧
      u.statSyms = BitVec.ofNat 32 syms.length

/-! ## The register window (spec/10_state.md, spec/20_memory.md) -/

/-- R34, R530: the fields of STATUS, each at its place, and every reserved bit 0; and `irq` from STATUS and IRQ_EN. -/
def Obligations.StatusShowsItsFields : Prop :=
  ∀ s : State, s.pend.length ≤ 2 →
    (readReg 0x0C#8 s).toNat =
      bitNat s.busy + 2 * bitNat s.err + 4 * bitNat s.done + 8 * bitNat s.cmdOvr + 16 * bitNat s.inOvr +
      32 * bitNat (decide (s.inFifo.length = s.cfg.inDepth)) + 64 * bitNat (decide (s.outFifo.length = 0)) +
      128 * bitNat s.waitIn + 256 * bitNat s.waitOut + 4096 * allPhases.idxOf s.phase +
      65536 * (match s.tstate with
        | .noTree => 0
        | .absent => 1
        | .present => 2) +
      262144 * s.pend.length + 1048576 * bitNat s.sealed ∧
    s.irq = (((readReg 0x0C#8 s).getLsbD 2 && (readReg 0x3C#8 s).getLsbD 0) ||
      ((readReg 0x0C#8 s).getLsbD 1 && (readReg 0x3C#8 s).getLsbD 1))

/-- R101, R102, R104, R105, R107, R115, R457, R571: a read returns its register's value as it is at the access, and pops
OUT at DATA_OUT; it has no other effect, and a command in flight then goes on. Offset bits 1:0 do not matter; a reserved
slot and a write-only register read 0. -/
def Obligations.ReadsOfTheWindow : Prop :=
  ∀ (s : State) (off : BitVec 8) (k : Option Nat) (rest : List HostStep) (slot : Nat),
    s.script = { access := .read off, credit := k } :: rest → off.toNat / 4 = slot →
    ∃ (v : Word),
      let after := { s with script := rest, credit := k, reads := s.reads ++ [(off, v)]
                            statusSeen := s.statusSeen || (decide (slot = 3) && !s.busy)
                            outFifo := if slot = 13 then s.outFifo.drop 1 else s.outFifo }
      (s.busy = false → step s = .next after) ∧ (s.busy = true → step s = .next (resume after)) ∧
      (slot = 13 → v = match s.outFifo with
        | [] => 0#32
        | b :: _ => 0x100#32 ||| b.zeroExtend 32) ∧
      (slot = 0 → v = 0x48554631#32) ∧ (slot = 5 → v = s.arg) ∧ (slot = 6 → v = s.result0) ∧
      (slot = 1 → v = BitVec.ofNat 16 (s.cfg.maxSyms - 1) ++ (if s.cfg.codec = .utf8 then 1#16 else 0#16)) ∧
      (slot = 7 → v = s.result1) ∧ (slot = 8 → v = s.result2) ∧ (slot = 9 → v = s.errCause.zeroExtend 32) ∧
      (slot = 10 → v = s.errInfo) ∧ (slot = 11 → v = s.errCmd) ∧ (slot = 16 → v = s.statSyms) ∧
      (slot = 17 → v = s.statBytes) ∧ (slot = 3 → v = readReg 0x0C#8 s) ∧
      (slot = 14 → v = BitVec.ofNat 16 s.outFifo.length ++ BitVec.ofNat 16 s.inFifo.length) ∧
      (slot = 15 → v = BitVec.ofNat 32 (bitNat s.doneIe + 2 * bitNat s.errIe)) ∧
      (slot = 18 → v = BitVec.ofNat 16 s.cfg.outDepth ++ BitVec.ofNat 16 s.cfg.inDepth) ∧
      (slot = 19 → v = BitVec.ofNat 32 s.cfg.flushBits) ∧ (slot = 20 → v = BitVec.ofNat 32 s.cfg.bpCapBits) ∧
      (slot ∈ [2, 4, 12] ∨ 21 ≤ slot → v = 0#32)

/-- R33, R34, R36, R43, R46, R102, R104, R106, R457: what a write does: DATA_IN, ARG, IRQ_EN and STATUS.DONE; every other
write but CMD's and a soft reset is ignored. A command in flight then goes on. -/
def Obligations.WritesOfTheWindow : Prop :=
  ∀ (s : State) (off : BitVec 8) (v : Word) (k : Option Nat) (rest : List HostStep) (slot : Nat),
    s.script = { access := .write off v, credit := k } :: rest → off.toNat / 4 = slot →
    let s1 := { s with script := rest, credit := k }
    let goesOn := fun t : State => (s.busy = false → step s = .next t) ∧ (s.busy = true → step s = .next (resume t))
    (slot = 12 → s.inFifo.length < s.cfg.inDepth → goesOn { s1 with inFifo := s.inFifo ++ [v.extractLsb' 0 8] }) ∧
    (slot = 12 → s.cfg.inDepth ≤ s.inFifo.length → goesOn { s1 with inOvr := true }) ∧
    (slot = 5 → goesOn { s1 with arg := v }) ∧
    (slot = 15 → goesOn { s1 with doneIe := v.getLsbD 0, errIe := v.getLsbD 1 }) ∧
    (slot = 3 → goesOn { s1 with done := s.done && !v.getLsbD 2 }) ∧
    (slot = 2 → v.getLsbD 0 = false → goesOn s1) ∧
    (slot ∈ [0, 1, 6, 7, 8, 9, 10, 11, 13, 14, 16, 17, 18, 19, 20] ∨ 21 ≤ slot → goesOn s1)

/-- R550, R551, R553: `rst` and a CTRL write with bit 0 = 1 put every piece of the core's state at its reset value in one
step, in every state, with a command in flight or in the error state too. The values of the latch fields other than `busy`
are the model's choice (log entry 4); `credit` and `reads` are the host's side (log entries 2 and 8). -/
def Obligations.ResetFromEveryState : Prop :=
  ∀ (s : State) (a : HostAccess) (k : Option Nat) (rest : List HostStep),
    s.script = { access := a, credit := k } :: rest →
    (a = .rst ∨ ∃ (off : BitVec 8) (v : Word), a = .write off v ∧ off.toNat / 4 = 2 ∧ v.getLsbD 0 = true) →
    step s = .next { State.resetWith s.cfg with script := rest, credit := k, reads := s.reads }

/-- R31, R32, R49 to R51, R65, R68, R102: what every register of the window, and every reserved slot, reads as after
reset, and `irq`. -/
def Obligations.WindowAfterReset : Prop :=
  ∀ c : Config, c.wf = true →
    let s := State.resetWith c
    (readReg 0x0C#8 s).toNat = 0x40 ∧ s.irq = false ∧
    readReg 0x00#8 s = 0x48554631#32 ∧
    (∀ off : BitVec 8,
      off.toNat / 4 ∈ [2, 4, 5, 6, 7, 8, 9, 10, 11, 12, 13, 14, 15, 16, 17] ∨ 21 ≤ off.toNat / 4 →
      readReg off s = 0#32) ∧
    (readReg 0x04#8 s).toNat = (if c.codec = .utf8 then 1 else 0) + 65536 * (c.maxSyms - 1) ∧
    (readReg 0x48#8 s).toNat = c.inDepth + 65536 * c.outDepth ∧
    (readReg 0x4C#8 s).toNat = c.flushBits ∧ (readReg 0x50#8 s).toNat = c.bpCapBits

/-! ## Rules about the whole machine -/

/-- R36, R46, R554: no command writes ARG, IRQ_EN or the parameters, and no step changes the parameters. R56: while a
command is in flight its latched word and argument stay. That they stay after the command has ended too is the model's
choice (log entry 4), and `script` and `reads` are the host's side (log entries 1 and 8). -/
def Obligations.WhatNoCommandWrites : Prop :=
  (∀ (i : Instr) (s t : State), exec i s = .next t →
    t.arg = s.arg ∧ t.doneIe = s.doneIe ∧ t.errIe = s.errIe ∧ t.cmdWord = s.cmdWord ∧ t.cmdArg = s.cmdArg ∧
    t.cfg = s.cfg ∧ t.script = s.script ∧ t.reads = s.reads) ∧
  ∀ s t : State, step s = .next t → t.cfg = s.cfg

/-- R39, R112: only the queries write RESULT0 to RESULT2, and each memory and FIFO is written only by the commands that
the rules name for it; this is so of a command that ends, waits or raises. -/
def Obligations.EachMemoryHasItsWriters : Prop :=
  ∀ (i : Instr) (s t : State), exec i s = .next t →
    (isQuery i = false → t.result0 = s.result0 ∧ t.result1 = s.result1 ∧ t.result2 = s.result2) ∧
    (writesFt i = false → t.ft = s.ft ∧ t.total = s.total) ∧
    (writesTree i = false → t.tstate = s.tstate ∧ t.nodes = s.nodes ∧ t.root = s.root ∧ t.ct = s.ct) ∧
    (writesPacker i = false → t.bp = s.bp ∧ t.tvb = s.tvb ∧ t.sealed = s.sealed) ∧
    (writesDecoder i = false → t.hlen = s.hlen ∧ t.dpos = s.dpos ∧ t.pend = s.pend ∧ t.cur = s.cur) ∧
    (writesDecoder i = false → i ≠ .tsDeserialize → t.hbuf = s.hbuf) ∧
    (writesIn i = false → t.inFifo = s.inFifo) ∧ (writesOut i = false → t.outFifo = s.outFifo) ∧
    (i ≠ .abort → t.cmdOvr = s.cmdOvr ∧ t.inOvr = s.inOvr)

/-- R20, R451, R457: a step with no credit limit leaves the core with no command in flight, or waiting on an empty IN or
a full OUT. -/
def Obligations.StepRunsUntilWaitOrEnd : Prop :=
  ∀ s t : State, (∀ h rest, s.script = h :: rest → h.credit = none) → step s = .next t → t.busy = true →
    t.waitIn = true ∨ t.waitOut = true

/-- R16, R20, R36, R115, R457: how a command comes to its end does not depend on where it is stopped, nor on when the
host pushes and pops. Stop it at a full OUT, an empty IN, or any of its blocking points; let the host push `ys` and pop
`n` bytes, and the command go on: the state is that of a run with `ys` in IN from the start and room for `n` bytes more,
but for the `n` bytes popped. This is so of a command from its start and from any position; and nothing else that the host
may change meanwhile reaches the command. (ABORT, which never stops, empties IN.) -/
def Obligations.PausedCommandEndsTheSame : Prop :=
  (∀ (i : Instr) (s t u : State) (k : Option Nat) (ys : ByteSeq) (n : Nat), s.busy = true → (i = .abort → ys = []) →
    exec i { s with credit := k } = .next t → exec i (s.servedAhead ys n) = .next u → n ≤ t.outFifo.length →
    resume (t.served ys n) = u.poppedTo s.cfg n) ∧
  (∀ (s t : State) (k : Option Nat) (ys : ByteSeq) (n : Nat),
    resume { s with credit := k } = t → n ≤ t.outFifo.length →
    resume (t.served ys n) = (resume (s.servedAhead ys n)).poppedTo s.cfg n) ∧
  ∀ (s : State) (arg : Word) (doneIe errIe cmdOvr inOvr : Bool) (script : List HostStep)
    (reads : List (BitVec 8 × Word)) (seen : Bool),
    resume (s.withHostSide arg doneIe errIe cmdOvr inOvr script reads seen) =
      (resume s).withHostSide arg doneIe errIe cmdOvr inOvr script reads seen

/-- R34, R40 to R42, R526: DONE and ERR are never both 1, the ERR_ registers hold 0 while ERR = 0, and a command in
flight has neither flag: every step keeps this, and leaves a command in flight only at a blocking point. -/
def Obligations.FlagsStayConsistent : Prop :=
  ∀ s t : State, FlagsInv s → step s = .next t → FlagsInv t ∧ AtBlockingPoint t

/-- R62, R63: every step keeps the FIFOs within their depths and at most two bytes pending. -/
def Obligations.FifosStayWithinTheirDepths : Prop :=
  ∀ s t : State, FifoInv s → PendInv s → step s = .next t → FifoInv t ∧ PendInv t

/-- R58, R59: every step keeps FT canonical and within MAX_SYMS, its keys valid symbols and `total` the sum of the
counts; and no node and no CT entry without a tree. -/
def Obligations.FtStaysCanonical : Prop :=
  ∀ s t : State, FtInv s → NoTreeInv s → step s = .next t → FtInv t ∧ NoTreeInv t

/-- R60, R207, R209: every step keeps CT canonical and prefix-free, its codes within MAX_CODE_LEN, and a symbol's entry
valid exactly when a LEAF of the PRESENT tree has the symbol, with that leaf's code and frequency; so for a built and for
a loaded tree. -/
def Obligations.CtStaysPrefixFree : Prop :=
  ∀ s t : State, s.cfg.wf = true → FtInv s → CtInv s → step s = .next t → CtInv t

/-- R61, R309: every step keeps the invariant of the bit packer; R353: and that of an encode session, in which the packer
is unsealed with fewer than FLUSH_BITS bits whenever no command of the second pass is in flight. -/
def Obligations.PackerInvariantKept : Prop :=
  (∀ s t : State, PackerInv s → step s = .next t → PackerInv t) ∧
  ∀ s t : State, s.cfg.wf = true → SessionInv s → step s = .next t → SessionInv t

/-- R68: the reset state of every build meets all the invariants. -/
def Obligations.ResetMeetsTheInvariants : Prop :=
  ∀ c : Config, c.wf = true → Inv (State.resetWith c)
end

