-- ==== Sys2Proof/Laws/State.lean ====
section
/-! SUPPORT. The small lemmas of the named updates of State: one per field and update, true by `rfl`, so that no proof
unfolds a record update. -/

namespace Sys2Proof.Machine

/-! ### `errorEntry` -/

@[simp] theorem errorEntry_cfg (cause : Cause) (info : Word) (s : State) : (errorEntry cause info s).cfg = s.cfg := rfl
@[simp] theorem errorEntry_arg (cause : Cause) (info : Word) (s : State) : (errorEntry cause info s).arg = s.arg := rfl
@[simp] theorem errorEntry_result0 (cause : Cause) (info : Word) (s : State) : (errorEntry cause info s).result0 = s.result0 := rfl
@[simp] theorem errorEntry_result1 (cause : Cause) (info : Word) (s : State) : (errorEntry cause info s).result1 = s.result1 := rfl
@[simp] theorem errorEntry_result2 (cause : Cause) (info : Word) (s : State) : (errorEntry cause info s).result2 = s.result2 := rfl
@[simp] theorem errorEntry_errCause (cause : Cause) (info : Word) (s : State) : (errorEntry cause info s).errCause = cause.code := rfl
@[simp] theorem errorEntry_errInfo (cause : Cause) (info : Word) (s : State) : (errorEntry cause info s).errInfo = info := rfl
@[simp] theorem errorEntry_errCmd (cause : Cause) (info : Word) (s : State) : (errorEntry cause info s).errCmd = s.cmdWord := rfl
@[simp] theorem errorEntry_doneIe (cause : Cause) (info : Word) (s : State) : (errorEntry cause info s).doneIe = s.doneIe := rfl
@[simp] theorem errorEntry_errIe (cause : Cause) (info : Word) (s : State) : (errorEntry cause info s).errIe = s.errIe := rfl
@[simp] theorem errorEntry_busy (cause : Cause) (info : Word) (s : State) : (errorEntry cause info s).busy = false := rfl
@[simp] theorem errorEntry_err (cause : Cause) (info : Word) (s : State) : (errorEntry cause info s).err = true := rfl
@[simp] theorem errorEntry_done (cause : Cause) (info : Word) (s : State) : (errorEntry cause info s).done = s.done := rfl
@[simp] theorem errorEntry_cmdOvr (cause : Cause) (info : Word) (s : State) : (errorEntry cause info s).cmdOvr = s.cmdOvr := rfl
@[simp] theorem errorEntry_inOvr (cause : Cause) (info : Word) (s : State) : (errorEntry cause info s).inOvr = s.inOvr := rfl
@[simp] theorem errorEntry_cmdWord (cause : Cause) (info : Word) (s : State) : (errorEntry cause info s).cmdWord = s.cmdWord := rfl
@[simp] theorem errorEntry_cmdArg (cause : Cause) (info : Word) (s : State) : (errorEntry cause info s).cmdArg = s.cmdArg := rfl
@[simp] theorem errorEntry_todo (cause : Cause) (info : Word) (s : State) : (errorEntry cause info s).todo = [] := rfl
@[simp] theorem errorEntry_phase (cause : Cause) (info : Word) (s : State) : (errorEntry cause info s).phase = s.phase := rfl
@[simp] theorem errorEntry_ft (cause : Cause) (info : Word) (s : State) : (errorEntry cause info s).ft = s.ft := rfl
@[simp] theorem errorEntry_total (cause : Cause) (info : Word) (s : State) : (errorEntry cause info s).total = s.total := rfl
@[simp] theorem errorEntry_tstate (cause : Cause) (info : Word) (s : State) : (errorEntry cause info s).tstate = s.tstate := rfl
@[simp] theorem errorEntry_nodes (cause : Cause) (info : Word) (s : State) : (errorEntry cause info s).nodes = s.nodes := rfl
@[simp] theorem errorEntry_root (cause : Cause) (info : Word) (s : State) : (errorEntry cause info s).root = s.root := rfl
@[simp] theorem errorEntry_ct (cause : Cause) (info : Word) (s : State) : (errorEntry cause info s).ct = s.ct := rfl
@[simp] theorem errorEntry_bp (cause : Cause) (info : Word) (s : State) : (errorEntry cause info s).bp = s.bp := rfl
@[simp] theorem errorEntry_tvb (cause : Cause) (info : Word) (s : State) : (errorEntry cause info s).tvb = s.tvb := rfl
@[simp] theorem errorEntry_sealed (cause : Cause) (info : Word) (s : State) : (errorEntry cause info s).sealed = s.sealed := rfl
@[simp] theorem errorEntry_hlen (cause : Cause) (info : Word) (s : State) : (errorEntry cause info s).hlen = s.hlen := rfl
@[simp] theorem errorEntry_hbuf (cause : Cause) (info : Word) (s : State) : (errorEntry cause info s).hbuf = s.hbuf := rfl
@[simp] theorem errorEntry_dpos (cause : Cause) (info : Word) (s : State) : (errorEntry cause info s).dpos = s.dpos := rfl
@[simp] theorem errorEntry_pend (cause : Cause) (info : Word) (s : State) : (errorEntry cause info s).pend = s.pend := rfl
@[simp] theorem errorEntry_cur (cause : Cause) (info : Word) (s : State) : (errorEntry cause info s).cur = s.cur := rfl
@[simp] theorem errorEntry_inFifo (cause : Cause) (info : Word) (s : State) : (errorEntry cause info s).inFifo = s.inFifo := rfl
@[simp] theorem errorEntry_outFifo (cause : Cause) (info : Word) (s : State) : (errorEntry cause info s).outFifo = s.outFifo := rfl
@[simp] theorem errorEntry_statSyms (cause : Cause) (info : Word) (s : State) : (errorEntry cause info s).statSyms = s.statSyms := rfl
@[simp] theorem errorEntry_statBytes (cause : Cause) (info : Word) (s : State) : (errorEntry cause info s).statBytes = s.statBytes := rfl
@[simp] theorem errorEntry_script (cause : Cause) (info : Word) (s : State) : (errorEntry cause info s).script = s.script := rfl
@[simp] theorem errorEntry_credit (cause : Cause) (info : Word) (s : State) : (errorEntry cause info s).credit = s.credit := rfl
@[simp] theorem errorEntry_reads (cause : Cause) (info : Word) (s : State) : (errorEntry cause info s).reads = s.reads := rfl
@[simp] theorem errorEntry_statusSeen (cause : Cause) (info : Word) (s : State) : (errorEntry cause info s).statusSeen = s.statusSeen := rfl

/-! ### `complete` -/

@[simp] theorem complete_cfg (s : State) : (complete s).cfg = s.cfg := rfl
@[simp] theorem complete_arg (s : State) : (complete s).arg = s.arg := rfl
@[simp] theorem complete_result0 (s : State) : (complete s).result0 = s.result0 := rfl
@[simp] theorem complete_result1 (s : State) : (complete s).result1 = s.result1 := rfl
@[simp] theorem complete_result2 (s : State) : (complete s).result2 = s.result2 := rfl
@[simp] theorem complete_errCause (s : State) : (complete s).errCause = s.errCause := rfl
@[simp] theorem complete_errInfo (s : State) : (complete s).errInfo = s.errInfo := rfl
@[simp] theorem complete_errCmd (s : State) : (complete s).errCmd = s.errCmd := rfl
@[simp] theorem complete_doneIe (s : State) : (complete s).doneIe = s.doneIe := rfl
@[simp] theorem complete_errIe (s : State) : (complete s).errIe = s.errIe := rfl
@[simp] theorem complete_busy (s : State) : (complete s).busy = false := rfl
@[simp] theorem complete_err (s : State) : (complete s).err = s.err := rfl
@[simp] theorem complete_done (s : State) : (complete s).done = true := rfl
@[simp] theorem complete_cmdOvr (s : State) : (complete s).cmdOvr = s.cmdOvr := rfl
@[simp] theorem complete_inOvr (s : State) : (complete s).inOvr = s.inOvr := rfl
@[simp] theorem complete_cmdWord (s : State) : (complete s).cmdWord = s.cmdWord := rfl
@[simp] theorem complete_cmdArg (s : State) : (complete s).cmdArg = s.cmdArg := rfl
@[simp] theorem complete_todo (s : State) : (complete s).todo = [] := rfl
@[simp] theorem complete_phase (s : State) : (complete s).phase = s.phase := rfl
@[simp] theorem complete_ft (s : State) : (complete s).ft = s.ft := rfl
@[simp] theorem complete_total (s : State) : (complete s).total = s.total := rfl
@[simp] theorem complete_tstate (s : State) : (complete s).tstate = s.tstate := rfl
@[simp] theorem complete_nodes (s : State) : (complete s).nodes = s.nodes := rfl
@[simp] theorem complete_root (s : State) : (complete s).root = s.root := rfl
@[simp] theorem complete_ct (s : State) : (complete s).ct = s.ct := rfl
@[simp] theorem complete_bp (s : State) : (complete s).bp = s.bp := rfl
@[simp] theorem complete_tvb (s : State) : (complete s).tvb = s.tvb := rfl
@[simp] theorem complete_sealed (s : State) : (complete s).sealed = s.sealed := rfl
@[simp] theorem complete_hlen (s : State) : (complete s).hlen = s.hlen := rfl
@[simp] theorem complete_hbuf (s : State) : (complete s).hbuf = s.hbuf := rfl
@[simp] theorem complete_dpos (s : State) : (complete s).dpos = s.dpos := rfl
@[simp] theorem complete_pend (s : State) : (complete s).pend = s.pend := rfl
@[simp] theorem complete_cur (s : State) : (complete s).cur = s.cur := rfl
@[simp] theorem complete_inFifo (s : State) : (complete s).inFifo = s.inFifo := rfl
@[simp] theorem complete_outFifo (s : State) : (complete s).outFifo = s.outFifo := rfl
@[simp] theorem complete_statSyms (s : State) : (complete s).statSyms = s.statSyms := rfl
@[simp] theorem complete_statBytes (s : State) : (complete s).statBytes = s.statBytes := rfl
@[simp] theorem complete_script (s : State) : (complete s).script = s.script := rfl
@[simp] theorem complete_credit (s : State) : (complete s).credit = s.credit := rfl
@[simp] theorem complete_reads (s : State) : (complete s).reads = s.reads := rfl
@[simp] theorem complete_statusSeen (s : State) : (complete s).statusSeen = s.statusSeen := rfl

/-! ### `result` -/

@[simp] theorem result_cfg (r0 r1 r2 : Word) (s : State) : (result r0 r1 r2 s).cfg = s.cfg := rfl
@[simp] theorem result_arg (r0 r1 r2 : Word) (s : State) : (result r0 r1 r2 s).arg = s.arg := rfl
@[simp] theorem result_result0 (r0 r1 r2 : Word) (s : State) : (result r0 r1 r2 s).result0 = r0 := rfl
@[simp] theorem result_result1 (r0 r1 r2 : Word) (s : State) : (result r0 r1 r2 s).result1 = r1 := rfl
@[simp] theorem result_result2 (r0 r1 r2 : Word) (s : State) : (result r0 r1 r2 s).result2 = r2 := rfl
@[simp] theorem result_errCause (r0 r1 r2 : Word) (s : State) : (result r0 r1 r2 s).errCause = s.errCause := rfl
@[simp] theorem result_errInfo (r0 r1 r2 : Word) (s : State) : (result r0 r1 r2 s).errInfo = s.errInfo := rfl
@[simp] theorem result_errCmd (r0 r1 r2 : Word) (s : State) : (result r0 r1 r2 s).errCmd = s.errCmd := rfl
@[simp] theorem result_doneIe (r0 r1 r2 : Word) (s : State) : (result r0 r1 r2 s).doneIe = s.doneIe := rfl
@[simp] theorem result_errIe (r0 r1 r2 : Word) (s : State) : (result r0 r1 r2 s).errIe = s.errIe := rfl
@[simp] theorem result_busy (r0 r1 r2 : Word) (s : State) : (result r0 r1 r2 s).busy = s.busy := rfl
@[simp] theorem result_err (r0 r1 r2 : Word) (s : State) : (result r0 r1 r2 s).err = s.err := rfl
@[simp] theorem result_done (r0 r1 r2 : Word) (s : State) : (result r0 r1 r2 s).done = s.done := rfl
@[simp] theorem result_cmdOvr (r0 r1 r2 : Word) (s : State) : (result r0 r1 r2 s).cmdOvr = s.cmdOvr := rfl
@[simp] theorem result_inOvr (r0 r1 r2 : Word) (s : State) : (result r0 r1 r2 s).inOvr = s.inOvr := rfl
@[simp] theorem result_cmdWord (r0 r1 r2 : Word) (s : State) : (result r0 r1 r2 s).cmdWord = s.cmdWord := rfl
@[simp] theorem result_cmdArg (r0 r1 r2 : Word) (s : State) : (result r0 r1 r2 s).cmdArg = s.cmdArg := rfl
@[simp] theorem result_todo (r0 r1 r2 : Word) (s : State) : (result r0 r1 r2 s).todo = s.todo := rfl
@[simp] theorem result_phase (r0 r1 r2 : Word) (s : State) : (result r0 r1 r2 s).phase = s.phase := rfl
@[simp] theorem result_ft (r0 r1 r2 : Word) (s : State) : (result r0 r1 r2 s).ft = s.ft := rfl
@[simp] theorem result_total (r0 r1 r2 : Word) (s : State) : (result r0 r1 r2 s).total = s.total := rfl
@[simp] theorem result_tstate (r0 r1 r2 : Word) (s : State) : (result r0 r1 r2 s).tstate = s.tstate := rfl
@[simp] theorem result_nodes (r0 r1 r2 : Word) (s : State) : (result r0 r1 r2 s).nodes = s.nodes := rfl
@[simp] theorem result_root (r0 r1 r2 : Word) (s : State) : (result r0 r1 r2 s).root = s.root := rfl
@[simp] theorem result_ct (r0 r1 r2 : Word) (s : State) : (result r0 r1 r2 s).ct = s.ct := rfl
@[simp] theorem result_bp (r0 r1 r2 : Word) (s : State) : (result r0 r1 r2 s).bp = s.bp := rfl
@[simp] theorem result_tvb (r0 r1 r2 : Word) (s : State) : (result r0 r1 r2 s).tvb = s.tvb := rfl
@[simp] theorem result_sealed (r0 r1 r2 : Word) (s : State) : (result r0 r1 r2 s).sealed = s.sealed := rfl
@[simp] theorem result_hlen (r0 r1 r2 : Word) (s : State) : (result r0 r1 r2 s).hlen = s.hlen := rfl
@[simp] theorem result_hbuf (r0 r1 r2 : Word) (s : State) : (result r0 r1 r2 s).hbuf = s.hbuf := rfl
@[simp] theorem result_dpos (r0 r1 r2 : Word) (s : State) : (result r0 r1 r2 s).dpos = s.dpos := rfl
@[simp] theorem result_pend (r0 r1 r2 : Word) (s : State) : (result r0 r1 r2 s).pend = s.pend := rfl
@[simp] theorem result_cur (r0 r1 r2 : Word) (s : State) : (result r0 r1 r2 s).cur = s.cur := rfl
@[simp] theorem result_inFifo (r0 r1 r2 : Word) (s : State) : (result r0 r1 r2 s).inFifo = s.inFifo := rfl
@[simp] theorem result_outFifo (r0 r1 r2 : Word) (s : State) : (result r0 r1 r2 s).outFifo = s.outFifo := rfl
@[simp] theorem result_statSyms (r0 r1 r2 : Word) (s : State) : (result r0 r1 r2 s).statSyms = s.statSyms := rfl
@[simp] theorem result_statBytes (r0 r1 r2 : Word) (s : State) : (result r0 r1 r2 s).statBytes = s.statBytes := rfl
@[simp] theorem result_script (r0 r1 r2 : Word) (s : State) : (result r0 r1 r2 s).script = s.script := rfl
@[simp] theorem result_credit (r0 r1 r2 : Word) (s : State) : (result r0 r1 r2 s).credit = s.credit := rfl
@[simp] theorem result_reads (r0 r1 r2 : Word) (s : State) : (result r0 r1 r2 s).reads = s.reads := rfl
@[simp] theorem result_statusSeen (r0 r1 r2 : Word) (s : State) : (result r0 r1 r2 s).statusSeen = s.statusSeen := rfl

/-! ### `ftClear` -/

@[simp] theorem ftClear_cfg (s : State) : (ftClear s).cfg = s.cfg := rfl
@[simp] theorem ftClear_arg (s : State) : (ftClear s).arg = s.arg := rfl
@[simp] theorem ftClear_result0 (s : State) : (ftClear s).result0 = s.result0 := rfl
@[simp] theorem ftClear_result1 (s : State) : (ftClear s).result1 = s.result1 := rfl
@[simp] theorem ftClear_result2 (s : State) : (ftClear s).result2 = s.result2 := rfl
@[simp] theorem ftClear_errCause (s : State) : (ftClear s).errCause = s.errCause := rfl
@[simp] theorem ftClear_errInfo (s : State) : (ftClear s).errInfo = s.errInfo := rfl
@[simp] theorem ftClear_errCmd (s : State) : (ftClear s).errCmd = s.errCmd := rfl
@[simp] theorem ftClear_doneIe (s : State) : (ftClear s).doneIe = s.doneIe := rfl
@[simp] theorem ftClear_errIe (s : State) : (ftClear s).errIe = s.errIe := rfl
@[simp] theorem ftClear_busy (s : State) : (ftClear s).busy = s.busy := rfl
@[simp] theorem ftClear_err (s : State) : (ftClear s).err = s.err := rfl
@[simp] theorem ftClear_done (s : State) : (ftClear s).done = s.done := rfl
@[simp] theorem ftClear_cmdOvr (s : State) : (ftClear s).cmdOvr = s.cmdOvr := rfl
@[simp] theorem ftClear_inOvr (s : State) : (ftClear s).inOvr = s.inOvr := rfl
@[simp] theorem ftClear_cmdWord (s : State) : (ftClear s).cmdWord = s.cmdWord := rfl
@[simp] theorem ftClear_cmdArg (s : State) : (ftClear s).cmdArg = s.cmdArg := rfl
@[simp] theorem ftClear_todo (s : State) : (ftClear s).todo = s.todo := rfl
@[simp] theorem ftClear_phase (s : State) : (ftClear s).phase = s.phase := rfl
@[simp] theorem ftClear_ft (s : State) : (ftClear s).ft = [] := rfl
@[simp] theorem ftClear_total (s : State) : (ftClear s).total = 0#32 := rfl
@[simp] theorem ftClear_tstate (s : State) : (ftClear s).tstate = s.tstate := rfl
@[simp] theorem ftClear_nodes (s : State) : (ftClear s).nodes = s.nodes := rfl
@[simp] theorem ftClear_root (s : State) : (ftClear s).root = s.root := rfl
@[simp] theorem ftClear_ct (s : State) : (ftClear s).ct = s.ct := rfl
@[simp] theorem ftClear_bp (s : State) : (ftClear s).bp = s.bp := rfl
@[simp] theorem ftClear_tvb (s : State) : (ftClear s).tvb = s.tvb := rfl
@[simp] theorem ftClear_sealed (s : State) : (ftClear s).sealed = s.sealed := rfl
@[simp] theorem ftClear_hlen (s : State) : (ftClear s).hlen = s.hlen := rfl
@[simp] theorem ftClear_hbuf (s : State) : (ftClear s).hbuf = s.hbuf := rfl
@[simp] theorem ftClear_dpos (s : State) : (ftClear s).dpos = s.dpos := rfl
@[simp] theorem ftClear_pend (s : State) : (ftClear s).pend = s.pend := rfl
@[simp] theorem ftClear_cur (s : State) : (ftClear s).cur = s.cur := rfl
@[simp] theorem ftClear_inFifo (s : State) : (ftClear s).inFifo = s.inFifo := rfl
@[simp] theorem ftClear_outFifo (s : State) : (ftClear s).outFifo = s.outFifo := rfl
@[simp] theorem ftClear_statSyms (s : State) : (ftClear s).statSyms = s.statSyms := rfl
@[simp] theorem ftClear_statBytes (s : State) : (ftClear s).statBytes = s.statBytes := rfl
@[simp] theorem ftClear_script (s : State) : (ftClear s).script = s.script := rfl
@[simp] theorem ftClear_credit (s : State) : (ftClear s).credit = s.credit := rfl
@[simp] theorem ftClear_reads (s : State) : (ftClear s).reads = s.reads := rfl
@[simp] theorem ftClear_statusSeen (s : State) : (ftClear s).statusSeen = s.statusSeen := rfl

/-! ### `treeClear` -/

@[simp] theorem treeClear_cfg (s : State) : (treeClear s).cfg = s.cfg := rfl
@[simp] theorem treeClear_arg (s : State) : (treeClear s).arg = s.arg := rfl
@[simp] theorem treeClear_result0 (s : State) : (treeClear s).result0 = s.result0 := rfl
@[simp] theorem treeClear_result1 (s : State) : (treeClear s).result1 = s.result1 := rfl
@[simp] theorem treeClear_result2 (s : State) : (treeClear s).result2 = s.result2 := rfl
@[simp] theorem treeClear_errCause (s : State) : (treeClear s).errCause = s.errCause := rfl
@[simp] theorem treeClear_errInfo (s : State) : (treeClear s).errInfo = s.errInfo := rfl
@[simp] theorem treeClear_errCmd (s : State) : (treeClear s).errCmd = s.errCmd := rfl
@[simp] theorem treeClear_doneIe (s : State) : (treeClear s).doneIe = s.doneIe := rfl
@[simp] theorem treeClear_errIe (s : State) : (treeClear s).errIe = s.errIe := rfl
@[simp] theorem treeClear_busy (s : State) : (treeClear s).busy = s.busy := rfl
@[simp] theorem treeClear_err (s : State) : (treeClear s).err = s.err := rfl
@[simp] theorem treeClear_done (s : State) : (treeClear s).done = s.done := rfl
@[simp] theorem treeClear_cmdOvr (s : State) : (treeClear s).cmdOvr = s.cmdOvr := rfl
@[simp] theorem treeClear_inOvr (s : State) : (treeClear s).inOvr = s.inOvr := rfl
@[simp] theorem treeClear_cmdWord (s : State) : (treeClear s).cmdWord = s.cmdWord := rfl
@[simp] theorem treeClear_cmdArg (s : State) : (treeClear s).cmdArg = s.cmdArg := rfl
@[simp] theorem treeClear_todo (s : State) : (treeClear s).todo = s.todo := rfl
@[simp] theorem treeClear_phase (s : State) : (treeClear s).phase = s.phase := rfl
@[simp] theorem treeClear_ft (s : State) : (treeClear s).ft = s.ft := rfl
@[simp] theorem treeClear_total (s : State) : (treeClear s).total = s.total := rfl
@[simp] theorem treeClear_tstate (s : State) : (treeClear s).tstate = .noTree := rfl
@[simp] theorem treeClear_nodes (s : State) : (treeClear s).nodes = [] := rfl
@[simp] theorem treeClear_root (s : State) : (treeClear s).root = 0#16 := rfl
@[simp] theorem treeClear_ct (s : State) : (treeClear s).ct = [] := rfl
@[simp] theorem treeClear_bp (s : State) : (treeClear s).bp = s.bp := rfl
@[simp] theorem treeClear_tvb (s : State) : (treeClear s).tvb = s.tvb := rfl
@[simp] theorem treeClear_sealed (s : State) : (treeClear s).sealed = s.sealed := rfl
@[simp] theorem treeClear_hlen (s : State) : (treeClear s).hlen = s.hlen := rfl
@[simp] theorem treeClear_hbuf (s : State) : (treeClear s).hbuf = s.hbuf := rfl
@[simp] theorem treeClear_dpos (s : State) : (treeClear s).dpos = s.dpos := rfl
@[simp] theorem treeClear_pend (s : State) : (treeClear s).pend = s.pend := rfl
@[simp] theorem treeClear_cur (s : State) : (treeClear s).cur = s.cur := rfl
@[simp] theorem treeClear_inFifo (s : State) : (treeClear s).inFifo = s.inFifo := rfl
@[simp] theorem treeClear_outFifo (s : State) : (treeClear s).outFifo = s.outFifo := rfl
@[simp] theorem treeClear_statSyms (s : State) : (treeClear s).statSyms = s.statSyms := rfl
@[simp] theorem treeClear_statBytes (s : State) : (treeClear s).statBytes = s.statBytes := rfl
@[simp] theorem treeClear_script (s : State) : (treeClear s).script = s.script := rfl
@[simp] theorem treeClear_credit (s : State) : (treeClear s).credit = s.credit := rfl
@[simp] theorem treeClear_reads (s : State) : (treeClear s).reads = s.reads := rfl
@[simp] theorem treeClear_statusSeen (s : State) : (treeClear s).statusSeen = s.statusSeen := rfl

/-! ### `bpClear` -/

@[simp] theorem bpClear_cfg (s : State) : (bpClear s).cfg = s.cfg := rfl
@[simp] theorem bpClear_arg (s : State) : (bpClear s).arg = s.arg := rfl
@[simp] theorem bpClear_result0 (s : State) : (bpClear s).result0 = s.result0 := rfl
@[simp] theorem bpClear_result1 (s : State) : (bpClear s).result1 = s.result1 := rfl
@[simp] theorem bpClear_result2 (s : State) : (bpClear s).result2 = s.result2 := rfl
@[simp] theorem bpClear_errCause (s : State) : (bpClear s).errCause = s.errCause := rfl
@[simp] theorem bpClear_errInfo (s : State) : (bpClear s).errInfo = s.errInfo := rfl
@[simp] theorem bpClear_errCmd (s : State) : (bpClear s).errCmd = s.errCmd := rfl
@[simp] theorem bpClear_doneIe (s : State) : (bpClear s).doneIe = s.doneIe := rfl
@[simp] theorem bpClear_errIe (s : State) : (bpClear s).errIe = s.errIe := rfl
@[simp] theorem bpClear_busy (s : State) : (bpClear s).busy = s.busy := rfl
@[simp] theorem bpClear_err (s : State) : (bpClear s).err = s.err := rfl
@[simp] theorem bpClear_done (s : State) : (bpClear s).done = s.done := rfl
@[simp] theorem bpClear_cmdOvr (s : State) : (bpClear s).cmdOvr = s.cmdOvr := rfl
@[simp] theorem bpClear_inOvr (s : State) : (bpClear s).inOvr = s.inOvr := rfl
@[simp] theorem bpClear_cmdWord (s : State) : (bpClear s).cmdWord = s.cmdWord := rfl
@[simp] theorem bpClear_cmdArg (s : State) : (bpClear s).cmdArg = s.cmdArg := rfl
@[simp] theorem bpClear_todo (s : State) : (bpClear s).todo = s.todo := rfl
@[simp] theorem bpClear_phase (s : State) : (bpClear s).phase = s.phase := rfl
@[simp] theorem bpClear_ft (s : State) : (bpClear s).ft = s.ft := rfl
@[simp] theorem bpClear_total (s : State) : (bpClear s).total = s.total := rfl
@[simp] theorem bpClear_tstate (s : State) : (bpClear s).tstate = s.tstate := rfl
@[simp] theorem bpClear_nodes (s : State) : (bpClear s).nodes = s.nodes := rfl
@[simp] theorem bpClear_root (s : State) : (bpClear s).root = s.root := rfl
@[simp] theorem bpClear_ct (s : State) : (bpClear s).ct = s.ct := rfl
@[simp] theorem bpClear_bp (s : State) : (bpClear s).bp = [] := rfl
@[simp] theorem bpClear_tvb (s : State) : (bpClear s).tvb = 0#4 := rfl
@[simp] theorem bpClear_sealed (s : State) : (bpClear s).sealed = false := rfl
@[simp] theorem bpClear_hlen (s : State) : (bpClear s).hlen = s.hlen := rfl
@[simp] theorem bpClear_hbuf (s : State) : (bpClear s).hbuf = s.hbuf := rfl
@[simp] theorem bpClear_dpos (s : State) : (bpClear s).dpos = s.dpos := rfl
@[simp] theorem bpClear_pend (s : State) : (bpClear s).pend = s.pend := rfl
@[simp] theorem bpClear_cur (s : State) : (bpClear s).cur = s.cur := rfl
@[simp] theorem bpClear_inFifo (s : State) : (bpClear s).inFifo = s.inFifo := rfl
@[simp] theorem bpClear_outFifo (s : State) : (bpClear s).outFifo = s.outFifo := rfl
@[simp] theorem bpClear_statSyms (s : State) : (bpClear s).statSyms = s.statSyms := rfl
@[simp] theorem bpClear_statBytes (s : State) : (bpClear s).statBytes = s.statBytes := rfl
@[simp] theorem bpClear_script (s : State) : (bpClear s).script = s.script := rfl
@[simp] theorem bpClear_credit (s : State) : (bpClear s).credit = s.credit := rfl
@[simp] theorem bpClear_reads (s : State) : (bpClear s).reads = s.reads := rfl
@[simp] theorem bpClear_statusSeen (s : State) : (bpClear s).statusSeen = s.statusSeen := rfl

/-! ### `clearSession` -/

@[simp] theorem clearSession_cfg (s : State) : (clearSession s).cfg = s.cfg := rfl
@[simp] theorem clearSession_arg (s : State) : (clearSession s).arg = s.arg := rfl
@[simp] theorem clearSession_result0 (s : State) : (clearSession s).result0 = s.result0 := rfl
@[simp] theorem clearSession_result1 (s : State) : (clearSession s).result1 = s.result1 := rfl
@[simp] theorem clearSession_result2 (s : State) : (clearSession s).result2 = s.result2 := rfl
@[simp] theorem clearSession_errCause (s : State) : (clearSession s).errCause = s.errCause := rfl
@[simp] theorem clearSession_errInfo (s : State) : (clearSession s).errInfo = s.errInfo := rfl
@[simp] theorem clearSession_errCmd (s : State) : (clearSession s).errCmd = s.errCmd := rfl
@[simp] theorem clearSession_doneIe (s : State) : (clearSession s).doneIe = s.doneIe := rfl
@[simp] theorem clearSession_errIe (s : State) : (clearSession s).errIe = s.errIe := rfl
@[simp] theorem clearSession_busy (s : State) : (clearSession s).busy = s.busy := rfl
@[simp] theorem clearSession_err (s : State) : (clearSession s).err = s.err := rfl
@[simp] theorem clearSession_done (s : State) : (clearSession s).done = s.done := rfl
@[simp] theorem clearSession_cmdOvr (s : State) : (clearSession s).cmdOvr = s.cmdOvr := rfl
@[simp] theorem clearSession_inOvr (s : State) : (clearSession s).inOvr = s.inOvr := rfl
@[simp] theorem clearSession_cmdWord (s : State) : (clearSession s).cmdWord = s.cmdWord := rfl
@[simp] theorem clearSession_cmdArg (s : State) : (clearSession s).cmdArg = s.cmdArg := rfl
@[simp] theorem clearSession_todo (s : State) : (clearSession s).todo = s.todo := rfl
@[simp] theorem clearSession_phase (s : State) : (clearSession s).phase = .idle := rfl
@[simp] theorem clearSession_ft (s : State) : (clearSession s).ft = [] := rfl
@[simp] theorem clearSession_total (s : State) : (clearSession s).total = 0#32 := rfl
@[simp] theorem clearSession_tstate (s : State) : (clearSession s).tstate = .noTree := rfl
@[simp] theorem clearSession_nodes (s : State) : (clearSession s).nodes = [] := rfl
@[simp] theorem clearSession_root (s : State) : (clearSession s).root = 0#16 := rfl
@[simp] theorem clearSession_ct (s : State) : (clearSession s).ct = [] := rfl
@[simp] theorem clearSession_bp (s : State) : (clearSession s).bp = [] := rfl
@[simp] theorem clearSession_tvb (s : State) : (clearSession s).tvb = 0#4 := rfl
@[simp] theorem clearSession_sealed (s : State) : (clearSession s).sealed = false := rfl
@[simp] theorem clearSession_hlen (s : State) : (clearSession s).hlen = 0#16 := rfl
@[simp] theorem clearSession_hbuf (s : State) : (clearSession s).hbuf = [] := rfl
@[simp] theorem clearSession_dpos (s : State) : (clearSession s).dpos = 0#32 := rfl
@[simp] theorem clearSession_pend (s : State) : (clearSession s).pend = [] := rfl
@[simp] theorem clearSession_cur (s : State) : (clearSession s).cur = 0#16 := rfl
@[simp] theorem clearSession_inFifo (s : State) : (clearSession s).inFifo = s.inFifo := rfl
@[simp] theorem clearSession_outFifo (s : State) : (clearSession s).outFifo = s.outFifo := rfl
@[simp] theorem clearSession_statSyms (s : State) : (clearSession s).statSyms = 0#32 := rfl
@[simp] theorem clearSession_statBytes (s : State) : (clearSession s).statBytes = 0#32 := rfl
@[simp] theorem clearSession_script (s : State) : (clearSession s).script = s.script := rfl
@[simp] theorem clearSession_credit (s : State) : (clearSession s).credit = s.credit := rfl
@[simp] theorem clearSession_reads (s : State) : (clearSession s).reads = s.reads := rfl
@[simp] theorem clearSession_statusSeen (s : State) : (clearSession s).statusSeen = s.statusSeen := rfl

/-! ### `errorClear` -/

@[simp] theorem errorClear_cfg (s : State) : (errorClear s).cfg = s.cfg := rfl
@[simp] theorem errorClear_arg (s : State) : (errorClear s).arg = s.arg := rfl
@[simp] theorem errorClear_result0 (s : State) : (errorClear s).result0 = s.result0 := rfl
@[simp] theorem errorClear_result1 (s : State) : (errorClear s).result1 = s.result1 := rfl
@[simp] theorem errorClear_result2 (s : State) : (errorClear s).result2 = s.result2 := rfl
@[simp] theorem errorClear_errCause (s : State) : (errorClear s).errCause = 0#8 := rfl
@[simp] theorem errorClear_errInfo (s : State) : (errorClear s).errInfo = 0#32 := rfl
@[simp] theorem errorClear_errCmd (s : State) : (errorClear s).errCmd = 0#32 := rfl
@[simp] theorem errorClear_doneIe (s : State) : (errorClear s).doneIe = s.doneIe := rfl
@[simp] theorem errorClear_errIe (s : State) : (errorClear s).errIe = s.errIe := rfl
@[simp] theorem errorClear_busy (s : State) : (errorClear s).busy = s.busy := rfl
@[simp] theorem errorClear_err (s : State) : (errorClear s).err = false := rfl
@[simp] theorem errorClear_done (s : State) : (errorClear s).done = s.done := rfl
@[simp] theorem errorClear_cmdOvr (s : State) : (errorClear s).cmdOvr = false := rfl
@[simp] theorem errorClear_inOvr (s : State) : (errorClear s).inOvr = false := rfl
@[simp] theorem errorClear_cmdWord (s : State) : (errorClear s).cmdWord = s.cmdWord := rfl
@[simp] theorem errorClear_cmdArg (s : State) : (errorClear s).cmdArg = s.cmdArg := rfl
@[simp] theorem errorClear_todo (s : State) : (errorClear s).todo = s.todo := rfl
@[simp] theorem errorClear_phase (s : State) : (errorClear s).phase = s.phase := rfl
@[simp] theorem errorClear_ft (s : State) : (errorClear s).ft = s.ft := rfl
@[simp] theorem errorClear_total (s : State) : (errorClear s).total = s.total := rfl
@[simp] theorem errorClear_tstate (s : State) : (errorClear s).tstate = s.tstate := rfl
@[simp] theorem errorClear_nodes (s : State) : (errorClear s).nodes = s.nodes := rfl
@[simp] theorem errorClear_root (s : State) : (errorClear s).root = s.root := rfl
@[simp] theorem errorClear_ct (s : State) : (errorClear s).ct = s.ct := rfl
@[simp] theorem errorClear_bp (s : State) : (errorClear s).bp = s.bp := rfl
@[simp] theorem errorClear_tvb (s : State) : (errorClear s).tvb = s.tvb := rfl
@[simp] theorem errorClear_sealed (s : State) : (errorClear s).sealed = s.sealed := rfl
@[simp] theorem errorClear_hlen (s : State) : (errorClear s).hlen = s.hlen := rfl
@[simp] theorem errorClear_hbuf (s : State) : (errorClear s).hbuf = s.hbuf := rfl
@[simp] theorem errorClear_dpos (s : State) : (errorClear s).dpos = s.dpos := rfl
@[simp] theorem errorClear_pend (s : State) : (errorClear s).pend = s.pend := rfl
@[simp] theorem errorClear_cur (s : State) : (errorClear s).cur = s.cur := rfl
@[simp] theorem errorClear_inFifo (s : State) : (errorClear s).inFifo = [] := rfl
@[simp] theorem errorClear_outFifo (s : State) : (errorClear s).outFifo = [] := rfl
@[simp] theorem errorClear_statSyms (s : State) : (errorClear s).statSyms = s.statSyms := rfl
@[simp] theorem errorClear_statBytes (s : State) : (errorClear s).statBytes = s.statBytes := rfl
@[simp] theorem errorClear_script (s : State) : (errorClear s).script = s.script := rfl
@[simp] theorem errorClear_credit (s : State) : (errorClear s).credit = s.credit := rfl
@[simp] theorem errorClear_reads (s : State) : (errorClear s).reads = s.reads := rfl
@[simp] theorem errorClear_statusSeen (s : State) : (errorClear s).statusSeen = s.statusSeen := rfl

/-! ### `abortClear` -/

@[simp] theorem abortClear_cfg (s : State) : (abortClear s).cfg = s.cfg := rfl
@[simp] theorem abortClear_arg (s : State) : (abortClear s).arg = s.arg := rfl
@[simp] theorem abortClear_result0 (s : State) : (abortClear s).result0 = s.result0 := rfl
@[simp] theorem abortClear_result1 (s : State) : (abortClear s).result1 = s.result1 := rfl
@[simp] theorem abortClear_result2 (s : State) : (abortClear s).result2 = s.result2 := rfl
@[simp] theorem abortClear_errCause (s : State) : (abortClear s).errCause = 0#8 := rfl
@[simp] theorem abortClear_errInfo (s : State) : (abortClear s).errInfo = 0#32 := rfl
@[simp] theorem abortClear_errCmd (s : State) : (abortClear s).errCmd = 0#32 := rfl
@[simp] theorem abortClear_doneIe (s : State) : (abortClear s).doneIe = s.doneIe := rfl
@[simp] theorem abortClear_errIe (s : State) : (abortClear s).errIe = s.errIe := rfl
@[simp] theorem abortClear_busy (s : State) : (abortClear s).busy = s.busy := rfl
@[simp] theorem abortClear_err (s : State) : (abortClear s).err = false := rfl
@[simp] theorem abortClear_done (s : State) : (abortClear s).done = s.done := rfl
@[simp] theorem abortClear_cmdOvr (s : State) : (abortClear s).cmdOvr = false := rfl
@[simp] theorem abortClear_inOvr (s : State) : (abortClear s).inOvr = false := rfl
@[simp] theorem abortClear_cmdWord (s : State) : (abortClear s).cmdWord = s.cmdWord := rfl
@[simp] theorem abortClear_cmdArg (s : State) : (abortClear s).cmdArg = s.cmdArg := rfl
@[simp] theorem abortClear_todo (s : State) : (abortClear s).todo = s.todo := rfl
@[simp] theorem abortClear_phase (s : State) : (abortClear s).phase = .idle := rfl
@[simp] theorem abortClear_ft (s : State) : (abortClear s).ft = [] := rfl
@[simp] theorem abortClear_total (s : State) : (abortClear s).total = 0#32 := rfl
@[simp] theorem abortClear_tstate (s : State) : (abortClear s).tstate = .noTree := rfl
@[simp] theorem abortClear_nodes (s : State) : (abortClear s).nodes = [] := rfl
@[simp] theorem abortClear_root (s : State) : (abortClear s).root = 0#16 := rfl
@[simp] theorem abortClear_ct (s : State) : (abortClear s).ct = [] := rfl
@[simp] theorem abortClear_bp (s : State) : (abortClear s).bp = [] := rfl
@[simp] theorem abortClear_tvb (s : State) : (abortClear s).tvb = 0#4 := rfl
@[simp] theorem abortClear_sealed (s : State) : (abortClear s).sealed = false := rfl
@[simp] theorem abortClear_hlen (s : State) : (abortClear s).hlen = 0#16 := rfl
@[simp] theorem abortClear_hbuf (s : State) : (abortClear s).hbuf = [] := rfl
@[simp] theorem abortClear_dpos (s : State) : (abortClear s).dpos = 0#32 := rfl
@[simp] theorem abortClear_pend (s : State) : (abortClear s).pend = [] := rfl
@[simp] theorem abortClear_cur (s : State) : (abortClear s).cur = 0#16 := rfl
@[simp] theorem abortClear_inFifo (s : State) : (abortClear s).inFifo = [] := rfl
@[simp] theorem abortClear_outFifo (s : State) : (abortClear s).outFifo = [] := rfl
@[simp] theorem abortClear_statSyms (s : State) : (abortClear s).statSyms = 0#32 := rfl
@[simp] theorem abortClear_statBytes (s : State) : (abortClear s).statBytes = 0#32 := rfl
@[simp] theorem abortClear_script (s : State) : (abortClear s).script = s.script := rfl
@[simp] theorem abortClear_credit (s : State) : (abortClear s).credit = s.credit := rfl
@[simp] theorem abortClear_reads (s : State) : (abortClear s).reads = s.reads := rfl
@[simp] theorem abortClear_statusSeen (s : State) : (abortClear s).statusSeen = s.statusSeen := rfl

/-! ### `hardwareReset` -/

@[simp] theorem hardwareReset_cfg (s : State) : (hardwareReset s).cfg = s.cfg := rfl
@[simp] theorem hardwareReset_arg (s : State) : (hardwareReset s).arg = 0#32 := rfl
@[simp] theorem hardwareReset_result0 (s : State) : (hardwareReset s).result0 = 0#32 := rfl
@[simp] theorem hardwareReset_result1 (s : State) : (hardwareReset s).result1 = 0#32 := rfl
@[simp] theorem hardwareReset_result2 (s : State) : (hardwareReset s).result2 = 0#32 := rfl
@[simp] theorem hardwareReset_errCause (s : State) : (hardwareReset s).errCause = 0#8 := rfl
@[simp] theorem hardwareReset_errInfo (s : State) : (hardwareReset s).errInfo = 0#32 := rfl
@[simp] theorem hardwareReset_errCmd (s : State) : (hardwareReset s).errCmd = 0#32 := rfl
@[simp] theorem hardwareReset_doneIe (s : State) : (hardwareReset s).doneIe = false := rfl
@[simp] theorem hardwareReset_errIe (s : State) : (hardwareReset s).errIe = false := rfl
@[simp] theorem hardwareReset_busy (s : State) : (hardwareReset s).busy = false := rfl
@[simp] theorem hardwareReset_err (s : State) : (hardwareReset s).err = false := rfl
@[simp] theorem hardwareReset_done (s : State) : (hardwareReset s).done = false := rfl
@[simp] theorem hardwareReset_cmdOvr (s : State) : (hardwareReset s).cmdOvr = false := rfl
@[simp] theorem hardwareReset_inOvr (s : State) : (hardwareReset s).inOvr = false := rfl
@[simp] theorem hardwareReset_cmdWord (s : State) : (hardwareReset s).cmdWord = 0#32 := rfl
@[simp] theorem hardwareReset_cmdArg (s : State) : (hardwareReset s).cmdArg = 0#32 := rfl
@[simp] theorem hardwareReset_todo (s : State) : (hardwareReset s).todo = [] := rfl
@[simp] theorem hardwareReset_phase (s : State) : (hardwareReset s).phase = .idle := rfl
@[simp] theorem hardwareReset_ft (s : State) : (hardwareReset s).ft = [] := rfl
@[simp] theorem hardwareReset_total (s : State) : (hardwareReset s).total = 0#32 := rfl
@[simp] theorem hardwareReset_tstate (s : State) : (hardwareReset s).tstate = .noTree := rfl
@[simp] theorem hardwareReset_nodes (s : State) : (hardwareReset s).nodes = [] := rfl
@[simp] theorem hardwareReset_root (s : State) : (hardwareReset s).root = 0#16 := rfl
@[simp] theorem hardwareReset_ct (s : State) : (hardwareReset s).ct = [] := rfl
@[simp] theorem hardwareReset_bp (s : State) : (hardwareReset s).bp = [] := rfl
@[simp] theorem hardwareReset_tvb (s : State) : (hardwareReset s).tvb = 0#4 := rfl
@[simp] theorem hardwareReset_sealed (s : State) : (hardwareReset s).sealed = false := rfl
@[simp] theorem hardwareReset_hlen (s : State) : (hardwareReset s).hlen = 0#16 := rfl
@[simp] theorem hardwareReset_hbuf (s : State) : (hardwareReset s).hbuf = [] := rfl
@[simp] theorem hardwareReset_dpos (s : State) : (hardwareReset s).dpos = 0#32 := rfl
@[simp] theorem hardwareReset_pend (s : State) : (hardwareReset s).pend = [] := rfl
@[simp] theorem hardwareReset_cur (s : State) : (hardwareReset s).cur = 0#16 := rfl
@[simp] theorem hardwareReset_inFifo (s : State) : (hardwareReset s).inFifo = [] := rfl
@[simp] theorem hardwareReset_outFifo (s : State) : (hardwareReset s).outFifo = [] := rfl
@[simp] theorem hardwareReset_statSyms (s : State) : (hardwareReset s).statSyms = 0#32 := rfl
@[simp] theorem hardwareReset_statBytes (s : State) : (hardwareReset s).statBytes = 0#32 := rfl
@[simp] theorem hardwareReset_script (s : State) : (hardwareReset s).script = s.script := rfl
@[simp] theorem hardwareReset_credit (s : State) : (hardwareReset s).credit = s.credit := rfl
@[simp] theorem hardwareReset_reads (s : State) : (hardwareReset s).reads = s.reads := rfl
@[simp] theorem hardwareReset_statusSeen (s : State) : (hardwareReset s).statusSeen = false := rfl

/-! ### `State.spend` -/

@[simp] theorem spend_cfg (s : State) : (State.spend s).cfg = s.cfg := rfl
@[simp] theorem spend_arg (s : State) : (State.spend s).arg = s.arg := rfl
@[simp] theorem spend_result0 (s : State) : (State.spend s).result0 = s.result0 := rfl
@[simp] theorem spend_result1 (s : State) : (State.spend s).result1 = s.result1 := rfl
@[simp] theorem spend_result2 (s : State) : (State.spend s).result2 = s.result2 := rfl
@[simp] theorem spend_errCause (s : State) : (State.spend s).errCause = s.errCause := rfl
@[simp] theorem spend_errInfo (s : State) : (State.spend s).errInfo = s.errInfo := rfl
@[simp] theorem spend_errCmd (s : State) : (State.spend s).errCmd = s.errCmd := rfl
@[simp] theorem spend_doneIe (s : State) : (State.spend s).doneIe = s.doneIe := rfl
@[simp] theorem spend_errIe (s : State) : (State.spend s).errIe = s.errIe := rfl
@[simp] theorem spend_busy (s : State) : (State.spend s).busy = s.busy := rfl
@[simp] theorem spend_err (s : State) : (State.spend s).err = s.err := rfl
@[simp] theorem spend_done (s : State) : (State.spend s).done = s.done := rfl
@[simp] theorem spend_cmdOvr (s : State) : (State.spend s).cmdOvr = s.cmdOvr := rfl
@[simp] theorem spend_inOvr (s : State) : (State.spend s).inOvr = s.inOvr := rfl
@[simp] theorem spend_cmdWord (s : State) : (State.spend s).cmdWord = s.cmdWord := rfl
@[simp] theorem spend_cmdArg (s : State) : (State.spend s).cmdArg = s.cmdArg := rfl
@[simp] theorem spend_todo (s : State) : (State.spend s).todo = s.todo := rfl
@[simp] theorem spend_phase (s : State) : (State.spend s).phase = s.phase := rfl
@[simp] theorem spend_ft (s : State) : (State.spend s).ft = s.ft := rfl
@[simp] theorem spend_total (s : State) : (State.spend s).total = s.total := rfl
@[simp] theorem spend_tstate (s : State) : (State.spend s).tstate = s.tstate := rfl
@[simp] theorem spend_nodes (s : State) : (State.spend s).nodes = s.nodes := rfl
@[simp] theorem spend_root (s : State) : (State.spend s).root = s.root := rfl
@[simp] theorem spend_ct (s : State) : (State.spend s).ct = s.ct := rfl
@[simp] theorem spend_bp (s : State) : (State.spend s).bp = s.bp := rfl
@[simp] theorem spend_tvb (s : State) : (State.spend s).tvb = s.tvb := rfl
@[simp] theorem spend_sealed (s : State) : (State.spend s).sealed = s.sealed := rfl
@[simp] theorem spend_hlen (s : State) : (State.spend s).hlen = s.hlen := rfl
@[simp] theorem spend_hbuf (s : State) : (State.spend s).hbuf = s.hbuf := rfl
@[simp] theorem spend_dpos (s : State) : (State.spend s).dpos = s.dpos := rfl
@[simp] theorem spend_pend (s : State) : (State.spend s).pend = s.pend := rfl
@[simp] theorem spend_cur (s : State) : (State.spend s).cur = s.cur := rfl
@[simp] theorem spend_inFifo (s : State) : (State.spend s).inFifo = s.inFifo := rfl
@[simp] theorem spend_outFifo (s : State) : (State.spend s).outFifo = s.outFifo := rfl
@[simp] theorem spend_statSyms (s : State) : (State.spend s).statSyms = s.statSyms := rfl
@[simp] theorem spend_statBytes (s : State) : (State.spend s).statBytes = s.statBytes := rfl
@[simp] theorem spend_script (s : State) : (State.spend s).script = s.script := rfl
@[simp] theorem spend_credit (s : State) : (State.spend s).credit = s.credit.map (· - 1) := rfl
@[simp] theorem spend_reads (s : State) : (State.spend s).reads = s.reads := rfl
@[simp] theorem spend_statusSeen (s : State) : (State.spend s).statusSeen = s.statusSeen := rfl

/-! ### `pushed` -/

@[simp] theorem pushed_cfg (b : Byte) (s : State) : (pushed b s).cfg = s.cfg := rfl
@[simp] theorem pushed_arg (b : Byte) (s : State) : (pushed b s).arg = s.arg := rfl
@[simp] theorem pushed_result0 (b : Byte) (s : State) : (pushed b s).result0 = s.result0 := rfl
@[simp] theorem pushed_result1 (b : Byte) (s : State) : (pushed b s).result1 = s.result1 := rfl
@[simp] theorem pushed_result2 (b : Byte) (s : State) : (pushed b s).result2 = s.result2 := rfl
@[simp] theorem pushed_errCause (b : Byte) (s : State) : (pushed b s).errCause = s.errCause := rfl
@[simp] theorem pushed_errInfo (b : Byte) (s : State) : (pushed b s).errInfo = s.errInfo := rfl
@[simp] theorem pushed_errCmd (b : Byte) (s : State) : (pushed b s).errCmd = s.errCmd := rfl
@[simp] theorem pushed_doneIe (b : Byte) (s : State) : (pushed b s).doneIe = s.doneIe := rfl
@[simp] theorem pushed_errIe (b : Byte) (s : State) : (pushed b s).errIe = s.errIe := rfl
@[simp] theorem pushed_busy (b : Byte) (s : State) : (pushed b s).busy = s.busy := rfl
@[simp] theorem pushed_err (b : Byte) (s : State) : (pushed b s).err = s.err := rfl
@[simp] theorem pushed_done (b : Byte) (s : State) : (pushed b s).done = s.done := rfl
@[simp] theorem pushed_cmdOvr (b : Byte) (s : State) : (pushed b s).cmdOvr = s.cmdOvr := rfl
@[simp] theorem pushed_inOvr (b : Byte) (s : State) : (pushed b s).inOvr = s.inOvr := rfl
@[simp] theorem pushed_cmdWord (b : Byte) (s : State) : (pushed b s).cmdWord = s.cmdWord := rfl
@[simp] theorem pushed_cmdArg (b : Byte) (s : State) : (pushed b s).cmdArg = s.cmdArg := rfl
@[simp] theorem pushed_todo (b : Byte) (s : State) : (pushed b s).todo = s.todo := rfl
@[simp] theorem pushed_phase (b : Byte) (s : State) : (pushed b s).phase = s.phase := rfl
@[simp] theorem pushed_ft (b : Byte) (s : State) : (pushed b s).ft = s.ft := rfl
@[simp] theorem pushed_total (b : Byte) (s : State) : (pushed b s).total = s.total := rfl
@[simp] theorem pushed_tstate (b : Byte) (s : State) : (pushed b s).tstate = s.tstate := rfl
@[simp] theorem pushed_nodes (b : Byte) (s : State) : (pushed b s).nodes = s.nodes := rfl
@[simp] theorem pushed_root (b : Byte) (s : State) : (pushed b s).root = s.root := rfl
@[simp] theorem pushed_ct (b : Byte) (s : State) : (pushed b s).ct = s.ct := rfl
@[simp] theorem pushed_bp (b : Byte) (s : State) : (pushed b s).bp = s.bp := rfl
@[simp] theorem pushed_tvb (b : Byte) (s : State) : (pushed b s).tvb = s.tvb := rfl
@[simp] theorem pushed_sealed (b : Byte) (s : State) : (pushed b s).sealed = s.sealed := rfl
@[simp] theorem pushed_hlen (b : Byte) (s : State) : (pushed b s).hlen = s.hlen := rfl
@[simp] theorem pushed_hbuf (b : Byte) (s : State) : (pushed b s).hbuf = s.hbuf := rfl
@[simp] theorem pushed_dpos (b : Byte) (s : State) : (pushed b s).dpos = s.dpos := rfl
@[simp] theorem pushed_pend (b : Byte) (s : State) : (pushed b s).pend = s.pend := rfl
@[simp] theorem pushed_cur (b : Byte) (s : State) : (pushed b s).cur = s.cur := rfl
@[simp] theorem pushed_inFifo (b : Byte) (s : State) : (pushed b s).inFifo = s.inFifo := rfl
@[simp] theorem pushed_outFifo (b : Byte) (s : State) : (pushed b s).outFifo = s.outFifo ++ [b] := rfl
@[simp] theorem pushed_statSyms (b : Byte) (s : State) : (pushed b s).statSyms = s.statSyms := rfl
@[simp] theorem pushed_statBytes (b : Byte) (s : State) : (pushed b s).statBytes = s.statBytes + 1#32 := rfl
@[simp] theorem pushed_script (b : Byte) (s : State) : (pushed b s).script = s.script := rfl
@[simp] theorem pushed_credit (b : Byte) (s : State) : (pushed b s).credit = s.credit.map (· - 1) := rfl
@[simp] theorem pushed_reads (b : Byte) (s : State) : (pushed b s).reads = s.reads := rfl
@[simp] theorem pushed_statusSeen (b : Byte) (s : State) : (pushed b s).statusSeen = s.statusSeen := rfl

/-! ### `countSym` -/

@[simp] theorem countSym_cfg (s : State) : (countSym s).cfg = s.cfg := rfl
@[simp] theorem countSym_arg (s : State) : (countSym s).arg = s.arg := rfl
@[simp] theorem countSym_result0 (s : State) : (countSym s).result0 = s.result0 := rfl
@[simp] theorem countSym_result1 (s : State) : (countSym s).result1 = s.result1 := rfl
@[simp] theorem countSym_result2 (s : State) : (countSym s).result2 = s.result2 := rfl
@[simp] theorem countSym_errCause (s : State) : (countSym s).errCause = s.errCause := rfl
@[simp] theorem countSym_errInfo (s : State) : (countSym s).errInfo = s.errInfo := rfl
@[simp] theorem countSym_errCmd (s : State) : (countSym s).errCmd = s.errCmd := rfl
@[simp] theorem countSym_doneIe (s : State) : (countSym s).doneIe = s.doneIe := rfl
@[simp] theorem countSym_errIe (s : State) : (countSym s).errIe = s.errIe := rfl
@[simp] theorem countSym_busy (s : State) : (countSym s).busy = s.busy := rfl
@[simp] theorem countSym_err (s : State) : (countSym s).err = s.err := rfl
@[simp] theorem countSym_done (s : State) : (countSym s).done = s.done := rfl
@[simp] theorem countSym_cmdOvr (s : State) : (countSym s).cmdOvr = s.cmdOvr := rfl
@[simp] theorem countSym_inOvr (s : State) : (countSym s).inOvr = s.inOvr := rfl
@[simp] theorem countSym_cmdWord (s : State) : (countSym s).cmdWord = s.cmdWord := rfl
@[simp] theorem countSym_cmdArg (s : State) : (countSym s).cmdArg = s.cmdArg := rfl
@[simp] theorem countSym_todo (s : State) : (countSym s).todo = s.todo := rfl
@[simp] theorem countSym_phase (s : State) : (countSym s).phase = s.phase := rfl
@[simp] theorem countSym_ft (s : State) : (countSym s).ft = s.ft := rfl
@[simp] theorem countSym_total (s : State) : (countSym s).total = s.total := rfl
@[simp] theorem countSym_tstate (s : State) : (countSym s).tstate = s.tstate := rfl
@[simp] theorem countSym_nodes (s : State) : (countSym s).nodes = s.nodes := rfl
@[simp] theorem countSym_root (s : State) : (countSym s).root = s.root := rfl
@[simp] theorem countSym_ct (s : State) : (countSym s).ct = s.ct := rfl
@[simp] theorem countSym_bp (s : State) : (countSym s).bp = s.bp := rfl
@[simp] theorem countSym_tvb (s : State) : (countSym s).tvb = s.tvb := rfl
@[simp] theorem countSym_sealed (s : State) : (countSym s).sealed = s.sealed := rfl
@[simp] theorem countSym_hlen (s : State) : (countSym s).hlen = s.hlen := rfl
@[simp] theorem countSym_hbuf (s : State) : (countSym s).hbuf = s.hbuf := rfl
@[simp] theorem countSym_dpos (s : State) : (countSym s).dpos = s.dpos := rfl
@[simp] theorem countSym_pend (s : State) : (countSym s).pend = s.pend := rfl
@[simp] theorem countSym_cur (s : State) : (countSym s).cur = s.cur := rfl
@[simp] theorem countSym_inFifo (s : State) : (countSym s).inFifo = s.inFifo := rfl
@[simp] theorem countSym_outFifo (s : State) : (countSym s).outFifo = s.outFifo := rfl
@[simp] theorem countSym_statSyms (s : State) : (countSym s).statSyms = s.statSyms + 1#32 := rfl
@[simp] theorem countSym_statBytes (s : State) : (countSym s).statBytes = s.statBytes := rfl
@[simp] theorem countSym_script (s : State) : (countSym s).script = s.script := rfl
@[simp] theorem countSym_credit (s : State) : (countSym s).credit = s.credit := rfl
@[simp] theorem countSym_reads (s : State) : (countSym s).reads = s.reads := rfl
@[simp] theorem countSym_statusSeen (s : State) : (countSym s).statusSeen = s.statusSeen := rfl

/-! ### `curToRoot` -/

@[simp] theorem curToRoot_cfg (s : State) : (curToRoot s).cfg = s.cfg := rfl
@[simp] theorem curToRoot_arg (s : State) : (curToRoot s).arg = s.arg := rfl
@[simp] theorem curToRoot_result0 (s : State) : (curToRoot s).result0 = s.result0 := rfl
@[simp] theorem curToRoot_result1 (s : State) : (curToRoot s).result1 = s.result1 := rfl
@[simp] theorem curToRoot_result2 (s : State) : (curToRoot s).result2 = s.result2 := rfl
@[simp] theorem curToRoot_errCause (s : State) : (curToRoot s).errCause = s.errCause := rfl
@[simp] theorem curToRoot_errInfo (s : State) : (curToRoot s).errInfo = s.errInfo := rfl
@[simp] theorem curToRoot_errCmd (s : State) : (curToRoot s).errCmd = s.errCmd := rfl
@[simp] theorem curToRoot_doneIe (s : State) : (curToRoot s).doneIe = s.doneIe := rfl
@[simp] theorem curToRoot_errIe (s : State) : (curToRoot s).errIe = s.errIe := rfl
@[simp] theorem curToRoot_busy (s : State) : (curToRoot s).busy = s.busy := rfl
@[simp] theorem curToRoot_err (s : State) : (curToRoot s).err = s.err := rfl
@[simp] theorem curToRoot_done (s : State) : (curToRoot s).done = s.done := rfl
@[simp] theorem curToRoot_cmdOvr (s : State) : (curToRoot s).cmdOvr = s.cmdOvr := rfl
@[simp] theorem curToRoot_inOvr (s : State) : (curToRoot s).inOvr = s.inOvr := rfl
@[simp] theorem curToRoot_cmdWord (s : State) : (curToRoot s).cmdWord = s.cmdWord := rfl
@[simp] theorem curToRoot_cmdArg (s : State) : (curToRoot s).cmdArg = s.cmdArg := rfl
@[simp] theorem curToRoot_todo (s : State) : (curToRoot s).todo = s.todo := rfl
@[simp] theorem curToRoot_phase (s : State) : (curToRoot s).phase = s.phase := rfl
@[simp] theorem curToRoot_ft (s : State) : (curToRoot s).ft = s.ft := rfl
@[simp] theorem curToRoot_total (s : State) : (curToRoot s).total = s.total := rfl
@[simp] theorem curToRoot_tstate (s : State) : (curToRoot s).tstate = s.tstate := rfl
@[simp] theorem curToRoot_nodes (s : State) : (curToRoot s).nodes = s.nodes := rfl
@[simp] theorem curToRoot_root (s : State) : (curToRoot s).root = s.root := rfl
@[simp] theorem curToRoot_ct (s : State) : (curToRoot s).ct = s.ct := rfl
@[simp] theorem curToRoot_bp (s : State) : (curToRoot s).bp = s.bp := rfl
@[simp] theorem curToRoot_tvb (s : State) : (curToRoot s).tvb = s.tvb := rfl
@[simp] theorem curToRoot_sealed (s : State) : (curToRoot s).sealed = s.sealed := rfl
@[simp] theorem curToRoot_hlen (s : State) : (curToRoot s).hlen = s.hlen := rfl
@[simp] theorem curToRoot_hbuf (s : State) : (curToRoot s).hbuf = s.hbuf := rfl
@[simp] theorem curToRoot_dpos (s : State) : (curToRoot s).dpos = s.dpos := rfl
@[simp] theorem curToRoot_pend (s : State) : (curToRoot s).pend = s.pend := rfl
@[simp] theorem curToRoot_cur (s : State) : (curToRoot s).cur = s.root := rfl
@[simp] theorem curToRoot_inFifo (s : State) : (curToRoot s).inFifo = s.inFifo := rfl
@[simp] theorem curToRoot_outFifo (s : State) : (curToRoot s).outFifo = s.outFifo := rfl
@[simp] theorem curToRoot_statSyms (s : State) : (curToRoot s).statSyms = s.statSyms := rfl
@[simp] theorem curToRoot_statBytes (s : State) : (curToRoot s).statBytes = s.statBytes := rfl
@[simp] theorem curToRoot_script (s : State) : (curToRoot s).script = s.script := rfl
@[simp] theorem curToRoot_credit (s : State) : (curToRoot s).credit = s.credit := rfl
@[simp] theorem curToRoot_reads (s : State) : (curToRoot s).reads = s.reads := rfl
@[simp] theorem curToRoot_statusSeen (s : State) : (curToRoot s).statusSeen = s.statusSeen := rfl

/-! ### `accept` -/

@[simp] theorem accept_cfg (w : Word) (s : State) : (accept w s).cfg = s.cfg := rfl
@[simp] theorem accept_arg (w : Word) (s : State) : (accept w s).arg = s.arg := rfl
@[simp] theorem accept_result0 (w : Word) (s : State) : (accept w s).result0 = s.result0 := rfl
@[simp] theorem accept_result1 (w : Word) (s : State) : (accept w s).result1 = s.result1 := rfl
@[simp] theorem accept_result2 (w : Word) (s : State) : (accept w s).result2 = s.result2 := rfl
@[simp] theorem accept_errCause (w : Word) (s : State) : (accept w s).errCause = s.errCause := rfl
@[simp] theorem accept_errInfo (w : Word) (s : State) : (accept w s).errInfo = s.errInfo := rfl
@[simp] theorem accept_errCmd (w : Word) (s : State) : (accept w s).errCmd = s.errCmd := rfl
@[simp] theorem accept_doneIe (w : Word) (s : State) : (accept w s).doneIe = s.doneIe := rfl
@[simp] theorem accept_errIe (w : Word) (s : State) : (accept w s).errIe = s.errIe := rfl
@[simp] theorem accept_busy (w : Word) (s : State) : (accept w s).busy = true := rfl
@[simp] theorem accept_err (w : Word) (s : State) : (accept w s).err = s.err := rfl
@[simp] theorem accept_done (w : Word) (s : State) : (accept w s).done = false := rfl
@[simp] theorem accept_cmdOvr (w : Word) (s : State) : (accept w s).cmdOvr = s.cmdOvr := rfl
@[simp] theorem accept_inOvr (w : Word) (s : State) : (accept w s).inOvr = s.inOvr := rfl
@[simp] theorem accept_cmdWord (w : Word) (s : State) : (accept w s).cmdWord = w := rfl
@[simp] theorem accept_cmdArg (w : Word) (s : State) : (accept w s).cmdArg = s.arg := rfl
@[simp] theorem accept_todo (w : Word) (s : State) : (accept w s).todo = [] := rfl
@[simp] theorem accept_phase (w : Word) (s : State) : (accept w s).phase = s.phase := rfl
@[simp] theorem accept_ft (w : Word) (s : State) : (accept w s).ft = s.ft := rfl
@[simp] theorem accept_total (w : Word) (s : State) : (accept w s).total = s.total := rfl
@[simp] theorem accept_tstate (w : Word) (s : State) : (accept w s).tstate = s.tstate := rfl
@[simp] theorem accept_nodes (w : Word) (s : State) : (accept w s).nodes = s.nodes := rfl
@[simp] theorem accept_root (w : Word) (s : State) : (accept w s).root = s.root := rfl
@[simp] theorem accept_ct (w : Word) (s : State) : (accept w s).ct = s.ct := rfl
@[simp] theorem accept_bp (w : Word) (s : State) : (accept w s).bp = s.bp := rfl
@[simp] theorem accept_tvb (w : Word) (s : State) : (accept w s).tvb = s.tvb := rfl
@[simp] theorem accept_sealed (w : Word) (s : State) : (accept w s).sealed = s.sealed := rfl
@[simp] theorem accept_hlen (w : Word) (s : State) : (accept w s).hlen = s.hlen := rfl
@[simp] theorem accept_hbuf (w : Word) (s : State) : (accept w s).hbuf = s.hbuf := rfl
@[simp] theorem accept_dpos (w : Word) (s : State) : (accept w s).dpos = s.dpos := rfl
@[simp] theorem accept_pend (w : Word) (s : State) : (accept w s).pend = s.pend := rfl
@[simp] theorem accept_cur (w : Word) (s : State) : (accept w s).cur = s.cur := rfl
@[simp] theorem accept_inFifo (w : Word) (s : State) : (accept w s).inFifo = s.inFifo := rfl
@[simp] theorem accept_outFifo (w : Word) (s : State) : (accept w s).outFifo = s.outFifo := rfl
@[simp] theorem accept_statSyms (w : Word) (s : State) : (accept w s).statSyms = s.statSyms := rfl
@[simp] theorem accept_statBytes (w : Word) (s : State) : (accept w s).statBytes = s.statBytes := rfl
@[simp] theorem accept_script (w : Word) (s : State) : (accept w s).script = s.script := rfl
@[simp] theorem accept_credit (w : Word) (s : State) : (accept w s).credit = s.credit := rfl
@[simp] theorem accept_reads (w : Word) (s : State) : (accept w s).reads = s.reads := rfl
@[simp] theorem accept_statusSeen (w : Word) (s : State) : (accept w s).statusSeen = false := rfl

/-! ### `takeStep` -/

@[simp] theorem takeStep_cfg (h : HostStep) (rest : List HostStep) (s : State) : (takeStep h rest s).cfg = s.cfg := rfl
@[simp] theorem takeStep_arg (h : HostStep) (rest : List HostStep) (s : State) : (takeStep h rest s).arg = s.arg := rfl
@[simp] theorem takeStep_result0 (h : HostStep) (rest : List HostStep) (s : State) : (takeStep h rest s).result0 = s.result0 := rfl
@[simp] theorem takeStep_result1 (h : HostStep) (rest : List HostStep) (s : State) : (takeStep h rest s).result1 = s.result1 := rfl
@[simp] theorem takeStep_result2 (h : HostStep) (rest : List HostStep) (s : State) : (takeStep h rest s).result2 = s.result2 := rfl
@[simp] theorem takeStep_errCause (h : HostStep) (rest : List HostStep) (s : State) : (takeStep h rest s).errCause = s.errCause := rfl
@[simp] theorem takeStep_errInfo (h : HostStep) (rest : List HostStep) (s : State) : (takeStep h rest s).errInfo = s.errInfo := rfl
@[simp] theorem takeStep_errCmd (h : HostStep) (rest : List HostStep) (s : State) : (takeStep h rest s).errCmd = s.errCmd := rfl
@[simp] theorem takeStep_doneIe (h : HostStep) (rest : List HostStep) (s : State) : (takeStep h rest s).doneIe = s.doneIe := rfl
@[simp] theorem takeStep_errIe (h : HostStep) (rest : List HostStep) (s : State) : (takeStep h rest s).errIe = s.errIe := rfl
@[simp] theorem takeStep_busy (h : HostStep) (rest : List HostStep) (s : State) : (takeStep h rest s).busy = s.busy := rfl
@[simp] theorem takeStep_err (h : HostStep) (rest : List HostStep) (s : State) : (takeStep h rest s).err = s.err := rfl
@[simp] theorem takeStep_done (h : HostStep) (rest : List HostStep) (s : State) : (takeStep h rest s).done = s.done := rfl
@[simp] theorem takeStep_cmdOvr (h : HostStep) (rest : List HostStep) (s : State) : (takeStep h rest s).cmdOvr = s.cmdOvr := rfl
@[simp] theorem takeStep_inOvr (h : HostStep) (rest : List HostStep) (s : State) : (takeStep h rest s).inOvr = s.inOvr := rfl
@[simp] theorem takeStep_cmdWord (h : HostStep) (rest : List HostStep) (s : State) : (takeStep h rest s).cmdWord = s.cmdWord := rfl
@[simp] theorem takeStep_cmdArg (h : HostStep) (rest : List HostStep) (s : State) : (takeStep h rest s).cmdArg = s.cmdArg := rfl
@[simp] theorem takeStep_todo (h : HostStep) (rest : List HostStep) (s : State) : (takeStep h rest s).todo = s.todo := rfl
@[simp] theorem takeStep_phase (h : HostStep) (rest : List HostStep) (s : State) : (takeStep h rest s).phase = s.phase := rfl
@[simp] theorem takeStep_ft (h : HostStep) (rest : List HostStep) (s : State) : (takeStep h rest s).ft = s.ft := rfl
@[simp] theorem takeStep_total (h : HostStep) (rest : List HostStep) (s : State) : (takeStep h rest s).total = s.total := rfl
@[simp] theorem takeStep_tstate (h : HostStep) (rest : List HostStep) (s : State) : (takeStep h rest s).tstate = s.tstate := rfl
@[simp] theorem takeStep_nodes (h : HostStep) (rest : List HostStep) (s : State) : (takeStep h rest s).nodes = s.nodes := rfl
@[simp] theorem takeStep_root (h : HostStep) (rest : List HostStep) (s : State) : (takeStep h rest s).root = s.root := rfl
@[simp] theorem takeStep_ct (h : HostStep) (rest : List HostStep) (s : State) : (takeStep h rest s).ct = s.ct := rfl
@[simp] theorem takeStep_bp (h : HostStep) (rest : List HostStep) (s : State) : (takeStep h rest s).bp = s.bp := rfl
@[simp] theorem takeStep_tvb (h : HostStep) (rest : List HostStep) (s : State) : (takeStep h rest s).tvb = s.tvb := rfl
@[simp] theorem takeStep_sealed (h : HostStep) (rest : List HostStep) (s : State) : (takeStep h rest s).sealed = s.sealed := rfl
@[simp] theorem takeStep_hlen (h : HostStep) (rest : List HostStep) (s : State) : (takeStep h rest s).hlen = s.hlen := rfl
@[simp] theorem takeStep_hbuf (h : HostStep) (rest : List HostStep) (s : State) : (takeStep h rest s).hbuf = s.hbuf := rfl
@[simp] theorem takeStep_dpos (h : HostStep) (rest : List HostStep) (s : State) : (takeStep h rest s).dpos = s.dpos := rfl
@[simp] theorem takeStep_pend (h : HostStep) (rest : List HostStep) (s : State) : (takeStep h rest s).pend = s.pend := rfl
@[simp] theorem takeStep_cur (h : HostStep) (rest : List HostStep) (s : State) : (takeStep h rest s).cur = s.cur := rfl
@[simp] theorem takeStep_inFifo (h : HostStep) (rest : List HostStep) (s : State) : (takeStep h rest s).inFifo = s.inFifo := rfl
@[simp] theorem takeStep_outFifo (h : HostStep) (rest : List HostStep) (s : State) : (takeStep h rest s).outFifo = s.outFifo := rfl
@[simp] theorem takeStep_statSyms (h : HostStep) (rest : List HostStep) (s : State) : (takeStep h rest s).statSyms = s.statSyms := rfl
@[simp] theorem takeStep_statBytes (h : HostStep) (rest : List HostStep) (s : State) : (takeStep h rest s).statBytes = s.statBytes := rfl
@[simp] theorem takeStep_script (h : HostStep) (rest : List HostStep) (s : State) : (takeStep h rest s).script = rest := rfl
@[simp] theorem takeStep_credit (h : HostStep) (rest : List HostStep) (s : State) : (takeStep h rest s).credit = h.credit := rfl
@[simp] theorem takeStep_reads (h : HostStep) (rest : List HostStep) (s : State) : (takeStep h rest s).reads = s.reads := rfl
@[simp] theorem takeStep_statusSeen (h : HostStep) (rest : List HostStep) (s : State) : (takeStep h rest s).statusSeen = s.statusSeen := rfl

end Sys2Proof.Machine
end

