-- ==== Sys2Proof/Laws/Flow.lean ====
section
/-! SUPPORT. What the shared operations can do, said once: the sequencing of operations, what a push and a pop answer,
and how a command ends. -/

namespace Sys2Proof.Machine

/-! ### Sequencing -/

/-- The state a flow carries. -/
def Flow.state : Flow → State
  | .done s => s
  | .wait s _ => s
  | .raised s => s

/-- A predicate holds of the state a flow carries. -/
def Flow.Holds (P : State → Prop) (f : Flow) : Prop := P f.state

@[simp] theorem Flow.holds_done {P : State → Prop} {s : State} : (Flow.done s).Holds P ↔ P s := Iff.rfl
@[simp] theorem Flow.holds_wait {P : State → Prop} {s : State} {r : List Micro} : (Flow.wait s r).Holds P ↔ P s :=
  Iff.rfl
@[simp] theorem Flow.holds_raised {P : State → Prop} {s : State} : (Flow.raised s).Holds P ↔ P s := Iff.rfl
@[simp] theorem holds_raise {P : State → Prop} {c : Cause} {i : Word} {s : State} :
    (raise c i s).Holds P ↔ P (errorEntry c i s) := Iff.rfl

@[simp] theorem Flow.andThen_done (s : State) (k : State → Flow) (r : List Micro) : (Flow.done s).andThen k r = k s := rfl
@[simp] theorem Flow.andThen_wait (s : State) (q : List Micro) (k : State → Flow) (r : List Micro) :
    (Flow.wait s q).andThen k r = .wait s (q ++ r) := rfl
@[simp] theorem Flow.andThen_raised (s : State) (k : State → Flow) (r : List Micro) :
    (Flow.raised s).andThen k r = .raised s := rfl
@[simp] theorem andThen_raise (c : Cause) (i : Word) (s : State) (k : State → Flow) (r : List Micro) :
    (raise c i s).andThen k r = raise c i s := rfl

theorem Flow.andThen_assoc (f : Flow) (k l : State → Flow) (r q : List Micro) :
    (f.andThen k r).andThen l q = f.andThen (fun s => (k s).andThen l q) (r ++ q) := by
  cases f <;> simp [Flow.andThen]

theorem Flow.holds_andThen {P : State → Prop} {f : Flow} {k : State → Flow} {r : List Micro} (hf : f.Holds P)
    (hk : ∀ s, P s → (k s).Holds P) : (f.andThen k r).Holds P := by
  cases f with
  | done s => exact hk s hf
  | wait s q => exact hf
  | raised s => exact hf

@[simp] theorem runTodo_nil (s : State) : runTodo [] s = .done s := rfl

theorem runTodo_cons (m : Micro) (ms : List Micro) (s : State) :
    runTodo (m :: ms) s = (runMicro m s).andThen (runTodo ms) ms := rfl

/-- Running one list of operations after another. -/
theorem runTodo_append (a b : List Micro) (s : State) : runTodo (a ++ b) s = (runTodo a s).andThen (runTodo b) b := by
  induction a generalizing s with
  | nil => rfl
  | cons m a ih =>
    simp only [List.cons_append, runTodo_cons, Flow.andThen_assoc]
    congr 1
    exact funext ih

@[simp] theorem runTodo_singleton (m : Micro) (s : State) : runTodo [m] s = runMicro m s := by
  rw [runTodo_cons]
  cases runMicro m s <;> simp [Flow.andThen]

/-! ### How a command ends -/

@[simp] theorem finish_done (s : State) : finish (.done s) = complete s := rfl
@[simp] theorem finish_wait (s : State) (r : List Micro) : finish (.wait s r) = { s with todo := r } := rfl
@[simp] theorem finish_raised (s : State) : finish (.raised s) = s := rfl

/-- In a legal phase a command runs its body. -/
theorem execute_legal {i : Instr} {s : State} (body : State → Flow) (h : legal i s.phase = true) :
    execute i s body = .next (finish (body s)) := by
  simp [execute, h]

/-- In another phase it raises SEQUENCE. -/
theorem execute_illegal {i : Instr} {s : State} (body : State → Flow) (h : legal i s.phase = false) :
    execute i s body = .next (errorEntry .sequence (s.phase.code.zeroExtend 32) s) := by
  simp [execute, h, raise]

/-! ### FIFO primitives -/

/-- A pop takes the oldest byte, or there is none the core may take. -/
theorem popIn_cases (s : State) :
    (popIn s = none ∧ (s.mayPass = false ∨ s.inFifo = [])) ∨
      ∃ b rest, s.mayPass = true ∧ s.inFifo = b :: rest ∧ popIn s = some (b, { s.spend with inFifo := rest }) := by
  unfold popIn
  split
  · rename_i h
    cases hs : s.inFifo with
    | nil => exact .inl ⟨rfl, .inr rfl⟩
    | cons b rest => exact .inr ⟨b, rest, h, rfl, rfl⟩
  · rename_i h
    exact .inl ⟨rfl, .inl (by simpa using h)⟩

theorem popIn_some {s t : State} {b : Byte} (h : popIn s = some (b, t)) :
    ∃ rest, s.mayPass = true ∧ s.inFifo = b :: rest ∧ t = { s.spend with inFifo := rest } := by
  obtain ⟨h', -⟩ | ⟨b', rest, hm, hi, h'⟩ := popIn_cases s
  · rw [h'] at h
    cases h
  · rw [h'] at h
    cases h
    exact ⟨rest, hm, hi, rfl⟩

/-- The state after these bytes are pushed with no credit limit. -/
def pushedAll (bs : ByteSeq) (s : State) : State :=
  { s with outFifo := s.outFifo ++ bs, statBytes := s.statBytes + BitVec.ofNat 32 bs.length }

/-- With no credit limit and room for every byte, a push of several bytes pushes them all. -/
theorem pushAll_room {bs : ByteSeq} {s : State} (hc : s.credit = none)
    (hr : s.outFifo.length + bs.length ≤ s.cfg.outDepth) : pushAll bs s = .done (pushedAll bs s) := by
  induction bs generalizing s with
  | nil => simp [pushAll, pushedAll]
  | cons b bs ih =>
    have hroom : (s.mayPass && s.outRoom) = true := by
      simp only [List.length_cons] at hr
      simp [State.mayPass, hc, State.outRoom]
      omega
    rw [pushAll, if_pos hroom, ih (by simp [hc]) (by simp only [List.length_cons] at hr; simp; omega)]
    congr 1
    simp only [pushedAll, pushed, State.spend, hc, Option.map_none, List.append_assoc, List.singleton_append,
      List.length_cons]
    congr 1
    rw [BitVec.add_assoc, Nat.add_comm bs.length 1, BitVec.ofNat_add]

/-- A push of several bytes ends with some of them pushed: all of them, or it waits with the others left. -/
theorem pushAll_cases (bs : ByteSeq) (s : State) :
    (∃ t, pushAll bs s = .done t) ∨ ∃ t b rest, pushAll bs s = .wait t [.push (b :: rest)] ∧ (b :: rest) <:+ bs := by
  induction bs generalizing s with
  | nil => exact .inl ⟨s, rfl⟩
  | cons b bs ih =>
    rw [pushAll]
    split
    · obtain ⟨t, h⟩ | ⟨t, b', rest, h, hs⟩ := ih (pushed b s)
      · exact .inl ⟨t, h⟩
      · exact .inr ⟨t, b', rest, h, hs.trans (List.suffix_cons _ _)⟩
    · exact .inr ⟨s, b, bs, rfl, List.suffix_rfl⟩

end Sys2Proof.Machine
end

