-- ==== Sys2Proof/Laws/Closed.lean ====
section
/-! SUPPORT. A property of states that the machine's primitive updates keep is kept by every command and every step.
Frames and invariants are both got from here: a field's frame is the property "the field is as before". -/

namespace Sys2Proof.Machine

/-- The property survives a push to OUT, where there is room. -/
structure PushClosed (P : State → Prop) : Prop where
  push : ∀ b s, s.outRoom = true → P s → P (pushed b s)

/-- The property survives the tree walk's updates and an error entry. -/
structure WalkClosed (P : State → Prop) : Prop extends PushClosed P where
  count : ∀ s, P s → P (countSym s)
  cur   : ∀ c s, P s → P { s with cur := c }
  error : ∀ c i s, P s → P (errorEntry c i s)

/-- The property survives the byte feed's updates. -/
structure FeedClosed (P : State → Prop) : Prop extends WalkClosed P where
  load  : ∀ h s, P s → (loadTree h s).Holds P
  phase : ∀ p s, P s → P { s with phase := p }
  dpos  : ∀ v s, P s → P { s with dpos := v }
  hlen  : ∀ v s, P s → P { s with hlen := v }
  hbuf  : ∀ v s, P s → P { s with hbuf := v }
  pend  : ∀ v s, v.length ≤ 2 → P s → P { s with pend := v }

/-- The property survives every operation a command may have left to do. -/
structure TodoClosed (P : State → Prop) : Prop extends FeedClosed P where
  pop  : ∀ b rest s, s.inFifo = b :: rest → P s → P { s.spend with inFifo := rest }
  keep : ∀ s, P s → P { s with bp := partialBits s.bp }
  close : ∀ s, P s → P { s with bp := [], sealed := true }

/-- The property survives every command's body, for symbols valid in the build. -/
structure ExecClosed (P : State → Prop) : Prop extends TodoClosed P where
  ftClear : ∀ s, P s → P (ftClear s)
  ftCount : ∀ sym s, s.cfg.validSym sym = true → P s → (ftCount sym s).Holds P
  build   : ∀ s, P s → P (build s)
  bpClear : ∀ s, P s → P (bpClear s)
  append  : ∀ seq s, P s → (appendBits seq s).Holds P
  clear   : ∀ s, P s → P (clearSession s)
  abort   : ∀ s, P s → P (abortClear s)
  result  : ∀ r0 r1 r2 s, P s → P (result r0 r1 r2 s)

variable {P : State → Prop}

theorem pushAll_holds (h : PushClosed P) (bs : ByteSeq) {s : State} (hs : P s) : (pushAll bs s).Holds P := by
  induction bs generalizing s with
  | nil => exact hs
  | cons b bs ih =>
    rw [pushAll]
    split
    · rename_i hr
      exact ih (h.push b s (by simp only [Bool.and_eq_true] at hr; exact hr.2) hs)
    · exact hs

theorem emit_holds (h : WalkClosed P) (sym : Sym) {s : State} (hs : P s) : (emit sym s).Holds P :=
  Flow.holds_andThen (pushAll_holds h.toPushClosed _ hs) fun _ ht => h.count _ ht

theorem walkBits_holds (h : WalkClosed P) (bits : BitSeq) (off : Word) {s : State} (hs : P s) :
    (walkBits bits off s).Holds P := by
  induction bits generalizing s with
  | nil => exact hs
  | cons bit bits ih =>
    rw [walkBits]
    split
    · split
      · exact h.error _ _ _ hs
      · exact Flow.holds_andThen (emit_holds h _ hs) fun _ ht => ih ht
    · dsimp only
      split
      · exact ih (h.cur _ _ hs)
      · exact Flow.holds_andThen (emit_holds h _ (h.cur _ _ hs)) fun _ ht => ih (h.cur _ _ ht)

theorem headerDone_holds (h : FeedClosed P) {s : State} (hs : P s) : (headerDone s).Holds P :=
  Flow.holds_andThen (h.load _ _ hs) fun _ ht => h.phase _ _ (h.cur _ _ ht)

theorem feed_holds (h : FeedClosed P) (b : Byte) {s : State} (hs : P s) : (feed b s).Holds P := by
  have h1 : P { s with dpos := s.dpos + 1#32 } := h.dpos _ _ hs
  unfold feed
  split
  · exact h.phase .dLen1 _ (h.hlen (b.zeroExtend 16) _ h1)
  · have h2 := h.hlen (s.hlen + (b.zeroExtend 16 <<< 8)) _ h1
    dsimp only
    split
    · exact headerDone_holds h h2
    · exact h.phase .dHdr _ h2
  · have h2 := h.hbuf (s.hbuf ++ [b]) _ h1
    dsimp only
    split
    · exact headerDone_holds h h2
    · exact h2
  · dsimp only
    split
    · rename_i p0 p1 _ _
      have h2 := h.pend [p1, (b, s.dpos)] _ (by simp) h1
      unfold confirm
      split
      · exact walkBits_holds h.toWalkClosed _ _ h2
      · exact h.error _ _ _ h2
      · exact h.error _ _ _ h2
    · exact h.pend _ _ (by simp) h1
    · exact h.pend _ _ (by simp) h1
  all_goals exact h1

theorem chunkLoop_holds (h : TodoClosed P) (n : Nat) {s : State} (hs : P s) : (chunkLoop n s).Holds P := by
  induction n generalizing s with
  | zero => exact hs
  | succ n ih =>
    rw [chunkLoop]
    split
    · exact hs
    · rename_i b t hp
      obtain ⟨rest, -, hi, rfl⟩ := popIn_some hp
      exact Flow.holds_andThen (feed_holds h.toFeedClosed b (h.pop b rest s hi hs)) fun _ ht => ih ht

theorem hdrBody_holds (h : TodoClosed P) (n : Nat) {s : State} (hs : P s) : (hdrBody n s).Holds P := by
  induction n generalizing s with
  | zero => exact h.load _ _ hs
  | succ n ih =>
    rw [hdrBody]
    split
    · exact hs
    · rename_i b t hp
      obtain ⟨rest, -, hi, rfl⟩ := popIn_some hp
      exact ih (h.hbuf _ _ (h.pop b rest s hi hs))

theorem hdrHi_holds (h : TodoClosed P) (lo : Byte) {s : State} (hs : P s) : (hdrHi lo s).Holds P := by
  rw [hdrHi]
  split
  · exact hs
  · rename_i b t hp
    obtain ⟨rest, -, hi, rfl⟩ := popIn_some hp
    exact hdrBody_holds h _ (h.hbuf _ _ (h.pop b rest s hi hs))

theorem hdrLo_holds (h : TodoClosed P) {s : State} (hs : P s) : (hdrLo s).Holds P := by
  rw [hdrLo]
  split
  · exact hs
  · rename_i b t hp
    obtain ⟨rest, -, hi, rfl⟩ := popIn_some hp
    exact hdrHi_holds h _ (h.pop b rest s hi hs)

theorem decTail_holds (h : FeedClosed P) {s : State} (hs : P s) : (decTail s).Holds P := by
  unfold decTail
  split
  · exact h.error _ _ _ hs
  · exact h.phase _ _ hs

theorem runMicro_holds (h : TodoClosed P) (m : Micro) {s : State} (hs : P s) : (runMicro m s).Holds P := by
  cases m with
  | push bytes => exact pushAll_holds h.toPushClosed _ hs
  | keepPartial => exact h.keep _ hs
  | sealPacker => exact h.close _ hs
  | setPhase p => exact h.phase _ _ hs
  | countSym => exact h.count _ hs
  | curToRoot => exact h.cur _ _ hs
  | walk bits off => exact walkBits_holds h.toWalkClosed _ _ hs
  | chunk n => exact chunkLoop_holds h _ hs
  | hdrLo => exact hdrLo_holds h hs
  | hdrHi lo => exact hdrHi_holds h _ hs
  | hdrBody n => exact hdrBody_holds h _ hs
  | decTail => exact decTail_holds h.toFeedClosed hs

theorem runTodo_holds (h : TodoClosed P) (ms : List Micro) {s : State} (hs : P s) : (runTodo ms s).Holds P := by
  induction ms generalizing s with
  | nil => exact hs
  | cons m ms ih => exact Flow.holds_andThen (runMicro_holds h m hs) fun _ ht => ih ht

theorem emitHeader_holds (h : WalkClosed P) {s : State} (hs : P s) : (emitHeader s).Holds P := by
  unfold emitHeader
  dsimp only
  split
  · exact h.error _ _ _ hs
  · exact pushAll_holds h.toPushClosed _ hs

theorem decEnd_holds (h : FeedClosed P) {s : State} (hs : P s) : (decEnd s).Holds P := by
  have hp : (decEndPresent s).Holds P := by
    unfold decEndPresent
    split
    · exact h.error _ _ _ hs
    · exact h.error _ _ _ hs
    · split
      · exact h.error _ _ _ hs
      · exact Flow.holds_andThen (walkBits_holds h.toWalkClosed _ _ hs) fun _ ht => decTail_holds h ht
  have ha : (decEndAbsent s).Holds P := by
    unfold decEndAbsent
    split
    · exact h.error _ _ _ hs
    · split
      · exact h.error _ _ _ hs
      · exact h.phase _ _ hs
    · exact h.error _ _ _ hs
  unfold decEnd
  split
  · exact h.error _ _ _ hs
  · exact h.error _ _ _ hs
  · exact h.error _ _ _ hs
  all_goals
    split
    · exact ha
    · exact hp
    · exact hp

theorem flushIfFull_holds (h : TodoClosed P) {s : State} (hs : P s) : (flushIfFull s).Holds P := by
  unfold flushIfFull
  split
  · exact runTodo_holds h _ hs
  · exact hs

theorem execute_holds (h : WalkClosed P) {i : Instr} {s : State} {body : State → Flow} (hs : P s)
    (hb : (body s).Holds P) :
    ∃ f : Flow, execute i s body = .next (finish f) ∧ f.Holds P := by
  cases hl : legal i s.phase with
  | true => exact ⟨body s, execute_legal body hl, hb⟩
  | false => exact ⟨.raised _, execute_illegal body hl, h.error _ _ _ hs⟩

/-- Every command's meaning is the end of a flow that keeps the property. -/
theorem exec_holds (h : ExecClosed P) {i : Instr} {s : State} (hi : i.wf s.cfg = true) (hs : P s) :
    ∃ f : Flow, exec i s = .next (finish f) ∧ f.Holds P := by
  have ht := h.toTodoClosed
  have hw := h.toWalkClosed
  cases i <;> simp only [exec, execFtClear, execFtCount, execFtRead, execTbBuild, execCtRead, execNodeRead,
    execTreeInfo, execTsSerialize, execTsDeserialize, execBpClear, execBpAppendBit, execBpAppendBits, execBpSize,
    execBpTvb, execBpDrainReady, execBpDrainAll, execEncBegin, execEncHeader, execEncSym, execEncFinish,
    execDecBegin, execDecChunk, execDecEnd, execNop, execAbort]
  case ftClear => exact execute_holds hw hs (h.ftClear _ hs)
  case ftCount sym => exact execute_holds hw hs (h.ftCount _ _ hi hs)
  case ftRead sym => exact execute_holds hw hs (h.result _ _ _ _ hs)
  case tbBuild => exact execute_holds hw hs (h.build _ hs)
  case ctRead sym =>
    refine execute_holds hw hs ?_
    show P (ctResult (s.ctRead sym) _ s)
    unfold ctResult
    split
    · exact h.result _ _ _ _ hs
    · exact h.result _ _ _ _ hs
  case nodeRead idx =>
    refine execute_holds hw hs ?_
    split
    · exact h.result _ _ _ _ hs
    · exact h.result _ _ _ _ hs
  case treeInfo => exact execute_holds hw hs (h.result _ _ _ _ hs)
  case tsSerialize =>
    refine execute_holds hw hs ?_
    split
    · exact h.error _ _ _ hs
    · exact emitHeader_holds hw hs
  case tsDeserialize => exact execute_holds hw hs (runTodo_holds ht _ hs)
  case bpClear => exact execute_holds hw hs (h.bpClear _ hs)
  case bpAppendBit bit => exact execute_holds hw hs (h.append _ _ hs)
  case bpAppendBits len val => exact execute_holds hw hs (h.append _ _ hs)
  case bpSize => exact execute_holds hw hs (h.result _ _ _ _ hs)
  case bpTvb => exact execute_holds hw hs (h.result _ _ _ _ hs)
  case bpDrainReady => exact execute_holds hw hs (runTodo_holds ht _ hs)
  case bpDrainAll => exact execute_holds hw hs (runTodo_holds ht _ hs)
  case encBegin => exact execute_holds hw hs (h.phase .eCount _ (h.clear _ hs))
  case encHeader =>
    exact execute_holds hw hs
      (Flow.holds_andThen (emitHeader_holds hw (h.build _ hs)) fun _ ht' => runTodo_holds ht _ ht')
  case encSym sym =>
    refine execute_holds hw hs ?_
    split
    · exact h.error _ _ _ hs
    · exact Flow.holds_andThen (h.append _ _ hs) fun _ ht' => flushIfFull_holds ht (h.count _ ht')
  case encFinish => exact execute_holds hw hs (runTodo_holds ht _ hs)
  case decBegin => exact execute_holds hw hs (h.phase .dLen0 _ (h.clear _ hs))
  case decChunk idx => exact execute_holds hw hs (runTodo_holds ht _ hs)
  case decEnd => exact execute_holds hw hs (decEnd_holds h.toFeedClosed hs)
  case nop => exact execute_holds hw hs hs
  case abort => exact execute_holds hw hs (h.abort _ hs)

end Sys2Proof.Machine
end

