-- ==== Sys2Proof/Laws/Decoding.lean ====
section
/-! SUPPORT. What the decoder's parts answer: a row of the opcode map whose operands pass their checks is a well-formed
command (spec/30_encoding.md R150, R151). -/

namespace Sys2Proof

/-- VAL has no bit above LEN exactly where it is below 2^LEN. -/
theorem shiftRight_eq_zero_iff (v : BitVec 16) (n : Nat) : v >>> n = 0#16 ↔ v.toNat < 2 ^ n := by
  rw [← BitVec.toNat_inj, BitVec.toNat_ushiftRight, BitVec.toNat_ofNat, Nat.shiftRight_eq_div_pow]
  simp only [Nat.zero_mod]
  exact Nat.div_eq_zero_iff_lt (Nat.two_pow_pos n)

/-- The operand checks of a row are its command's well-formedness. -/
theorem opcodeRow_wf {c : Config} {w : Word} {f : Format} {i : Instr} (h : opcodeRow w = some (f, i)) :
    checkOperands c f w = none ↔ i.wf c = true := by
  have hl : ∀ len : BitVec 5, ∀ val : BitVec 16,
      (if len.toNat = 0 ∨ 16 < len.toNat then some Illegal.lengthOutOfRange
        else if len.toNat < 16 ∧ val >>> len.toNat ≠ 0#16 then some Illegal.valueBitsAboveLength else none) = none ↔
      (decide (1 ≤ len.toNat) && decide (len.toNat ≤ 16) && decide (val.toNat < 2 ^ len.toNat)) = true := by
    intro len val
    simp only [Bool.and_eq_true, decide_eq_true_eq]
    have hv := val.isLt
    split
    · simp only [reduceCtorEq, false_iff]
      omega
    · split
      · rename_i h1 h2
        simp only [reduceCtorEq, false_iff]
        rw [ne_eq, shiftRight_eq_zero_iff] at h2
        exact fun h3 => h2.2 h3.2
      · rename_i h1 h2
        simp only [true_iff]
        rw [ne_eq, shiftRight_eq_zero_iff] at h2
        refine ⟨by omega, ?_⟩
        by_cases h16 : len.toNat < 16
        · exact Classical.not_not.1 fun h3 => h2 ⟨h16, h3⟩
        · rw [show len.toNat = 16 by omega]
          exact hv
  unfold opcodeRow at h
  split at h <;> cases h <;> simp only [checkOperands, Instr.wf]
  case h_12 => exact hl _ _
  all_goals simp

/-- A decoded command is well formed. -/
theorem decode_wf {c : Config} {w : Word} {i : Instr} (h : decode c w = .command i) : i.wf c = true := by
  unfold decode at h
  split at h
  · cases h
  · rename_i f j hrow
    split at h
    · split at h
      · cases h
      · rename_i hc
        cases h
        exact (opcodeRow_wf hrow).1 hc
    · cases h

end Sys2Proof
end

