-- ==== Sys2Proof/Laws/Memory.lean ====
section
/-! SUPPORT. The laws of the sparse memories FT and CT: a read after a write, and that every operation on them keeps
the canonical form (spec/10_state.md R58, R60). -/

namespace Sys2Proof.Machine

variable {α : Type}

theorem symLookup_symInsert_same (m : SymMap α) (s : Sym) (v : α) : symLookup (symInsert m s v) s = some v := by
  induction m with
  | nil => simp [symInsert, symLookup]
  | cons e rest ih =>
    obtain ⟨k, w⟩ := e
    unfold symInsert
    split
    · simp [symLookup]
    · split
      · simp [symLookup]
      · rename_i hne
        simp [symLookup, hne, ih]

theorem symLookup_symInsert_other (m : SymMap α) {s t : Sym} (v : α) (h : t ≠ s) :
    symLookup (symInsert m s v) t = symLookup m t := by
  induction m with
  | nil => simp [symInsert, symLookup, Ne.symm h]
  | cons e rest ih =>
    obtain ⟨k, w⟩ := e
    unfold symInsert
    split
    · simp [symLookup, Ne.symm h]
    · split
      · rename_i hk
        simp [symLookup, hk, Ne.symm h]
      · simp [symLookup, ih]

/-- In an ascending list every key after the head is above it. -/
theorem symAscending_cons {k : Sym} {w : α} {rest : SymMap α} :
    symAscending ((k, w) :: rest) = true ↔ (∀ e ∈ rest, k.toNat < e.1.toNat) ∧ symAscending rest = true := by
  induction rest generalizing k w with
  | nil => simp [symAscending]
  | cons e rest ih =>
    obtain ⟨k', w'⟩ := e
    simp only [symAscending, Bool.and_eq_true, decide_eq_true_eq, List.mem_cons, forall_eq_or_imp]
    constructor
    · rintro ⟨h1, h2⟩
      exact ⟨⟨h1, fun e he => Nat.lt_trans h1 ((ih.1 h2).1 e he)⟩, h2⟩
    · rintro ⟨⟨h1, -⟩, h2⟩
      exact ⟨h1, h2⟩

theorem mem_symInsert {m : SymMap α} {s : Sym} {v : α} {e : Sym × α} (h : e ∈ symInsert m s v) :
    e = (s, v) ∨ e ∈ m := by
  induction m with
  | nil => simpa [symInsert] using h
  | cons a rest ih =>
    obtain ⟨k, w⟩ := a
    unfold symInsert at h
    split at h
    · simpa using h
    · split at h
      · rcases List.mem_cons.1 h with h | h
        · exact .inl h
        · exact .inr (List.mem_cons_of_mem _ h)
      · rcases List.mem_cons.1 h with h | h
        · exact .inr (h ▸ List.mem_cons_self)
        · exact (ih h).imp_right (List.mem_cons_of_mem _)

theorem symAscending_symInsert {m : SymMap α} (s : Sym) (v : α) (h : symAscending m = true) :
    symAscending (symInsert m s v) = true := by
  induction m with
  | nil => rfl
  | cons a rest ih =>
    obtain ⟨k, w⟩ := a
    obtain ⟨hk, hr⟩ := symAscending_cons.1 h
    unfold symInsert
    split
    · rename_i hlt
      refine symAscending_cons.2 ⟨?_, h⟩
      rintro e he
      rcases List.mem_cons.1 he with rfl | he
      · exact hlt
      · exact Nat.lt_trans hlt (hk e he)
    · rename_i hnlt
      split
      · rename_i heq
        subst heq
        exact symAscending_cons.2 ⟨hk, hr⟩
      · rename_i hne
        refine symAscending_cons.2 ⟨?_, ih hr⟩
        rintro e he
        rcases mem_symInsert he with rfl | he
        · have : k.toNat ≠ s.toNat := fun h' => hne (BitVec.eq_of_toNat_eq h')
          show k.toNat < s.toNat
          omega
        · exact hk e he

theorem ftWf_symInsert {m : SymMap Word} (s : Sym) {v : Word} (hv : v ≠ 0#32) (h : ftWf m = true) :
    ftWf (symInsert m s v) = true := by
  simp only [ftWf, Bool.and_eq_true, List.all_eq_true] at h ⊢
  refine ⟨symAscending_symInsert s v h.1, fun e he => ?_⟩
  rcases mem_symInsert he with rfl | he
  · simpa using hv
  · exact h.2 e he

/-- A symbol absent from the list adds one entry, a present one none. -/
theorem length_symInsert {m : SymMap α} (s : Sym) (v : α) (h : symAscending m = true) :
    (symInsert m s v).length = m.length + if symLookup m s = none then 1 else 0 := by
  induction m with
  | nil => simp [symInsert, symLookup]
  | cons a rest ih =>
    obtain ⟨k, w⟩ := a
    obtain ⟨hk, hr⟩ := symAscending_cons.1 h
    unfold symInsert
    split
    · rename_i hlt
      have hnone : symLookup ((k, w) :: rest) s = none := by
        have key : ∀ l : SymMap α, (∀ e ∈ l, s.toNat < e.1.toNat) → symLookup l s = none := by
          intro l hl
          induction l with
          | nil => rfl
          | cons e l ih' =>
            have : e.1 ≠ s := fun h' => by
              have := hl e List.mem_cons_self
              rw [h'] at this
              exact Nat.lt_irrefl _ this
            simp [symLookup, this, ih' fun e' he' => hl e' (List.mem_cons_of_mem _ he')]
        refine key _ fun e he => ?_
        rcases List.mem_cons.1 he with rfl | he
        · exact hlt
        · exact Nat.lt_trans hlt (hk e he)
      simp [hnone]
    · split
      · rename_i heq
        simp [symLookup, heq]
      · rename_i hne
        simp only [List.length_cons, ih hr, symLookup, if_neg hne]
        omega

theorem mem_of_symLookup {m : SymMap α} {s : Sym} {v : α} (h : symLookup m s = some v) : (s, v) ∈ m := by
  induction m with
  | nil => cases h
  | cons a rest ih =>
    obtain ⟨k, w⟩ := a
    unfold symLookup at h
    split at h
    · rename_i hk
      cases h
      exact hk ▸ List.mem_cons_self
    · exact List.mem_cons_of_mem _ (ih h)

/-- In canonical form a symbol is a key exactly where its count is not 0. -/
theorem symLookup_eq_none_iff {m : SymMap Word} (s : Sym) (h : ftWf m = true) :
    symLookup m s = none ↔ (symLookup m s).getD 0#32 = 0#32 := by
  constructor
  · intro h'
    rw [h']
    rfl
  · intro h'
    cases hl : symLookup m s with
    | none => rfl
    | some v =>
      rw [hl] at h'
      simp only [ftWf, Bool.and_eq_true, List.all_eq_true] at h
      have := h.2 _ (mem_of_symLookup hl)
      simp at h' this
      exact absurd h' this

/-- The memories of the reset state are canonical. -/
theorem reset_memory_wf : Memory.wf State.reset = true := rfl

/-- FT_COUNT's write keeps the canonical form: a count below 2^32 - 1 does not wrap to 0. -/
theorem ftCount_write_wf {m : SymMap Word} (s : Sym) (h : ftWf m = true)
    (hv : (symLookup m s).getD 0#32 ≠ 0xFFFFFFFF#32) :
    ftWf (symInsert m s ((symLookup m s).getD 0#32 + 1#32)) = true := by
  refine ftWf_symInsert s (fun h0 => hv ?_) h
  have := congrArg (· - 1#32) h0
  simpa using this

end Sys2Proof.Machine
end

