-- ==== Sys2Proof/Laws/Tree.lean ====
section
/-! SUPPORT. What writing the tree changes: `build`, `load_tree` and `assign_codes` write the tree and CT and nothing
else (spec/41_tree_builder.md R200, spec/42_tree_serializer.md R258), and the code assignment keeps CT canonical. -/

namespace Sys2Proof.Machine

/-- `assign_codes()` writes only the codes and CT. -/
theorem assignCodes_frame (s : State) :
    assignCodes s = { s with nodes := (assignCodes s).nodes, ct := (assignCodes s).ct } := by
  unfold assignCodes
  split <;> rfl

/-- `build()` writes only the tree and CT. -/
theorem build_frame (s : State) :
    build s = { s with tstate := (build s).tstate, nodes := (build s).nodes, root := (build s).root,
                       ct := (build s).ct } := by
  unfold build
  split
  · rfl
  · dsimp only
    rw [assignCodes_frame]
    rfl

/-- `load_tree(h)` ends, or raises MALFORMED_TREE with the tree cleared. -/
theorem loadTree_cases (h : ByteSeq) (s : State) :
    (∃ sub pos, deserialize s.cfg h = .malformed sub pos ∧
      loadTree h s = raise .malformedTree (malformedInfo sub pos) (treeClear s)) ∨
    (deserialize s.cfg h = .absent ∧ loadTree h s = .done { treeClear s with tstate := .absent }) ∨
    (∃ nodes, deserialize s.cfg h = .present nodes ∧
      loadTree h s = .done (assignCodes { treeClear s with nodes := nodes, tstate := .present })) := by
  unfold loadTree
  dsimp only
  split
  · rename_i sub pos hd
    exact .inl ⟨sub, pos, hd, rfl⟩
  · rename_i hd
    exact .inr (.inl ⟨hd, rfl⟩)
  · rename_i nodes hd
    exact .inr (.inr ⟨nodes, hd, rfl⟩)

@[simp] theorem length_setCode (nodes : List Node) (i : NodeIdx) (c : BitSeq) :
    (setCode nodes i c).length = nodes.length := by
  simp [setCode]

/-- Writing a code changes no node's kind, symbol, children or frequency. -/
theorem nodeAt_setCode_body (nodes : List Node) (i j : NodeIdx) (c : BitSeq) :
    (nodeAt (setCode nodes i c) j).body = (nodeAt nodes j).body := by
  unfold nodeAt setCode
  rw [List.getElem?_modify]
  split
  · rename_i h
    cases hn : nodes[j.toNat]? <;> simp
  · simp

theorem nodeAt_setCode_freq (nodes : List Node) (i j : NodeIdx) (c : BitSeq) :
    (nodeAt (setCode nodes i c) j).freq = (nodeAt nodes j).freq := by
  unfold nodeAt setCode
  rw [List.getElem?_modify]
  split
  · cases hn : nodes[j.toNat]? <;> simp
  · simp

/-- The code assignment keeps the number of nodes and the canonical form of CT. -/
theorem assignFrom_length_ascending (fuel : Nat) (i : NodeIdx) (c : BitSeq) (nodes : List Node) (ct : SymMap CtEntry)
    (h : symAscending ct = true) :
    (assignFrom fuel i c (nodes, ct)).1.length = nodes.length ∧
      symAscending (assignFrom fuel i c (nodes, ct)).2 = true := by
  induction fuel generalizing i c nodes ct with
  | zero => exact ⟨rfl, h⟩
  | succ fuel ih =>
    rw [assignFrom]
    split
    · exact ⟨length_setCode _ _ _, symAscending_symInsert _ _ h⟩
    · rename_i l r _
      obtain ⟨h1, h2⟩ := ih l (c ++ [false]) (setCode nodes i c) ct h
      generalize assignFrom fuel l (c ++ [false]) (setCode nodes i c, ct) = m at h1 h2 ⊢
      obtain ⟨n1, ct1⟩ := m
      obtain ⟨h3, h4⟩ := ih r (c ++ [true]) n1 ct1 h2
      exact ⟨h3.trans (h1.trans (length_setCode _ _ _)), h4⟩

theorem assignCodes_ct_ascending (s : State) : symAscending (assignCodes s).ct = true := by
  unfold assignCodes
  split
  · exact (assignFrom_length_ascending _ _ _ _ _ rfl).2
  · rfl
  · rfl

theorem assignCodes_ncount (s : State) : (assignCodes s).nodes.length = s.nodes.length := by
  unfold assignCodes
  split
  · exact (assignFrom_length_ascending _ _ _ _ _ rfl).1
  · rfl
  · rfl

theorem build_ct_ascending (s : State) : symAscending (build s).ct = true := by
  unfold build
  split
  · rfl
  · exact assignCodes_ct_ascending _

end Sys2Proof.Machine
end

