-- ==== Sys2Proof/Laws/Forest.lean ====
section
/-! SUPPORT. The node lists the builder makes: every INTERNAL node comes after its children (spec/41_tree_builder.md
R205), so a traversal needs no more fuel than there are nodes (log entry 11), and the length of a built tree's header is
that of spec/30_encoding.md R178. -/

namespace Sys2Proof.Machine

/-- Every INTERNAL node comes after its two children. -/
def Older (nodes : List Node) : Prop :=
  ∀ (i l r : NodeIdx), i.toNat < nodes.length → (nodeAt nodes i).body = .internal l r →
    l.toNat < i.toNat ∧ r.toNat < i.toNat

theorem nodeAt_append {nodes : List Node} {i : NodeIdx} (more : List Node) (h : i.toNat < nodes.length) :
    nodeAt (nodes ++ more) i = nodeAt nodes i := by
  simp [nodeAt, List.getElem?_append_left h]

/-- More nodes and more fuel change no traversal from an older node. -/
theorem visit_stable (c : Config) {nodes : List Node} (more : List Node) (ho : Older nodes) :
    ∀ (f g : Nat) (i : NodeIdx), i.toNat < nodes.length → i.toNat < f → i.toNat < g →
      visit c (nodes ++ more) f i = visit c nodes g i := by
  intro f
  induction f with
  | zero => intro g i _ hf; omega
  | succ f ih =>
    intro g i hi hf hg
    obtain ⟨g, rfl⟩ : ∃ g', g = g' + 1 := ⟨g - 1, by omega⟩
    rw [visit, visit, nodeAt_append more hi]
    cases hb : (nodeAt nodes i).body with
    | leaf sym => rfl
    | internal l r =>
      obtain ⟨hl, hr⟩ := ho i l r hi hb
      dsimp only
      rw [ih g l (by omega) (by omega) (by omega), ih g r (by omega) (by omega) (by omega)]

/-- Fuel above an older node's index changes no traversal. -/
theorem visit_fuel (c : Config) {nodes : List Node} (ho : Older nodes) {f g : Nat} {i : NodeIdx}
    (hi : i.toNat < nodes.length) (hf : i.toNat < f) (hg : i.toNat < g) : visit c nodes f i = visit c nodes g i := by
  have h := visit_stable c [] ho f g i hi hf hg
  rwa [List.append_nil] at h

/-- The number of header bytes of the subtree at a node. -/
def headerBytes (c : Config) (nodes : List Node) (i : NodeIdx) : Nat := (visit c nodes (i.toNat + 1) i).length

theorem headerBytes_append (c : Config) {nodes : List Node} (more : List Node) (ho : Older nodes) {i : NodeIdx}
    (hi : i.toNat < nodes.length) : headerBytes c (nodes ++ more) i = headerBytes c nodes i := by
  unfold headerBytes
  rw [visit_stable c more ho _ _ i hi (Nat.lt_succ_self _) (Nat.lt_succ_self _)]

/-- A merged node after its children keeps the order. -/
theorem older_append {nodes : List Node} (ho : Older nodes) {n : Node}
    (hc : ∀ l r, n.body = .internal l r → l.toNat < nodes.length ∧ r.toNat < nodes.length) : Older (nodes ++ [n]) := by
  intro i l r hi hb
  rw [List.length_append, List.length_singleton] at hi
  rcases Nat.lt_or_ge i.toNat nodes.length with h | h
  · rw [nodeAt_append _ h] at hb
    exact ho i l r h hb
  · have he : i.toNat = nodes.length := by omega
    have : nodeAt (nodes ++ [n]) i = n := by simp [nodeAt, he]
    rw [this] at hb
    rw [he]
    exact hc l r hb

/-- `popMin` takes an element of the collection and keeps the others. -/
theorem popMin_some {w : List Key} (h : w ≠ []) : ∃ m, m ∈ w ∧ popMin w = some (m, w.erase m) := by
  cases w with
  | nil => exact absurd rfl h
  | cons k rest =>
    have hmem : ∀ (l : List Key) (a : Key), l.foldl Key.min a = a ∨ l.foldl Key.min a ∈ l := by
      intro l
      induction l with
      | nil => exact fun a => .inl rfl
      | cons b l ih =>
        intro a
        rw [List.foldl_cons]
        rcases ih (Key.min a b) with h | h
        · rw [h]
          unfold Key.min
          split
          · exact .inr List.mem_cons_self
          · exact .inl rfl
        · exact .inr (List.mem_cons_of_mem _ h)
    refine ⟨rest.foldl Key.min k, ?_, rfl⟩
    rcases hmem rest k with h | h
    · rw [h]
      exact List.mem_cons_self
    · exact List.mem_cons_of_mem _ h

/-- The header bytes of the trees of a working collection, together. -/
def collectionBytes (c : Config) (nodes : List Node) (w : List Key) : Nat :=
  (w.map fun k => headerBytes c nodes k.idx).sum

theorem collectionBytes_erase (c : Config) (nodes : List Node) {w : List Key} {m : Key} (h : m ∈ w) :
    collectionBytes c nodes w = headerBytes c nodes m.idx + collectionBytes c nodes (w.erase m) := by
  unfold collectionBytes
  rw [((List.perm_cons_erase h).map _).sum_eq, List.map_cons, List.sum_cons]

theorem collectionBytes_append (c : Config) {nodes : List Node} (more : List Node) (ho : Older nodes) {w : List Key}
    (hw : ∀ k ∈ w, k.idx.toNat < nodes.length) :
    collectionBytes c (nodes ++ more) w = collectionBytes c nodes w := by
  unfold collectionBytes
  congr 1
  exact List.map_congr_left fun k hk => headerBytes_append c more ho (hw k hk)

/-- The merge of a collection of `m + 1` trees adds `m` nodes, each after its children, and one header byte for each. -/
theorem mergeLoop_shape (c : Config) :
    ∀ (m fuel : Nat) (w : List Key) (nodes : List Node), w.length = m + 1 → m + 1 ≤ fuel →
      (∀ k ∈ w, k.idx.toNat < nodes.length) → Older nodes → nodes.length + m ≤ 2 ^ 16 - 1 →
      Older (mergeLoop fuel w nodes).2 ∧ (mergeLoop fuel w nodes).2.length = nodes.length + m ∧
        (mergeLoop fuel w nodes).1.toNat < nodes.length + m ∧
        headerBytes c (mergeLoop fuel w nodes).2 (mergeLoop fuel w nodes).1 = collectionBytes c nodes w + m := by
  intro m
  induction m with
  | zero =>
    intro fuel w nodes hw hf hk ho _
    obtain ⟨fuel, rfl⟩ : ∃ g, fuel = g + 1 := ⟨fuel - 1, by omega⟩
    obtain ⟨a, rfl⟩ := List.length_eq_one_iff.1 hw
    have ha := hk a List.mem_cons_self
    simp [mergeLoop, popMin, ho, ha, collectionBytes]
  | succ m ih =>
    intro fuel w nodes hw hf hk ho hn
    obtain ⟨fuel, rfl⟩ : ∃ g, fuel = g + 1 := ⟨fuel - 1, by omega⟩
    obtain ⟨a, ha, ea⟩ := popMin_some (w := w) (by rintro rfl; simp at hw)
    have hl1 : (w.erase a).length = m + 1 := by
      rw [List.length_erase_of_mem ha, hw]
      rfl
    obtain ⟨b, hb, eb⟩ := popMin_some (w := w.erase a) (by intro h; rw [h] at hl1; simp at hl1)
    have hka := hk a ha
    have hkb := hk b (List.mem_of_mem_erase hb)
    have hidx : (BitVec.ofNat 16 nodes.length).toNat = nodes.length := by
      rw [BitVec.toNat_ofNat]
      exact Nat.mod_eq_of_lt (by omega)
    have hw2 : ∀ k ∈ (w.erase a).erase b, k.idx.toNat < nodes.length := fun k h =>
      hk k (List.mem_of_mem_erase (List.mem_of_mem_erase h))
    have key : mergeLoop (fuel + 1) w nodes =
        mergeLoop fuel ((w.erase a).erase b ++ [{ freq := a.freq + b.freq, idx := BitVec.ofNat 16 nodes.length }])
          (nodes ++ [{ freq := a.freq + b.freq, body := .internal a.idx b.idx, code := [] }]) := by
      rw [mergeLoop, ea]
      dsimp only
      rw [eb]
    generalize hN : ({ freq := a.freq + b.freq, body := .internal a.idx b.idx, code := [] } : Node) = n at key
    have hbody : n.body = .internal a.idx b.idx := by rw [← hN]
    have ho2 : Older (nodes ++ [n]) := older_append ho fun l r h => by
      rw [hbody] at h
      cases h
      exact ⟨hka, hkb⟩
    have hnew : headerBytes c (nodes ++ [n]) (BitVec.ofNat 16 nodes.length) =
        1 + headerBytes c nodes a.idx + headerBytes c nodes b.idx := by
      have hat : nodeAt (nodes ++ [n]) (BitVec.ofNat 16 nodes.length) = n := by simp [nodeAt, hidx]
      unfold headerBytes
      rw [hidx, visit, hat, hbody]
      dsimp only
      rw [visit_stable c [n] ho _ (a.idx.toNat + 1) a.idx hka hka (Nat.lt_succ_self _),
        visit_stable c [n] ho _ (b.idx.toNat + 1) b.idx hkb hkb (Nat.lt_succ_self _)]
      simp only [List.length_cons, List.length_append]
      omega
    have hlen2 : ((w.erase a).erase b).length = m := by
      rw [List.length_erase_of_mem hb, hl1]
      rfl
    obtain ⟨h1, h2, h3, h4⟩ := ih fuel
      ((w.erase a).erase b ++ [{ freq := a.freq + b.freq, idx := BitVec.ofNat 16 nodes.length }]) (nodes ++ [n])
      (by simp [hlen2]) (by omega)
      (by
        intro k h
        rw [List.length_append, List.length_singleton]
        rcases List.mem_append.1 h with h | h
        · exact Nat.lt_succ_of_lt (hw2 k h)
        · rw [List.mem_singleton.1 h]
          exact lt_of_eq_of_lt hidx (Nat.lt_succ_self _))
      ho2 (by rw [List.length_append, List.length_singleton]; omega)
    rw [key]
    rw [List.length_append, List.length_singleton] at h2 h3
    refine ⟨h1, by omega, by omega, ?_⟩
    rw [h4]
    have hsum : ∀ (l : List Key) (k : Key), collectionBytes c (nodes ++ [n]) (l ++ [k]) =
        collectionBytes c (nodes ++ [n]) l + headerBytes c (nodes ++ [n]) k.idx := by
      intro l k
      simp [collectionBytes]
    rw [hsum, hnew, collectionBytes_append c [n] ho hw2, collectionBytes_erase c nodes ha,
      collectionBytes_erase c nodes hb]
    omega

/-! ### What the code assignment leaves alone -/

/-- The traversal changes no node's kind, symbol or children. -/
theorem assignFrom_body (fuel : Nat) (i : NodeIdx) (code : BitSeq) (nodes : List Node) (ct : SymMap CtEntry)
    (j : NodeIdx) : (nodeAt (assignFrom fuel i code (nodes, ct)).1 j).body = (nodeAt nodes j).body := by
  induction fuel generalizing i code nodes ct with
  | zero => rfl
  | succ fuel ih =>
    rw [assignFrom]
    split
    · exact nodeAt_setCode_body _ _ _ _
    · rename_i l r _
      have h1 := ih l (code ++ [false]) (setCode nodes i code) ct
      generalize assignFrom fuel l (code ++ [false]) (setCode nodes i code, ct) = m at h1 ⊢
      obtain ⟨n1, ct1⟩ := m
      exact (ih r (code ++ [true]) n1 ct1).trans (h1.trans (nodeAt_setCode_body _ _ _ _))

theorem assignCodes_body (s : State) (j : NodeIdx) :
    (nodeAt (assignCodes s).nodes j).body = (nodeAt s.nodes j).body := by
  unfold assignCodes
  split
  · exact assignFrom_body _ _ _ _ _ _
  · rfl
  · rfl

/-- A traversal reads only the nodes' kinds, symbols and children. -/
theorem visit_congr (c : Config) {nodes nodes' : List Node}
    (h : ∀ j, (nodeAt nodes' j).body = (nodeAt nodes j).body) (fuel : Nat) (i : NodeIdx) :
    visit c nodes' fuel i = visit c nodes fuel i := by
  induction fuel generalizing i with
  | zero => rfl
  | succ fuel ih =>
    rw [visit, visit, h]
    cases (nodeAt nodes i).body with
    | leaf sym => rfl
    | internal l r => dsimp only; rw [ih, ih]

/-! ### The header of a built tree -/

theorem assignCodes_tree (s : State) :
    (assignCodes s).tstate = s.tstate ∧ (assignCodes s).root = s.root ∧ (assignCodes s).cfg = s.cfg := by
  unfold assignCodes
  split <;> exact ⟨rfl, rfl, rfl⟩

/-- The header of a PRESENT tree is read from its nodes as they were before the code assignment. -/
theorem serialize_assignCodes (s : State) (h : s.tstate = .present) :
    serialize (assignCodes s) = visit s.cfg s.nodes s.nodes.length s.root := by
  obtain ⟨h1, h2, h3⟩ := assignCodes_tree s
  unfold serialize
  rw [h1, h, h2, h3]
  show visit s.cfg (assignCodes s).nodes (assignCodes s).nodes.length s.root = _
  rw [assignCodes_ncount]
  exact visit_congr s.cfg (assignCodes_body s) _ _

theorem older_leavesOf (ft : SymMap Word) : Older (leavesOf ft) := by
  intro i l r hi hb
  have hi' : i.toNat < ft.length := by simpa [leavesOf] using hi
  simp [nodeAt, leavesOf, List.getElem?_eq_getElem hi'] at hb

theorem length_keysOf (nodes : List Node) : (keysOf nodes).length = nodes.length := by simp [keysOf]

theorem keysOf_idx {nodes : List Node} (h : nodes.length ≤ 2 ^ 16) {k : Key} (hk : k ∈ keysOf nodes) :
    k.idx.toNat < nodes.length := by
  obtain ⟨i, hi, rfl⟩ := List.mem_mapIdx.1 hk
  rw [BitVec.toNat_ofNat, Nat.mod_eq_of_lt (by omega)]
  exact hi

/-- The leaves of a working collection cost their markers and their texts. -/
theorem collectionBytes_leaves (c : Config) (ft : SymMap Word) (h : ft.length ≤ 2 ^ 16) :
    collectionBytes c (leavesOf ft) (keysOf (leavesOf ft)) = (ft.map fun e => 1 + (symText c e.1).length).sum := by
  unfold collectionBytes
  congr 1
  apply List.ext_getElem
  · simp [keysOf, leavesOf]
  · intro i h1 h2
    have hi : i < ft.length := by simpa using h2
    have hm : (BitVec.ofNat 16 i).toNat = i := by
      rw [BitVec.toNat_ofNat]
      exact Nat.mod_eq_of_lt (by omega)
    have hat : (nodeAt (leavesOf ft) (BitVec.ofNat 16 i)).body = .leaf ft[i].1 := by
      simp [nodeAt, hm, leavesOf, List.getElem?_eq_getElem hi]
    simp only [List.getElem_map, keysOf, List.getElem_mapIdx, headerBytes, visit, hat, List.length_cons]
    omega

/-- `build()` with a key in FT: the merge of its leaves, and then their codes. -/
theorem build_of_ft_ne_nil (s : State) (h : s.ft ≠ []) :
    build s = assignCodes
      { s with
          tstate := .present, ct := []
          nodes := (mergeLoop (leavesOf s.ft).length (keysOf (leavesOf s.ft)) (leavesOf s.ft)).2
          root := (mergeLoop (leavesOf s.ft).length (keysOf (leavesOf s.ft)) (leavesOf s.ft)).1 } := by
  unfold build
  split
  · rename_i hft
    exact absurd hft h
  · rename_i e rest hft
    rw [← hft]
    rfl

/-- What `build()` leaves of the nodes: 2N - 1, each INTERNAL one after its children, and their header's length. -/
theorem mergeLoop_leaves (c : Config) (ft : SymMap Word) (h1 : ft ≠ []) (h2 : ft.length ≤ 2 ^ 15) :
    Older (mergeLoop (leavesOf ft).length (keysOf (leavesOf ft)) (leavesOf ft)).2 ∧
      (mergeLoop (leavesOf ft).length (keysOf (leavesOf ft)) (leavesOf ft)).2.length = 2 * ft.length - 1 ∧
      (mergeLoop (leavesOf ft).length (keysOf (leavesOf ft)) (leavesOf ft)).1.toNat < 2 * ft.length - 1 ∧
      headerBytes c (mergeLoop (leavesOf ft).length (keysOf (leavesOf ft)) (leavesOf ft)).2
          (mergeLoop (leavesOf ft).length (keysOf (leavesOf ft)) (leavesOf ft)).1 =
        ft.length - 1 + (ft.map fun e => 1 + (symText c e.1).length).sum := by
  have hl : (leavesOf ft).length = ft.length := by simp [leavesOf]
  have hpos : 0 < ft.length := List.length_pos_iff.2 h1
  obtain ⟨ho, hn, hr, hb⟩ := mergeLoop_shape c (ft.length - 1) (leavesOf ft).length (keysOf (leavesOf ft)) (leavesOf ft)
    (by rw [length_keysOf, hl]; omega) (by omega) (fun k hk => keysOf_idx (by omega) hk) (older_leavesOf _) (by omega)
  rw [collectionBytes_leaves c _ (by omega)] at hb
  exact ⟨ho, by omega, by omega, by omega⟩

/-- The header of a tree built from `N` keys: `N - 1` internal markers, `N` leaf markers and the symbol texts. -/
theorem length_serialize_build (s : State) (h1 : s.ft ≠ []) (h2 : s.ft.length ≤ 2 ^ 15) :
    (serialize (build s)).length = s.ft.length - 1 + (s.ft.map fun e => 1 + (symText s.cfg e.1).length).sum := by
  obtain ⟨ho, hn, hr, hb⟩ := mergeLoop_leaves s.cfg s.ft h1 h2
  rw [build_of_ft_ne_nil s h1, serialize_assignCodes _ rfl]
  generalize mergeLoop (leavesOf s.ft).length (keysOf (leavesOf s.ft)) (leavesOf s.ft) = m at ho hn hr hb ⊢
  show (visit s.cfg m.2 m.2.length m.1).length = _
  rw [visit_fuel s.cfg ho (by omega) (by omega) (Nat.lt_succ_self _)]
  exact hb

end Sys2Proof.Machine
end

