-- ==== Sys2Proof/Laws/PerInstr.lean ====
section
/-! SUPPORT. Per-instruction laws of the encoding: the word of a command selects the command's own row of the opcode
map, with every operand read back and every reserved bit 0 (spec/30_encoding.md R140 to R147). -/

namespace Sys2Proof

/-! ### The bits of a word of each format -/

theorem getLsbD_encodeN (o : BitVec 8) (k : Nat) :
    (encodeN o).getLsbD k = if k < 24 then false else o.getLsbD (k - 24) := by
  refine (BitVec.getLsbD_append (x := o) (y := 0#24) (i := k)).trans ?_
  simp

theorem getLsbD_encodeS (o : BitVec 8) (s : Sym) (k : Nat) :
    (encodeS o s).getLsbD k = if k < 21 then s.getLsbD k else if k < 24 then false else o.getLsbD (k - 24) := by
  refine (BitVec.getLsbD_append (x := o ++ 0#3) (y := s) (i := k)).trans ?_
  rw [BitVec.getLsbD_append]
  rcases Nat.lt_or_ge k 21 with h | h
  · simp [h]
  · rw [show k - 24 = k - 21 - 3 by omega]
    rcases Nat.lt_or_ge k 24 with h' | h'
    · simp [Nat.not_lt.2 h, h', show k - 21 < 3 by omega]
    · simp [Nat.not_lt.2 h, Nat.not_lt.2 h', show ¬(k - 21 < 3) by omega]

theorem getLsbD_encodeB (o : BitVec 8) (b : Bool) (k : Nat) :
    (encodeB o b).getLsbD k = if k < 1 then b else if k < 24 then false else o.getLsbD (k - 24) := by
  refine (BitVec.getLsbD_append (x := o ++ 0#23) (y := BitVec.ofBool b) (i := k)).trans ?_
  rw [BitVec.getLsbD_append]
  rcases Nat.lt_or_ge k 1 with h | h
  · obtain rfl : k = 0 := by omega
    simp
  · rw [show k - 24 = k - 1 - 23 by omega]
    rcases Nat.lt_or_ge k 24 with h' | h'
    · simp [Nat.not_lt.2 h, h', show k - 1 < 23 by omega]
    · simp [Nat.not_lt.2 h, Nat.not_lt.2 h', show ¬(k - 1 < 23) by omega]

theorem getLsbD_encodeL (o : BitVec 8) (l : BitVec 5) (v : BitVec 16) (k : Nat) :
    (encodeL o l v).getLsbD k =
      if k < 16 then v.getLsbD k else if k < 21 then l.getLsbD (k - 16)
      else if k < 24 then false else o.getLsbD (k - 24) := by
  refine (BitVec.getLsbD_append (x := (o ++ 0#3) ++ l) (y := v) (i := k)).trans ?_
  rw [BitVec.getLsbD_append, BitVec.getLsbD_append]
  rw [show k - 24 = k - 16 - 5 - 3 by omega]
  rcases Nat.lt_or_ge k 16 with h | h
  · simp [h]
  · rcases Nat.lt_or_ge k 21 with h' | h'
    · simp [Nat.not_lt.2 h, h', show k - 16 < 5 by omega]
    · rcases Nat.lt_or_ge k 24 with h2 | h2
      · simp [Nat.not_lt.2 h, Nat.not_lt.2 h', h2, show ¬(k - 16 < 5) by omega, show k - 16 - 5 < 3 by omega]
      · simp [Nat.not_lt.2 h, Nat.not_lt.2 h', Nat.not_lt.2 h2, show ¬(k - 16 < 5) by omega,
          show ¬(k - 16 - 5 < 3) by omega]

theorem getLsbD_encodeI (o : BitVec 8) (x : BitVec 16) (k : Nat) :
    (encodeI o x).getLsbD k = if k < 16 then x.getLsbD k else if k < 24 then false else o.getLsbD (k - 24) := by
  refine (BitVec.getLsbD_append (x := o ++ 0#8) (y := x) (i := k)).trans ?_
  rw [BitVec.getLsbD_append]
  rcases Nat.lt_or_ge k 16 with h | h
  · simp [h]
  · rw [show k - 24 = k - 16 - 8 by omega]
    rcases Nat.lt_or_ge k 24 with h' | h'
    · simp [Nat.not_lt.2 h, h', show k - 16 < 8 by omega]
    · simp [Nat.not_lt.2 h, Nat.not_lt.2 h', show ¬(k - 16 < 8) by omega]

/-! ### The fields read back -/

theorem opcField_of_bits {w : Word} {o : BitVec 8} (h : ∀ k < 8, w.getLsbD (24 + k) = o.getLsbD k) : opcField w = o := by
  ext k hk
  simp [opcField, h k hk, BitVec.getLsbD_eq_getElem hk]

@[simp] theorem opcField_encodeN (o : BitVec 8) : opcField (encodeN o) = o :=
  opcField_of_bits fun k _ => by simp [getLsbD_encodeN]
@[simp] theorem opcField_encodeS (o : BitVec 8) (s : Sym) : opcField (encodeS o s) = o :=
  opcField_of_bits fun k _ => by
    simp [getLsbD_encodeS, show ¬(24 + k < 21) by omega]
@[simp] theorem opcField_encodeB (o : BitVec 8) (b : Bool) : opcField (encodeB o b) = o :=
  opcField_of_bits fun k _ => by simp [getLsbD_encodeB]
@[simp] theorem opcField_encodeL (o : BitVec 8) (l : BitVec 5) (v : BitVec 16) : opcField (encodeL o l v) = o :=
  opcField_of_bits fun k _ => by
    simp [getLsbD_encodeL, show ¬(24 + k < 16) by omega, show ¬(24 + k < 21) by omega]
@[simp] theorem opcField_encodeI (o : BitVec 8) (x : BitVec 16) : opcField (encodeI o x) = o :=
  opcField_of_bits fun k _ => by
    simp [getLsbD_encodeI, show ¬(24 + k < 16) by omega]

@[simp] theorem symField_encodeS (o : BitVec 8) (s : Sym) : symField (encodeS o s) = s := by
  ext k hk
  simp [symField, getLsbD_encodeS, hk]
@[simp] theorem bitField_encodeB (o : BitVec 8) (b : Bool) : bitField (encodeB o b) = b := by
  show (encodeB o b).getLsbD 0 = b
  rw [getLsbD_encodeB]
  rfl
@[simp] theorem lenField_encodeL (o : BitVec 8) (l : BitVec 5) (v : BitVec 16) : lenField (encodeL o l v) = l := by
  ext k hk
  simp [lenField, getLsbD_encodeL, show 16 + k < 21 by omega, BitVec.getLsbD_eq_getElem hk]
@[simp] theorem valField_encodeL (o : BitVec 8) (l : BitVec 5) (v : BitVec 16) : valField (encodeL o l v) = v := by
  ext k hk
  simp [valField, getLsbD_encodeL, hk]
@[simp] theorem idxField_encodeI (o : BitVec 8) (x : BitVec 16) : idxField (encodeI o x) = x := by
  ext k hk
  simp [idxField, getLsbD_encodeI, hk]

/-! ### The reserved bits -/

@[simp] theorem reservedClear_encodeN (o : BitVec 8) : reservedClear .n (encodeN o) = true := by
  simp only [reservedClear, beq_iff_eq]
  ext k hk
  simp [getLsbD_encodeN, hk]
@[simp] theorem reservedClear_encodeS (o : BitVec 8) (s : Sym) : reservedClear .s (encodeS o s) = true := by
  simp only [reservedClear, beq_iff_eq]
  ext k hk
  simp [getLsbD_encodeS, show 21 + k < 24 by omega]
@[simp] theorem reservedClear_encodeB (o : BitVec 8) (b : Bool) : reservedClear .b (encodeB o b) = true := by
  simp only [reservedClear, beq_iff_eq]
  ext k hk
  simp [getLsbD_encodeB, show 1 + k < 24 by omega]
@[simp] theorem reservedClear_encodeL (o : BitVec 8) (l : BitVec 5) (v : BitVec 16) :
    reservedClear .l (encodeL o l v) = true := by
  simp only [reservedClear, beq_iff_eq]
  ext k hk
  simp [getLsbD_encodeL, show 21 + k < 24 by omega, show ¬(21 + k < 16) by omega]
@[simp] theorem reservedClear_encodeI (o : BitVec 8) (x : BitVec 16) : reservedClear .i (encodeI o x) = true := by
  simp only [reservedClear, beq_iff_eq]
  ext k hk
  simp [getLsbD_encodeI, show 16 + k < 24 by omega]

/-! ### One lemma per constructor -/

namespace Laws.RowOfEncoding

/-- The word of a command selects the command's own row, and its reserved bits are 0. -/
def Statement (i : Instr) : Prop := ∃ f, opcodeRow (encode i) = some (f, i) ∧ reservedClear f (encode i) = true

theorem ftClear : Statement .ftClear := ⟨.n, by simp [opcodeRow, encode]⟩
theorem ftCount (sym : Sym) : Statement (.ftCount sym) := ⟨.s, by simp [opcodeRow, encode]⟩
theorem ftRead (sym : Sym) : Statement (.ftRead sym) := ⟨.s, by simp [opcodeRow, encode]⟩
theorem tbBuild : Statement .tbBuild := ⟨.n, by simp [opcodeRow, encode]⟩
theorem ctRead (sym : Sym) : Statement (.ctRead sym) := ⟨.s, by simp [opcodeRow, encode]⟩
theorem nodeRead (idx : BitVec 16) : Statement (.nodeRead idx) := ⟨.i, by simp [opcodeRow, encode]⟩
theorem treeInfo : Statement .treeInfo := ⟨.n, by simp [opcodeRow, encode]⟩
theorem tsSerialize : Statement .tsSerialize := ⟨.n, by simp [opcodeRow, encode]⟩
theorem tsDeserialize : Statement .tsDeserialize := ⟨.n, by simp [opcodeRow, encode]⟩
theorem bpClear : Statement .bpClear := ⟨.n, by simp [opcodeRow, encode]⟩
theorem bpAppendBit (bit : Bool) : Statement (.bpAppendBit bit) := ⟨.b, by simp [opcodeRow, encode]⟩
theorem bpAppendBits (len : BitVec 5) (val : BitVec 16) : Statement (.bpAppendBits len val) :=
  ⟨.l, by simp [opcodeRow, encode]⟩
theorem bpSize : Statement .bpSize := ⟨.n, by simp [opcodeRow, encode]⟩
theorem bpTvb : Statement .bpTvb := ⟨.n, by simp [opcodeRow, encode]⟩
theorem bpDrainReady : Statement .bpDrainReady := ⟨.n, by simp [opcodeRow, encode]⟩
theorem bpDrainAll : Statement .bpDrainAll := ⟨.n, by simp [opcodeRow, encode]⟩
theorem encBegin : Statement .encBegin := ⟨.n, by simp [opcodeRow, encode]⟩
theorem encHeader : Statement .encHeader := ⟨.n, by simp [opcodeRow, encode]⟩
theorem encSym (sym : Sym) : Statement (.encSym sym) := ⟨.s, by simp [opcodeRow, encode]⟩
theorem encFinish : Statement .encFinish := ⟨.n, by simp [opcodeRow, encode]⟩
theorem decBegin : Statement .decBegin := ⟨.n, by simp [opcodeRow, encode]⟩
theorem decChunk (idx : BitVec 16) : Statement (.decChunk idx) := ⟨.i, by simp [opcodeRow, encode]⟩
theorem decEnd : Statement .decEnd := ⟨.n, by simp [opcodeRow, encode]⟩
theorem nop : Statement .nop := ⟨.n, by simp [opcodeRow, encode]⟩
theorem abort : Statement .abort := ⟨.n, by simp [opcodeRow, encode]⟩

end Laws.RowOfEncoding
end Sys2Proof
end

