-- ==== Sys2Proof/Laws/Phases.lean ====
section
/-! SUPPORT. The legality check of `execute` against the table of spec/46_control.md R455, and what a command answers in
a phase of its row. -/

namespace Sys2Proof.Machine

/-- The check that `execute` makes is the table of R455. -/
theorem legal_eq_phaseTable (i : Instr) (p : Phase) : legal i p = decide (p ∈ phaseTable i) := by
  cases i <;> cases p <;> rfl

theorem legal_of_mem {i : Instr} {p : Phase} (h : p ∈ phaseTable i) : legal i p = true := by
  rw [legal_eq_phaseTable]
  exact decide_eq_true h

/-- In a phase of its row a command runs its body. -/
theorem execute_of_mem {i : Instr} {s : State} (body : State → Flow) (h : s.phase ∈ phaseTable i) :
    execute i s body = .next (finish (body s)) :=
  execute_legal body (legal_of_mem h)

/-- A phase's number is its place in R55's table. -/
theorem phase_code_eq_idxOf (p : Phase) : p.code.zeroExtend 32 = BitVec.ofNat 32 (allPhases.idxOf p) := by
  cases p <;> decide

/-- A raise leaves the error state of R520 with its cause's code of R501. -/
theorem errorEntry_eq_erred (c : Cause) (info : Word) (s : State) : errorEntry c info s = State.erred c.code info s := rfl

end Sys2Proof.Machine
end

