-- ==== Sys2Proof/Laws/Served.lean ====
section
/-! SUPPORT. The small lemmas of what the host does for a command in flight: one per field and update, true by `rfl`,
and that pushes and pops add up. -/

namespace Sys2Proof.Machine

@[simp] theorem served_cfg (ys : ByteSeq) (n : Nat) (s : State) : (s.served ys n).cfg = s.cfg := rfl
@[simp] theorem served_busy (ys : ByteSeq) (n : Nat) (s : State) : (s.served ys n).busy = s.busy := rfl
@[simp] theorem served_todo (ys : ByteSeq) (n : Nat) (s : State) : (s.served ys n).todo = s.todo := rfl
@[simp] theorem served_phase (ys : ByteSeq) (n : Nat) (s : State) : (s.served ys n).phase = s.phase := rfl
@[simp] theorem served_credit (ys : ByteSeq) (n : Nat) (s : State) : (s.served ys n).credit = none := rfl
@[simp] theorem served_inFifo (ys : ByteSeq) (n : Nat) (s : State) : (s.served ys n).inFifo = s.inFifo ++ ys := rfl
@[simp] theorem served_outFifo (ys : ByteSeq) (n : Nat) (s : State) : (s.served ys n).outFifo = s.outFifo.drop n := rfl
@[simp] theorem served_script (ys : ByteSeq) (n : Nat) (s : State) : (s.served ys n).script = s.script := rfl

@[simp] theorem servedAhead_cfg (ys : ByteSeq) (n : Nat) (s : State) : (s.servedAhead ys n).cfg = { s.cfg with outDepth := s.cfg.outDepth + n } := rfl
@[simp] theorem servedAhead_busy (ys : ByteSeq) (n : Nat) (s : State) : (s.servedAhead ys n).busy = s.busy := rfl
@[simp] theorem servedAhead_todo (ys : ByteSeq) (n : Nat) (s : State) : (s.servedAhead ys n).todo = s.todo := rfl
@[simp] theorem servedAhead_phase (ys : ByteSeq) (n : Nat) (s : State) : (s.servedAhead ys n).phase = s.phase := rfl
@[simp] theorem servedAhead_credit (ys : ByteSeq) (n : Nat) (s : State) : (s.servedAhead ys n).credit = none := rfl
@[simp] theorem servedAhead_inFifo (ys : ByteSeq) (n : Nat) (s : State) : (s.servedAhead ys n).inFifo = s.inFifo ++ ys := rfl
@[simp] theorem servedAhead_outFifo (ys : ByteSeq) (n : Nat) (s : State) : (s.servedAhead ys n).outFifo = s.outFifo := rfl
@[simp] theorem servedAhead_script (ys : ByteSeq) (n : Nat) (s : State) : (s.servedAhead ys n).script = s.script := rfl

@[simp] theorem poppedTo_cfg (c : Config) (n : Nat) (s : State) : (s.poppedTo c n).cfg = c := rfl
@[simp] theorem poppedTo_busy (c : Config) (n : Nat) (s : State) : (s.poppedTo c n).busy = s.busy := rfl
@[simp] theorem poppedTo_todo (c : Config) (n : Nat) (s : State) : (s.poppedTo c n).todo = s.todo := rfl
@[simp] theorem poppedTo_phase (c : Config) (n : Nat) (s : State) : (s.poppedTo c n).phase = s.phase := rfl
@[simp] theorem poppedTo_credit (c : Config) (n : Nat) (s : State) : (s.poppedTo c n).credit = s.credit := rfl
@[simp] theorem poppedTo_inFifo (c : Config) (n : Nat) (s : State) : (s.poppedTo c n).inFifo = s.inFifo := rfl
@[simp] theorem poppedTo_outFifo (c : Config) (n : Nat) (s : State) : (s.poppedTo c n).outFifo = s.outFifo.drop n := rfl
@[simp] theorem poppedTo_script (c : Config) (n : Nat) (s : State) : (s.poppedTo c n).script = s.script := rfl

theorem served_nothing (s : State) : s.served [] 0 = { s with credit := none } := by
  simp [State.served]

/-- Two visits of the host are one. -/
theorem served_served (ys zs : ByteSeq) (m n : Nat) (s : State) :
    (s.served ys m).served zs n = s.served (ys ++ zs) (m + n) := by
  simp [State.served]

/-- OUT has room in a run served ahead exactly when it has room after the pops. -/
theorem servedAhead_outRoom (ys : ByteSeq) (n : Nat) (s : State) (h : n ≤ s.outFifo.length) :
    (s.servedAhead ys n).outRoom = (s.served ys n).outRoom := by
  show decide (s.outFifo.length < s.cfg.outDepth + n) = decide ((s.outFifo.drop n).length < s.cfg.outDepth)
  rw [List.length_drop]
  exact decide_eq_decide.2 (by omega)

end Sys2Proof.Machine
end

