-- ==== Sys2Proof/Laws/StepClosed.lean ====
section
/-! SUPPORT. A property of states that every primitive update keeps is kept by every step (an induction over the step,
packaged once). -/

namespace Sys2Proof.Machine

/-- The property survives every update that a step makes around a command. -/
structure StepClosed (P : State → Prop) : Prop extends ExecClosed P where
  complete : ∀ s, P s → P (complete s)
  latch    : ∀ td s, P s → P { s with todo := td }
  accept   : ∀ w s, P s → P (accept w s)
  take     : ∀ sc cr s, P s → P { s with script := sc, credit := cr }
  cmdOvr   : ∀ s, P s → P { s with cmdOvr := true }
  hostRead : ∀ off s, P s → P (hostRead off s)
  hostWrite : ∀ off v s, P s → P (hostWrite off v s)
  hwReset  : ∀ s, P s → P (hardwareReset s)

variable {P : State → Prop}

theorem finish_keeps (h : StepClosed P) {f : Flow} (hf : f.Holds P) : P (finish f) := by
  cases f with
  | done s => exact h.complete _ hf
  | wait s r => exact h.latch _ _ hf
  | raised s => exact hf

theorem resume_keeps (h : StepClosed P) {s : State} (hs : P s) : P (resume s) := by
  unfold resume
  split
  · exact finish_keeps h (runTodo_holds h.toTodoClosed _ hs)
  · exact hs

theorem exec_keeps (h : StepClosed P) {i : Instr} {s t : State} (hi : i.wf s.cfg = true) (hs : P s)
    (he : exec i s = .next t) : P t := by
  obtain ⟨f, hf, hp⟩ := exec_holds h.toExecClosed hi hs
  rw [hf] at he
  cases he
  exact finish_keeps h hp

theorem offerCommand_keeps (h : StepClosed P) {w : Word} {s t : State} (hs : P s)
    (he : offerCommand w s = .next t) : P t := by
  unfold offerCommand at he
  split at he
  · cases he
    exact resume_keeps h (h.cmdOvr _ hs)
  · split at he
    · cases he
      exact hs
    · unfold executeWord at he
      split at he
      · rename_i i hd
        exact exec_keeps h (decode_wf hd) (h.accept _ _ hs) he
      · cases he
        exact h.error _ _ _ (h.accept _ _ hs)

theorem hostAccess_keeps (h : StepClosed P) {a : HostAccess} {s t : State} (hs : P s)
    (he : hostAccess a s = .next t) : P t := by
  cases a with
  | idle => cases he; exact resume_keeps h hs
  | rst => cases he; exact h.hwReset _ hs
  | read off => cases he; exact resume_keeps h (h.hostRead _ _ hs)
  | write off v =>
    simp only [hostAccess] at he
    split at he
    · exact offerCommand_keeps h hs he
    · cases he
      exact resume_keeps h (h.hostWrite _ _ _ hs)

/-- Every step keeps a property that its primitive updates keep. -/
theorem step_keeps (h : StepClosed P) {s t : State} (hs : P s) (he : step s = .next t) : P t := by
  unfold step at he
  split at he
  · cases he
    exact resume_keeps h (h.take s.script none _ hs)
  · exact hostAccess_keeps h (h.take _ _ _ hs) he

end Sys2Proof.Machine
end

