-- ==== Sys2Proof/Machine/Pseudo.lean ====
section
/-! DEFINITION. The lines of a host's program and the pseudo-instructions (spec/30_encoding.md R152, R153), as the
accesses and commands they stand for. Their text is the assembler's and is not modelled (log entry 18). -/

namespace Sys2Proof.Machine

/-- The pseudo-instructions (R153). -/
inductive Pseudo where
  | ftCountStr (text : List Sym)
  | encSymStr (text : List Sym)
  | bpAppendSeq (bits : BitSeq)
  | encode (text : List Sym)
  | decode (n : BitVec 16)
  | decodeChunks (ns : List (BitVec 16))
deriving DecidableEq, Repr

/-- VAL of a bit string of at most 16 bits: the first bit is `VAL[LEN-1]`. -/
def packVal (bits : BitSeq) : BitVec 16 := BitVec.ofNat 16 (bits.foldl (fun acc b => 2 * acc + bitNat b) 0)

/-- `ceil(n/16)` BP_APPEND_BITS commands, each but the last with 16 bits. `fuel` bounds their number. -/
def appendSeq : Nat → BitSeq → List Instr
  | 0, _ => []
  | _ + 1, [] => []
  | fuel + 1, b :: bs =>
      let now := (b :: bs).take 16
      .bpAppendBits (BitVec.ofNat 5 now.length) (packVal now) :: appendSeq fuel ((b :: bs).drop 16)

/-- The commands a pseudo-instruction expands into, in order. -/
def Pseudo.expand : Pseudo → List Instr
  | .ftCountStr text => text.map .ftCount
  | .encSymStr text => text.map .encSym
  | .bpAppendSeq bits => appendSeq bits.length bits
  | .encode text => .encBegin :: text.map .ftCount ++ .encHeader :: text.map .encSym ++ [.encFinish]
  | .decode n => [.decBegin, .decChunk n, .decEnd]
  | .decodeChunks ns => .decBegin :: ns.map .decChunk ++ [.decEnd]

/-- One line of a host's program (R152). `polls` is how often a WAIT reads STATUS before it reads BUSY = 0. -/
inductive HostLine where
  | wr (off : BitVec 8) (v : Word)
  | rd (off : BitVec 8)
  | push (bytes : ByteSeq)
  | pop (n : Nat)
  | wait (polls : Nat)
  | command (polls : Nat) (i : Instr)
deriving DecidableEq, Repr

/-- The accesses a line stands for, in order: a command line is a WAIT and then the CMD write. -/
def HostLine.accesses : HostLine → List HostAccess
  | .wr off v => [.write off v]
  | .rd off => [.read off]
  | .push bytes => bytes.map fun b => .write 0x30#8 (b.zeroExtend 32)
  | .pop n => List.replicate n (.read 0x34#8)
  | .wait polls => List.replicate polls (.read 0x0C#8)
  | .command polls i => List.replicate polls (.read 0x0C#8) ++ [.write 0x10#8 (Sys2Proof.encode i)]

/-- The script of a host's program, the core running as far as it can after each access. -/
def scriptOf (lines : List HostLine) : List HostStep :=
  (lines.map HostLine.accesses).flatten.map fun a => { access := a, credit := none }

end Sys2Proof.Machine
end

