-- ==== Sys2Proof/Tests/Slice0.lean ====
section
/-! SUPPORT. The model's own tests: words written out from the encodings of spec/30_encoding.md, ill-formed terms that the
checks refuse, single instructions with the results of the spec's worked examples (spec/41 to spec/46), and for each
statement with hypotheses a state that meets them. -/

namespace Sys2Proof.Tests

open Sys2Proof Sys2Proof.Machine

/-! ### Decoding: a word of every row of R147, written out from its format -/

theorem test_decode_ftClear : decode Config.default 0x10000000#32 = .command .ftClear := by decide
theorem test_decode_ftCount : decode Config.default 0x11000041#32 = .command (.ftCount 0x41#21) := by decide
theorem test_decode_ftRead : decode Config.default 0x120000FF#32 = .command (.ftRead 0xFF#21) := by decide
theorem test_decode_tbBuild : decode Config.default 0x18000000#32 = .command .tbBuild := by decide
theorem test_decode_ctRead : decode Config.default 0x19000042#32 = .command (.ctRead 0x42#21) := by decide
theorem test_decode_nodeRead : decode Config.default 0x1A00FFFF#32 = .command (.nodeRead 0xFFFF#16) := by decide
theorem test_decode_treeInfo : decode Config.default 0x1B000000#32 = .command .treeInfo := by decide
theorem test_decode_tsSerialize : decode Config.default 0x20000000#32 = .command .tsSerialize := by decide
theorem test_decode_tsDeserialize : decode Config.default 0x21000000#32 = .command .tsDeserialize := by decide
theorem test_decode_bpClear : decode Config.default 0x28000000#32 = .command .bpClear := by decide
theorem test_decode_bpAppendBit_one : decode Config.default 0x29000001#32 = .command (.bpAppendBit true) := by decide
theorem test_decode_bpAppendBit_zero : decode Config.default 0x29000000#32 = .command (.bpAppendBit false) := by decide
theorem test_decode_bpAppendBits : decode Config.default 0x2A0B07D4#32 = .command (.bpAppendBits 11#5 0b11111010100#16) := by decide
theorem test_decode_bpAppendBits_16 : decode Config.default 0x2A10A5C3#32 = .command (.bpAppendBits 16#5 0xA5C3#16) := by decide
theorem test_decode_bpSize : decode Config.default 0x2B000000#32 = .command .bpSize := by decide
theorem test_decode_bpTvb : decode Config.default 0x2C000000#32 = .command .bpTvb := by decide
theorem test_decode_bpDrainReady : decode Config.default 0x2D000000#32 = .command .bpDrainReady := by decide
theorem test_decode_bpDrainAll : decode Config.default 0x2E000000#32 = .command .bpDrainAll := by decide
theorem test_decode_encBegin : decode Config.default 0x30000000#32 = .command .encBegin := by decide
theorem test_decode_encHeader : decode Config.default 0x31000000#32 = .command .encHeader := by decide
theorem test_decode_encSym : decode Config.default 0x32000043#32 = .command (.encSym 0x43#21) := by decide
theorem test_decode_encFinish : decode Config.default 0x33000000#32 = .command .encFinish := by decide
theorem test_decode_decBegin : decode Config.default 0x38000000#32 = .command .decBegin := by decide
theorem test_decode_decChunk : decode Config.default 0x3900000D#32 = .command (.decChunk 13#16) := by decide
theorem test_decode_decEnd : decode Config.default 0x3A000000#32 = .command .decEnd := by decide
theorem test_decode_nop : decode Config.default 0x00000000#32 = .command .nop := by decide
theorem test_decode_abort : decode Config.default 0x01000000#32 = .command .abort := by decide
theorem test_decode_encSym_utf8 : decode Config.utf8Default 0x3210FFFF#32 = .command (.encSym 0x10FFFF#21) := by decide

/-! ### Words that are no command (R148 to R151) -/

theorem test_illegal_unassigned : decode Config.default 0xFF000000#32 = .illegal .unassignedOpcode := by decide
theorem test_illegal_unassigned_gap : decode Config.default 0x2F000000#32 = .illegal .unassignedOpcode := by decide
theorem test_illegal_reserved_n : decode Config.default 0x00000001#32 = .illegal .reservedBits := by decide
theorem test_illegal_reserved_s : decode Config.default 0x11200041#32 = .illegal .reservedBits := by decide
theorem test_illegal_reserved_b : decode Config.default 0x29000002#32 = .illegal .reservedBits := by decide
theorem test_illegal_reserved_l : decode Config.default 0x2A200000#32 = .illegal .reservedBits := by decide
theorem test_illegal_reserved_i : decode Config.default 0x39010000#32 = .illegal .reservedBits := by decide
theorem test_illegal_symbol_byte : decode Config.default 0x11000100#32 = .illegal .symbolNotValid := by decide
theorem test_illegal_symbol_surrogate : decode Config.utf8Default 0x1100D800#32 = .illegal .symbolNotValid := by decide
theorem test_illegal_symbol_above_unicode : decode Config.utf8Default 0x11110000#32 = .illegal .symbolNotValid := by
  decide
theorem test_illegal_length_zero : decode Config.default 0x2A000000#32 = .illegal .lengthOutOfRange := by decide
theorem test_illegal_length_17 : decode Config.default 0x2A110000#32 = .illegal .lengthOutOfRange := by decide
theorem test_illegal_value_bits : decode Config.default 0x2A030008#32 = .illegal .valueBitsAboveLength := by decide
theorem test_table_word_reads_the_row : decodeTableWord 32 0x3900000D = some (.decChunk 13#16) := by decide

/-! ### Ill-formed terms that WellFormed refuses, one for each of its checks (R9, R150) -/

theorem test_wf_symbol_above_byte : (Instr.ftCount 0x100#21).wf Config.default = false := by decide
theorem test_wf_read_symbol_above_byte : (Instr.ftRead 0x100#21).wf Config.default = false := by decide
theorem test_wf_code_symbol_above_byte : (Instr.ctRead 0x100#21).wf Config.default = false := by decide
theorem test_wf_symbol_surrogate : (Instr.encSym 0xDFFF#21).wf Config.utf8Default = false := by decide
theorem test_wf_symbol_above_unicode : (Instr.encSym 0x110000#21).wf Config.utf8Default = false := by decide
theorem test_wf_length_zero : (Instr.bpAppendBits 0#5 0#16).wf Config.default = false := by decide
theorem test_wf_length_17 : (Instr.bpAppendBits 17#5 0#16).wf Config.default = false := by decide
theorem test_wf_value_above_length : (Instr.bpAppendBits 3#5 8#16).wf Config.default = false := by decide
theorem test_wf_accepts_length_16 : (Instr.bpAppendBits 16#5 0xFFFF#16).wf Config.default = true := by decide
theorem test_config_default_wf : Config.default.wf = true := by decide
theorem test_config_utf8_wf : Config.utf8Default.wf = true := by decide

/-! ### Single instructions -/

/-- The next state of an outcome meets a check. -/
def next (o : Host.Outcome State Fault Refusal) (p : State → Bool) : Bool :=
  match o with
  | .next t => p t
  | .fault _ => false
  | .refused _ => false

/-- The reset state with a command just accepted, in a phase. -/
def inPhase (p : Phase) : State := { State.reset with busy := true, phase := p }

/-- The frequency table of the spec's running example, {A:5, B:2, C:1}. -/
def abcFt : SymMap Word := [(0x41#21, 5#32), (0x42#21, 2#32), (0x43#21, 1#32)]

/-- The state with that table. -/
def counted (p : Phase) : State := { State.reset with busy := true, phase := p, ft := abcFt, total := 8#32 }

/-- The built tree of the running example, written out from R220: A = 1, B = 01, C = 00. -/
def abcNodes : List Node :=
  [{ freq := 5#32, body := .leaf 0x41#21, code := [true] },
   { freq := 2#32, body := .leaf 0x42#21, code := [false, true] },
   { freq := 1#32, body := .leaf 0x43#21, code := [false, false] },
   { freq := 3#32, body := .internal 2#16 1#16, code := [false] },
   { freq := 8#32, body := .internal 3#16 0#16, code := [] }]

/-- The code table of the running example. -/
def abcCt : SymMap CtEntry :=
  [(0x41#21, { code := [true], freq := 5#32 }), (0x42#21, { code := [false, true], freq := 2#32 }),
   (0x43#21, { code := [false, false], freq := 1#32 })]

/-- The state with that tree. -/
def built (p : Phase) : State :=
  { State.reset with busy := true, phase := p, ft := abcFt, total := 8#32, tstate := .present, nodes := abcNodes,
                     root := 4#16, ct := abcCt }

/-- A packer with these bits, appended since the last clear. -/
def packed (p : Phase) (bits : BitSeq) (t : BitVec 4) : State :=
  { State.reset with busy := true, phase := p, bp := bits, tvb := t }

/-- A decode session in its payload, with the example's tree as its header loads it (R431) and these pending bytes. -/
def paying (pend : List (Byte × Word)) : State :=
  { State.reset with
      busy := true, phase := .dPay, tstate := .present, root := 0#16, pend := pend, dpos := 12#32
      nodes := [{ freq := 0#32, body := .internal 1#16 4#16, code := [] },
                { freq := 0#32, body := .internal 2#16 3#16, code := [false] },
                { freq := 0#32, body := .leaf 0x43#21, code := [false, false] },
                { freq := 0#32, body := .leaf 0x42#21, code := [false, true] },
                { freq := 0#32, body := .leaf 0x41#21, code := [true] }] }

/-- A decode session in its payload, with the ABSENT tree. -/
def payingAbsent (pend : List (Byte × Word)) : State :=
  { State.reset with busy := true, phase := .dPay, tstate := .absent, pend := pend, dpos := 3#32 }

/-- R210 example. -/
theorem test_ftClear_empties :
    next (exec .ftClear (counted .idle)) (fun t =>
      t.ftRead 0x41#21 == 0#32 && t.nsym == 0 && t.total == 0#32 && t.done) = true := by
  decide
/-- R211. -/
theorem test_ftCount_adds_one :
    next (exec (.ftCount 0x43#21) (counted .eCount)) (fun t =>
      t.ftRead 0x43#21 == 2#32 && t.ftRead 0x42#21 == 2#32 && t.nsym == 3 && t.total == 9#32) = true := by
  decide
/-- R202. -/
theorem test_ftCount_overflow :
    next (exec (.ftCount 0x42#21) { counted .idle with total := 0xFFFFFFFF#32 }) (fun t =>
      t.err && !t.done && t.errCause == 0x21#8 && t.errInfo == 0x42#32) = true := by
  decide
/-- R212 example. -/
theorem test_ftRead_example :
    next (exec (.ftRead 0x41#21) (counted .dPay)) (fun t =>
      t.result0 == 5#32 && t.result1 == 3#32 && t.result2 == 8#32) = true := by
  decide
/-- R220 example. -/
theorem test_tbBuild_example :
    next (exec .tbBuild (counted .idle)) (fun t =>
      t.nodes == abcNodes && t.root == 4#16 && t.ct == abcCt && t.tstate == .present) = true := by
  decide
/-- R206. -/
theorem test_tbBuild_empty_is_absent :
    next (exec .tbBuild (inPhase .idle)) (fun t =>
      t.tstate == .absent && t.ncount == 0 && !t.err) = true := by
  decide
/-- R222 example. -/
theorem test_ctRead_example :
    next (exec (.ctRead 0x42#21) (built .idle)) (fun t =>
      t.result0 == 2#32 && t.result1 == 0x40000000#32 && t.result2 == 2#32) = true := by
  decide
/-- R222 corner case. -/
theorem test_ctRead_word_past_the_code :
    next (exec (.ctRead 0x42#21) { built .idle with cmdArg := 1#32 }) (fun t =>
      t.result0 == 2#32 && t.result1 == 0#32 && t.result2 == 2#32) = true := by
  decide
/-- R225 example. -/
theorem test_nodeRead_example :
    next (exec (.nodeRead 3#16) (built .idle)) (fun t =>
      t.result0 == 0x00010002#32 && t.result1 == 3#32 && t.result2 == 0x00010002#32) = true := by
  decide
/-- R225. -/
theorem test_nodeRead_above_count :
    next (exec (.nodeRead 5#16) (built .idle)) (fun t =>
      t.result0 == 0#32 && t.result1 == 0#32 && t.result2 == 0#32 && t.done) = true := by
  decide
/-- R220 example. -/
theorem test_treeInfo_example :
    next (exec .treeInfo (built .eDone)) (fun t =>
      t.result0 == 2#32 && t.result1 == 4#32 && t.result2 == 5#32) = true := by
  decide
/-- R260 example. -/
theorem test_tsSerialize_example :
    next (exec .tsSerialize (built .idle)) (fun t =>
      t.outFifo == [0x08#8, 0x00#8, 0x30#8, 0x30#8, 0x31#8, 0x43#8, 0x31#8, 0x42#8, 0x31#8, 0x41#8] && t.statBytes == 10#32) = true := by
  decide
/-- R260. -/
theorem test_tsSerialize_without_tree :
    next (exec .tsSerialize (inPhase .idle)) (fun t =>
      t.err && t.errCause == 0x03#8 && t.outFifo == []) = true := by
  decide
/-- R261 example. -/
theorem test_tsDeserialize_example :
    next (exec .tsDeserialize { inPhase .idle with inFifo := [0x05#8, 0x00#8, 0x30#8, 0x31#8, 0x41#8, 0x31#8, 0x42#8] }) (fun t =>
      t.inFifo == [] && t.tstate == .present && t.ncount == 3 && t.ct == [(0x41#21, { code := [false], freq := 0#32 }), (0x42#21, { code := [true], freq := 0#32 })]) = true := by
  decide
/-- R261 corner case. -/
theorem test_tsDeserialize_empty_header :
    next (exec .tsDeserialize { inPhase .idle with inFifo := [0x00#8, 0x00#8] }) (fun t =>
      t.errCause == 0x11#8 && t.errInfo == 0x00010000#32 && t.tstate == .noTree) = true := by
  decide
/-- R310 example. -/
theorem test_bpClear_empties :
    next (exec .bpClear (packed .idle [true, false, true, true, false] 5#4)) (fun t =>
      t.bp == [] && t.tvb == 0#4 && !t.sealed) = true := by
  decide
/-- R311 corner case. -/
theorem test_bpAppendBit_ninth :
    next (exec (.bpAppendBit true) (packed .idle (List.replicate 8 true) 8#4)) (fun t =>
      t.bp.length == 9 && t.tvb == 1#4) = true := by
  decide
/-- R303. -/
theorem test_bpAppendBit_sealed :
    next (exec (.bpAppendBit true) { inPhase .idle with sealed := true }) (fun t =>
      t.errCause == 0x23#8 && t.bp == []) = true := by
  decide
/-- R146 example. -/
theorem test_bpAppendBits_order :
    next (exec (.bpAppendBits 3#5 0b110#16) (inPhase .idle)) (fun t =>
      t.bp == [true, true, false] && t.tvb == 3#4) = true := by
  decide
/-- R303. -/
theorem test_bpAppendBits_overflow :
    next (exec (.bpAppendBits 3#5 0#16) { State.reset with busy := true, cfg := { Config.default with bpCapBits := 10 }, bp := List.replicate 8 false, tvb := 8#4 }) (fun t =>
      t.errCause == 0x22#8 && t.errInfo == 8#32 && t.bp.length == 8) = true := by
  decide
/-- R312 example. -/
theorem test_bpSize_example :
    next (exec .bpSize (packed .eEmit [true, false, true] 3#4)) (fun t =>
      t.result0 == 3#32 && t.result1 == 3#32 && t.result2 == 0#32) = true := by
  decide
/-- R314 example. -/
theorem test_bpTvb_example :
    next (exec .bpTvb (packed .idle (List.replicate 9 true) 1#4)) (fun t =>
      t.result0 == 1#32 && t.result1 == 9#32 && t.result2 == 0#32) = true := by
  decide
/-- R315 example. -/
theorem test_bpDrainReady_example :
    next (exec .bpDrainReady (packed .idle (List.replicate 9 true) 1#4)) (fun t =>
      t.outFifo == [0xFF#8] && t.bp == [true] && t.tvb == 1#4 && !t.sealed) = true := by
  decide
/-- R316 example. -/
theorem test_bpDrainAll_example :
    next (exec .bpDrainAll (packed .idle [true, true, true, true, true, false, true, false, true, false, false] 3#4)) (fun t =>
      t.outFifo == [0xFA#8, 0x80#8] && t.bp == [] && t.tvb == 3#4 && t.sealed) = true := by
  decide
/-- R316 corner case. -/
theorem test_bpDrainAll_empty_seals :
    next (exec .bpDrainAll (inPhase .idle)) (fun t =>
      t.outFifo == [] && t.sealed && t.done) = true := by
  decide
/-- R360 example. -/
theorem test_encBegin_clears :
    next (exec .encBegin (built .dPay)) (fun t =>
      t.phase == .eCount && t.tstate == .noTree && t.ft == [] && t.ct == [] && t.done) = true := by
  decide
/-- R361 example. -/
theorem test_encHeader_example :
    next (exec .encHeader (counted .eCount)) (fun t =>
      t.outFifo == [0x08#8, 0x00#8, 0x30#8, 0x30#8, 0x31#8, 0x43#8, 0x31#8, 0x42#8, 0x31#8, 0x41#8] && t.phase == .eEmit) = true := by
  decide
/-- R361 corner case. -/
theorem test_encHeader_empty :
    next (exec .encHeader (inPhase .eCount)) (fun t =>
      t.outFifo == [0x01#8, 0x00#8, 0x23#8] && t.tstate == .absent) = true := by
  decide
/-- R362 example. -/
theorem test_encSym_example :
    next (exec (.encSym 0x42#21) (built .eEmit)) (fun t =>
      t.bp == [false, true] && t.tvb == 2#4 && t.statSyms == 1#32 && t.outFifo == []) = true := by
  decide
/-- R362. -/
theorem test_encSym_unknown :
    next (exec (.encSym 0x44#21) (built .eEmit)) (fun t =>
      t.errCause == 0x10#8 && t.errInfo == 0x44#32 && t.phase == .eEmit) = true := by
  decide
/-- R363 example. -/
theorem test_encFinish_example :
    next (exec .encFinish (packed .eEmit [true, true, true, true, true, false, true, false, true, false, false] 3#4)) (fun t =>
      t.outFifo == [0xFA#8, 0x80#8, 0x03#8] && t.phase == .eDone && t.sealed) = true := by
  decide
/-- R430 corner case. -/
theorem test_decBegin_keeps_in :
    next (exec .decBegin { inPhase .eDone with inFifo := [7#8] }) (fun t =>
      t.phase == .dLen0 && t.inFifo == [7#8] && t.done) = true := by
  decide
/-- R431 example. -/
theorem test_decChunk_confirms :
    next (exec (.decChunk 1#16) { paying [(0xFA#8, 10#32), (0x80#8, 11#32)] with inFifo := [0x03#8] }) (fun t =>
      t.outFifo == [0x41#8, 0x41#8, 0x41#8, 0x41#8, 0x41#8, 0x42#8] && t.cur == 1#16 && t.pend == [(0x80#8, 11#32), (0x03#8, 12#32)]) = true := by
  decide
/-- R431, R457. -/
theorem test_decChunk_waits :
    next (exec (.decChunk 2#16) (inPhase .dLen0)) (fun t =>
      t.busy && t.waitIn && t.todo == [.chunk 2] && !t.done) = true := by
  decide
/-- R432 example. -/
theorem test_decEnd_example :
    next (exec .decEnd { paying [(0x80#8, 11#32), (0x03#8, 12#32)] with cur := 1#16 }) (fun t =>
      t.outFifo == [0x42#8, 0x43#8] && t.phase == .dDone && t.cur == 0#16 && t.statSyms == 2#32) = true := by
  decide
/-- R409. -/
theorem test_decEnd_bad_marker :
    next (exec .decEnd (paying [(0x80#8, 11#32), (0x09#8, 12#32)])) (fun t =>
      t.errCause == 0x14#8 && t.errInfo == 9#32 && t.phase == .dPay) = true := by
  decide
/-- R460 example. -/
theorem test_nop_status :
    next (exec .nop State.reset) (fun t =>
      (readReg 0x0C#8 t).toNat == 0x44) = true := by
  decide
/-- R461 example. -/
theorem test_abort_status :
    next (exec .abort { paying [(0x80#8, 11#32)] with err := true, errCause := 0x14#8, outFifo := [1#8], arg := 9#32 }) (fun t =>
      (readReg 0x0C#8 t).toNat == 0x44 && t.errCause == 0#8 && t.arg == 9#32) = true := by
  decide
/-- R455. -/
theorem test_encFinish_in_a_wrong_phase :
    next (exec .encFinish (built .eDone)) (fun t =>
      t.errCause == 0x02#8 && t.errInfo == 3#32) = true := by
  decide

/-! ### Single steps -/

/-- The reset state whose host makes this one access next. -/
def before (a : HostAccess) : State := { State.reset with script := [{ access := a, credit := none }] }

/-- R460: a CMD write runs the command in its step. -/
theorem test_step_runs_the_word :
    next (step (before (.write 0x10#8 0x11000041#32))) (fun t => t.ftRead 0x41#21 == 1#32 && t.cmdWord == 0x11000041#32) =
      true := by
  decide

/-- R501: an illegal word, with its subcode and the word. -/
theorem test_step_illegal_word :
    next (step (before (.write 0x10#8 0x2A110000#32))) (fun t =>
      t.err && t.errCause == 0x01#8 && t.errInfo == 4#32 && t.errCmd == 0x2A110000#32) = true := by
  decide

/-- R104: an offset's low two bits are ignored. -/
theorem test_step_offset_low_bits :
    next (step (before (.write 0x17#8 0xDEADBEEF#32))) (fun t => t.arg == 0xDEADBEEF#32) = true := by
  decide

/-- R107: a DATA_OUT read returns the oldest byte with VALID and removes it. -/
theorem test_step_data_out :
    next (step { before (.read 0x34#8) with outFifo := [0x41#8, 0x42#8] }) (fun t =>
      t.reads == [(0x34#8, 0x141#32)] && t.outFifo == [0x42#8]) = true := by
  decide

/-- R106: a byte pushed into a full IN is dropped. -/
theorem test_step_in_overflow :
    next (step { before (.write 0x30#8 7#32) with inFifo := List.replicate 64 0#8 }) (fun t =>
      t.inOvr && t.inFifo.length == 64) = true := by
  decide

/-- R457: a command that waits on IN goes on in the step of the push. -/
theorem test_step_push_resumes :
    next (step { before (.write 0x30#8 0x23#32) with
                 busy := true, phase := .dLen0, cmdWord := 0x39000001#32, todo := [.chunk 1] }) (fun t =>
      !t.busy && t.done && t.phase == .dLen1 && t.hlen == 0x23#16) = true := by
  decide

/-- R551: a soft reset ends a waiting command. -/
theorem test_step_soft_reset :
    next (step { before (.write 0x08#8 1#32) with busy := true, phase := .dLen0, todo := [.chunk 1] }) (fun t =>
      !t.busy && !t.done && t.phase == .idle && (readReg 0x0C#8 t).toNat == 0x40) = true := by
  decide

/-- The host's word is the next one fetched, in the error state too. -/
theorem test_fetch_word :
    next (step ({ State.reset with err := true, errCause := 1#8 }.withFetchWord 32 0x30000000)) (fun t =>
      t.phase == .eCount && t.done && !t.err) = true := by
  decide

/-! ### Pseudo-instructions -/

/-- R153: BP_APPEND_SEQ of 17 bits is 16 bits and then one. -/
theorem test_appendSeq :
    (Pseudo.bpAppendSeq (true :: List.replicate 16 false)).expand =
      [.bpAppendBits 16#5 0x8000#16, .bpAppendBits 1#5 0#16] := by
  decide

/-- P1 of spec/95_test_vectors.md: the command words of ENCODE "AAAAABBC". -/
theorem test_encode_pseudo :
    ((Pseudo.encode [0x41#21, 0x41#21, 0x41#21, 0x41#21, 0x41#21, 0x42#21, 0x42#21, 0x43#21]).expand).map encode =
      [0x30000000#32, 0x11000041#32, 0x11000041#32, 0x11000041#32, 0x11000041#32, 0x11000041#32, 0x11000042#32,
       0x11000042#32, 0x11000043#32, 0x31000000#32, 0x32000041#32, 0x32000041#32, 0x32000041#32, 0x32000041#32,
       0x32000041#32, 0x32000042#32, 0x32000042#32, 0x32000043#32, 0x33000000#32] := by
  decide

/-! ### Witnesses: for each statement with hypotheses, states and operands that meet all of them -/

theorem of_next {o : Host.Outcome State Fault Refusal} {p : State → Bool} (h : next o p = true) :
    ∃ t, o = .next t ∧ p t = true := by
  cases o with
  | next t => exact ⟨t, rfl, h⟩
  | fault r => cases r
  | refused r => cases h

theorem of_isSome {α : Type} {o : Option α} (h : o.isSome = true) : ∃ t, o = some t := Option.isSome_iff_exists.1 h

theorem witness_DecodeOfEncode :
    (Instr.bpAppendBits 16#5 0xFFFF#16).wf Config.default = true ∧ (Instr.encSym 0x10FFFF#21).wf Config.utf8Default = true := by
  decide

theorem witness_EncodeOfDecode : decode Config.default 0x2A10A5C3#32 = .command (.bpAppendBits 16#5 0xA5C3#16) := by
  decide

theorem witness_IllegalWordsAndTheirSubcodes :
    decode Config.default 0x3B000000#32 = .illegal .unassignedOpcode ∧
    decode Config.default 0x10000001#32 = .illegal .reservedBits ∧
    decode Config.utf8Default 0x32110000#32 = .illegal .symbolNotValid ∧
    decode Config.default 0x2A1F0000#32 = .illegal .lengthOutOfRange ∧
    decode Config.default 0x2A0F8000#32 = .illegal .valueBitsAboveLength := by
  decide

theorem witness_BitsAreMsbFirst :
    15 < (16#5).toNat ∧ 15 < 8 * (([true] : BitSeq).length + 7) / 8 + 8 ∧ Config.default.validSym 0xFF#21 = true ∧
    Config.utf8Default.validSym 0x7F#21 = true ∧ Config.utf8Default.validSym 0x80#21 = true ∧
    Config.utf8Default.validSym 0x7FF#21 = true ∧ Config.utf8Default.validSym 0x800#21 = true ∧
    Config.utf8Default.validSym 0xFFFF#21 = true ∧ Config.utf8Default.validSym 0x10000#21 = true := by
  decide

/-- A host that writes this word to CMD next. -/
def offering (w : Word) : State := before (.write 0x10#8 w)

theorem witness_StepRunsDecodedCommand :
    (let s := offering 0x11000041#32
     s.script = { access := .write 0x10#8 0x11000041#32, credit := none } :: [] ∧ (0x10#8 : BitVec 8).toNat / 4 = 4 ∧
     s.busy = false ∧ (s.err = true → 0x11000041#32 = 0x01000000#32) ∧
     decode s.cfg 0x11000041#32 = .command (.ftCount 0x41#21)) ∧
    (let s := { offering 0x01000000#32 with err := true }
     s.script = { access := .write 0x10#8 0x01000000#32, credit := none } :: [] ∧
     s.busy = false ∧ (s.err = true → 0x01000000#32 = 0x01000000#32) ∧ decode s.cfg 0x01000000#32 = .command .abort) := by
  refine ⟨⟨rfl, rfl, rfl, ?_, ?_⟩, rfl, rfl, fun _ => rfl, ?_⟩
  · intro h
    cases h
  · decide
  · decide

theorem witness_IllegalWordEntersErrorState :
    let s := offering 0xFF000000#32
    s.script = { access := .write 0x10#8 0xFF000000#32, credit := none } :: [] ∧ (0x10#8 : BitVec 8).toNat / 4 = 4 ∧
    s.busy = false ∧ s.err = false ∧ decode s.cfg 0xFF000000#32 = .illegal .unassignedOpcode := by
  refine ⟨rfl, rfl, rfl, rfl, ?_⟩
  decide

theorem witness_CommandWhileBusyIsDropped :
    (let s := { offering 0x00000000#32 with busy := true, todo := [.chunk 1] }
     s.script = { access := .write 0x10#8 0x00000000#32, credit := none } :: [] ∧ s.waitIn = true) ∧
    (let s := { offering 0x00000000#32 with
                busy := true, todo := [.push [1#8]], outFifo := List.replicate 64 0#8 }
     s.script = { access := .write 0x10#8 0x00000000#32, credit := none } :: [] ∧ s.waitOut = true) := by
  refine ⟨⟨rfl, ?_⟩, rfl, ?_⟩ <;> decide

theorem witness_ErrorStateDiscardsCommands :
    let s := { offering 0x01000001#32 with err := true }
    s.script = { access := .write 0x10#8 0x01000001#32, credit := none } :: [] ∧ s.busy = false ∧ s.err = true ∧
    0x01000001#32 ≠ 0x01000000#32 := by
  refine ⟨rfl, rfl, rfl, ?_⟩
  decide

theorem witness_IllegalPhaseRaisesSequence :
    (inPhase .dDone).phase ∉ phaseTable .decEnd ∧
    ((inPhase .idle).phase ∈ phaseTable .tsSerialize ∧ (inPhase .idle).err = false ∧
      ∃ t, exec .tsSerialize (inPhase .idle) = .next t ∧ t.err = true) :=
  ⟨by decide, by decide, rfl, of_next (p := fun t => t.err) (by decide)⟩

theorem witness_PhaseMovesOnlyByTheTable : ∃ t, exec .encHeader (inPhase .eCount) = .next t ∧ (t.phase == .eEmit) = true :=
  of_next (by decide)

theorem witness_BeginCommandsOpenASession :
    ((Instr.encBegin, Phase.eCount) = (.encBegin, .eCount) ∨ (Instr.encBegin, Phase.eCount) = (.decBegin, .dLen0)) ∧
    ((Instr.decBegin, Phase.dLen0) = (.encBegin, .eCount) ∨ (Instr.decBegin, Phase.dLen0) = (.decBegin, .dLen0)) := by
  decide

theorem witness_ClearCommands :
    (counted .idle).phase ∈ quiescentPhases ∧ (counted .eDone).phase ∈ quiescentPhases ∧
    (counted .dDone).phase ∈ quiescentPhases := by
  decide

theorem ftInv_counted (p : Phase) : FtInv (counted p) where
  canonical := by show ftWf abcFt = true; decide
  validKeys := by
    show ∀ e ∈ abcFt, Config.default.validSym e.1 = true
    exact List.all_eq_true.1 (by decide)
  capacity := by show abcFt.length ≤ 256; decide
  sum := by rfl

/-- A table whose one count is as large as the total can be. -/
def fullTotal : State :=
  { State.reset with busy := true, phase := .eCount, ft := [(0x41#21, 0xFFFFFFFF#32)], total := 0xFFFFFFFF#32 }

/-- A build with room for two symbols, both counted. -/
def fullTable : State :=
  { State.reset with
      cfg := { Config.utf8Default with maxSyms := 2 }
      busy := true, phase := .idle, ft := [(1#21, 2#32), (2#21, 1#32)], total := 3#32 }

theorem ftInv_fullTotal : FtInv fullTotal where
  canonical := by decide
  validKeys := List.all_eq_true.1 (by decide)
  capacity := by show [((0x41#21 : Sym), 0xFFFFFFFF#32)].length ≤ 256; decide
  sum := rfl

theorem ftInv_fullTable : FtInv fullTable where
  canonical := by decide
  validKeys := List.all_eq_true.1 (by decide)
  capacity := by decide
  sum := rfl

theorem witness_FtCountCountsOneSymbol :
    (fullTotal.phase ∈ quiescentPhases ++ [.eCount] ∧ FtInv fullTotal ∧ fullTotal.total = 0xFFFFFFFF#32) ∧
    (fullTable.phase ∈ quiescentPhases ++ [.eCount] ∧ FtInv fullTable ∧ fullTable.total ≠ 0xFFFFFFFF#32 ∧
      fullTable.ftRead 3#21 = 0#32 ∧ fullTable.nsym = fullTable.cfg.maxSyms) ∧
    (¬(fullTable.ftRead 2#21 = 0#32 ∧ fullTable.nsym = fullTable.cfg.maxSyms)) ∧
    ((counted .eCount).phase ∈ quiescentPhases ++ [.eCount] ∧ FtInv (counted .eCount) ∧
      (counted .eCount).total ≠ 0xFFFFFFFF#32 ∧
      ¬((counted .eCount).ftRead 0x44#21 = 0#32 ∧ (counted .eCount).nsym = (counted .eCount).cfg.maxSyms)) :=
  ⟨⟨by decide, ftInv_fullTotal, rfl⟩,
    ⟨by decide, ftInv_fullTable, by decide, by decide, by decide⟩, by decide,
    ⟨by decide, ftInv_counted _, by decide, by decide⟩⟩

theorem witness_MergeTakesASmallestKey : keysOf (leavesOf abcFt) ≠ [] := by decide

/-- One counted symbol. -/
def oneKey : State := { State.reset with busy := true, ft := [(0x41#21, 1#32)], total := 1#32 }

theorem ftInv_oneKey : FtInv oneKey where
  canonical := by decide
  validKeys := List.all_eq_true.1 (by decide)
  capacity := by decide
  sum := rfl

theorem witness_TbBuildMergesGreedily :
    ((inPhase .idle).phase ∈ quiescentPhases ∧ (inPhase .idle).ft = []) ∧
    (oneKey.phase ∈ quiescentPhases ∧ oneKey.ft ≠ [] ∧ oneKey.cfg.wf = true ∧ FtInv oneKey) ∧
    ((counted .idle).phase ∈ quiescentPhases ∧ (counted .idle).ft ≠ [] ∧ (counted .idle).cfg.wf = true ∧
      FtInv (counted .idle)) :=
  ⟨⟨by decide, rfl⟩, ⟨by decide, by decide, by decide, ftInv_oneKey⟩,
    ⟨by decide, by decide, by decide, ftInv_counted _⟩⟩

theorem witness_TbBuildCodesEveryKey :
    (counted .idle).cfg.wf = true ∧ FtInv (counted .idle) ∧ (counted .idle).phase ∈ quiescentPhases ∧
    (∃ t, exec .tbBuild (counted .idle) = .next t) ∧ (counted .idle).ftRead 0x44#21 = 0#32 ∧
    (counted .idle).ftRead 0x43#21 ≠ 0#32 :=
  ⟨by decide, ftInv_counted _, by decide, ⟨_, rfl⟩, by decide, by decide⟩

theorem witness_CtReadResult :
    (built .idle).ctRead 0x44#21 = none ∧
    (built .idle).ctRead 0x42#21 = some { code := [false, true], freq := 2#32 } := by
  decide

theorem serialize_withPhase (s : State) (p : Phase) : serialize { s with phase := p } = serialize s := rfl

theorem serialize_built (p : Phase) :
    serialize (built p) = [0x30#8, 0x30#8, 0x31#8, 0x43#8, 0x31#8, 0x42#8, 0x31#8, 0x41#8] := by
  show visit Config.default abcNodes 5 4#16 = _
  decide

/-- A build whose header is longer than the length field can say: 16384 leaves with four-byte texts. -/
def hugeTable : State :=
  { State.reset with
      cfg := { Config.utf8Default with maxSyms := 32768 }
      busy := true, phase := .eCount, ft := List.replicate 16384 (0x1F600#21, 1#32) }

theorem hugeTable_ne_nil : hugeTable.ft ≠ [] := fun h => by
  have := congrArg List.length h
  rw [show hugeTable.ft = List.replicate 16384 (0x1F600#21, 1#32) from rfl, List.length_replicate] at this
  cases this

theorem hugeTable_header : 65535 < (serialize (build hugeTable)).length := by
  have h : hugeTable.ft = List.replicate 16384 (0x1F600#21, 1#32) := rfl
  have hl : hugeTable.ft.length = 16384 := by rw [h, List.length_replicate]
  rw [length_serialize_build hugeTable hugeTable_ne_nil (by omega), hl, h, List.map_replicate, List.sum_replicate]
  decide

theorem witness_TsSerializePushesTheHeader :
    ((inPhase .idle).phase ∈ quiescentPhases ∧ (inPhase .idle).tstate = .noTree) ∧
    ((built .dDone).phase ∈ quiescentPhases ∧ (built .dDone).tstate ≠ .noTree ∧
      (serialize (built .dDone)).length ≤ 65535 ∧ RoomFor (2 + (serialize (built .dDone)).length) (built .dDone)) ∧
    ∃ s : State, s.phase ∈ quiescentPhases ∧ s.tstate ≠ .noTree ∧ 65535 < (serialize s).length := by
  refine ⟨by decide, ⟨by decide, by decide, by rw [serialize_built]; show 8 ≤ 65535; decide, rfl,
    by rw [serialize_built]; show 10 ≤ 64; decide⟩, { build hugeTable with phase := .idle },
    List.mem_cons_self, ?_, by rw [serialize_withPhase]; exact hugeTable_header⟩
  have h : (build hugeTable).tstate = .present := by
    rw [build_of_ft_ne_nil hugeTable hugeTable_ne_nil]
    exact (assignCodes_tree _).1
  show (build hugeTable).tstate ≠ .noTree
  rw [h]
  decide

theorem witness_TsDeserializeLoadsTheHeader :
    let s := { inPhase .idle with inFifo := [0x02#8, 0x00#8, 0x31#8, 0x41#8, 0x07#8] }
    s.phase ∈ quiescentPhases ∧ s.credit = none ∧ s.inFifo = 0x02#8 :: 0x00#8 :: ([0x31#8, 0x41#8] ++ [0x07#8]) ∧
    [0x31#8, 0x41#8].length = (0x02#8 : Byte).toNat + 256 * (0x00#8 : Byte).toNat ∧
    (deserialize s.cfg [0x31#8, 0x41#8] = .present [{ freq := 0#32, body := .leaf 0x41#21, code := [] }]) ∧
    (deserialize s.cfg [0x23#8] = .absent) ∧ (deserialize s.cfg [] = .malformed .headerEnd 0) := by
  decide

/-- A build of UTF8 with room for two symbols. -/
def twoSyms : Config := { Config.utf8Default with maxSyms := 2 }

theorem witness_MalformedPositionsNameTheByte :
    deserialize Config.default [0x30#8] = .malformed .headerEnd 1 ∧
    deserialize Config.default [0x32#8] = .malformed .badChar 0 ∧
    deserialize Config.default [0x30#8, 0x23#8, 0x31#8, 0x41#8] = .malformed .absentSub 1 ∧
    deserialize Config.default [0x23#8, 0x30#8] = .malformed .trailing 1 ∧
    deserialize Config.default [0x30#8, 0x31#8, 0x41#8, 0x31#8, 0x41#8] = .malformed .dup 3 ∧
    deserialize Config.utf8Default [0x31#8, 0xED#8, 0xA0#8, 0x80#8] = .malformed .badUtf8 2 ∧
    deserialize twoSyms [0x30#8, 0x30#8, 0x30#8, 0x31#8] = .malformed .tooMany 3 := by
  decide

theorem witness_ParsedNodesArePreOrder :
    Config.default.wf = true ∧ ∃ nodes, deserialize Config.default [0x30#8, 0x31#8, 0x41#8, 0x31#8, 0x42#8] =
      .present nodes :=
  ⟨by decide, _, rfl⟩

theorem witness_LoadedHeaderSerializesBack :
    State.reset.cfg.wf = true ∧ (∃ t, loadTree [0x30#8, 0x31#8, 0x41#8, 0x31#8, 0x42#8] State.reset = .done t) ∧
    ∃ t, loadTree [0x23#8] State.reset = .done t :=
  ⟨by decide, ⟨_, rfl⟩, ⟨_, rfl⟩⟩

theorem witness_BuiltTreeReloadsWithItsCodes :
    (counted .idle).cfg.wf = true ∧ FtInv (counted .idle) ∧ (counted .idle).ft ≠ [] :=
  ⟨by decide, ftInv_counted _, by decide⟩

/-- A packer of ten bits, eight of them used. -/
def nearlyFull : State :=
  { State.reset with
      cfg := { Config.default with bpCapBits := 10 }
      busy := true, bp := List.replicate 8 false, tvb := 8#4 }

theorem witness_AppendIsAllOrNothing :
    appendedBits (.bpAppendBits 3#5 5#16) = some [true, false, true] ∧ nearlyFull.phase ∈ quiescentPhases ∧
    ({ inPhase .idle with sealed := true } : State).sealed = true ∧
    nearlyFull.cfg.bpCapBits < nearlyFull.bp.length + [true, false, true].length ∧
    appendedBits (.bpAppendBits 2#5 2#16) = some [true, false] ∧
    ¬nearlyFull.cfg.bpCapBits < nearlyFull.bp.length + [true, false].length := by
  decide

theorem witness_TvbCountsAppendedBits : (8#4).toNat = tvbOf 16 ∧ (0#4).toNat = tvbOf 0 := by decide

theorem witness_BpDrainsPushTheBytes :
    let s := { packed .idle (List.replicate 9 true) 1#4 with outFifo := List.replicate 62 0#8 }
    s.phase ∈ quiescentPhases ∧ RoomFor (s.bp.length / 8) s ∧ RoomFor ((s.bp.length + 7) / 8) s := by
  decide

theorem witness_PackerOutputLaw :
    (∀ i ∈ [.bpAppendBits 9#5 0x1FF#16, .bpDrainReady, .bpAppendBit false],
      i = Instr.bpDrainReady ∨ (appendedBits i).isSome = true) ∧
    (inPhase .idle).phase ∈ quiescentPhases ∧ (inPhase .idle).credit = none ∧ (inPhase .idle).bp = [] ∧
    (inPhase .idle).tvb = 0#4 ∧ (inPhase .idle).sealed = false ∧
    ∃ t, runCommands ([.bpAppendBits 9#5 0x1FF#16, .bpDrainReady, .bpAppendBit false] ++ [.bpDrainAll]) (inPhase .idle) =
      some t :=
  ⟨by decide, by decide, rfl, rfl, rfl, rfl, of_isSome (by decide)⟩

theorem witness_EncHeaderBuildsAndPushes :
    ((counted .eCount).phase = .eCount ∧ (serialize (build (counted .eCount))).length ≤ 65535 ∧
      RoomFor (2 + (serialize (build (counted .eCount))).length) (counted .eCount)) ∧
    (hugeTable.phase = .eCount ∧ 65535 < (serialize (build hugeTable)).length) :=
  ⟨by decide, rfl, hugeTable_header⟩

/-- An encode in its second pass, with a flush threshold of 8 bits, of which 7 are used. -/
def flushing : State :=
  { State.reset with
      cfg := { Config.default with flushBits := 8, bpCapBits := 300 }
      busy := true, phase := .eEmit, tstate := .present, nodes := abcNodes, root := 4#16, ct := abcCt
      bp := List.replicate 7 true, tvb := 7#4 }

theorem ctInv_of_abc (s : State) (hct : s.ct = abcCt) (hn : s.nodes = abcNodes) (hr : s.root = 4#16)
    (ht : s.tstate = .present) (hc : 2 ≤ s.cfg.maxCodeLen) : CtInv s := by
  have hmem : ∀ {sym : Sym} {e : CtEntry}, s.ctRead sym = some e → (sym, e) ∈ abcCt := by
    intro sym e h
    rw [State.ctRead, hct] at h
    exact mem_of_symLookup h
  have hall : ∀ x ∈ abcCt, x.2.code ≠ [] ∧ x.2.code.length ≤ 2 := by decide
  have hpre : ∀ x ∈ abcCt, ∀ y ∈ abcCt, x.1 ≠ y.1 → ¬(x.2.code <+: y.2.code) := by decide
  have hleaf : ∀ x ∈ abcCt, ∃ i : NodeIdx, i.toNat < abcNodes.length ∧
      (nodeAt abcNodes i).body = .leaf x.1 ∧ (nodeAt abcNodes i).freq = x.2.freq ∧
      (nodeAt abcNodes i).code = x.2.code ∧ descend abcNodes 4#16 x.2.code = some i := by
    intro x hx
    simp only [abcCt, List.mem_cons, List.not_mem_nil, or_false] at hx
    rcases hx with rfl | rfl | rfl
    · exact ⟨0#16, by decide, by decide, by decide, by decide, by decide⟩
    · exact ⟨1#16, by decide, by decide, by decide, by decide, by decide⟩
    · exact ⟨2#16, by decide, by decide, by decide, by decide, by decide⟩
  have hevery : ∀ n ∈ abcNodes, ∀ sym, n.body = .leaf sym →
      symLookup abcCt sym = some { code := n.code, freq := n.freq } := by
    intro n hn sym h
    simp only [abcNodes, List.mem_cons, List.not_mem_nil, or_false] at hn
    rcases hn with rfl | rfl | rfl | rfl | rfl <;> cases h <;> decide
  have hroot : (nodeAt abcNodes 4#16).body = .internal 3#16 0#16 := by decide
  refine ⟨by rw [hct]; decide, fun sym e h => (hall (sym, e) (hmem h)).1,
    fun sym e h => le_trans (hall (sym, e) (hmem h)).2 hc, ?_, ?_, ?_⟩
  · intro a b ea eb hab ha hb
    have hx := hmem ha
    have hy := hmem hb
    have := hpre _ hx _ hy
    exact this hab
  · intro sym e h
    obtain ⟨i, h1, h2, h3, h4, h5⟩ := hleaf (sym, e) (hmem h)
    refine ⟨ht, i, by rw [State.ncount, hn]; exact h1, by rw [State.node, hn]; exact h2, by rw [State.node, hn]; exact h3,
      by rw [State.node, hn]; exact h4, ?_⟩
    simp only [CodeOf, State.node, hn, hr, hroot]
    exact h5
  · intro i sym _ hi hb
    rw [State.ncount, hn] at hi
    rw [State.node, hn] at hb ⊢
    rw [State.ctRead, hct]
    have hat : nodeAt abcNodes i = abcNodes[i.toNat] := by rw [nodeAt, List.getElem?_eq_getElem hi]; rfl
    exact hevery _ (hat ▸ List.getElem_mem hi) sym hb

theorem ctInv_built (p : Phase) : CtInv (built p) := by
  refine ctInv_of_abc _ rfl rfl rfl rfl ?_
  show 2 ≤ max 1 255
  decide

theorem witness_EncSymAppendsTheCode :
    ((built .eEmit).phase = .eEmit ∧ (built .eEmit).ctRead 0x44#21 = none) ∧
    (flushing.phase = .eEmit ∧ flushing.ctRead 0x41#21 = some { code := [true], freq := 5#32 } ∧
      flushing.sealed = false ∧ flushing.bp.length + [true].length ≤ flushing.cfg.bpCapBits ∧
      flushing.cfg.flushBits ≤ (flushing.bp ++ [true]).length ∧ RoomFor ((flushing.bp ++ [true]).length / 8) flushing) ∧
    ((built .eEmit).ctRead 0x42#21 = some { code := [false, true], freq := 2#32 } ∧ (built .eEmit).sealed = false ∧
      (built .eEmit).bp.length + [false, true].length ≤ (built .eEmit).cfg.bpCapBits ∧
      ((built .eEmit).bp ++ [false, true]).length < (built .eEmit).cfg.flushBits) ∧
    ((built .eEmit).cfg.wf = true ∧ CtInv (built .eEmit) ∧
      (built .eEmit).ctRead 0x42#21 = some { code := [false, true], freq := 2#32 } ∧
      (built .eEmit).bp.length < (built .eEmit).cfg.flushBits) := by
  refine ⟨?_, ?_, ?_, ?_, ctInv_built _, ?_, ?_⟩ <;> decide

theorem witness_EncFinishPushesTheMarker :
    flushing.phase = .eEmit ∧ RoomFor ((flushing.bp.length + 7) / 8 + 1) flushing := by
  decide

theorem witness_EncodedPayloadLaw :
    (built .eEmit).phase = .eEmit ∧ (built .eEmit).credit = none ∧ (built .eEmit).bp = [] ∧ (built .eEmit).tvb = 0#4 ∧
    (built .eEmit).sealed = false ∧
    ∃ t, runCommands (([0x41#21, 0x42#21] : List Sym).map .encSym ++ [.encFinish]) (built .eEmit) = some t :=
  ⟨rfl, rfl, rfl, rfl, rfl, of_isSome (by decide)⟩

theorem witness_FeedOfAHeaderByte :
    (let s := { inPhase .dLen0 with inFifo := [0x02#8] }
     s.credit = none ∧ s.inFifo = 0x02#8 :: [] ∧ s.phase = .dLen0) ∧
    (let s := { inPhase .dLen1 with inFifo := [0x00#8] }
     s.phase = .dLen1 ∧ BitVec.ofNat 16 (s.hlen.toNat + 256 * (0x00#8 : Byte).toNat) = 0#16) ∧
    (let s := { inPhase .dLen1 with inFifo := [0x00#8], hlen := 2#16 }
     s.phase = .dLen1 ∧ BitVec.ofNat 16 (s.hlen.toNat + 256 * (0x00#8 : Byte).toNat) ≠ 0#16) ∧
    (let s := { inPhase .dHdr with inFifo := [0x41#8], hlen := 2#16, hbuf := [0x31#8] }
     s.phase = .dHdr ∧ (s.hbuf ++ [0x41#8]).length = s.hlen.toNat) ∧
    (let s := { inPhase .dHdr with inFifo := [0x31#8], hlen := 2#16 }
     s.phase = .dHdr ∧ (s.hbuf ++ [0x31#8]).length ≠ s.hlen.toNat) := by
  decide

theorem witness_FeedHoldsBackTwoBytes :
    (let s := { paying [(0xFA#8, 10#32)] with inFifo := [0x80#8] }
     s.credit = none ∧ s.inFifo = 0x80#8 :: [] ∧ s.phase = .dPay ∧ s.pend.length < 2) ∧
    (paying []).pend.length < 2 ∧ (paying []).phase ∈ decodePhases := by
  decide

theorem witness_ConfirmedByteIsDecoded :
    (let s := { payingAbsent [(0x00#8, 3#32), (0x01#8, 4#32)] with inFifo := [0x02#8] }
     s.credit = none ∧ s.inFifo = 0x02#8 :: [] ∧ s.phase = .dPay ∧ s.pend = [(0x00#8, 3#32), (0x01#8, 4#32)] ∧
     s.tstate ≠ .present) ∧
    (let s := { paying [(0xFA#8, 10#32), (0x80#8, 11#32)] with inFifo := [0x03#8] }
     s.credit = none ∧ s.inFifo = 0x03#8 :: [] ∧ s.phase = .dPay ∧ s.pend = [(0xFA#8, 10#32), (0x80#8, 11#32)] ∧
     s.tstate = .present ∧ RoomFor (symTexts s.cfg (walkResult s (bitsOfByte 0xFA#8) s.cur).syms).length s) := by
  decide

theorem witness_CodesDecodeToTheirSymbols :
    CtInv (built .idle) ∧ codesOf (built .idle) [0x41#21, 0x43#21] = some [true, false, false] :=
  ⟨ctInv_built _, by decide⟩

theorem witness_ChunksMayBeSplit :
    let s := { inPhase .dLen0 with inFifo := [0x02#8] }
    1 + 2 ≤ 65535 ∧ s.phase ∈ decodePhases ∧ s.credit = none ∧ s.busy = true ∧ s.done = false ∧
    ∃ t, exec (.decChunk (BitVec.ofNat 16 1)) s = .next t ∧ t.done = true :=
  ⟨by decide, by decide, rfl, rfl, rfl, of_next (p := fun t => t.done) (by decide)⟩

theorem witness_DecEndWithoutAWalk :
    (inPhase .dHdr).phase ∈ [Phase.dLen0, .dLen1, .dHdr] ∧
    ((payingAbsent [(0#8, 3#32)]).phase = .dPay ∧ (payingAbsent [(0#8, 3#32)]).tstate = .absent ∧
      (payingAbsent [(0#8, 3#32)]).pend.length ≤ 2) ∧
    ((payingAbsent [(0#8, 3#32), (0#8, 4#32)]).tstate = .absent ∧
      (payingAbsent [(0#8, 3#32), (0#8, 4#32)]).pend.length ≤ 2) ∧
    ((paying [(8#8, 12#32)]).phase = .dPay ∧ (paying [(8#8, 12#32)]).tstate = .present ∧
      (paying [(8#8, 12#32)]).pend.length < 2) ∧
    ((paying [(1#8, 11#32), (9#8, 12#32)]).pend = [(1#8, 11#32), (9#8, 12#32)] ∧
      ((9#8 : Byte).toNat = 0 ∨ 8 < (9#8 : Byte).toNat)) := by
  decide

theorem witness_DecEndWalksTheValidBits :
    (let s := { paying [(0x80#8, 11#32), (0x03#8, 12#32)] with cur := 1#16 }
     s.phase = .dPay ∧ s.tstate = .present ∧ s.pend = [(0x80#8, 11#32), (0x03#8, 12#32)] ∧
     1 ≤ (0x03#8 : Byte).toNat ∧ (0x03#8 : Byte).toNat ≤ 8 ∧
     walkResult s ((bitsOfByte 0x80#8).take 3) s.cur = { syms := [0x42#21, 0x43#21], cur := s.root, bad := false } ∧
     RoomFor (symTexts s.cfg [0x42#21, 0x43#21]).length s) ∧
    (let s := paying [(0xC0#8, 11#32), (0x03#8, 12#32)]
     (walkResult s ((bitsOfByte 0xC0#8).take 3) s.cur).cur = 1#16 ∧
     RoomFor (symTexts s.cfg (walkResult s ((bitsOfByte 0xC0#8).take 3) s.cur).syms).length s) := by
  decide

theorem witness_StatusShowsItsFields : (paying [(1#8, 11#32), (9#8, 12#32)]).pend.length ≤ 2 := by decide

theorem witness_ReadsOfTheWindow :
    (let s := before (.read 0x37#8)
     s.script = { access := .read 0x37#8, credit := none } :: [] ∧ s.busy = false ∧ (0x37#8 : BitVec 8).toNat / 4 = 13) ∧
    (let s := { before (.read 0x34#8) with busy := true, todo := [.push [1#8]], outFifo := List.replicate 64 0#8 }
     s.script = { access := .read 0x34#8, credit := none } :: [] ∧ s.busy = true ∧ (0x34#8 : BitVec 8).toNat / 4 = 13) ∧
    (0x54#8 : BitVec 8).toNat / 4 = 21 := by
  refine ⟨⟨rfl, rfl, ?_⟩, ⟨rfl, rfl, ?_⟩, ?_⟩ <;> decide

theorem witness_WritesOfTheWindow :
    (let s := { before (.write 0x30#8 7#32) with inFifo := List.replicate 63 0#8 }
     s.script = { access := .write 0x30#8 7#32, credit := none } :: [] ∧ s.busy = false ∧
     (0x30#8 : BitVec 8).toNat / 4 = 12 ∧ s.inFifo.length < s.cfg.inDepth) ∧
    (let s := { before (.write 0x30#8 7#32) with inFifo := List.replicate 64 0#8 }
     s.cfg.inDepth ≤ s.inFifo.length) ∧
    (let s := { before (.write 0x30#8 7#32) with busy := true, todo := [.chunk 1] }
     s.script = { access := .write 0x30#8 7#32, credit := none } :: [] ∧ s.busy = true ∧
     s.inFifo.length < s.cfg.inDepth) ∧
    (0x14#8 : BitVec 8).toNat / 4 = 5 ∧ (0x3C#8 : BitVec 8).toNat / 4 = 15 ∧ (0x0C#8 : BitVec 8).toNat / 4 = 3 ∧
    ((0x08#8 : BitVec 8).toNat / 4 = 2 ∧ (2#32).getLsbD 0 = false) ∧ (0xFC#8 : BitVec 8).toNat / 4 = 63 := by
  decide

theorem witness_ResetFromEveryState :
    (let s := { before .rst with busy := true, todo := [.chunk 1] }
     s.script = { access := .rst, credit := none } :: []) ∧
    (let s := { before (.write 0x08#8 1#32) with err := true }
     s.script = { access := .write 0x08#8 1#32, credit := none } :: [] ∧
     (0x08#8 : BitVec 8).toNat / 4 = 2 ∧ (1#32).getLsbD 0 = true) := by
  decide

theorem witness_WindowAfterReset :
    Config.default.wf = true ∧ Config.utf8Default.wf = true ∧
    ({ codec := .utf8, maxSyms := 32768, flushBits := 8, bpCapBits := 2 ^ 24, inDepth := 65535, outDepth := 1 } :
      Config).wf = true ∧ (0x44#8 : BitVec 8).toNat / 4 ∈ [2, 4, 5, 6, 7, 8, 9, 10, 11, 12, 13, 14, 15, 16, 17] ∧
    21 ≤ (0x54#8 : BitVec 8).toNat / 4 := by
  decide

theorem witness_WhatNoCommandWrites :
    (∃ t, exec .abort (built .idle) = .next t) ∧ ∃ t, step (offering 0x00000000#32) = .next t :=
  ⟨⟨_, rfl⟩, ⟨_, rfl⟩⟩

theorem witness_EachMemoryHasItsWriters :
    (∃ t, exec .tbBuild (counted .idle) = .next t) ∧ isQuery .tbBuild = false ∧ writesFt .tbBuild = false ∧
    writesTree .nop = false ∧ writesPacker .nop = false ∧ writesDecoder .tsDeserialize = false ∧
    writesDecoder .nop = false ∧ Instr.nop ≠ .tsDeserialize ∧ writesIn .nop = false ∧ writesOut .nop = false :=
  ⟨⟨_, rfl⟩, rfl, rfl, rfl, rfl, rfl, rfl, by decide, rfl, rfl⟩

theorem witness_StepRunsUntilWaitOrEnd :
    (∀ h rest, (before (.write 0x10#8 0x21000000#32)).script = h :: rest → h.credit = none) ∧
    ∃ t, step (before (.write 0x10#8 0x21000000#32)) = .next t ∧ t.busy = true := by
  refine ⟨?_, of_next (p := fun t => t.busy) (by decide)⟩
  intro h rest he
  cases he
  rfl

/-- A core in which BP_DRAIN_ALL of three bytes is accepted with room for one byte in OUT. -/
def tightDrain : State :=
  { State.reset with
      cfg := { Config.default with outDepth := 1 }
      busy := true, bp := List.replicate 17 true, tvb := 1#4 }

theorem witness_PausedCommandEndsTheSame :
    (tightDrain.busy = true ∧ (Instr.bpDrainAll = .abort → ([] : ByteSeq) = []) ∧
      (∃ t, exec .bpDrainAll { tightDrain with credit := none } = .next t ∧
        (t.busy && t.outFifo == [0xFF#8] && decide (1 ≤ t.outFifo.length)) = true) ∧
      ∃ u, exec .bpDrainAll (tightDrain.servedAhead [] 1) = .next u ∧ u.outFifo.length = 2) ∧
    (∃ t, exec .tsDeserialize { inPhase .idle with credit := some 1, inFifo := [0x01#8, 0x00#8] } = .next t ∧
      (t.busy && t.todo == [.hdrHi 0x01#8]) = true) ∧
    (0 ≤ (resume { inPhase .dLen0 with credit := none, todo := [.chunk 2] }).outFifo.length) := by
  refine ⟨⟨rfl, fun _ => rfl, of_next (by decide), ?_⟩, of_next (by decide), Nat.zero_le _⟩
  obtain ⟨u, h, hu⟩ := of_next (o := exec .bpDrainAll (tightDrain.servedAhead [] 1))
    (p := fun t => t.outFifo.length == 2) (by decide)
  exact ⟨u, h, by simpa using hu⟩

theorem flagsInv_offering (w : Word) : FlagsInv (offering w) :=
  ⟨fun h => absurd h.1 (by show ¬(false = true); decide), fun _ => ⟨rfl, rfl, rfl⟩,
    fun h => absurd h (by show ¬(false = true); decide), fun _ => rfl⟩

theorem witness_FlagsStayConsistent :
    FlagsInv (offering 0xFF000000#32) ∧ ∃ t, step (offering 0xFF000000#32) = .next t ∧ t.err = true :=
  ⟨flagsInv_offering _, of_next (p := fun t => t.err) (by decide)⟩

theorem witness_FifosStayWithinTheirDepths :
    let s := { before (.write 0x30#8 7#32) with inFifo := List.replicate 64 0#8 }
    FifoInv s ∧ PendInv s ∧ ∃ t, step s = .next t :=
  ⟨⟨by decide, by decide⟩, by show 0 ≤ 2; decide, ⟨_, rfl⟩⟩

/-- A host that counts one more symbol in the running example. -/
def countingStep : State :=
  { counted .eCount with busy := false, script := [{ access := .write 0x10#8 0x11000044#32, credit := none }] }

theorem witness_FtStaysCanonical :
    FtInv countingStep ∧ NoTreeInv countingStep ∧ ∃ t, step countingStep = .next t ∧ (t.nsym == 4) = true :=
  ⟨⟨(ftInv_counted .eCount).1, (ftInv_counted .eCount).2, (ftInv_counted .eCount).3, (ftInv_counted .eCount).4⟩,
    fun _ => ⟨rfl, rfl, rfl⟩, of_next (by decide)⟩

theorem ctInv_of_empty (s : State) (h : s.ct = []) (ht : s.tstate = .noTree) : CtInv s := by
  have hr : ∀ {sym : Sym} {e : CtEntry} {p : Prop}, s.ctRead sym = some e → p := by
    intro sym e p he
    rw [State.ctRead, h] at he
    cases he
  exact ⟨by rw [h]; rfl, fun _ _ he => hr he, fun _ _ he => hr he, fun _ _ _ _ _ he _ => hr he, fun _ _ he => hr he,
    fun _ _ hp _ _ => by rw [ht] at hp; cases hp⟩

/-- A host that builds the tree of the running example. -/
def buildingStep : State :=
  { counted .idle with busy := false, script := [{ access := .write 0x10#8 0x18000000#32, credit := none }] }

theorem witness_CtStaysPrefixFree :
    buildingStep.cfg.wf = true ∧ FtInv buildingStep ∧ CtInv buildingStep ∧
    ∃ t, step buildingStep = .next t ∧ (t.ct == abcCt) = true :=
  ⟨by decide,
    ⟨(ftInv_counted .idle).1, (ftInv_counted .idle).2, (ftInv_counted .idle).3, (ftInv_counted .idle).4⟩,
    ctInv_of_empty _ rfl rfl, of_next (by decide)⟩

/-- A host that drains a packer of nine bits. -/
def drainingStep : State :=
  { packed .idle (List.replicate 9 true) 1#4 with
      busy := false, script := [{ access := .write 0x10#8 0x2E000000#32, credit := none }] }

/-- A host that codes one more symbol of the running example, with one bit to go to the flush. -/
def codingStep : State :=
  { flushing with busy := false, script := [{ access := .write 0x10#8 0x32000041#32, credit := none }] }

theorem witness_PackerInvariantKept :
    (PackerInv drainingStep ∧ ∃ t, step drainingStep = .next t ∧ t.sealed = true) ∧
    (codingStep.cfg.wf = true ∧ SessionInv codingStep ∧
      ∃ t, step codingStep = .next t ∧ (t.phase == .eEmit && t.outFifo == [0xFF#8]) = true) :=
  ⟨⟨⟨by decide, by decide, fun _ => by decide, fun h => (by cases h), fun h => (by cases h)⟩,
      of_next (p := fun t => t.sealed) (by decide)⟩,
    by decide, ⟨fun h => (by cases h), fun h => (by cases h), fun _ _ => by decide, fun _ h => (by cases h),
      fun _ h => absurd rfl h⟩, of_next (by decide)⟩

theorem witness_ResetMeetsTheInvariants : Config.default.wf = true ∧ Config.utf8Default.wf = true := by decide


theorem witness_DecodeUndoesEncode :
    let s := inPhase .idle
    let syms : List Sym := [0x41#21, 0x42#21]
    s.cfg.wf = true ∧ (∀ sym ∈ syms, s.cfg.validSym sym = true) ∧ s.credit = none ∧ s.outFifo = [] ∧
    (symTexts s.cfg syms).length ≤ s.cfg.outDepth ∧
    ∃ t, runCommands (.encBegin :: syms.map .ftCount ++ .encHeader :: syms.map .encSym ++ [.encFinish]) s = some t ∧
      ∃ d : State, d.cfg = s.cfg ∧ d.credit = none ∧ d.inFifo = t.outFifo ∧ d.outFifo = [] := by
  refine ⟨by decide, List.all_eq_true.1 (by decide), rfl, rfl, by decide, ?_⟩
  obtain ⟨t, ht⟩ := of_isSome (o := runCommands (.encBegin :: [0x41#21, 0x42#21].map .ftCount ++
    .encHeader :: [0x41#21, 0x42#21].map .encSym ++ [.encFinish]) (inPhase .idle)) (by decide)
  exact ⟨t, ht, { State.reset with inFifo := t.outFifo }, rfl, rfl, rfl, rfl⟩

end Sys2Proof.Tests
end

section
/-! Bits and bytes (spec/00_scope.md R13; spec/30_encoding.md R146, R173, R174, R176): the bits of a packed byte, the
recursion of `bitsToBytes` over whole bytes, and the bytes of a symbol's text as numbers. -/

namespace Sys2Proof.Machine

/-! ### Packing -/

/-- Bit `k` of the number a bit sequence stands for, first bit the most significant, is the `k`-th from its end. -/
theorem testBit_foldl_bitNat (s : BitSeq) (k : Nat) :
    (s.foldl (fun acc b => 2 * acc + bitNat b) 0).testBit k = s.reverse.getD k false := by
  induction s using List.reverseRecOn generalizing k with
  | nil => simp
  | append_singleton s b ih =>
    rw [List.foldl_append, List.reverse_append]
    have hbit (n : Nat) : 2 * n + bitNat b = Nat.bit b n := by cases b <;> rfl
    cases k with
    | zero => simp [hbit]
    | succ k => simpa [hbit, Nat.testBit_bit_succ] using ih k

/-- Bit `j` of eight bits is bit `7 - j` of their byte. -/
theorem getLsbD_pack8 {s : BitSeq} (hs : s.length = 8) {j : Nat} (hj : j < 8) :
    (pack8 s).getLsbD (7 - j) = s.getD j false := by
  rw [pack8, BitVec.getLsbD_ofNat, testBit_foldl_bitNat, decide_eq_true (by omega), Bool.true_and,
    List.getD_eq_getElem?_getD, List.getElem?_reverse (by omega), hs, List.getD_eq_getElem?_getD, show 8 - 1 - (7 - j) = j by omega]

theorem pack8_bitsOfByte (b : Byte) : pack8 (bitsOfByte b) = b := by
  refine BitVec.eq_of_getLsbD_eq fun k hk => ?_
  obtain ⟨j, hj, rfl⟩ : ∃ j < 8, k = 7 - j := ⟨7 - k, by omega, by omega⟩
  rw [getLsbD_pack8 rfl hj]
  interval_cases j <;> rfl

/-! ### Whole bytes and the padded byte (R176) -/

theorem partialBits_of_short {s : BitSeq} (h : s.length < 8) : partialBits s = s := by
  rw [partialBits, Nat.div_eq_of_lt h, Nat.mul_zero, List.drop_zero]

theorem fullBytes_of_short {s : BitSeq} (h : s.length < 8) : fullBytes s = [] := by
  unfold fullBytes
  split
  · simp only [List.length_cons] at h
    omega
  · rfl

/-- Induction along `fullBytes`: a sequence is shorter than a byte, or a byte's bits and a rest. -/
theorem byteInduction {P : BitSeq → Prop} (short : ∀ s : BitSeq, s.length < 8 → P s)
    (byte : ∀ b rest : BitSeq, b.length = 8 → P rest → P (b ++ rest)) (s : BitSeq) : P s := by
  rcases Nat.lt_or_ge s.length 8 with h | h
  · exact short s h
  · rw [← List.take_append_drop 8 s]
    exact byte _ _ (List.length_take_of_le h) (byteInduction short byte (s.drop 8))
  termination_by s.length
  decreasing_by simp only [List.length_drop]; omega

theorem fullBytes_byte_append {byte : BitSeq} (h : byte.length = 8) (rest : BitSeq) :
    fullBytes (byte ++ rest) = pack8 byte :: fullBytes rest := by
  match byte, h with
  | [_, _, _, _, _, _, _, _], _ => rfl

theorem partialBits_byte_append {byte : BitSeq} (h : byte.length = 8) (rest : BitSeq) :
    partialBits (byte ++ rest) = partialBits rest := by
  have hn : 8 * ((byte ++ rest).length / 8) = byte.length + 8 * (rest.length / 8) := by
    rw [List.length_append, h]
    omega
  rw [partialBits, hn, List.drop_append, List.drop_eq_nil_of_le (by omega), List.nil_append, Nat.add_sub_cancel_left]
  rfl

theorem bitsToBytes_byte_append {byte : BitSeq} (h : byte.length = 8) (rest : BitSeq) :
    bitsToBytes (byte ++ rest) = pack8 byte :: bitsToBytes rest := by
  simp only [bitsToBytes, fullBytes_byte_append h, partialBits_byte_append h, List.cons_append]

/-- A sequence of 1 to 7 bits gives one byte, the sequence padded with zeros. -/
theorem bitsToBytes_of_short {s : BitSeq} (h : s.length < 8) (hne : s ≠ []) :
    bitsToBytes s = [pack8 (s ++ List.replicate (8 - s.length) false)] := by
  rw [bitsToBytes, fullBytes_of_short h, partialBits_of_short h, List.nil_append]
  cases s with
  | nil => exact absurd rfl hne
  | cons b bs => rfl

theorem length_fullBytes (s : BitSeq) : (fullBytes s).length = s.length / 8 := by
  induction s using byteInduction with
  | short s h =>
    rw [fullBytes_of_short h, Nat.div_eq_of_lt h]
    rfl
  | byte b rest h ih =>
    rw [fullBytes_byte_append h, List.length_cons, ih, List.length_append, h]
    omega

theorem length_bitsToBytes (s : BitSeq) : (bitsToBytes s).length = (s.length + 7) / 8 := by
  have hp : (partialBits s).length = s.length % 8 := by
    rw [partialBits, List.length_drop]
    omega
  rw [bitsToBytes, List.length_append, length_fullBytes]
  cases hs : partialBits s with
  | nil =>
    rw [hs, List.length_nil] at hp
    simp only [paddedByte, List.length_nil]
    omega
  | cons b bs =>
    rw [hs, List.length_cons] at hp
    simp only [paddedByte, List.length_singleton]
    omega

/-- Bit `j` of the sequence is at bit `7 - j mod 8` of byte `j div 8`, and the bits past its end are 0. -/
theorem getLsbD_bitsToBytes (s : BitSeq) (j : Nat) (hj : j < 8 * ((s.length + 7) / 8)) :
    ((bitsToBytes s).getD (j / 8) 0#8).getLsbD (7 - j % 8) = s.getD j false := by
  induction s using byteInduction generalizing j with
  | short s h =>
    have hne : s ≠ [] := by
      rintro rfl
      exact Nat.not_lt_zero j hj
    have hj8 : j < 8 := by omega
    rw [bitsToBytes_of_short h hne, Nat.div_eq_of_lt hj8, Nat.mod_eq_of_lt hj8, List.getD_cons_zero,
      getLsbD_pack8 (by simp; omega) hj8]
    rcases Nat.lt_or_ge j s.length with hl | hl
    · exact List.getD_append _ _ _ _ hl
    · rw [List.getD_append_right _ _ _ _ hl, List.getD_replicate _ (by omega), List.getD_eq_default _ _ hl]
  | byte b rest h ih =>
    rw [bitsToBytes_byte_append h]
    rcases Nat.lt_or_ge j 8 with hj8 | hj8
    · rw [Nat.div_eq_of_lt hj8, Nat.mod_eq_of_lt hj8, List.getD_cons_zero, getLsbD_pack8 h hj8,
        List.getD_append _ _ _ _ (by omega)]
    · obtain ⟨i, rfl⟩ := Nat.exists_eq_add_of_le hj8
      rw [List.length_append, h] at hj
      rw [show (8 + i) / 8 = i / 8 + 1 by omega, Nat.add_mod_left, List.getD_cons_succ, ih i (by omega),
        List.getD_append_right _ _ _ _ (by omega), h, Nat.add_sub_cancel_left]

theorem fullBytes_eq_take (s : BitSeq) : fullBytes s = (bitsToBytes s).take (s.length / 8) := by
  rw [bitsToBytes, ← length_fullBytes, List.take_left]

/-! ### The bits of an operand (R146) -/

@[simp] theorem length_valBits (len : BitVec 5) (val : BitVec 16) : (valBits len val).length = len.toNat := by
  simp [valBits]

theorem getElem?_valBits {len : BitVec 5} {k : Nat} (hk : k < len.toNat) (val : BitVec 16) :
    (valBits len val)[k]? = some (val.getLsbD (len.toNat - 1 - k)) := by
  simp [valBits, hk]

/-! ### Symbol texts (R173, R174) -/

theorem toNat_append_extractLsb' {h : Nat} (hi : BitVec h) (s : Sym) (lo w : Nat) :
    (hi ++ s.extractLsb' lo w).toNat = hi.toNat * 2 ^ w + s.toNat / 2 ^ lo % 2 ^ w := by
  rw [BitVec.toNat_append, ← Nat.shiftLeft_add_eq_or_of_lt (BitVec.isLt _), Nat.shiftLeft_eq, BitVec.extractLsb'_toNat,
    Nat.shiftRight_eq_div_pow]

/-- A byte that ends in the bits of a symbol from `lo` on is a number, where the symbol has no bit above them. -/
theorem leadByte_eq {h w : Nat} (hi : BitVec h) (s : Sym) (lo : Nat) (hw : h + w = 8) (hs : s.toNat / 2 ^ lo < 2 ^ w) :
    (hi ++ s.extractLsb' lo w).cast hw = BitVec.ofNat 8 (hi.toNat * 2 ^ w + s.toNat / 2 ^ lo) := by
  rw [← Nat.mod_eq_of_lt hs, ← toNat_append_extractLsb', ← BitVec.toNat_cast hw, BitVec.ofNat_toNat, BitVec.setWidth_eq]

theorem contByte_eq (s : Sym) (lo : Nat) :
    contByte (s.extractLsb' lo 6) = BitVec.ofNat 8 (0x80 + s.toNat / 2 ^ lo % 64) := by
  have h : (contByte (s.extractLsb' lo 6)).toNat = 0x80 + s.toNat / 2 ^ lo % 64 :=
    toNat_append_extractLsb' 0b10#2 s lo 6
  rw [← h, BitVec.ofNat_toNat, BitVec.setWidth_eq]

theorem lowByte_eq (s : Sym) : s.extractLsb' 0 8 = BitVec.ofNat 8 s.toNat :=
  BitVec.eq_of_toNat_eq (by simp)

theorem utf8Text_one {s : Sym} (h : s.toNat ≤ 0x7F) : utf8Text s = [BitVec.ofNat 8 s.toNat] := by
  rw [utf8Text, if_pos h, lowByte_eq]

theorem utf8Text_two {s : Sym} (h1 : 0x80 ≤ s.toNat) (h2 : s.toNat ≤ 0x7FF) :
    utf8Text s = [BitVec.ofNat 8 (0xC0 + s.toNat / 64), BitVec.ofNat 8 (0x80 + s.toNat % 64)] := by
  have hlead : (0b110#3 ++ s.extractLsb' 6 5 : Byte) = BitVec.ofNat 8 (0xC0 + s.toNat / 64) :=
    leadByte_eq 0b110#3 s 6 rfl (by omega)
  rw [utf8Text, if_neg (by omega), if_pos h2, hlead]
  simp only [contByte_eq, Nat.reducePow, Nat.div_one]

theorem utf8Text_three {s : Sym} (h1 : 0x800 ≤ s.toNat) (h2 : s.toNat ≤ 0xFFFF) :
    utf8Text s = [BitVec.ofNat 8 (0xE0 + s.toNat / 4096), BitVec.ofNat 8 (0x80 + s.toNat / 64 % 64),
      BitVec.ofNat 8 (0x80 + s.toNat % 64)] := by
  have hlead : (0b1110#4 ++ s.extractLsb' 12 4 : Byte) = BitVec.ofNat 8 (0xE0 + s.toNat / 4096) :=
    leadByte_eq 0b1110#4 s 12 rfl (by omega)
  rw [utf8Text, if_neg (by omega), if_neg (by omega), if_pos h2, hlead]
  simp only [contByte_eq, Nat.reducePow, Nat.div_one]

theorem utf8Text_four {s : Sym} (h1 : 0x10000 ≤ s.toNat) :
    utf8Text s = [BitVec.ofNat 8 (0xF0 + s.toNat / 262144), BitVec.ofNat 8 (0x80 + s.toNat / 4096 % 64),
      BitVec.ofNat 8 (0x80 + s.toNat / 64 % 64), BitVec.ofNat 8 (0x80 + s.toNat % 64)] := by
  have hlead : (0b11110#5 ++ s.extractLsb' 18 3 : Byte) = BitVec.ofNat 8 (0xF0 + s.toNat / 262144) :=
    leadByte_eq 0b11110#5 s 18 rfl (by omega)
  rw [utf8Text, if_neg (by omega), if_neg (by omega), if_neg (by omega), hlead]
  simp only [contByte_eq, Nat.reducePow, Nat.div_one]

theorem symText_byte {c : Config} (hc : c.codec = .byte) (s : Sym) : symText c s = [BitVec.ofNat 8 s.toNat] := by
  rw [symText, hc, lowByte_eq]

theorem symText_utf8 {c : Config} (hc : c.codec = .utf8) (s : Sym) : symText c s = utf8Text s := by
  rw [symText, hc]

/-- Settles O5: the bits of an operand and of a packed byte by position, `bitsToBytes` by induction over whole bytes, and
the symbol texts range by range. -/
theorem bitsAreMsbFirst : Obligations.BitsAreMsbFirst := by
  refine ⟨fun len val => ⟨length_valBits len val, fun k hk => getElem?_valBits hk val⟩, pack8_bitsOfByte, ?_,
    fun bits => ⟨length_bitsToBytes bits, getLsbD_bitsToBytes bits, fullBytes_eq_take bits⟩⟩
  intro c sym n byte _
  refine ⟨fun hc => symText_byte hc sym, fun hc h => ?_, fun hc h1 h2 => ?_, fun hc h1 h2 => ?_, fun hc h1 => ?_⟩
  · exact (symText_utf8 hc sym).trans (utf8Text_one h)
  · exact (symText_utf8 hc sym).trans (utf8Text_two h1 h2)
  · exact (symText_utf8 hc sym).trans (utf8Text_three h1 h2)
  · exact (symText_utf8 hc sym).trans (utf8Text_four h1)

end Sys2Proof.Machine
end

section
/-! Where a command stops, and how it goes on (spec/00_scope.md R16, R20; spec/46_control.md R457). A command reads and
writes what surrounds it only by pops and pushes. So a change of the surroundings that keeps its pops and pushes carries
over to the whole run; where the command stopped before the change, it goes on after it. -/

namespace Sys2Proof.Machine

/-! ### Rules of the operations -/

theorem popIn_of_blocked {s : State} (h : s.mayPass = false ∨ s.inFifo = []) : popIn s = none := by
  unfold popIn
  rcases h with h | h <;> simp [h]

theorem popIn_of_cons {s : State} {b : Byte} {rest : ByteSeq} (h : s.mayPass = true) (hi : s.inFifo = b :: rest) :
    popIn s = some (b, { s.spend with inFifo := rest }) := by
  rw [popIn, if_pos h, hi]

theorem pushAll_of_room {s : State} (b : Byte) (bs : ByteSeq) (h : (s.mayPass && s.outRoom) = true) :
    pushAll (b :: bs) s = pushAll bs (pushed b s) := if_pos h

theorem pushAll_of_blocked {s : State} (b : Byte) (bs : ByteSeq) (h : (s.mayPass && s.outRoom) = false) :
    pushAll (b :: bs) s = .wait s [.push (b :: bs)] := if_neg (Bool.not_eq_true _ ▸ h)

theorem loadTree_ends (h : ByteSeq) (s t : State) (q : List Micro) : loadTree h s ≠ .wait t q := by
  obtain ⟨_, _, -, hl⟩ | ⟨-, hl⟩ | ⟨_, -, hl⟩ := loadTree_cases h s <;> simp [hl, raise]

theorem appendBits_ends (seq : BitSeq) (s t : State) (q : List Micro) : appendBits seq s ≠ .wait t q := by
  unfold appendBits
  split
  · exact Flow.noConfusion
  · split <;> exact Flow.noConfusion

theorem resume_of_idle {s : State} (h : s.busy = false) : resume s = s := by
  rw [resume, h]
  rfl

theorem resume_of_busy {s : State} (h : s.busy = true) : resume s = finish (runTodo s.todo s) := if_pos h

@[simp] theorem hostWrite_credit (off : BitVec 8) (v : Word) (s : State) : (hostWrite off v s).credit = s.credit := by
  unfold hostWrite pushIn
  split
  · split <;> rfl
  · split <;> rfl
  · rfl
  · split <;> rfl
  · rfl
  · rfl

/-! ### One bit of a walk (R406, R407) -/

/-- `cur` moved to its child on this bit. -/
def walkDown (bit : Bool) (s : State) : State := { s with cur := childOf (s.node s.cur) s.cur bit }

theorem walkBits_root_leaf {s : State} {sym : Sym} (hroot : (s.node s.root).body = .leaf sym) (bit : Bool)
    (bits : BitSeq) (off : Word) :
    walkBits (bit :: bits) off s =
      if bit then raise .invalidCode off s else (emit sym s).andThen (walkBits bits off) [.walk bits off] := by
  rw [walkBits, hroot]

theorem walkBits_to_internal {s : State} {l r l' r' : NodeIdx} {bit : Bool}
    (hroot : (s.node s.root).body = .internal l r)
    (hnode : (s.node (walkDown bit s).cur).body = .internal l' r') (bits : BitSeq) (off : Word) :
    walkBits (bit :: bits) off s = walkBits bits off (walkDown bit s) := by
  rw [walkBits, hroot]
  change (match (s.node (walkDown bit s).cur).body with | .internal _ _ => _ | .leaf _ => _) = _
  rw [hnode]
  rfl

theorem walkBits_to_leaf {s : State} {l r : NodeIdx} {sym : Sym} {bit : Bool}
    (hroot : (s.node s.root).body = .internal l r)
    (hnode : (s.node (walkDown bit s).cur).body = .leaf sym) (bits : BitSeq) (off : Word) :
    walkBits (bit :: bits) off s =
      (emit sym (walkDown bit s)).andThen (fun t => walkBits bits off (curToRoot t)) [.curToRoot, .walk bits off] := by
  rw [walkBits, hroot]
  change (match (s.node (walkDown bit s).cur).body with | .internal _ _ => _ | .leaf _ => _) = _
  rw [hnode]
  rfl

/-! ### What surrounds a command in flight -/

/-- The part of a state that a command in flight uses by pops and pushes only, or not at all: the FIFOs and the depth of
OUT, the core's credit, and the registers, flags and fields of the host's side. -/
structure Env where
  outDepth   : Nat
  credit     : Option Nat
  inFifo     : ByteSeq
  outFifo    : ByteSeq
  arg        : Word
  doneIe     : Bool
  errIe      : Bool
  cmdOvr     : Bool
  inOvr      : Bool
  script     : List HostStep
  reads      : List (BitVec 8 × Word)
  statusSeen : Bool

namespace Env

/-- The core may pass a blocking point. -/
def mayPass (e : Env) : Bool := e.credit != some 0

/-- The next push need not wait. -/
def canPush (e : Env) : Bool := e.mayPass && decide (e.outFifo.length < e.outDepth)

/-- The surroundings after a push. -/
def pushed (b : Byte) (e : Env) : Env := { e with credit := e.credit.map (· - 1), outFifo := e.outFifo ++ [b] }

/-- The surroundings after a pop that leaves `rest` in IN. -/
def popped (rest : ByteSeq) (e : Env) : Env := { e with credit := e.credit.map (· - 1), inFifo := rest }

end Env

/-- The surroundings in a state. -/
def State.env (s : State) : Env where
  outDepth := s.cfg.outDepth
  credit := s.credit
  inFifo := s.inFifo
  outFifo := s.outFifo
  arg := s.arg
  doneIe := s.doneIe
  errIe := s.errIe
  cmdOvr := s.cmdOvr
  inOvr := s.inOvr
  script := s.script
  reads := s.reads
  statusSeen := s.statusSeen

/-- The state with other surroundings, and with this latched as left to do. -/
def State.withEnv (e : Env) (todo : List Micro) (s : State) : State :=
  { s with
    todo := todo
    cfg := { s.cfg with outDepth := e.outDepth }
    credit := e.credit
    inFifo := e.inFifo
    outFifo := e.outFifo
    arg := e.arg
    doneIe := e.doneIe
    errIe := e.errIe
    cmdOvr := e.cmdOvr
    inOvr := e.inOvr
    script := e.script
    reads := e.reads
    statusSeen := e.statusSeen }

@[simp] theorem withEnv_tstate (e : Env) (td : List Micro) (s : State) : (s.withEnv e td).tstate = s.tstate := rfl
@[simp] theorem withEnv_ft (e : Env) (td : List Micro) (s : State) : (s.withEnv e td).ft = s.ft := rfl

/-- A change of the surroundings under which a command's pops and pushes give the same, for surroundings that are `ok`,
and of the latched position, which a command that runs does not read. -/
structure EnvMap where
  ok   : Env → Prop
  map  : Env → Env
  todo : List Micro → List Micro := id
  pop  : ∀ {e b rest}, ok e → e.mayPass = true → e.inFifo = b :: rest →
    ok (e.popped rest) ∧ (map e).mayPass = true ∧
      ∃ rest', (map e).inFifo = b :: rest' ∧ (map e).popped rest' = map (e.popped rest)
  push : ∀ {e} (b), ok e → e.canPush = true →
    ok (e.pushed b) ∧ (map e).canPush = true ∧ (map e).pushed b = map (e.pushed b)

/-- The state with its surroundings and its latched position changed. -/
def EnvMap.lift (M : EnvMap) (s : State) : State := s.withEnv (M.map s.env) (M.todo s.todo)

@[simp] theorem lift_phase (M : EnvMap) (s : State) : (M.lift s).phase = s.phase := rfl
@[simp] theorem lift_tstate (M : EnvMap) (s : State) : (M.lift s).tstate = s.tstate := rfl
@[simp] theorem lift_pend (M : EnvMap) (s : State) : (M.lift s).pend = s.pend := rfl
@[simp] theorem lift_ctRead (M : EnvMap) (s : State) (sym : Sym) : (M.lift s).ctRead sym = s.ctRead sym := rfl

/-! ### Where a command stops -/

/-- The first remaining operation cannot go on: it is at a pop and there is no byte that it may take, or at a push and
there is no room that it may use. -/
def Blocked (rest : List Micro) (s : State) : Prop :=
  ∃ m ms, rest = m :: ms ∧
    ((m.atPop = true ∧ (s.mayPass = false ∨ s.inFifo = [])) ∨ (m.atPush = true ∧ (s.mayPass && s.outRoom) = false))

theorem Blocked.append {rest : List Micro} {s : State} (h : Blocked rest s) (ms : List Micro) :
    Blocked (rest ++ ms) s := by
  obtain ⟨m, ms', rfl, hm⟩ := h
  exact ⟨m, ms' ++ ms, rfl, hm⟩

/-- What cannot go on stays where it is. -/
theorem Blocked.runTodo_eq {rest : List Micro} {s : State} (h : Blocked rest s) : runTodo rest s = .wait s rest := by
  obtain ⟨m, ms, rfl, hm⟩ := h
  have hwait : runMicro m s = .wait s [m] := by
    rcases hm with ⟨hp, hb⟩ | ⟨hp, hb⟩
    · have hnone := popIn_of_blocked hb
      cases m with
      | chunk n =>
        cases n with
        | zero => cases hp
        | succ n => simp only [runMicro, chunkLoop, hnone]
      | hdrLo => simp only [runMicro, hdrLo, hnone]
      | hdrHi lo => simp only [runMicro, hdrHi, hnone]
      | hdrBody n =>
        cases n with
        | zero => cases hp
        | succ n => simp only [runMicro, hdrBody, hnone]
      | _ => cases hp
    · cases m with
      | push bytes =>
        cases bytes with
        | nil => cases hp
        | cons b bs => exact pushAll_of_blocked b bs hb
      | _ => cases hp
  rw [runTodo_cons, hwait, Flow.andThen_wait, List.singleton_append]

/-! ### What the tree's functions do not read of the surroundings -/

theorem visit_outDepth (c : Config) (d : Nat) (nodes : List Node) (fuel : Nat) (i : NodeIdx) :
    visit { c with outDepth := d } nodes fuel i = visit c nodes fuel i := by
  induction fuel generalizing i with
  | zero => rfl
  | succ fuel ih =>
    simp only [visit, ih]
    rfl

theorem parseLoop_outDepth (c : Config) (d len fuel : Nat) (bytes : ByteSeq) (pos : Nat) (nodes : List Node)
    (stack : List OpenNode) (seen : List Sym) :
    parseLoop { c with outDepth := d } len fuel bytes pos nodes stack seen =
      parseLoop c len fuel bytes pos nodes stack seen := by
  induction fuel generalizing bytes pos nodes stack seen with
  | zero => rfl
  | succ fuel ih =>
    simp only [parseLoop, ih]
    rfl

theorem deserialize_outDepth (c : Config) (d : Nat) (h : ByteSeq) :
    deserialize { c with outDepth := d } h = deserialize c h := by
  simp only [deserialize, parseLoop_outDepth]

theorem serialize_withEnv (e : Env) (td : List Micro) (s : State) :
    serialize (s.withEnv e td) = serialize s := by
  unfold serialize
  rw [withEnv_tstate]
  cases s.tstate with
  | present => exact visit_outDepth s.cfg _ _ _ _
  | _ => rfl

theorem assignCodes_withEnv (e : Env) (td : List Micro) (s : State) :
    assignCodes (s.withEnv e td) = (assignCodes s).withEnv e td := by
  unfold assignCodes
  rw [withEnv_tstate]
  cases s.tstate <;> rfl

theorem build_withEnv (e : Env) (td : List Micro) (s : State) :
    build (s.withEnv e td) = (build s).withEnv e td := by
  unfold build
  rw [withEnv_ft]
  cases s.ft with
  | nil => rfl
  | cons x rest =>
    dsimp only
    rw [← assignCodes_withEnv]
    rfl

/-! ### Two runs of a command, the second in changed surroundings -/

namespace EnvMap

/-- A command is running in the build `c`, in surroundings that are `ok`. -/
structure Running (M : EnvMap) (c : Config) (s : State) : Prop where
  cfg  : s.cfg = c
  busy : s.busy = true
  ok   : M.ok s.env

/-- The second run does what the first does; where the first stops, the second goes on with what is left. -/
inductive Follows (M : EnvMap) (c : Config) : Flow → Flow → Prop
  | done {s : State} : M.Running c s → Follows M c (.done s) (.done (M.lift s))
  | wait {s : State} {rest : List Micro} : M.Running c s → Blocked rest s →
      Follows M c (.wait s rest) (runTodo rest (M.lift s))
  | raised {cause : Cause} {info : Word} {s : State} : s.cfg = c →
      Follows M c (raise cause info s) (raise cause info (M.lift s))

variable {M : EnvMap} {c : Config} {s : State}

/-- An update that neither reads nor writes the surroundings. -/
theorem Running.update {t : State} (hs : M.Running c s) (hcfg : t.cfg = s.cfg := by rfl)
    (hbusy : t.busy = s.busy := by rfl) (henv : t.env = s.env := by rfl) : M.Running c t :=
  ⟨hcfg.trans hs.cfg, hbusy.trans hs.busy, henv ▸ hs.ok⟩

theorem Running.assignCodes (hs : M.Running c s) : M.Running c (assignCodes s) := by
  rw [assignCodes_frame]
  exact hs.update

theorem Running.build (hs : M.Running c s) : M.Running c (build s) := by
  rw [build_frame]
  exact hs.update

theorem lift_assignCodes (s : State) : M.lift (Machine.assignCodes s) = Machine.assignCodes (M.lift s) := by
  rw [EnvMap.lift, EnvMap.lift, assignCodes_withEnv, assignCodes_frame]
  rfl

theorem lift_build (s : State) : M.lift (Machine.build s) = Machine.build (M.lift s) := by
  rw [EnvMap.lift, EnvMap.lift, build_withEnv, build_frame]
  rfl

theorem follows_done {t t' : State} (ht : M.Running c t) (h : t' = M.lift t := by rfl) :
    M.Follows c (.done t) (.done t') := h ▸ .done ht

theorem follows_raise (cause : Cause) (info : Word) {t : State} (hs : s.cfg = c) (h : t = M.lift s := by rfl) :
    M.Follows c (raise cause info s) (raise cause info t) := h ▸ .raised hs

theorem Follows.andThen {f f' : Flow} {k : State → Flow} {r : List Micro} (hf : M.Follows c f f')
    (hr : ∀ s, runTodo r s = k s) (hk : ∀ s, M.Running c s → M.Follows c (k s) (k (M.lift s))) :
    M.Follows c (f.andThen k r) (f'.andThen k r) := by
  obtain rfl : runTodo r = k := funext hr
  cases hf with
  | done hs => exact hk _ hs
  | wait hs hb =>
    rw [Flow.andThen_wait, ← runTodo_append]
    exact .wait hs (hb.append r)
  | raised hc => exact .raised hc

/-- Where the first part cannot stop, the list of what would be left does not matter. -/
theorem Follows.andThen_of_ends {f f' : Flow} {k : State → Flow} {r : List Micro} (hf : M.Follows c f f')
    (hends : ∀ s q, f ≠ .wait s q) (hk : ∀ s, M.Running c s → M.Follows c (k s) (k (M.lift s))) :
    M.Follows c (f.andThen k r) (f'.andThen k r) := by
  cases hf with
  | done hs => exact hk _ hs
  | wait hs hb => exact absurd rfl (hends _ _)
  | raised hc => exact .raised hc

theorem Follows.ite {p p' : Prop} [Decidable p] [Decidable p'] {f f' g g' : Flow} (hf : M.Follows c f f')
    (hg : M.Follows c g g') (hp : p' = p := by rfl) :
    M.Follows c (if p then f else g) (if p' then f' else g') := by
  subst hp
  by_cases h : p'
  · rwa [if_pos h, if_pos h]
  · rwa [if_neg h, if_neg h]

/-! ### The operations -/

theorem pushAll_follows (bytes : ByteSeq) (hs : M.Running c s) :
    M.Follows c (pushAll bytes s) (pushAll bytes (M.lift s)) := by
  induction bytes generalizing s with
  | nil => exact .done hs
  | cons b bs ih =>
    cases hp : s.mayPass && s.outRoom with
    | true =>
      obtain ⟨hok, hcan, hmap⟩ := M.push b hs.ok hp
      have hlift : pushed b (M.lift s) = M.lift (pushed b s) :=
        congrArg (fun e => (pushed b s).withEnv e (M.todo s.todo)) hmap
      rw [pushAll_of_room b bs hp, pushAll_of_room (s := M.lift s) b bs hcan, hlift]
      exact ih ⟨hs.cfg, hs.busy, hok⟩
    | false =>
      rw [pushAll_of_blocked b bs hp, ← runMicro, ← runTodo_singleton]
      exact .wait hs ⟨_, _, rfl, .inr ⟨rfl, hp⟩⟩

/-- An operation that starts with a pop. -/
def popThen (m : Micro) (k : Byte → State → Flow) (s : State) : Flow :=
  match popIn s with
  | none => .wait s [m]
  | some (b, t) => k b t

theorem popThen_follows {m : Micro} {k : Byte → State → Flow} (hs : M.Running c s) (hm : m.atPop = true)
    (hrun : ∀ t, runMicro m t = popThen m k t)
    (hk : ∀ b t, M.Running c t → M.Follows c (k b t) (k b (M.lift t))) :
    M.Follows c (popThen m k s) (popThen m k (M.lift s)) := by
  obtain ⟨hnone, hb⟩ | ⟨b, rest, hmay, hin, hsome⟩ := popIn_cases s
  · have hwait : popThen m k s = .wait s [m] := by rw [popThen, hnone]
    rw [hwait, ← hrun, ← runTodo_singleton]
    exact .wait hs ⟨m, [], rfl, .inl ⟨hm, hb⟩⟩
  · obtain ⟨hok, hmay', rest', hin', hmap⟩ := M.pop hs.ok hmay hin
    have hsome' : popIn (M.lift s) = some (b, M.lift { s.spend with inFifo := rest }) := by
      refine (popIn_of_cons (s := M.lift s) hmay' hin').trans ?_
      exact congrArg (fun e => some (b, s.withEnv e (M.todo s.todo))) hmap
    rw [popThen, popThen, hsome, hsome']
    exact hk b _ ⟨hs.cfg, hs.busy, hok⟩

theorem emit_follows (sym : Sym) (hs : M.Running c s) : M.Follows c (emit sym s) (emit sym (M.lift s)) :=
  (pushAll_follows _ hs).andThen (runTodo_singleton .countSym) fun _ ht => follows_done ht.update

theorem walkBits_follows (bits : BitSeq) (off : Word) (hs : M.Running c s) :
    M.Follows c (walkBits bits off s) (walkBits bits off (M.lift s)) := by
  induction bits generalizing s with
  | nil => exact .done hs
  | cons bit bits ih =>
    have hwalk (t : State) : runTodo [.walk bits off] t = walkBits bits off t := runTodo_singleton _ t
    cases hroot : (s.node s.root).body with
    | leaf sym =>
      rw [walkBits_root_leaf hroot, walkBits_root_leaf (s := M.lift s) hroot]
      cases bit with
      | true => exact follows_raise _ _ hs.cfg
      | false => exact (emit_follows sym hs).andThen hwalk fun _ ht => ih ht
    | internal l r =>
      have hdown : M.Running c (walkDown bit s) := hs.update
      cases hnode : (s.node (walkDown bit s).cur).body with
      | internal l' r' =>
        rw [walkBits_to_internal hroot hnode, walkBits_to_internal (s := M.lift s) hroot hnode]
        exact ih hdown
      | leaf sym =>
        rw [walkBits_to_leaf hroot hnode, walkBits_to_leaf (s := M.lift s) hroot hnode]
        refine (emit_follows sym hdown).andThen (fun t => ?_) fun t ht => ih (s := curToRoot t) ht.update
        exact hwalk (curToRoot t)

theorem loadTree_follows (h : ByteSeq) (hs : M.Running c s) :
    M.Follows c (loadTree h s) (loadTree h (M.lift s)) := by
  have hd : deserialize (M.lift s).cfg h = deserialize s.cfg h := deserialize_outDepth s.cfg _ h
  unfold loadTree
  rw [hd]
  cases deserialize s.cfg h with
  | malformed sub pos => exact follows_raise _ _ (s := treeClear s) hs.cfg
  | absent => exact follows_done hs.update
  | present nodes =>
    have ht : M.Running c { treeClear s with nodes := nodes, root := 0#16, tstate := .present } := hs.update
    exact follows_done ht.assignCodes (by rw [lift_assignCodes]; rfl)

theorem headerDone_follows (hs : M.Running c s) : M.Follows c (headerDone s) (headerDone (M.lift s)) :=
  (loadTree_follows _ hs).andThen_of_ends (loadTree_ends _ _) fun _ ht => follows_done ht.update

theorem confirm_follows (p : Byte) (off : Word) (hs : M.Running c s) :
    M.Follows c (confirm p off s) (confirm p off (M.lift s)) := by
  unfold confirm
  rw [lift_tstate]
  cases s.tstate with
  | present => exact walkBits_follows _ _ hs
  | noTree => exact follows_raise _ _ hs.cfg
  | absent => exact follows_raise _ _ hs.cfg

theorem feed_follows (b : Byte) (hs : M.Running c s) : M.Follows c (feed b s) (feed b (M.lift s)) := by
  unfold feed
  rw [lift_phase]
  cases s.phase with
  | dLen0 => exact follows_done hs.update
  | dLen1 => exact .ite (headerDone_follows hs.update) (follows_done hs.update)
  | dHdr => exact .ite (headerDone_follows hs.update) (follows_done hs.update)
  | dPay =>
    dsimp only
    rw [lift_pend]
    rcases s.pend with _ | ⟨p0, _ | ⟨p1, rest⟩⟩
    · exact follows_done hs.update
    · exact follows_done hs.update
    · exact confirm_follows _ _ hs.update
  | _ => exact follows_done hs.update

theorem chunkLoop_follows (n : Nat) (hs : M.Running c s) :
    M.Follows c (chunkLoop n s) (chunkLoop n (M.lift s)) := by
  induction n generalizing s with
  | zero => exact .done hs
  | succ n ih =>
    exact popThen_follows (m := .chunk (n + 1)) (k := fun b t => (feed b t).andThen (chunkLoop n) [.chunk n]) hs rfl
      (fun _ => rfl) fun b _ ht => (feed_follows b ht).andThen (runTodo_singleton (.chunk n)) fun _ ht' => ih ht'

theorem hdrBody_follows (n : Nat) (hs : M.Running c s) : M.Follows c (hdrBody n s) (hdrBody n (M.lift s)) := by
  induction n generalizing s with
  | zero => exact loadTree_follows _ hs
  | succ n ih =>
    exact popThen_follows (m := .hdrBody (n + 1)) (k := fun b t => hdrBody n { t with hbuf := t.hbuf ++ [b] }) hs rfl
      (fun _ => rfl) fun b t ht => ih (s := { t with hbuf := t.hbuf ++ [b] }) ht.update

theorem hdrHi_follows (lo : Byte) (hs : M.Running c s) : M.Follows c (hdrHi lo s) (hdrHi lo (M.lift s)) :=
  popThen_follows (m := .hdrHi lo) (k := fun hi t => hdrBody (lo.toNat + 256 * hi.toNat) { t with hbuf := [] }) hs rfl
    (fun _ => rfl) fun _ t ht => hdrBody_follows _ (s := { t with hbuf := [] }) ht.update

theorem hdrLo_follows (hs : M.Running c s) : M.Follows c (hdrLo s) (hdrLo (M.lift s)) :=
  popThen_follows (m := .hdrLo) (k := hdrHi) hs rfl (fun _ => rfl) fun lo _ ht => hdrHi_follows lo ht

theorem decTail_follows (hs : M.Running c s) : M.Follows c (decTail s) (decTail (M.lift s)) := by
  unfold decTail
  exact .ite (follows_raise _ _ hs.cfg) (follows_done hs.update)

theorem runMicro_follows (m : Micro) (hs : M.Running c s) : M.Follows c (runMicro m s) (runMicro m (M.lift s)) := by
  cases m with
  | push bytes => exact pushAll_follows bytes hs
  | walk bits off => exact walkBits_follows bits off hs
  | chunk n => exact chunkLoop_follows n hs
  | hdrLo => exact hdrLo_follows hs
  | hdrHi lo => exact hdrHi_follows lo hs
  | hdrBody n => exact hdrBody_follows n hs
  | decTail => exact decTail_follows hs
  | keepPartial | sealPacker | setPhase | countSym | curToRoot => exact follows_done hs.update

/-- A command taken up again, in both surroundings. -/
theorem runTodo_follows (ms : List Micro) (hs : M.Running c s) :
    M.Follows c (runTodo ms s) (runTodo ms (M.lift s)) := by
  induction ms generalizing s with
  | nil => exact .done hs
  | cons m ms ih => exact (runMicro_follows m hs).andThen (fun _ => rfl) fun _ ht => ih ht

theorem emitHeader_follows (hs : M.Running c s) : M.Follows c (emitHeader s) (emitHeader (M.lift s)) := by
  have hser : serialize (M.lift s) = serialize s := serialize_withEnv _ _ s
  unfold emitHeader
  rw [hser]
  exact .ite (follows_raise _ _ hs.cfg) (pushAll_follows _ hs)

theorem decEndAbsent_follows (hs : M.Running c s) : M.Follows c (decEndAbsent s) (decEndAbsent (M.lift s)) := by
  unfold decEndAbsent
  rw [lift_pend]
  rcases s.pend with _ | ⟨⟨b, off⟩, _ | ⟨p1, rest⟩⟩
  · exact follows_raise _ _ hs.cfg
  · exact .ite (follows_raise _ _ hs.cfg) (follows_done hs.update)
  · exact follows_raise _ _ hs.cfg

theorem decEndPresent_follows (hs : M.Running c s) : M.Follows c (decEndPresent s) (decEndPresent (M.lift s)) := by
  unfold decEndPresent
  rw [lift_pend]
  rcases s.pend with _ | ⟨⟨b, off⟩, _ | ⟨⟨v, _⟩, rest⟩⟩
  · exact follows_raise _ _ hs.cfg
  · exact follows_raise _ _ hs.cfg
  · exact .ite (follows_raise _ _ hs.cfg)
      ((walkBits_follows _ _ hs).andThen (runTodo_singleton .decTail) fun _ ht => decTail_follows ht)

theorem decEnd_follows (hs : M.Running c s) : M.Follows c (decEnd s) (decEnd (M.lift s)) := by
  unfold decEnd
  rw [lift_phase, lift_tstate]
  cases s.phase with
  | dLen0 | dLen1 | dHdr => exact follows_raise _ _ hs.cfg
  | _ =>
    cases s.tstate with
    | absent => exact decEndAbsent_follows hs
    | _ => exact decEndPresent_follows hs

theorem ftCount_follows (sym : Sym) (hs : M.Running c s) : M.Follows c (ftCount sym s) (ftCount sym (M.lift s)) := by
  unfold ftCount
  exact .ite (follows_raise _ _ hs.cfg) (.ite (follows_raise _ _ hs.cfg) (follows_done hs.update))

theorem appendBits_follows (seq : BitSeq) (hs : M.Running c s) :
    M.Follows c (appendBits seq s) (appendBits seq (M.lift s)) := by
  unfold appendBits
  exact .ite (follows_raise _ _ hs.cfg) (.ite (follows_raise _ _ hs.cfg) (follows_done hs.update))

theorem flushIfFull_follows (hs : M.Running c s) : M.Follows c (flushIfFull s) (flushIfFull (M.lift s)) := by
  unfold flushIfFull
  exact .ite (runTodo_follows _ hs) (.done hs)

theorem execute_follows {i : Instr} {body : State → Flow} (hs : M.Running c s)
    (hb : M.Follows c (body s) (body (M.lift s))) :
    ∃ f f', execute i s body = .next (finish f) ∧ execute i (M.lift s) body = .next (finish f') ∧ M.Follows c f f' := by
  cases hl : legal i s.phase with
  | true => exact ⟨_, _, execute_legal body hl, execute_legal (s := M.lift s) body hl, hb⟩
  | false =>
    exact ⟨raise .sequence _ s, raise .sequence _ (M.lift s), execute_illegal body hl,
      execute_illegal (s := M.lift s) body hl, .raised hs.cfg⟩

/-- A command from its acceptance, in both surroundings. ABORT is apart: it empties the FIFOs. -/
theorem exec_follows {i : Instr} (hi : i ≠ .abort) (hs : M.Running c s) :
    ∃ f f', exec i s = .next (finish f) ∧ exec i (M.lift s) = .next (finish f') ∧ M.Follows c f f' := by
  cases i <;> simp only [exec, execFtClear, execFtCount, execFtRead, execTbBuild, execCtRead, execNodeRead,
    execTreeInfo, execTsSerialize, execTsDeserialize, execBpClear, execBpAppendBit, execBpAppendBits, execBpSize,
    execBpTvb, execBpDrainReady, execBpDrainAll, execEncBegin, execEncHeader, execEncSym, execEncFinish,
    execDecBegin, execDecChunk, execDecEnd, execNop]
  case abort => exact absurd rfl hi
  all_goals refine execute_follows hs ?_
  case nop => exact .done hs
  case ftClear | ftRead | treeInfo | bpClear | bpSize | bpTvb | encBegin | decBegin => exact follows_done hs.update
  case tsDeserialize | bpDrainReady | bpDrainAll | encFinish | decChunk => exact runTodo_follows _ hs
  case bpAppendBit | bpAppendBits => exact appendBits_follows _ hs
  case ftCount sym => exact ftCount_follows sym hs
  case tbBuild => exact follows_done hs.build (lift_build s).symm
  case ctRead sym =>
    rw [lift_ctRead]
    cases s.ctRead sym with
    | none => exact follows_done hs.update
    | some e => exact follows_done hs.update
  case nodeRead idx => exact .ite (follows_done hs.update) (follows_done hs.update)
  case tsSerialize => exact .ite (follows_raise _ _ hs.cfg) (emitHeader_follows hs)
  case encHeader =>
    have hh : M.Follows c (emitHeader (build s)) (emitHeader (build (M.lift s))) :=
      lift_build (M := M) s ▸ emitHeader_follows hs.build
    exact hh.andThen (fun _ => rfl) fun _ ht => runTodo_follows _ ht
  case encSym sym =>
    rw [lift_ctRead]
    cases s.ctRead sym with
    | none => exact follows_raise _ _ hs.cfg
    | some e =>
      exact (appendBits_follows _ hs).andThen_of_ends (appendBits_ends _ _) fun t ht =>
        flushIfFull_follows (s := countSym t) ht.update
  case decEnd => exact decEnd_follows hs

/-! ### How the two runs end -/

/-- What stops the core in the first surroundings stops it in the second. -/
def Transparent (M : EnvMap) : Prop :=
  ∀ e, M.ok e →
    (e.mayPass = false ∨ e.inFifo = [] → (M.map e).mayPass = false ∨ (M.map e).inFifo = []) ∧
    (e.canPush = false → (M.map e).canPush = false)

theorem Transparent.blocked {rest : List Micro} (hM : M.Transparent) (hs : M.ok s.env) (h : Blocked rest s) :
    Blocked rest (M.lift s) := by
  obtain ⟨hpop, hpush⟩ := hM _ hs
  obtain ⟨m, ms, rfl, ⟨hm, hb⟩ | ⟨hm, hb⟩⟩ := h
  · exact ⟨m, ms, rfl, .inl ⟨hm, hpop hb⟩⟩
  · exact ⟨m, ms, rfl, .inr ⟨hm, hpush hb⟩⟩

/-- The second run leaves the state of the first in the changed surroundings, with its own position. -/
theorem Follows.finish_eq {f f' : Flow} (h : M.Follows c f f') (hM : M.Transparent) :
    finish f' = { M.lift (finish f) with todo := (finish f).todo } := by
  cases h with
  | done hs => rfl
  | wait hs hb =>
    rw [(hM.blocked hs.ok hb).runTodo_eq]
    rfl
  | raised hc => rfl

theorem Follows.finish_cfg {f f' : Flow} (h : M.Follows c f f') : (finish f).cfg = c := by
  cases h with
  | done hs => exact hs.cfg
  | wait hs hb => exact hs.cfg
  | raised hc => exact hc

end EnvMap

/-! ### A step with no credit limit -/

/-- The surroundings as they are, with no credit limit. -/
def unlimited : EnvMap where
  ok e := e.credit = none
  map := id
  pop hc hm hi := ⟨by simp [Env.popped, hc], hm, _, hi, rfl⟩
  push _ hc hp := ⟨by simp [Env.pushed, hc], hp, rfl⟩

/-- With no credit limit a command in flight has stopped at an empty IN or at a full OUT. -/
theorem waits_of_follows {c : Config} {f f' : Flow} (h : unlimited.Follows c f f') (hb : (finish f).busy = true) :
    (finish f).waitIn = true ∨ (finish f).waitOut = true := by
  cases h with
  | done hs => cases hb
  | raised hc => cases hb
  | @wait s rest hs hblocked =>
    have hmay : s.mayPass = true := by simp [State.mayPass, show s.credit = none from hs.ok]
    obtain ⟨m, ms, rfl, ⟨hm, hempty⟩ | ⟨hm, hfull⟩⟩ := hblocked
    · left
      simpa [State.waitIn, hs.busy, hm, hmay] using hempty
    · right
      simpa [State.waitOut, State.outRoom, hs.busy, hm, hmay] using hfull

theorem resume_waits {s : State} (hc : s.credit = none) (hb : (resume s).busy = true) :
    (resume s).waitIn = true ∨ (resume s).waitOut = true := by
  cases hs : s.busy with
  | false =>
    rw [resume_of_idle hs, hs] at hb
    cases hb
  | true =>
    rw [resume_of_busy hs] at hb ⊢
    exact waits_of_follows (unlimited.runTodo_follows s.todo ⟨rfl, hs, hc⟩) hb

theorem exec_waits {i : Instr} {s t : State} (hc : s.credit = none) (hs : s.busy = true) (h : exec i s = .next t)
    (hb : t.busy = true) : t.waitIn = true ∨ t.waitOut = true := by
  by_cases hi : i = .abort
  · subst hi
    cases h
    cases hb
  · obtain ⟨f, f', hf, -, hff⟩ := EnvMap.exec_follows (M := unlimited) hi ⟨rfl, hs, hc⟩
    rw [hf] at h
    cases h
    exact waits_of_follows hff hb

theorem offerCommand_waits {w : Word} {s t : State} (hc : s.credit = none) (h : offerCommand w s = .next t)
    (hb : t.busy = true) : t.waitIn = true ∨ t.waitOut = true := by
  unfold offerCommand at h
  split at h
  · cases h
    exact resume_waits (s := { s with cmdOvr := true }) hc hb
  · rename_i hidle
    split at h
    · cases h
      exact absurd hb hidle
    · unfold executeWord at h
      split at h
      · exact exec_waits (s := accept w s) hc rfl h hb
      · cases h
        cases hb

theorem hostAccess_waits {a : HostAccess} {s t : State} (hc : s.credit = none) (h : hostAccess a s = .next t)
    (hb : t.busy = true) : t.waitIn = true ∨ t.waitOut = true := by
  cases a with
  | idle =>
    cases h
    exact resume_waits hc hb
  | rst =>
    cases h
    cases hb
  | read off =>
    cases h
    exact resume_waits (s := hostRead off s) hc hb
  | write off v =>
    simp only [hostAccess] at h
    split at h
    · exact offerCommand_waits hc h hb
    · cases h
      exact resume_waits (by simp [hc]) hb

/-- Settles O53: a command that stops has stopped at a pop or a push that cannot go on, and with no credit limit that is
for an empty IN or a full OUT. -/
theorem stepRunsUntilWaitOrEnd : Obligations.StepRunsUntilWaitOrEnd := by
  intro s t hcredit h hb
  unfold step at h
  split at h
  · cases h
    exact resume_waits rfl hb
  · rename_i hd rest hscript
    exact hostAccess_waits (s := takeStep hd rest s) (hcredit hd rest hscript) h hb

/-! ### A pause with the host pushing and popping -/

/-- `ys` in IN from the start, room in OUT for `n` bytes more, and no credit limit. -/
def aheadMap (ys : ByteSeq) (n : Nat) : EnvMap where
  ok _ := True
  map e := { e with credit := none, inFifo := e.inFifo ++ ys, outDepth := e.outDepth + n }
  pop _ _ hi := ⟨trivial, rfl, _, congrArg (· ++ ys) hi, rfl⟩
  push _ _ hp := by
    refine ⟨trivial, ?_, rfl⟩
    simp only [Env.canPush, Bool.and_eq_true, decide_eq_true_eq] at hp ⊢
    exact ⟨rfl, by omega⟩

/-- `n` bytes of OUT popped and OUT `n` bytes less deep, `d`, with the position `rest` latched. -/
def takenUpMap (d n : Nat) (rest : List Micro) : EnvMap where
  ok e := e.outDepth = d + n ∧ n ≤ e.outFifo.length
  map e := { e with outDepth := d, outFifo := e.outFifo.drop n }
  todo _ := rest
  pop h hm hi := ⟨h, hm, _, hi, rfl⟩
  push _ h hp := by
    obtain ⟨hd, hn⟩ := h
    simp only [Env.canPush, Bool.and_eq_true, decide_eq_true_eq, List.length_drop] at hp ⊢
    refine ⟨⟨hd, ?_⟩, ⟨hp.1, by omega⟩, ?_⟩
    · simp only [Env.pushed, List.length_append]
      omega
    · simp only [Env.pushed, List.drop_append_of_le_length hn]

theorem takenUpMap_transparent (d n : Nat) (rest : List Micro) : (takenUpMap d n rest).Transparent := by
  rintro e ⟨hd, hn⟩
  refine ⟨id, fun h => ?_⟩
  simp only [Env.canPush, Bool.and_eq_false_iff, decide_eq_false_iff_not, takenUpMap, List.length_drop] at h ⊢
  exact h.imp id fun h => by omega

/-- After the pops, what was left of the run served ahead has its state but for the bytes popped. -/
theorem lift_takenUpMap_eq_poppedTo {c : Config} {n : Nat} {u : State}
    (hu : u.cfg = { c with outDepth := c.outDepth + n }) (rest : List Micro) :
    { (takenUpMap c.outDepth n rest).lift u with todo := u.todo } = u.poppedTo c n := by
  have hcfg : { u.cfg with outDepth := c.outDepth } = c := by rw [hu]
  exact congrArg (fun c => u.poppedTo c n) hcfg

/-- A command that went on after the pause, against the run served ahead. -/
theorem resume_served {c : Config} {f f' : Flow} {ys : ByteSeq} {n : Nat} (h : (aheadMap ys n).Follows c f f')
    (hn : n ≤ (finish f).outFifo.length) : resume ((finish f).served ys n) = (finish f').poppedTo c n := by
  cases h with
  | done hs =>
    rw [resume_of_idle rfl, ← hs.cfg]
    rfl
  | raised hc =>
    rw [resume_of_idle rfl, ← hc]
    rfl
  | @wait s rest hs hb =>
    have hahead : (takenUpMap c.outDepth n rest).Running { c with outDepth := c.outDepth + n }
        ((aheadMap ys n).lift s) := by
      obtain ⟨rfl, hbusy, -⟩ := hs
      exact ⟨rfl, hbusy, rfl, hn⟩
    have hgoes := EnvMap.runTodo_follows rest hahead
    have hserved : (finish (.wait s rest)).served ys n =
        (takenUpMap c.outDepth n rest).lift ((aheadMap ys n).lift s) := by
      rw [← hs.cfg]
      rfl
    calc resume ((finish (.wait s rest)).served ys n)
        = finish (runTodo rest ((takenUpMap c.outDepth n rest).lift ((aheadMap ys n).lift s))) := by
          rw [hserved]
          exact resume_of_busy hs.busy
      _ = _ := hgoes.finish_eq (takenUpMap_transparent _ _ _)
      _ = (finish (runTodo rest ((aheadMap ys n).lift s))).poppedTo c n :=
          lift_takenUpMap_eq_poppedTo hgoes.finish_cfg rest

/-- A command paused from its acceptance on. -/
theorem exec_paused {i : Instr} {s t u : State} {k : Option Nat} {ys : ByteSeq} {n : Nat} (hs : s.busy = true)
    (hys : i = .abort → ys = []) (ht : exec i { s with credit := k } = .next t)
    (hu : exec i (s.servedAhead ys n) = .next u) (hn : n ≤ t.outFifo.length) :
    resume (t.served ys n) = u.poppedTo s.cfg n := by
  by_cases hi : i = .abort
  · subst hi
    obtain rfl := hys rfl
    cases ht
    cases hu
    obtain rfl : n = 0 := Nat.le_zero.1 hn
    rfl
  · obtain ⟨f, f', hf, hf', hff⟩ := EnvMap.exec_follows (M := aheadMap ys n) (c := s.cfg)
      (s := { s with credit := k }) hi ⟨rfl, hs, trivial⟩
    obtain rfl := Host.Outcome.next.inj (hf.symm.trans ht)
    obtain rfl := Host.Outcome.next.inj (hf'.symm.trans hu)
    exact resume_served hff hn

/-- A command paused after it was taken up. -/
theorem resume_paused (s : State) (ys : ByteSeq) (n : Nat) (hn : n ≤ (resume s).outFifo.length) :
    resume ((resume s).served ys n) = (resume (s.servedAhead ys n)).poppedTo s.cfg n := by
  cases hs : s.busy with
  | false =>
    rw [resume_of_idle hs, resume_of_idle (s := s.served ys n) hs, resume_of_idle (s := s.servedAhead ys n) hs]
    rfl
  | true =>
    have hff : (aheadMap ys n).Follows s.cfg (runTodo s.todo s) (runTodo s.todo (s.servedAhead ys n)) :=
      EnvMap.runTodo_follows s.todo ⟨rfl, hs, trivial⟩
    rw [resume_of_busy hs] at hn ⊢
    rw [resume_of_busy (s := s.servedAhead ys n) hs]
    exact resume_served hff hn

/-! ### What the host may change meanwhile -/

/-- Other values in the registers, flags and fields of the host's side. -/
def hostSideMap (arg : Word) (doneIe errIe cmdOvr inOvr : Bool) (script : List HostStep)
    (reads : List (BitVec 8 × Word)) (seen : Bool) : EnvMap where
  ok _ := True
  map e := { e with arg := arg, doneIe := doneIe, errIe := errIe, cmdOvr := cmdOvr, inOvr := inOvr, script := script,
                    reads := reads, statusSeen := seen }
  pop _ hm hi := ⟨trivial, hm, _, hi, rfl⟩
  push _ _ hp := ⟨trivial, hp, rfl⟩

theorem resume_withHostSide (s : State) (arg : Word) (doneIe errIe cmdOvr inOvr : Bool) (script : List HostStep)
    (reads : List (BitVec 8 × Word)) (seen : Bool) :
    resume (s.withHostSide arg doneIe errIe cmdOvr inOvr script reads seen) =
      (resume s).withHostSide arg doneIe errIe cmdOvr inOvr script reads seen := by
  cases hs : s.busy with
  | false =>
    rw [resume_of_idle hs]
    exact resume_of_idle hs
  | true =>
    have hff := EnvMap.runTodo_follows
      (M := hostSideMap arg doneIe errIe cmdOvr inOvr script reads seen) s.todo ⟨rfl, hs, trivial⟩
    rw [resume_of_busy hs]
    exact (resume_of_busy (s := s.withHostSide arg doneIe errIe cmdOvr inOvr script reads seen) hs).trans
      (hff.finish_eq fun e _ => ⟨id, id⟩)

/-- Settles O54: the run served ahead does what the paused run does up to the pause and then what is left; taken up after
the pops, what is left does the same but for the bytes popped. -/
theorem pausedCommandEndsTheSame : Obligations.PausedCommandEndsTheSame := by
  refine ⟨fun i s t u k ys n => exec_paused, fun s t k ys n ht hn => ?_, resume_withHostSide⟩
  subst ht
  exact resume_paused { s with credit := k } ys n hn

end Sys2Proof.Machine
end

section
/-! Trees in node memory (spec/10_state.md R59): the nodes under a node in pre-order, and what the code assignment
writes for them (spec/41_tree_builder.md R207, R208). -/

namespace Sys2Proof.Machine

/-! ### The subtree at a node -/

/-- The kind of node `i`, with its symbol or children; `none` where no node is valid. -/
def bodyAt (nodes : List Node) (i : Nat) : Option NodeBody := (nodes[i]?).map Node.body

/-- The subtree at node `i` is finite, and these are its nodes in pre-order. -/
inductive Subtree (nodes : List Node) : Nat → List Nat → Prop
  | leaf {i : Nat} {sym : Sym} : bodyAt nodes i = some (.leaf sym) → Subtree nodes i [i]
  | internal {i : Nat} {l r : NodeIdx} {ls rs : List Nat} : bodyAt nodes i = some (.internal l r) →
      Subtree nodes l.toNat ls → Subtree nodes r.toNat rs → Subtree nodes i (i :: (ls ++ rs))

theorem bodyAt_lt {nodes : List Node} {i : Nat} {b : NodeBody} (h : bodyAt nodes i = some b) : i < nodes.length := by
  obtain ⟨n, hn, -⟩ := Option.map_eq_some_iff.1 h
  exact (List.getElem?_eq_some_iff.1 hn).1

theorem body_nodeAt {nodes : List Node} {i : NodeIdx} {b : NodeBody} (h : bodyAt nodes i.toNat = some b) :
    (nodeAt nodes i).body = b := by
  obtain ⟨n, hn, hb⟩ := Option.map_eq_some_iff.1 h
  rw [nodeAt, hn]
  exact hb

theorem getElem?_eq_nodeAt {nodes : List Node} {i : NodeIdx} (h : i.toNat < nodes.length) :
    nodes[i.toNat]? = some (nodeAt nodes i) := by
  simp [nodeAt, h]

theorem bodyAt_nodeAt {nodes : List Node} {i : NodeIdx} (h : i.toNat < nodes.length) :
    bodyAt nodes i.toNat = some (nodeAt nodes i).body := by
  rw [bodyAt, getElem?_eq_nodeAt h, Option.map_some]

/-- A subtree is read from the kinds of its own nodes. -/
theorem Subtree.congr {nodes nodes' : List Node} {i : Nat} {is : List Nat} (h : Subtree nodes i is)
    (hb : ∀ j ∈ is, bodyAt nodes' j = bodyAt nodes j) : Subtree nodes' i is := by
  induction h with
  | leaf hi => exact .leaf ((hb _ List.mem_cons_self).trans hi)
  | internal hi _ _ ihl ihr =>
    exact .internal ((hb _ List.mem_cons_self).trans hi)
      (ihl fun j hj => hb j (List.mem_cons_of_mem _ (List.mem_append_left _ hj)))
      (ihr fun j hj => hb j (List.mem_cons_of_mem _ (List.mem_append_right _ hj)))

theorem Subtree.lt {nodes : List Node} {i : Nat} {is : List Nat} (h : Subtree nodes i is) :
    ∀ j ∈ is, j < nodes.length := by
  induction h with
  | leaf hi => exact fun j hj => List.mem_singleton.1 hj ▸ bodyAt_lt hi
  | internal hi _ _ ihl ihr =>
    intro j hj
    rcases List.mem_cons.1 hj with rfl | hj
    · exact bodyAt_lt hi
    · exact (List.mem_append.1 hj).elim (ihl j) (ihr j)

theorem Subtree.head_mem {nodes : List Node} {i : Nat} {is : List Nat} (h : Subtree nodes i is) : i ∈ is := by
  cases h <;> exact List.mem_cons_self

/-! ### Paths -/

theorem descend_leaf {nodes : List Node} {i : NodeIdx} {sym : Sym} (h : (nodeAt nodes i).body = .leaf sym) (b : Bool)
    (bs : BitSeq) : descend nodes i (b :: bs) = none := by
  rw [descend, h]

theorem descend_internal {nodes : List Node} {i l r : NodeIdx} (h : (nodeAt nodes i).body = .internal l r) (b : Bool)
    (bs : BitSeq) : descend nodes i (b :: bs) = descend nodes (if b then r else l) bs := by
  rw [descend, h]

theorem descend_append (nodes : List Node) (i : NodeIdx) (p q : BitSeq) :
    descend nodes i (p ++ q) = (descend nodes i p).bind fun j => descend nodes j q := by
  induction p generalizing i with
  | nil => rfl
  | cons b p ih =>
    rw [List.cons_append]
    cases hb : (nodeAt nodes i).body with
    | leaf sym => rw [descend_leaf hb, descend_leaf hb]; rfl
    | internal l r => rw [descend_internal hb, descend_internal hb, ih]

theorem descend_congr {nodes nodes' : List Node} (h : ∀ j, (nodeAt nodes' j).body = (nodeAt nodes j).body)
    (i : NodeIdx) (p : BitSeq) : descend nodes' i p = descend nodes i p := by
  induction p generalizing i with
  | nil => rfl
  | cons b p ih =>
    rw [descend, descend, h]
    cases (nodeAt nodes i).body with
    | leaf sym => rfl
    | internal l r => exact ih _

/-- Each INTERNAL node on a path leaves a node aside, so a path has fewer than half as many bits as there are nodes. -/
theorem Subtree.path_length {nodes : List Node} {i : NodeIdx} {is : List Nat} (h : Subtree nodes i.toNat is)
    {p : BitSeq} {j : NodeIdx} (hp : descend nodes i p = some j) : 2 * p.length < is.length := by
  induction p generalizing i is with
  | nil => cases h <;> simp
  | cons b p ih =>
    cases h with
    | leaf hi => rw [descend_leaf (body_nodeAt hi)] at hp; cases hp
    | internal hi hl hr =>
      rw [descend_internal (body_nodeAt hi)] at hp
      have hlpos := List.length_pos_of_mem hl.head_mem
      have hrpos := List.length_pos_of_mem hr.head_mem
      simp only [List.length_cons, List.length_append]
      cases b with
      | false => have := ih hl hp; omega
      | true => have := ih hr hp; omega

/-! ### What the code assignment writes -/

/-- No two valid leaves have the same symbol. -/
def DistinctLeaves (nodes : List Node) : Prop :=
  ∀ (j k : NodeIdx) (sym : Sym), j.toNat < nodes.length → k.toNat < nodes.length →
    (nodeAt nodes j).body = .leaf sym → (nodeAt nodes k).body = .leaf sym → j = k

/-- What the traversal of R208 from node `i`, whose code is `code`, makes of node memory and CT, where `is` are the
nodes under `i`. -/
structure Coded (nodes : List Node) (i : NodeIdx) (code : BitSeq) (is : List Nat)
    (before after : List Node × SymMap CtEntry) : Prop where
  freq      : ∀ j, (nodeAt after.1 j).freq = (nodeAt before.1 j).freq
  elsewhere : ∀ j : NodeIdx, j.toNat ∉ is → nodeAt after.1 j = nodeAt before.1 j
  code      : ∀ j : NodeIdx, j.toNat ∈ is → ∃ p, descend nodes i p = some j ∧ (nodeAt after.1 j).code = code ++ p
  leaf      : ∀ (j : NodeIdx) (sym : Sym), j.toNat ∈ is → (nodeAt nodes j).body = .leaf sym →
                symLookup after.2 sym = some { code := (nodeAt after.1 j).code, freq := (nodeAt after.1 j).freq }
  noLeaf    : ∀ sym, (∀ j : NodeIdx, j.toNat ∈ is → (nodeAt nodes j).body ≠ .leaf sym) →
                symLookup after.2 sym = symLookup before.2 sym

theorem nodeAt_setCode_ne {i j : NodeIdx} (h : j ≠ i) (nodes : List Node) (code : BitSeq) :
    nodeAt (setCode nodes i code) j = nodeAt nodes j := by
  have : ¬ i.toNat = j.toNat := fun h' => h (BitVec.eq_of_toNat_eq h'.symm)
  simp [nodeAt, setCode, this]

theorem code_nodeAt_setCode {nodes : List Node} {i : NodeIdx} (h : i.toNat < nodes.length) (code : BitSeq) :
    (nodeAt (setCode nodes i code) i).code = code := by
  simp [nodeAt, setCode, h]

theorem bodyAt_setCode (nodes : List Node) (i : NodeIdx) (code : BitSeq) (j : Nat) :
    bodyAt (setCode nodes i code) j = bodyAt nodes j := by
  unfold bodyAt setCode
  rw [List.getElem?_modify]
  split <;> cases nodes[j]? <;> rfl

theorem bodyAt_assignFrom (fuel : Nat) (i : NodeIdx) (code : BitSeq) (nodes : List Node) (ct : SymMap CtEntry)
    (j : Nat) : bodyAt (assignFrom fuel i code (nodes, ct)).1 j = bodyAt nodes j := by
  induction fuel generalizing i code nodes ct with
  | zero => rfl
  | succ fuel ih =>
    rw [assignFrom]
    split
    · exact bodyAt_setCode _ _ _ _
    · exact (ih _ _ _ _).trans ((ih _ _ _ _).trans (bodyAt_setCode _ _ _ _))

/-- At a leaf the traversal writes its code and its CT entry. -/
theorem coded_leaf {nodes ns : List Node} {i : NodeIdx} {sym : Sym} (hi : bodyAt nodes i.toNat = some (.leaf sym))
    (hns : ∀ j, bodyAt ns j = bodyAt nodes j) (code : BitSeq) (ct : SymMap CtEntry) :
    Coded nodes i code [i.toNat] (ns, ct)
      (setCode ns i code, symInsert ct sym { code := code, freq := (nodeAt (setCode ns i code) i).freq }) := by
  have hcode : (nodeAt (setCode ns i code) i).code = code := code_nodeAt_setCode (bodyAt_lt ((hns _).trans hi)) code
  have hbody : (nodeAt nodes i).body = .leaf sym := body_nodeAt hi
  have hat {j : NodeIdx} (hj : j.toNat ∈ [i.toNat]) : j = i := BitVec.eq_of_toNat_eq (List.mem_singleton.1 hj)
  refine ⟨fun j => nodeAt_setCode_freq _ _ j _, fun j hj => ?_, fun j hj => ?_, fun j sym' hj hs => ?_,
    fun sym' hs => ?_⟩
  · exact nodeAt_setCode_ne (fun h => hj (by rw [h]; exact List.mem_cons_self)) _ _
  · obtain rfl := hat hj
    exact ⟨[], rfl, by rw [hcode, List.append_nil]⟩
  · obtain rfl := hat hj
    rw [hbody] at hs
    cases hs
    rw [hcode]
    exact symLookup_symInsert_same _ _ _
  · exact symLookup_symInsert_other _ _ fun h => hs i List.mem_cons_self (h ▸ hbody)

/-- At an INTERNAL node it writes the node's code, and then goes through the left and the right subtree. -/
theorem coded_internal {nodes ns : List Node} {i l r : NodeIdx} {ls rs : List Nat} {code : BitSeq}
    {ct : SymMap CtEntry} {m₁ m₂ : List Node × SymMap CtEntry} (hi : bodyAt nodes i.toNat = some (.internal l r))
    (hns : ∀ j, bodyAt ns j = bodyAt nodes j) (hd : DistinctLeaves nodes) (hl : Subtree nodes l.toNat ls)
    (hr : Subtree nodes r.toNat rs) (hnd : (i.toNat :: (ls ++ rs)).Nodup)
    (h₁ : Coded nodes l (code ++ [false]) ls (setCode ns i code, ct) m₁)
    (h₂ : Coded nodes r (code ++ [true]) rs m₁ m₂) : Coded nodes i code (i.toNat :: (ls ++ rs)) (ns, ct) m₂ := by
  have hbody : (nodeAt nodes i).body = .internal l r := body_nodeAt hi
  obtain ⟨hnot, hnd⟩ := List.nodup_cons.1 hnd
  have hdisj {j : Nat} (hjl : j ∈ ls) (hjr : j ∈ rs) : False := List.disjoint_of_nodup_append hnd hjl hjr
  have hfreq (j : NodeIdx) : (nodeAt m₂.1 j).freq = (nodeAt ns j).freq :=
    (h₂.freq j).trans ((h₁.freq j).trans (nodeAt_setCode_freq _ _ _ _))
  refine ⟨hfreq, fun j hj => ?_, fun j hj => ?_, fun j sym hj hs => ?_, fun sym hs => ?_⟩
  · simp only [List.mem_cons, List.mem_append, not_or] at hj
    obtain ⟨hji, hjl, hjr⟩ := hj
    rw [h₂.elsewhere j hjr, h₁.elsewhere j hjl]
    exact nodeAt_setCode_ne (fun h => hji (congrArg BitVec.toNat h)) _ _
  · simp only [List.mem_cons, List.mem_append] at hj
    rcases hj with hj | hj | hj
    · obtain rfl := BitVec.eq_of_toNat_eq hj
      rw [List.mem_append, not_or] at hnot
      refine ⟨[], rfl, ?_⟩
      rw [h₂.elsewhere j hnot.2, h₁.elsewhere j hnot.1, List.append_nil]
      exact code_nodeAt_setCode (bodyAt_lt ((hns _).trans hi)) _
    · obtain ⟨p, hp, hc⟩ := h₁.code j hj
      refine ⟨false :: p, (descend_internal hbody _ _).trans hp, ?_⟩
      rw [h₂.elsewhere j (hdisj hj), hc, List.append_assoc, List.singleton_append]
    · obtain ⟨p, hp, hc⟩ := h₂.code j hj
      refine ⟨true :: p, (descend_internal hbody _ _).trans hp, ?_⟩
      rw [hc, List.append_assoc, List.singleton_append]
  · simp only [List.mem_cons, List.mem_append] at hj
    rcases hj with hj | hj | hj
    · rw [BitVec.eq_of_toNat_eq hj, hbody] at hs
      cases hs
    · rw [h₂.noLeaf sym fun k hk hks => ?_, h₂.elsewhere j (hdisj hj)]
      · exact h₁.leaf j sym hj hs
      · exact hdisj hj (hd j k sym (hl.lt _ hj) (hr.lt _ hk) hs hks ▸ hk)
    · exact h₂.leaf j sym hj hs
  · rw [h₂.noLeaf sym fun j hj => hs j (by simp [hj]), h₁.noLeaf sym fun j hj => hs j (by simp [hj])]

/-- The traversal codes every node under `i`, where the fuel is enough for as many nodes. -/
theorem assignFrom_coded {nodes : List Node} (hd : DistinctLeaves nodes) {k : Nat} {is : List Nat}
    (h : Subtree nodes k is) :
    ∀ (fuel : Nat) (i : NodeIdx) (code : BitSeq) (ns : List Node) (ct : SymMap CtEntry), i.toNat = k →
      is.length ≤ fuel → is.Nodup → (∀ j, bodyAt ns j = bodyAt nodes j) →
      Coded nodes i code is (ns, ct) (assignFrom fuel i code (ns, ct)) := by
  induction h with
  | leaf hi =>
    rintro (_ | fuel) i code ns ct rfl hf - hns
    · simp at hf
    · have hat : (nodeAt (setCode ns i code) i).body = _ :=
        body_nodeAt ((bodyAt_setCode _ _ _ _).trans ((hns _).trans hi))
      simp only [assignFrom, hat]
      exact coded_leaf hi hns code ct
  | @internal k l r ls rs hi hl hr ihl ihr =>
    rintro (_ | fuel) i code ns ct rfl hf hnd hns
    · simp at hf
    · have hat : (nodeAt (setCode ns i code) i).body = _ :=
        body_nodeAt ((bodyAt_setCode _ _ _ _).trans ((hns _).trans hi))
      have hns₁ (j : Nat) : bodyAt (setCode ns i code) j = bodyAt nodes j := (bodyAt_setCode _ _ _ _).trans (hns j)
      obtain ⟨hndl, hndr, -⟩ := List.nodup_append.1 (List.nodup_cons.1 hnd).2
      simp only [List.length_cons, List.length_append] at hf
      simp only [assignFrom, hat]
      exact coded_internal hi hns hd hl hr hnd (ihl fuel l _ _ _ rfl (by omega) hndl hns₁)
        (ihr fuel r _ _ _ rfl (by omega) hndr fun j => (bodyAt_assignFrom _ _ _ _ _ _).trans (hns₁ j))

/-! ### The code table of a tree -/

/-- Node memory holds a tree: every valid node is under the root once, and no two leaves have the same symbol. -/
structure IsTree (nodes : List Node) (root : NodeIdx) : Prop where
  span     : ∃ is, Subtree nodes root.toNat is ∧ is.Perm (List.range nodes.length)
  distinct : DistinctLeaves nodes

/-- The code a root has (R207). -/
def rootCode : NodeBody → BitSeq
  | .leaf _ => [false]
  | .internal _ _ => []

theorem assignCodes_of_present {s : State} (h : s.tstate = .present) :
    assignCodes s =
      { s with nodes := (assignFrom s.ncount s.root (rootCode (s.node s.root).body) (s.nodes, [])).1
               ct := (assignFrom s.ncount s.root (rootCode (s.node s.root).body) (s.nodes, [])).2 } := by
  unfold assignCodes
  rw [h]
  dsimp only
  cases (s.node s.root).body <;> rfl

theorem assignCodes_coded {s : State} (h : s.tstate = .present) (ht : IsTree s.nodes s.root) :
    ∃ is, is.Perm (List.range s.nodes.length) ∧ Subtree s.nodes s.root.toNat is ∧
      Coded s.nodes s.root (rootCode (s.node s.root).body) is (s.nodes, [])
        ((assignCodes s).nodes, (assignCodes s).ct) := by
  obtain ⟨is, hsub, hperm⟩ := ht.span
  refine ⟨is, hperm, hsub, ?_⟩
  rw [assignCodes_of_present h]
  exact assignFrom_coded ht.distinct hsub _ _ _ _ _ rfl (by rw [hperm.length_eq, List.length_range]; exact le_rfl)
    (hperm.nodup_iff.2 List.nodup_range) fun _ => rfl

theorem codeOf_of_leaf {s : State} {sym : Sym} (h : (s.node s.root).body = .leaf sym) (code : BitSeq) (i : NodeIdx) :
    CodeOf s code i ↔ i = s.root ∧ code = [false] := by
  rw [CodeOf, h]

theorem codeOf_of_internal {s : State} {l r : NodeIdx} (h : (s.node s.root).body = .internal l r) (code : BitSeq)
    (i : NodeIdx) : CodeOf s code i ↔ descend s.nodes s.root code = some i := by
  rw [CodeOf, h]

/-- Every node's code is its path, or `[0]` for a root that is a LEAF (R207). -/
theorem codeOf_assignCodes {s : State} (h : s.tstate = .present) (ht : IsTree s.nodes s.root) {i : NodeIdx}
    (hi : i.toNat < s.nodes.length) : CodeOf (assignCodes s) ((assignCodes s).node i).code i := by
  obtain ⟨is, hperm, -, hc⟩ := assignCodes_coded h ht
  obtain ⟨-, hroot, -⟩ := assignCodes_tree s
  have hrb : ((assignCodes s).node (assignCodes s).root).body = (s.node s.root).body := by
    rw [hroot]
    exact assignCodes_body s s.root
  obtain ⟨p, hp, hcode⟩ := hc.code i (hperm.mem_iff.2 (List.mem_range.2 hi))
  change ((assignCodes s).node i).code = _ at hcode
  cases hb : (s.node s.root).body with
  | leaf sym =>
    rw [codeOf_of_leaf (hrb.trans hb), hcode, hb, hroot]
    cases p with
    | nil => exact ⟨(Option.some.inj hp).symm, rfl⟩
    | cons b p => rw [descend_leaf hb] at hp; cases hp
  | internal l r =>
    rw [codeOf_of_internal (hrb.trans hb), hcode, hb, hroot, descend_congr (assignCodes_body s)]
    exact hp

/-- A tree of at most `2n - 1` nodes gives codes of at most `n - 1` bits, or the one bit of a root that is a LEAF. -/
theorem codeOf_length_le {s : State} {is : List Nat} (hsub : Subtree s.nodes s.root.toNat is) {n : Nat}
    (hn : is.length ≤ 2 * n - 1) {code : BitSeq} {i : NodeIdx} (hc : CodeOf s code i) :
    code.length ≤ max 1 (n - 1) := by
  cases hb : (s.node s.root).body with
  | leaf sym =>
    obtain ⟨-, rfl⟩ := (codeOf_of_leaf hb _ _).1 hc
    exact le_max_left _ _
  | internal l r =>
    have := hsub.path_length ((codeOf_of_internal hb _ _).1 hc)
    omega

theorem codeOf_ne_nil {s : State} {code : BitSeq} {i : NodeIdx} {sym : Sym} (hi : (s.node i).body = .leaf sym)
    (hc : CodeOf s code i) : code ≠ [] := by
  rintro rfl
  cases hb : (s.node s.root).body with
  | leaf _ => exact absurd ((codeOf_of_leaf hb _ _).1 hc).2 (List.cons_ne_nil _ _).symm
  | internal l r =>
    obtain rfl := Option.some.inj ((codeOf_of_internal hb _ _).1 hc)
    rw [hb] at hi
    cases hi

/-- A leaf's code begins no other leaf's: no path goes on from a leaf (R209). -/
theorem codeOf_begins_no_other {s : State} {c d : BitSeq} {i j : NodeIdx} {sym : Sym} (hi : (s.node i).body = .leaf sym)
    (hc : CodeOf s c i) (hd : CodeOf s d j) (hp : c <+: d) : j = i := by
  cases hb : (s.node s.root).body with
  | leaf _ => exact ((codeOf_of_leaf hb _ _).1 hd).1.trans ((codeOf_of_leaf hb _ _).1 hc).1.symm
  | internal l r =>
    obtain ⟨e, rfl⟩ := hp
    have hd' := (codeOf_of_internal hb _ _).1 hd
    rw [descend_append, (codeOf_of_internal hb _ _).1 hc, Option.bind_some] at hd'
    cases e with
    | nil => exact (Option.some.inj hd').symm
    | cons b e => rw [descend_leaf hi] at hd'; cases hd'

/-- The codes of the leaves of a tree of at most `2n - 1` nodes have 1 to `max(1, n - 1)` bits. -/
theorem assignCodes_code_bounds {s : State} (h : s.tstate = .present) (ht : IsTree s.nodes s.root) {n : Nat}
    (hn : s.nodes.length ≤ 2 * n - 1) {i : NodeIdx} (hi : i.toNat < s.nodes.length) {sym : Sym}
    (hb : (s.node i).body = .leaf sym) :
    ((assignCodes s).node i).code ≠ [] ∧ ((assignCodes s).node i).code.length ≤ max 1 (n - 1) := by
  obtain ⟨is, hsub, hperm⟩ := ht.span
  obtain ⟨-, hroot, -⟩ := assignCodes_tree s
  have hc := codeOf_assignCodes h ht hi
  have hsub' : Subtree (assignCodes s).nodes (assignCodes s).root.toNat is := by
    rw [hroot]
    refine hsub.congr fun j _ => ?_
    rw [assignCodes_of_present h]
    exact bodyAt_assignFrom _ _ _ _ _ _
  refine ⟨codeOf_ne_nil ((assignCodes_body s i).trans hb) hc, codeOf_length_le hsub' ?_ hc⟩
  rwa [hperm.length_eq, List.length_range]

/-- After the code assignment a symbol is in CT exactly where a leaf has it, with that leaf's code and frequency. -/
theorem assignCodes_ctRead {s : State} (h : s.tstate = .present) (ht : IsTree s.nodes s.root) (sym : Sym)
    (e : CtEntry) :
    (assignCodes s).ctRead sym = some e ↔
      ∃ i : NodeIdx, i.toNat < s.nodes.length ∧ (s.node i).body = .leaf sym ∧
        e = { code := ((assignCodes s).node i).code, freq := ((assignCodes s).node i).freq } := by
  obtain ⟨is, hperm, -, hc⟩ := assignCodes_coded h ht
  have hmem (i : NodeIdx) : i.toNat ∈ is ↔ i.toNat < s.nodes.length := hperm.mem_iff.trans List.mem_range
  constructor
  · intro he
    by_cases hex : ∃ i : NodeIdx, i.toNat ∈ is ∧ (s.node i).body = .leaf sym
    · obtain ⟨i, hi, hb⟩ := hex
      exact ⟨i, (hmem i).1 hi, hb, (Option.some.inj ((hc.leaf i sym hi hb).symm.trans he)).symm⟩
    · have hnone : (assignCodes s).ctRead sym = none := hc.noLeaf sym fun i hi hb => hex ⟨i, hi, hb⟩
      rw [hnone] at he
      cases he
  · rintro ⟨i, hi, hb, rfl⟩
    exact hc.leaf i sym ((hmem i).2 hi) hb

/-- The code assignment of a tree makes the CT of R60, R207 and R209. -/
theorem ctInv_assignCodes {s : State} (h : s.tstate = .present) (ht : IsTree s.nodes s.root)
    (hcap : s.nodes.length ≤ s.cfg.nodeCap) : CtInv (assignCodes s) := by
  obtain ⟨hts, hroot, hcfg⟩ := assignCodes_tree s
  have hlen : (assignCodes s).ncount = s.nodes.length := assignCodes_ncount s
  have hbody (i : NodeIdx) : ((assignCodes s).node i).body = (s.node i).body := assignCodes_body s i
  have hread (sym : Sym) (e : CtEntry) (he : (assignCodes s).ctRead sym = some e) :
      ∃ i : NodeIdx, i.toNat < s.nodes.length ∧ ((assignCodes s).node i).body = .leaf sym ∧
        e = { code := ((assignCodes s).node i).code, freq := ((assignCodes s).node i).freq } ∧
        CodeOf (assignCodes s) e.code i := by
    obtain ⟨i, hi, hb, rfl⟩ := (assignCodes_ctRead h ht sym e).1 he
    exact ⟨i, hi, (hbody i).trans hb, rfl, codeOf_assignCodes h ht hi⟩
  refine ⟨assignCodes_ct_ascending s, fun sym e he => ?_, fun sym e he => ?_, fun a b ea eb hab ha hb hp => ?_,
    fun sym e he => ?_, fun i sym _ hi hb => ?_⟩
  · obtain ⟨i, hi, hb, rfl, -⟩ := hread sym e he
    exact (assignCodes_code_bounds h ht hcap hi ((hbody i).symm.trans hb)).1
  · obtain ⟨i, hi, hb, rfl, -⟩ := hread sym e he
    rw [hcfg]
    exact (assignCodes_code_bounds h ht hcap hi ((hbody i).symm.trans hb)).2
  · obtain ⟨i, -, hi, -, hci⟩ := hread a ea ha
    obtain ⟨j, -, hj, -, hcj⟩ := hread b eb hb
    obtain rfl := codeOf_begins_no_other hi hci hcj hp
    rw [hi] at hj
    cases hj
    exact hab rfl
  · obtain ⟨i, hi, hb, rfl, hc⟩ := hread sym e he
    exact ⟨hts.trans h, i, hlen.symm ▸ hi, hb, rfl, rfl, hc⟩
  · exact (assignCodes_ctRead h ht sym _).2 ⟨i, hlen ▸ hi, (hbody i).symm.trans hb, rfl⟩

end Sys2Proof.Machine
end

section
/-! The tree that `build()` makes (spec/41_tree_builder.md R203 to R206): the merge keeps a forest whose trees have
every node once, and its leaves are the keys of FT. -/

namespace Sys2Proof.Machine

/-! ### Keys in ascending order -/

theorem symAscending_iff_pairwise {α : Type} {m : SymMap α} :
    symAscending m = true ↔ m.Pairwise fun a b => a.1.toNat < b.1.toNat := by
  induction m with
  | nil => simp [symAscending]
  | cons e m ih => rw [symAscending_cons, List.pairwise_cons, ih]

/-- In canonical form every listed entry is what a read gives. -/
theorem symLookup_of_mem {α : Type} {m : SymMap α} (h : symAscending m = true) {sym : Sym} {v : α}
    (hm : (sym, v) ∈ m) : symLookup m sym = some v := by
  induction m with
  | nil => cases hm
  | cons e m ih =>
    obtain ⟨k, w⟩ := e
    obtain ⟨hk, hm'⟩ := symAscending_cons.1 h
    rw [symLookup]
    rcases List.mem_cons.1 hm with hm | hm
    · cases hm
      rw [if_pos rfl]
    · rw [if_neg fun hks => absurd (hk _ hm) (by rw [hks]; exact Nat.lt_irrefl _)]
      exact ih hm' hm

/-- In canonical form a symbol is a key once. -/
theorem key_index_unique {α : Type} {m : SymMap α} (h : symAscending m = true) {j k : Nat} {sym : Sym} {v w : α}
    (hj : m[j]? = some (sym, v)) (hk : m[k]? = some (sym, w)) : j = k := by
  have hp := List.pairwise_iff_getElem.1 (symAscending_iff_pairwise.1 h)
  obtain ⟨hjl, hj⟩ := List.getElem?_eq_some_iff.1 hj
  obtain ⟨hkl, hk⟩ := List.getElem?_eq_some_iff.1 hk
  rcases Nat.lt_trichotomy j k with hlt | heq | hgt
  · have := hp j k hjl hkl hlt
    rw [hj, hk] at this
    exact absurd this (Nat.lt_irrefl _)
  · exact heq
  · have := hp k j hkl hjl hgt
    rw [hj, hk] at this
    exact absurd this (Nat.lt_irrefl _)

/-! ### The merge -/

theorem mergeLoop_step {w : List Key} {a b : Key} (ha : popMin w = some (a, w.erase a))
    (hb : popMin (w.erase a) = some (b, (w.erase a).erase b)) (fuel : Nat) (nodes : List Node) :
    mergeLoop (fuel + 1) w nodes =
      mergeLoop fuel ((w.erase a).erase b ++ [{ freq := a.freq + b.freq, idx := BitVec.ofNat 16 nodes.length }])
        (nodes ++ [{ freq := a.freq + b.freq, body := .internal a.idx b.idx, code := [] }]) := by
  rw [mergeLoop, ha]
  dsimp only
  rw [hb]

/-- The merge adds INTERNAL nodes behind the nodes it starts from. -/
theorem mergeLoop_append (fuel : Nat) (w : List Key) (nodes : List Node) :
    ∃ more, (mergeLoop fuel w nodes).2 = nodes ++ more ∧ ∀ n ∈ more, ∀ sym, n.body ≠ .leaf sym := by
  have hnone : ∃ more, nodes = nodes ++ more ∧ ∀ n ∈ more, ∀ sym, n.body ≠ .leaf sym :=
    ⟨[], (List.append_nil _).symm, fun _ hn => absurd hn List.not_mem_nil⟩
  induction fuel generalizing w nodes with
  | zero => exact hnone
  | succ fuel ih =>
    rw [mergeLoop]
    split
    · exact hnone
    · split
      · exact hnone
      · rename_i a w₁ _ _ b w₂ _
        obtain ⟨more, h, hm⟩ := ih (w₂ ++ [{ freq := a.freq + b.freq, idx := BitVec.ofNat 16 nodes.length }])
          (nodes ++ [{ freq := a.freq + b.freq, body := .internal a.idx b.idx, code := [] }])
          ⟨[], (List.append_nil _).symm, fun _ hn => absurd hn List.not_mem_nil⟩
        refine ⟨_ :: more, h.trans (List.append_assoc _ _ _), fun n hn => ?_⟩
        rcases List.mem_cons.1 hn with rfl | hn
        · exact fun _ => NodeBody.noConfusion
        · exact hm n hn

/-- The trees of a working collection, `span i` being the nodes of the tree at node `i`, have every node once. -/
structure Forest (nodes : List Node) (w : List Key) (span : NodeIdx → List Nat) : Prop where
  tree  : ∀ k ∈ w, Subtree nodes k.idx.toNat (span k.idx)
  cover : (w.flatMap fun k => span k.idx).Perm (List.range nodes.length)

theorem bodyAt_append_of_lt {nodes : List Node} {j : Nat} (h : j < nodes.length) (more : List Node) :
    bodyAt (nodes ++ more) j = bodyAt nodes j := by
  rw [bodyAt, bodyAt, List.getElem?_append_left h]

theorem bodyAt_append_length (nodes : List Node) (n : Node) : bodyAt (nodes ++ [n]) nodes.length = some n.body := by
  simp [bodyAt]

theorem Subtree.append {nodes : List Node} {i : Nat} {is : List Nat} (h : Subtree nodes i is) (more : List Node) :
    Subtree (nodes ++ more) i is :=
  h.congr fun j hj => bodyAt_append_of_lt (h.lt j hj) more

/-- Putting two trees of the collection under a new node keeps it a forest. -/
theorem Forest.merge {nodes : List Node} {w rest : List Key} {a b : Key} {span : NodeIdx → List Nat}
    (h : Forest nodes w span) (hw : w.Perm (a :: b :: rest)) (hn : nodes.length < 2 ^ 16) (f f' : Word) :
    ∃ span', Forest (nodes ++ [{ freq := f, body := .internal a.idx b.idx, code := [] }])
      (rest ++ [{ freq := f', idx := BitVec.ofNat 16 nodes.length }]) span' := by
  have hidx : (BitVec.ofNat 16 nodes.length).toNat = nodes.length := Nat.mod_eq_of_lt hn
  have ha := h.tree a (hw.mem_iff.2 List.mem_cons_self)
  have hb := h.tree b (hw.mem_iff.2 (List.mem_cons_of_mem _ List.mem_cons_self))
  have hrest (k : Key) (hk : k ∈ rest) :
      k.idx ≠ BitVec.ofNat 16 nodes.length ∧ Subtree nodes k.idx.toNat (span k.idx) := by
    have ht := h.tree k (hw.mem_iff.2 (List.mem_cons_of_mem _ (List.mem_cons_of_mem _ hk)))
    refine ⟨fun he => ?_, ht⟩
    have := ht.lt _ ht.head_mem
    rw [he, hidx] at this
    exact Nat.lt_irrefl _ this
  refine ⟨Function.update span (BitVec.ofNat 16 nodes.length) (nodes.length :: (span a.idx ++ span b.idx)), ?_, ?_⟩
  · intro k hk
    rcases List.mem_append.1 hk with hk | hk
    · rw [Function.update_of_ne (hrest k hk).1]
      exact (hrest k hk).2.append _
    · obtain rfl := List.mem_singleton.1 hk
      rw [Function.update_self, hidx]
      exact .internal (bodyAt_append_length _ _) (ha.append _) (hb.append _)
  · have hold : (rest.flatMap fun k => Function.update span (BitVec.ofNat 16 nodes.length)
        (nodes.length :: (span a.idx ++ span b.idx)) k.idx) = rest.flatMap fun k => span k.idx :=
      List.flatMap_congr fun k hk => Function.update_of_ne (hrest k hk).1 _ _
    have hcover := (hw.flatMap_right fun k => span k.idx).symm.trans h.cover
    rw [List.flatMap_append, hold, List.flatMap_singleton, Function.update_self, List.length_append,
      List.length_singleton, List.range_succ]
    calc rest.flatMap (fun k => span k.idx) ++ nodes.length :: (span a.idx ++ span b.idx)
      _ |>.Perm (nodes.length :: (span a.idx ++ span b.idx) ++ rest.flatMap fun k => span k.idx) :=
        List.perm_append_comm
      _ |>.Perm (nodes.length :: List.range nodes.length) := by
        simpa only [List.cons_append, List.append_assoc, List.flatMap_cons] using hcover.cons nodes.length
      _ |>.Perm (List.range nodes.length ++ [nodes.length]) := (List.perm_append_singleton _ _).symm

/-- Merging a forest of `m + 1` trees ends with one tree. -/
theorem mergeLoop_tree :
    ∀ (m fuel : Nat) (w : List Key) (nodes : List Node) (span : NodeIdx → List Nat), w.length = m + 1 → m < fuel →
      nodes.length + m ≤ 2 ^ 16 → Forest nodes w span →
      ∃ is, Subtree (mergeLoop fuel w nodes).2 (mergeLoop fuel w nodes).1.toNat is ∧
        is.Perm (List.range (mergeLoop fuel w nodes).2.length) := by
  intro m
  induction m with
  | zero =>
    intro fuel w nodes span hw hf _ h
    obtain ⟨fuel, rfl⟩ : ∃ g, fuel = g + 1 := ⟨fuel - 1, by omega⟩
    obtain ⟨a, rfl⟩ := List.length_eq_one_iff.1 hw
    have hcover := h.cover
    rw [List.flatMap_singleton] at hcover
    simpa [mergeLoop, popMin] using ⟨_, h.tree a List.mem_cons_self, hcover⟩
  | succ m ih =>
    intro fuel w nodes span hw hf hn h
    obtain ⟨fuel, rfl⟩ : ∃ g, fuel = g + 1 := ⟨fuel - 1, by omega⟩
    obtain ⟨a, ha, ea⟩ := popMin_some (w := w) (by rintro rfl; simp at hw)
    have hl₁ : (w.erase a).length = m + 1 := by rw [List.length_erase_of_mem ha, hw]; rfl
    obtain ⟨b, hb, eb⟩ := popMin_some (w := w.erase a) (by intro h; rw [h] at hl₁; simp at hl₁)
    have hl₂ : ((w.erase a).erase b).length = m := by rw [List.length_erase_of_mem hb, hl₁]; rfl
    have hperm : w.Perm (a :: b :: (w.erase a).erase b) :=
      (List.perm_cons_erase ha).trans ((List.perm_cons_erase hb).cons a)
    obtain ⟨span', h'⟩ := h.merge hperm (by omega) (a.freq + b.freq) (a.freq + b.freq)
    rw [mergeLoop_step ea eb]
    exact ih fuel _ _ span' (by simp [hl₂]) (by omega) (by rw [List.length_append, List.length_singleton]; omega) h'

/-! ### The tree of a frequency table -/

/-- The root and the nodes that the merge of a table's leaves gives. -/
def merged (ft : SymMap Word) : NodeIdx × List Node :=
  mergeLoop (leavesOf ft).length (keysOf (leavesOf ft)) (leavesOf ft)

/-- The state of `build()` before its code assignment, with a key in FT. -/
def State.mergedTree (s : State) : State :=
  { s with tstate := .present, ct := [], nodes := (merged s.ft).2, root := (merged s.ft).1 }

theorem build_eq_mergedTree {s : State} (h : s.ft ≠ []) : build s = assignCodes s.mergedTree := build_of_ft_ne_nil s h

theorem build_of_ft_nil {s : State} (h : s.ft = []) : build s = { treeClear s with tstate := .absent } := by
  rw [build, h]

/-- The keys of FT are the first nodes, at their places in it and with their counts (R203). -/
theorem merged_of_key {ft : SymMap Word} {j : Nat} {e : Sym × Word} (he : ft[j]? = some e) :
    (merged ft).2[j]? = some { freq := e.2, body := .leaf e.1, code := [] } := by
  obtain ⟨more, hmore, -⟩ := mergeLoop_append (leavesOf ft).length (keysOf (leavesOf ft)) (leavesOf ft)
  have hat : (leavesOf ft)[j]? = some { freq := e.2, body := .leaf e.1, code := [] } := by
    rw [leavesOf, List.getElem?_map, he]
    rfl
  rw [merged, hmore, List.getElem?_append_left (List.getElem?_eq_some_iff.1 hat).1, hat]

/-- Every LEAF is the key of FT at its place. -/
theorem key_of_merged_leaf {ft : SymMap Word} {j : Nat} {n : Node} {sym : Sym} (hn : (merged ft).2[j]? = some n)
    (hb : n.body = .leaf sym) : ft[j]? = some (sym, n.freq) := by
  cases he : ft[j]? with
  | some e =>
    obtain rfl := Option.some.inj ((merged_of_key he).symm.trans hn)
    cases hb
    rfl
  | none =>
    obtain ⟨more, hmore, hint⟩ := mergeLoop_append (leavesOf ft).length (keysOf (leavesOf ft)) (leavesOf ft)
    have hj : (leavesOf ft).length ≤ j := by rw [leavesOf, List.length_map]; exact List.getElem?_eq_none_iff.1 he
    rw [merged, hmore, List.getElem?_append_right hj] at hn
    exact absurd hb (hint n (List.mem_of_getElem? hn) sym)

theorem forest_leaves {ft : SymMap Word} (h : ft.length ≤ 2 ^ 16) :
    Forest (leavesOf ft) (keysOf (leavesOf ft)) fun i => [i.toNat] := by
  have hlen : (leavesOf ft).length = ft.length := List.length_map _
  constructor
  · intro k hk
    have hlt := keysOf_idx (hlen ▸ h) hk
    refine .leaf (sym := (ft[k.idx.toNat]'(hlen ▸ hlt)).1) ?_
    simp [bodyAt, leavesOf, List.getElem?_eq_getElem (hlen ▸ hlt)]
  · rw [← List.map_eq_flatMap]
    refine .of_eq (List.ext_getElem (by simp [keysOf]) fun i h₁ h₂ => ?_)
    have hi : i < 2 ^ 16 := by rw [List.length_range, hlen] at h₂; omega
    simpa [keysOf] using hi

/-- The merge makes one tree of a table in canonical form (R205, R206). -/
theorem isTree_merged {ft : SymMap Word} (h : ft ≠ []) (hlen : ft.length ≤ 2 ^ 15) (hasc : symAscending ft = true) :
    IsTree (merged ft).2 (merged ft).1 := by
  have hl : (leavesOf ft).length = ft.length := List.length_map _
  have hpos : 0 < ft.length := List.length_pos_iff.2 h
  refine ⟨mergeLoop_tree (ft.length - 1) _ _ _ _ (by rw [length_keysOf]; omega) (by omega) (by omega)
    (forest_leaves (by omega)), fun j k sym hj hk hbj hbk => ?_⟩
  have hleaf {i : NodeIdx} (hi : i.toNat < (merged ft).2.length) (hb : (nodeAt (merged ft).2 i).body = .leaf sym) :
      ft[i.toNat]? = some (sym, (nodeAt (merged ft).2 i).freq) :=
    key_of_merged_leaf (getElem?_eq_nodeAt hi) hb
  exact BitVec.eq_of_toNat_eq (key_index_unique hasc (hleaf hj hbj) (hleaf hk hbk))

end Sys2Proof.Machine
end

section
/-! The tree that `deserialize` makes (spec/42_tree_serializer.md R256): the parser numbers the nodes in pre-order, so
the nodes of a subtree that is read are an interval, and the stack holds the nodes whose subtrees are still open. -/

namespace Sys2Proof.Machine

open List (Ico)

/-! ### What placing a node changes -/

theorem bodyAt_setChild_ne {p : OpenNode} {j : Nat} (h : j ≠ p.idx) (nodes : List Node) (i : Nat) :
    bodyAt (setChild nodes p i) j = bodyAt nodes j := by
  simp [bodyAt, setChild, Ne.symm h]

theorem bodyAt_setChild_self {nodes : List Node} {p : OpenNode} {l r : NodeIdx}
    (h : bodyAt nodes p.idx = some (.internal l r)) (i : Nat) :
    bodyAt (setChild nodes p i) p.idx =
      some (if p.filled = 0 then .internal (BitVec.ofNat 16 i) r else .internal l (BitVec.ofNat 16 i)) := by
  obtain ⟨n, hn, hb⟩ := Option.map_eq_some_iff.1 h
  by_cases hf : p.filled = 0 <;> simp [bodyAt, setChild, hn, hb, hf]

/-- Setting a child makes no leaf and unmakes none. -/
theorem bodyAt_setChild_leaf (nodes : List Node) (p : OpenNode) (i j : Nat) (sym : Sym) :
    bodyAt (setChild nodes p i) j = some (.leaf sym) ↔ bodyAt nodes j = some (.leaf sym) := by
  by_cases hj : j = p.idx
  · subst hj
    cases hb : bodyAt nodes p.idx with
    | none =>
      have hn : nodes[p.idx]? = none := Option.map_eq_none_iff.1 hb
      simp [bodyAt, setChild, hn]
    | some b =>
      cases b with
      | leaf sym' =>
        obtain ⟨n, hn, hb⟩ := Option.map_eq_some_iff.1 hb
        simp [bodyAt, setChild, hn, hb]
      | internal l r =>
        rw [bodyAt_setChild_self hb]
        split <;> simp
  · rw [bodyAt_setChild_ne hj]

/-- The nodes after a node is placed: the new one behind the others, and a child of the innermost open node. -/
def placedNodes (nodes : List Node) (stack : List OpenNode) (body : NodeBody) : List Node :=
  match stack with
  | [] => nodes ++ [{ freq := 0#32, body := body, code := [] }]
  | p :: _ => setChild (nodes ++ [{ freq := 0#32, body := body, code := [] }]) p nodes.length

/-- The stack with the new node counted as a child of the innermost open node. -/
def attachedStack : List OpenNode → List OpenNode
  | [] => []
  | p :: rest => { p with filled := p.filled + 1 } :: rest

theorem placeNode_leaf (nodes : List Node) (stack : List OpenNode) (body : NodeBody) :
    placeNode nodes stack body false =
      (placedNodes nodes stack body, (attachedStack stack).dropWhile fun p => p.filled == 2) := by
  cases stack <;> rfl

theorem placeNode_internal (nodes : List Node) (stack : List OpenNode) (body : NodeBody) :
    placeNode nodes stack body true =
      (placedNodes nodes stack body, { idx := nodes.length, filled := 0 } :: attachedStack stack) := by
  cases stack <;> rfl

theorem length_placedNodes (nodes : List Node) (stack : List OpenNode) (body : NodeBody) :
    (placedNodes nodes stack body).length = nodes.length + 1 := by
  cases stack <;> simp [placedNodes, setChild]

/-- The leaves are those before, and the new node if it is one. -/
theorem bodyAt_placedNodes_leaf {nodes : List Node} {stack : List OpenNode} {body : NodeBody} {j : Nat} {sym : Sym} :
    bodyAt (placedNodes nodes stack body) j = some (.leaf sym) ↔
      bodyAt nodes j = some (.leaf sym) ∨ (j = nodes.length ∧ body = .leaf sym) := by
  have happend : bodyAt (nodes ++ [{ freq := 0#32, body := body, code := [] }]) j = some (.leaf sym) ↔
      bodyAt nodes j = some (.leaf sym) ∨ (j = nodes.length ∧ body = .leaf sym) := by
    rcases Nat.lt_trichotomy j nodes.length with h | rfl | h
    · rw [bodyAt_append_of_lt h]
      simp [Nat.ne_of_lt h]
    · rw [bodyAt_append_length]
      simp [bodyAt]
    · have hn : bodyAt (nodes ++ [{ freq := 0#32, body := body, code := [] }]) j = none := by
        simp [bodyAt]; omega
      have hn' : bodyAt nodes j = none := by simp [bodyAt]; omega
      simp [hn, hn', Nat.ne_of_gt h]
  cases stack with
  | nil => exact happend
  | cons p rest => exact (bodyAt_setChild_leaf _ _ _ _ _).trans happend

/-! ### The open nodes -/

/-- The innermost open node's last attached child is node `c`, whose subtree may still be open; each open node's last
attached child is the next open node, and an open node with two children attached has its left subtree complete. -/
def Attached (nodes : List Node) : List OpenNode → Nat → Prop
  | [], c => c = 0
  | p :: rest, c => Attached nodes rest p.idx ∧ ∃ l r : NodeIdx, bodyAt nodes p.idx = some (.internal l r) ∧
      ((p.filled = 1 ∧ l.toNat = c ∧ c = p.idx + 1) ∨
        (p.filled = 2 ∧ r.toNat = c ∧ p.idx < c ∧ Subtree nodes l.toNat (Ico (p.idx + 1) c)))

/-- The next node, of index `m`, becomes a child of the innermost open node: the left one, or the right one with the
left subtree complete. -/
def Awaits (nodes : List Node) : List OpenNode → Nat → Prop
  | [], m => m = 0
  | p :: rest, m => Attached nodes rest p.idx ∧ ∃ l r : NodeIdx, bodyAt nodes p.idx = some (.internal l r) ∧
      ((p.filled = 0 ∧ m = p.idx + 1) ∨
        (p.filled = 1 ∧ p.idx < m ∧ Subtree nodes l.toNat (Ico (p.idx + 1) m)))

/-- The open nodes are read from the nodes before the last attached child. -/
theorem Attached.congr {nodes nodes' : List Node} {stack : List OpenNode} {c : Nat} (h : Attached nodes stack c)
    (hb : ∀ j < c, bodyAt nodes' j = bodyAt nodes j) : Attached nodes' stack c := by
  induction stack generalizing c with
  | nil => exact h
  | cons p rest ih =>
    obtain ⟨hrest, l, r, hp, hc⟩ := h
    have hpc : p.idx < c := by omega
    refine ⟨ih hrest fun j hj => hb j (Nat.lt_trans hj hpc), l, r, (hb _ hpc).trans hp, hc.imp_right ?_⟩
    rintro ⟨hf, hr, hlt, hl⟩
    exact ⟨hf, hr, hlt, hl.congr fun j hj => hb j (List.Ico.mem.1 hj).2⟩

/-- Placing node `m` attaches it to the innermost open node. -/
theorem Awaits.placed {nodes : List Node} {stack : List OpenNode} (h : Awaits nodes stack nodes.length)
    (hn : nodes.length < 2 ^ 16) (body : NodeBody) :
    Attached (placedNodes nodes stack body) (attachedStack stack) nodes.length ∧
      bodyAt (placedNodes nodes stack body) nodes.length = some body := by
  cases stack with
  | nil => exact ⟨h, bodyAt_append_length _ _⟩
  | cons p rest =>
    obtain ⟨hrest, l, r, hp, hc⟩ := h
    have hidx : (BitVec.ofNat 16 nodes.length).toNat = nodes.length := Nat.mod_eq_of_lt hn
    have hlt : p.idx < nodes.length := bodyAt_lt hp
    have hother {j : Nat} (hj : j < nodes.length) (hne : j ≠ p.idx) :
        bodyAt (placedNodes nodes (p :: rest) body) j = bodyAt nodes j :=
      (bodyAt_setChild_ne hne _ _).trans (bodyAt_append_of_lt hj _)
    have hself := bodyAt_setChild_self ((bodyAt_append_of_lt hlt
      [{ freq := 0#32, body := body, code := [] }]).trans hp) nodes.length
    refine ⟨⟨hrest.congr fun j hj => hother (Nat.lt_trans hj hlt) (Nat.ne_of_lt hj), ?_⟩,
      (bodyAt_setChild_ne (Nat.ne_of_gt hlt) _ _).trans (bodyAt_append_length _ _)⟩
    rcases hc with ⟨hf, hm⟩ | ⟨hf, -, hl⟩
    · rw [if_pos hf] at hself
      exact ⟨_, r, hself, .inl ⟨congrArg (· + 1) hf, hidx, hm⟩⟩
    · rw [if_neg (by omega)] at hself
      refine ⟨l, _, hself, .inr ⟨congrArg (· + 1) hf, hidx, hlt, hl.congr fun j hj => ?_⟩⟩
      obtain ⟨hj₁, hj₂⟩ := List.Ico.mem.1 hj
      exact hother hj₂ (by omega)

/-- When the last attached child's subtree is complete, so is every open node's with two children attached: the whole
tree's, or the next node is a child of the innermost that is left. -/
theorem Attached.close {nodes : List Node} {stack : List OpenNode} {c m : Nat} (h : Attached nodes stack c)
    (hsub : Subtree nodes c (Ico c m)) (hcm : c < m) :
    ((stack.dropWhile fun p => p.filled == 2) = [] → Subtree nodes 0 (Ico 0 m)) ∧
      ((stack.dropWhile fun p => p.filled == 2) ≠ [] → Awaits nodes (stack.dropWhile fun p => p.filled == 2) m) := by
  induction stack generalizing c with
  | nil =>
    obtain rfl : c = 0 := h
    exact ⟨fun _ => hsub, fun h => absurd rfl h⟩
  | cons p rest ih =>
    obtain ⟨hrest, l, r, hp, ⟨hf, rfl, hc⟩ | ⟨hf, rfl, hlt, hl⟩⟩ := h
    · rw [List.dropWhile_cons_of_neg (by simp [hf])]
      refine ⟨fun h => absurd h (List.cons_ne_nil _ _), fun _ => ⟨hrest, l, r, hp, .inr ⟨hf, by omega, ?_⟩⟩⟩
      rwa [hc] at hsub ⊢
    · rw [List.dropWhile_cons_of_pos (by simp [hf])]
      refine ih hrest ?_ (by omega)
      rw [List.Ico.eq_cons (by omega), ← List.Ico.append_consecutive (show p.idx + 1 ≤ r.toNat by omega) (by omega)]
      exact .internal hp hl hsub

/-! ### The loop -/

/-- What the parser keeps (R256): the open nodes, at most NODE_CAP nodes, every leaf's symbol seen and no two alike. -/
structure Parsing (c : Config) (nodes : List Node) (stack : List OpenNode) (seen : List Sym) : Prop where
  awaits   : Awaits nodes stack nodes.length
  capacity : nodes.length ≤ c.nodeCap
  seen     : ∀ j sym, bodyAt nodes j = some (.leaf sym) → sym ∈ seen
  distinct : ∀ j k sym, bodyAt nodes j = some (.leaf sym) → bodyAt nodes k = some (.leaf sym) → j = k

variable {c : Config} {nodes : List Node} {stack : List OpenNode} {seen : List Sym}

theorem Parsing.placed_distinct (h : Parsing c nodes stack seen) {body : NodeBody}
    (hnew : ∀ sym ∈ seen, body ≠ .leaf sym) {j k : Nat} {sym : Sym} (hj : bodyAt (placedNodes nodes stack body) j = some (.leaf sym))
    (hk : bodyAt (placedNodes nodes stack body) k = some (.leaf sym)) : j = k := by
  rcases bodyAt_placedNodes_leaf.1 hj with hj' | ⟨hjn, hj'⟩ <;>
    rcases bodyAt_placedNodes_leaf.1 hk with hk' | ⟨hkn, hk'⟩
  · exact h.distinct j k sym hj' hk'
  · exact absurd hk' (hnew sym (h.seen j sym hj'))
  · exact absurd hj' (hnew sym (h.seen k sym hk'))
  · exact hjn.trans hkn.symm

/-- An INTERNAL node opens. -/
theorem Parsing.internal (h : Parsing c nodes stack seen) (hc : c.nodeCap < 2 ^ 16) (hn : nodes.length ≠ c.nodeCap) :
    Parsing c (placeNode nodes stack (.internal 0#16 0#16) true).1 (placeNode nodes stack (.internal 0#16 0#16) true).2
      seen := by
  have hcap := h.capacity
  obtain ⟨hatt, hbody⟩ := h.awaits.placed (by omega) (.internal 0#16 0#16)
  rw [placeNode_internal]
  refine ⟨?_, ?_, fun j sym hj => ?_, fun j k sym => h.placed_distinct fun _ _ => NodeBody.noConfusion⟩
  · rw [length_placedNodes]
    exact ⟨hatt, _, _, hbody, .inl ⟨rfl, rfl⟩⟩
  · rw [length_placedNodes]
    omega
  · rcases bodyAt_placedNodes_leaf.1 hj with hj | ⟨-, hj⟩
    · exact h.seen j sym hj
    · cases hj

theorem isTree_of_span {nodes : List Node} {root : NodeIdx} (hsub : Subtree nodes root.toNat (Ico 0 nodes.length))
    (hd : ∀ j k sym, bodyAt nodes j = some (.leaf sym) → bodyAt nodes k = some (.leaf sym) → j = k) :
    IsTree nodes root := by
  refine ⟨⟨_, hsub, .of_eq (List.Ico.zero_bot _)⟩, fun j k sym hj hk hbj hbk =>
    BitVec.eq_of_toNat_eq (hd _ _ sym ?_ ?_)⟩
  · rw [bodyAt_nodeAt hj, hbj]
  · rw [bodyAt_nodeAt hk, hbk]

/-- A LEAF with a new symbol completes the tree, or the parse goes on. -/
theorem Parsing.leaf (h : Parsing c nodes stack seen) (hc : c.nodeCap < 2 ^ 16) (hn : nodes.length ≠ c.nodeCap)
    {sym : Sym} (hs : sym ∉ seen) :
    ((placeNode nodes stack (.leaf sym) false).2 = [] →
      IsTree (placeNode nodes stack (.leaf sym) false).1 0#16 ∧
        (placeNode nodes stack (.leaf sym) false).1.length ≤ c.nodeCap) ∧
    ((placeNode nodes stack (.leaf sym) false).2 ≠ [] →
      Parsing c (placeNode nodes stack (.leaf sym) false).1 (placeNode nodes stack (.leaf sym) false).2
        (sym :: seen)) := by
  have hcap := h.capacity
  obtain ⟨hatt, hbody⟩ := h.awaits.placed (by omega) (.leaf sym)
  have hd (j k : Nat) (sym' : Sym) := h.placed_distinct (body := .leaf sym) (j := j) (k := k) (sym := sym')
    fun _ hs' he => hs (NodeBody.leaf.inj he ▸ hs')
  have hlen := length_placedNodes nodes stack (.leaf sym)
  obtain ⟨hfull, hopen⟩ := hatt.close (m := nodes.length + 1)
    (by rw [List.Ico.succ_singleton]; exact .leaf hbody) (Nat.lt_succ_self _)
  rw [placeNode_leaf]
  dsimp only
  refine ⟨fun he => ⟨isTree_of_span (hlen.symm ▸ hfull he) hd, by omega⟩, fun he =>
    ⟨hlen.symm ▸ hopen he, by omega, fun j sym' hj => ?_, hd⟩⟩
  rcases bodyAt_placedNodes_leaf.1 hj with hj | ⟨-, hj⟩
  · exact List.mem_cons_of_mem _ (h.seen j sym' hj)
  · exact NodeBody.leaf.inj hj ▸ List.mem_cons_self

/-- A parse that ends gives a tree within NODE_CAP. -/
theorem parseLoop_present (hc : c.nodeCap < 2 ^ 16) {len fuel : Nat} {bytes : ByteSeq} {pos : Nat} {final : List Node}
    (h : Parsing c nodes stack seen) (he : parseLoop c len fuel bytes pos nodes stack seen = .present final) :
    IsTree final 0#16 ∧ final.length ≤ c.nodeCap := by
  induction fuel generalizing bytes pos nodes stack seen with
  | zero => cases he
  | succ fuel ih =>
    cases bytes with
    | nil => cases he
    | cons m rest =>
      rw [parseLoop] at he
      split at he
      · cases he
      split at he
      · cases he
      split at he
      · cases he
      rename_i hn
      split at he
      · split at he
        · cases he
        · cases he
        split at he
        · cases he
        rename_i hs
        obtain ⟨hfull, hopen⟩ := h.leaf hc hn hs
        dsimp only at he
        split at he
        · rename_i hclosed
          split at he
          · cases he
            exact hfull hclosed
          · cases he
        · rename_i hleft
          exact ih (hopen hleft) he
      · exact ih (h.internal hc hn) he

theorem parsing_nil (c : Config) : Parsing c [] [] [] where
  awaits := rfl
  capacity := Nat.zero_le _
  seen _ _ h := nomatch h
  distinct _ _ _ h := nomatch h

/-- A header that loads gives a tree within NODE_CAP (R256, R257). -/
theorem isTree_of_deserialize (hc : c.nodeCap < 2 ^ 16) {h : ByteSeq} {nodes : List Node}
    (he : deserialize c h = .present nodes) : IsTree nodes 0#16 ∧ nodes.length ≤ c.nodeCap := by
  unfold deserialize at he
  split at he
  · cases he
  · split at he
    · split at he <;> cases he
    · exact parseLoop_present hc (parsing_nil c) he

end Sys2Proof.Machine
end

section
/-! A property of the memories and FIFOs alone is kept by every step where the writes to them keep it. -/

namespace Sys2Proof.Machine

/-- The state with its memories and FIFOs, and every other field as after reset. -/
def State.memoryPart (s : State) : State :=
  { State.resetWith s.cfg with
    ft := s.ft, total := s.total, tstate := s.tstate, nodes := s.nodes, root := s.root, ct := s.ct
    bp := s.bp, tvb := s.tvb, sealed := s.sealed, pend := s.pend, inFifo := s.inFifo, outFifo := s.outFifo }

/-- The property is one of the memories and FIFOs alone, and every write to them keeps it. -/
structure MemoryClosed (P : State → Prop) : Prop where
  part      : ∀ s, P s ↔ P s.memoryPart
  push      : ∀ b s, s.outFifo.length < s.cfg.outDepth → P s → P { s with outFifo := s.outFifo ++ [b] }
  pop       : ∀ b rest s, s.inFifo = b :: rest → P s → P { s with inFifo := rest }
  hostPush  : ∀ b s, s.inFifo.length < s.cfg.inDepth → P s → P { s with inFifo := s.inFifo ++ [b] }
  hostPop   : ∀ s, P s → P { s with outFifo := s.outFifo.drop 1 }
  empty     : ∀ s, P s → P { s with inFifo := [], outFifo := [] }
  pend      : ∀ v s, v.length ≤ 2 → P s → P { s with pend := v }
  clearFt   : ∀ s, P s → P (ftClear s)
  ftWrite   : ∀ sym s, s.cfg.validSym sym = true → s.total ≠ 0xFFFFFFFF#32 →
    ¬(s.ftRead sym = 0#32 ∧ s.nsym = s.cfg.maxSyms) → P s →
    P { s with ft := symInsert s.ft sym (s.ftRead sym + 1#32), total := s.total + 1#32 }
  clearTree : ∀ s, P s → P (treeClear s)
  absent    : ∀ s, P s → P { treeClear s with tstate := .absent }
  built     : ∀ s, s.ft ≠ [] → P s → P (assignCodes s.mergedTree)
  loaded    : ∀ h nodes s, deserialize s.cfg h = .present nodes → P s →
    P (assignCodes { treeClear s with tstate := .present, nodes := nodes })
  clearBp   : ∀ s, P s → P (bpClear s)
  append    : ∀ seq s, s.sealed = false → s.bp.length + seq.length ≤ s.cfg.bpCapBits → P s →
    P { s with bp := s.bp ++ seq, tvb := tvbAfter s.tvb seq.length }
  keep      : ∀ s, P s → P { s with bp := partialBits s.bp }
  close     : ∀ s, P s → P { s with bp := [], sealed := true }

variable {P : State → Prop}

/-- An update of other fields keeps the property. -/
theorem MemoryClosed.update (h : MemoryClosed P) {s t : State} (hs : P s)
    (ht : t.memoryPart = s.memoryPart := by rfl) : P t :=
  (h.part t).2 (ht ▸ (h.part s).1 hs)

theorem MemoryClosed.clear (h : MemoryClosed P) {s : State} (hs : P s) : P (clearSession s) :=
  h.update (h.pend [] _ (Nat.zero_le _) (h.clearBp _ (h.clearTree _ (h.clearFt _ hs))))

theorem MemoryClosed.abort (h : MemoryClosed P) {s : State} (hs : P s) : P (abortClear s) :=
  h.clear (h.update (t := errorClear s) (h.empty s hs))

theorem MemoryClosed.reset (h : MemoryClosed P) {s : State} (hs : P s) : P (hardwareReset s) := h.update (h.abort hs)

theorem MemoryClosed.load (h : MemoryClosed P) (hdr : ByteSeq) {s : State} (hs : P s) : (loadTree hdr s).Holds P := by
  obtain ⟨sub, pos, -, hl⟩ | ⟨-, hl⟩ | ⟨nodes, hd, hl⟩ := loadTree_cases hdr s <;> rw [hl]
  · exact h.update (h.clearTree s hs)
  · exact h.absent s hs
  · exact h.loaded hdr nodes s hd hs

theorem MemoryClosed.build (h : MemoryClosed P) {s : State} (hs : P s) : P (build s) := by
  by_cases hft : s.ft = []
  · rw [build_of_ft_nil hft]
    exact h.absent s hs
  · rw [build_eq_mergedTree hft]
    exact h.built s hft hs

theorem MemoryClosed.ftCount (h : MemoryClosed P) {sym : Sym} {s : State} (hv : s.cfg.validSym sym = true) (hs : P s) :
    (ftCount sym s).Holds P := by
  unfold Machine.ftCount
  split
  · exact h.update hs
  · split
    · exact h.update hs
    · exact h.ftWrite sym s hv ‹_› ‹_› hs

theorem MemoryClosed.appendBits (h : MemoryClosed P) (seq : BitSeq) {s : State} (hs : P s) :
    (appendBits seq s).Holds P := by
  unfold Machine.appendBits
  split
  · exact h.update hs
  · split
    · exact h.update hs
    · exact h.append seq s (Bool.eq_false_of_not_eq_true ‹_›) (Nat.le_of_not_lt ‹_›) hs

theorem MemoryClosed.hostRead (h : MemoryClosed P) (off : BitVec 8) {s : State} (hs : P s) : P (hostRead off s) := by
  by_cases hoff : regIndex off = 13
  · exact h.update (h.hostPop s hs) (by simp [Machine.hostRead, hoff, State.memoryPart])
  · exact h.update hs (by simp [Machine.hostRead, hoff, State.memoryPart])

theorem MemoryClosed.hostWrite (h : MemoryClosed P) (off : BitVec 8) (v : Word) {s : State} (hs : P s) :
    P (hostWrite off v s) := by
  unfold Machine.hostWrite
  split
  · split
    · exact h.reset hs
    · exact hs
  · split
    · exact h.update hs
    · exact hs
  · exact h.update hs
  · unfold pushIn
    split
    · exact h.hostPush _ s ‹_› hs
    · exact h.update hs
  · exact h.update hs
  · exact hs

theorem MemoryClosed.stepClosed (h : MemoryClosed P) : StepClosed P where
  push b s hr hs := h.update (h.push b s (of_decide_eq_true hr) hs)
  count _ hs := h.update hs
  cur _ _ hs := h.update hs
  error _ _ _ hs := h.update hs
  load hdr _ hs := h.load hdr hs
  phase _ _ hs := h.update hs
  dpos _ _ hs := h.update hs
  hlen _ _ hs := h.update hs
  hbuf _ _ hs := h.update hs
  pend v s hv hs := h.pend v s hv hs
  pop b rest s hi hs := h.update (h.pop b rest s hi hs)
  keep s hs := h.keep s hs
  close s hs := h.close s hs
  ftClear s hs := h.clearFt s hs
  ftCount _ _ hv hs := h.ftCount hv hs
  build _ hs := h.build hs
  bpClear s hs := h.clearBp s hs
  append seq _ hs := h.appendBits seq hs
  clear _ hs := h.clear hs
  abort _ hs := h.abort hs
  result _ _ _ _ hs := h.update hs
  complete _ hs := h.update hs
  latch _ _ hs := h.update hs
  accept _ _ hs := h.update hs
  take _ _ _ hs := h.update hs
  cmdOvr _ hs := h.update hs
  hostRead off _ hs := h.hostRead off hs
  hostWrite off v _ hs := h.hostWrite off v hs
  hwReset _ hs := h.reset hs

end Sys2Proof.Machine
end

section
/-! What every step keeps of the parameters, the FIFOs, FT and the tree (spec/10_state.md R58 to R63). -/

namespace Sys2Proof.Machine

/-! ### The parameters (spec/70_reset_and_hazards.md R554) -/

theorem cfg_closed (c : Config) : MemoryClosed fun s => s.cfg = c where
  part _ := Iff.rfl
  push _ _ _ h := h
  pop _ _ _ _ h := h
  hostPush _ _ _ h := h
  hostPop _ h := h
  empty _ h := h
  pend _ _ _ h := h
  clearFt _ h := h
  ftWrite _ _ _ _ _ h := h
  clearTree _ h := h
  absent _ h := h
  built _ _ h := (assignCodes_tree _).2.2.trans h
  loaded _ _ _ _ h := (assignCodes_tree _).2.2.trans h
  clearBp _ h := h
  append _ _ _ _ h := h
  keep _ h := h
  close _ h := h

theorem step_cfg {s t : State} (h : step s = .next t) : t.cfg = s.cfg := step_keeps (cfg_closed s.cfg).stepClosed rfl h

/-! ### The FIFOs and the pending bytes (R62, R63) -/

/-- The FIFOs' bounds are of the FIFOs and the build. -/
theorem FifoInv.same {s t : State} (h : FifoInv s) (hcfg : t.cfg = s.cfg := by rfl)
    (hin : t.inFifo = s.inFifo := by rfl) (hout : t.outFifo = s.outFifo := by rfl) : FifoInv t where
  inBound := by rw [hin, hcfg]; exact h.inBound
  outBound := by rw [hout, hcfg]; exact h.outBound

theorem FifoInv.assignCodes {s : State} (h : FifoInv s) : FifoInv (assignCodes s) := by
  rw [assignCodes_frame]
  exact h.same

theorem FifoInv.pop {s : State} (h : FifoInv s) {b : Byte} {rest : ByteSeq} (hin : s.inFifo = b :: rest) :
    FifoInv { s with inFifo := rest } where
  inBound := by
    have := h.inBound
    rw [hin] at this
    exact (Nat.le_succ _).trans this
  outBound := h.outBound

theorem FifoInv.hostPop {s : State} (h : FifoInv s) : FifoInv { s with outFifo := s.outFifo.drop 1 } where
  inBound := h.inBound
  outBound := by
    rw [List.length_drop]
    exact (Nat.sub_le _ _).trans h.outBound

theorem fifoInv_closed : MemoryClosed FifoInv where
  part _ := ⟨fun h => h.same, fun h => h.same⟩
  push _ _ hroom h := ⟨h.inBound, by rw [List.length_append]; exact hroom⟩
  pop _ _ _ hin h := h.pop hin
  hostPush _ _ hroom h := ⟨by rw [List.length_append]; exact hroom, h.outBound⟩
  hostPop _ h := h.hostPop
  empty _ _ := ⟨Nat.zero_le _, Nat.zero_le _⟩
  pend _ _ _ h := h.same
  clearFt _ h := h.same
  ftWrite _ _ _ _ _ h := h.same
  clearTree _ h := h.same
  absent _ h := h.same
  built _ _ h := h.same.assignCodes
  loaded _ _ _ _ h := h.same.assignCodes
  clearBp _ h := h.same
  append _ _ _ _ h := h.same
  keep _ h := h.same
  close _ h := h.same

theorem PendInv.assignCodes {s : State} (h : PendInv s) : PendInv (assignCodes s) := by
  rw [assignCodes_frame]
  exact h

theorem pendInv_closed : MemoryClosed PendInv where
  part _ := Iff.rfl
  push _ _ _ h := h
  pop _ _ _ _ h := h
  hostPush _ _ _ h := h
  hostPop _ h := h
  empty _ h := h
  pend _ _ hv _ := hv
  clearFt _ h := h
  ftWrite _ _ _ _ _ h := h
  clearTree _ h := h
  absent _ h := h
  built s _ h := PendInv.assignCodes (s := s.mergedTree) h
  loaded _ _ s _ h := PendInv.assignCodes (s := { treeClear s with tstate := .present, nodes := _ }) h
  clearBp _ h := h
  append _ _ _ _ h := h
  keep _ h := h
  close _ h := h

/-- Settles O56: a push needs room and a feed keeps at most two bytes; nothing else makes a FIFO or `pend` longer. -/
theorem fifosStayWithinTheirDepths : Obligations.FifosStayWithinTheirDepths :=
  fun _ _ hf hp h => ⟨step_keeps fifoInv_closed.stepClosed hf h, step_keeps pendInv_closed.stepClosed hp h⟩

/-! ### The frequency table (R58) -/

theorem symLookup_eq_none_of_below {α : Type} {m : SymMap α} {sym : Sym} (h : ∀ e ∈ m, sym.toNat < e.1.toNat) :
    symLookup m sym = none := by
  cases hl : symLookup m sym with
  | none => rfl
  | some v => exact absurd (h _ (mem_of_symLookup hl)) (Nat.lt_irrefl _)

theorem ftSum_cons (e : Sym × Word) (m : SymMap Word) : ftSum (e :: m) = e.2.toNat + ftSum m := List.sum_cons

/-- A write changes the sum of the counts by the change of its symbol's count. -/
theorem ftSum_symInsert {m : SymMap Word} (h : symAscending m = true) (sym : Sym) (v : Word) :
    ftSum (symInsert m sym v) + ((symLookup m sym).getD 0#32).toNat = ftSum m + v.toNat := by
  induction m with
  | nil => simp [symInsert, symLookup, ftSum]
  | cons e m ih =>
    obtain ⟨k, w⟩ := e
    obtain ⟨hk, hm⟩ := symAscending_cons.1 h
    unfold symInsert
    split
    · rename_i hlt
      rw [symLookup_eq_none_of_below fun e he => ?_, ftSum_cons]
      · simp only [Option.getD_none, BitVec.toNat_ofNat]
        omega
      · rcases List.mem_cons.1 he with rfl | he
        · exact hlt
        · exact Nat.lt_trans hlt (hk e he)
    · split
      · rename_i heq
        rw [symLookup, if_pos heq, ftSum_cons, ftSum_cons]
        simp only [Option.getD_some]
        omega
      · rename_i hne
        have := ih hm
        rw [symLookup, if_neg hne, ftSum_cons, ftSum_cons]
        omega

theorem ftRead_le_total {s : State} (h : FtInv s) (sym : Sym) : (s.ftRead sym).toNat ≤ s.total.toNat := by
  rw [h.sum, State.ftRead]
  cases hl : symLookup s.ft sym with
  | none => exact Nat.zero_le _
  | some v => exact List.single_le_sum (fun _ _ => Nat.zero_le _) _ (List.mem_map_of_mem (mem_of_symLookup hl))

/-- FT's invariant is one of FT, `total` and the build. -/
theorem FtInv.same {s t : State} (h : FtInv s) (hcfg : t.cfg = s.cfg := by rfl) (hft : t.ft = s.ft := by rfl)
    (htotal : t.total = s.total := by rfl) : FtInv t where
  canonical := hft ▸ h.canonical
  validKeys := hft ▸ hcfg ▸ h.validKeys
  capacity := by rw [State.nsym, hft, hcfg]; exact h.capacity
  sum := by rw [htotal, hft]; exact h.sum

theorem FtInv.assignCodes {s : State} (h : FtInv s) : FtInv (assignCodes s) := by
  rw [assignCodes_frame]
  exact h.same

theorem ftInv_of_empty {s : State} (hft : s.ft = []) (ht : s.total = 0#32) : FtInv s where
  canonical := by rw [hft]; rfl
  validKeys := by rw [hft]; exact fun _ h => nomatch h
  capacity := by rw [State.nsym, hft]; exact Nat.zero_le _
  sum := by rw [hft, ht]; rfl

theorem FtInv.ascending {s : State} (h : FtInv s) : symAscending s.ft = true :=
  (Bool.and_eq_true_iff.1 h.canonical).1

/-- One occurrence counted (R202). -/
theorem FtInv.count {s : State} (h : FtInv s) {sym : Sym} (hv : s.cfg.validSym sym = true)
    (htotal : s.total ≠ 0xFFFFFFFF#32) (hroom : ¬(s.ftRead sym = 0#32 ∧ s.nsym = s.cfg.maxSyms)) :
    FtInv { s with ft := symInsert s.ft sym (s.ftRead sym + 1#32), total := s.total + 1#32 } := by
  have hne : s.total.toNat ≠ 4294967295 := fun he => htotal (BitVec.eq_of_toNat_eq he)
  have hle := ftRead_le_total h sym
  have htlt := s.total.isLt
  have hcount : (s.ftRead sym + 1#32).toNat = (s.ftRead sym).toNat + 1 := by
    rw [BitVec.toNat_add]; exact Nat.mod_eq_of_lt (by simp only [BitVec.toNat_ofNat]; omega)
  have htot : (s.total + 1#32).toNat = s.total.toNat + 1 := by
    rw [BitVec.toNat_add]; exact Nat.mod_eq_of_lt (by simp only [BitVec.toNat_ofNat]; omega)
  refine ⟨ftCount_write_wf sym h.canonical fun he => ?_, fun e he => ?_, ?_, ?_⟩
  · rw [State.ftRead, he] at hle
    exact hne (by simp only [BitVec.toNat_ofNat] at hle; omega)
  · rcases mem_symInsert he with rfl | he
    · exact hv
    · exact h.validKeys e he
  · show (symInsert s.ft sym _).length ≤ s.cfg.maxSyms
    have hcap := h.capacity
    rw [length_symInsert sym _ h.ascending]
    split
    · rename_i hnone
      have : s.nsym ≠ s.cfg.maxSyms := fun hfull => hroom ⟨(symLookup_eq_none_iff sym h.canonical).1 hnone, hfull⟩
      rw [State.nsym] at this hcap
      omega
    · exact hcap
  · have hsum := ftSum_symInsert h.ascending sym (s.ftRead sym + 1#32)
    rw [hcount, ← h.sum] at hsum
    show (s.total + 1#32).toNat = ftSum (symInsert s.ft sym (s.ftRead sym + 1#32))
    rw [htot]
    rw [State.ftRead] at hsum ⊢
    omega

theorem ftInv_closed : MemoryClosed FtInv where
  part _ := ⟨fun h => h.same, fun h => h.same⟩
  push _ _ _ h := h.same
  pop _ _ _ _ h := h.same
  hostPush _ _ _ h := h.same
  hostPop _ h := h.same
  empty _ h := h.same
  pend _ _ _ h := h.same
  clearFt _ _ := ftInv_of_empty rfl rfl
  ftWrite _ _ hv ht hroom h := h.count hv ht hroom
  clearTree _ h := h.same
  absent _ h := h.same
  built _ _ h := h.same.assignCodes
  loaded _ _ _ _ h := h.same.assignCodes
  clearBp _ h := h.same
  append _ _ _ _ h := h.same
  keep _ h := h.same
  close _ h := h.same

/-! ### No tree, no nodes and no codes (R59, R60) -/

theorem noTreeInv_assignCodes {s : State} (h : s.tstate = .present) : NoTreeInv (assignCodes s) :=
  fun hne => absurd ((assignCodes_tree s).1.trans h) hne

theorem noTreeInv_closed : MemoryClosed NoTreeInv where
  part _ := Iff.rfl
  push _ _ _ h := h
  pop _ _ _ _ h := h
  hostPush _ _ _ h := h
  hostPop _ h := h
  empty _ h := h
  pend _ _ _ h := h
  clearFt _ h := h
  ftWrite _ _ _ _ _ h := h
  clearTree _ _ := fun _ => ⟨rfl, rfl, rfl⟩
  absent _ _ := fun _ => ⟨rfl, rfl, rfl⟩
  built _ _ _ := noTreeInv_assignCodes rfl
  loaded _ _ _ _ _ := noTreeInv_assignCodes rfl
  clearBp _ h := h
  append _ _ _ _ h := h
  keep _ h := h
  close _ h := h

/-- Settles O57: FT is written by a count, which keeps its form, and by the clears; the tree by the clears, by `build()`
and by `load_tree()`. -/
theorem ftStaysCanonical : Obligations.FtStaysCanonical := fun _ _ hft htree h =>
  ⟨step_keeps ftInv_closed.stepClosed hft h, step_keeps noTreeInv_closed.stepClosed htree h⟩

/-! ### The code table (R60; spec/41_tree_builder.md R207, R209) -/

/-- The state with its tree and CT, and every other field as after reset. -/
def State.treePart (s : State) : State :=
  { State.resetWith s.cfg with tstate := s.tstate, nodes := s.nodes, root := s.root, ct := s.ct }

theorem ctInv_treePart (s : State) : CtInv s.treePart ↔ CtInv s :=
  ⟨fun h => ⟨h.canonical, h.nonempty, h.codeLen, h.prefixFree, h.ofLeaf, h.ofEveryLeaf⟩,
    fun h => ⟨h.canonical, h.nonempty, h.codeLen, h.prefixFree, h.ofLeaf, h.ofEveryLeaf⟩⟩

/-- CT's invariant is one of the tree, CT and the build. -/
theorem CtInv.same {s t : State} (h : CtInv s) (ht : t.treePart = s.treePart := by rfl) : CtInv t :=
  (ctInv_treePart t).1 (ht ▸ (ctInv_treePart s).2 h)

theorem ctInv_of_empty {s : State} (hct : s.ct = []) (ht : s.tstate ≠ .present) : CtInv s := by
  have hread (sym : Sym) (e : CtEntry) : s.ctRead sym ≠ some e := by
    rw [State.ctRead, hct]
    exact (Option.some_ne_none e).symm
  exact ⟨by rw [hct]; rfl, fun _ _ h => absurd h (hread _ _), fun _ _ h => absurd h (hread _ _),
    fun _ _ _ _ _ h => absurd h (hread _ _), fun _ _ h => absurd h (hread _ _), fun _ _ h => absurd h ht⟩

theorem maxSyms_le_of_wf {c : Config} (h : c.wf = true) : c.maxSyms ≤ 2 ^ 15 := by
  simp only [Config.wf, Bool.and_eq_true] at h
  obtain ⟨⟨⟨⟨⟨⟨⟨⟨hmax, -⟩, -⟩, -⟩, -⟩, -⟩, -⟩, -⟩, -⟩ := h
  cases hc : c.codec with
  | byte =>
    rw [hc] at hmax
    have : c.maxSyms = 256 := beq_iff_eq.1 hmax
    omega
  | utf8 =>
    rw [hc] at hmax
    exact of_decide_eq_true (Bool.and_eq_true_iff.1 hmax).2

/-- The legal values of the other parameters (R8). -/
theorem bounds_of_wf {c : Config} (h : c.wf = true) :
    8 ≤ c.flushBits ∧ c.flushBits ≤ 2 ^ 24 ∧ c.bpCapBits ≤ 2 ^ 24 ∧ 1 ≤ c.inDepth ∧ c.inDepth ≤ 65535 ∧
      c.outDepth ≤ 65535 := by
  simp only [Config.wf, Bool.and_eq_true, decide_eq_true_eq] at h
  obtain ⟨⟨⟨⟨⟨⟨⟨⟨-, hflush8⟩, hflush⟩, -⟩, hcap⟩, hin1⟩, hin⟩, -⟩, hout⟩ := h
  exact ⟨hflush8, hflush, hcap, hin1, hin, hout⟩

/-- The build is legal, and FT and CT are in their invariants. -/
structure TablesInv (s : State) : Prop where
  wf : s.cfg.wf = true
  ft : FtInv s
  ct : CtInv s

theorem length_mergedTree {s : State} (hwf : s.cfg.wf = true) (hft : FtInv s) (hne : s.ft ≠ []) :
    s.mergedTree.nodes.length = 2 * s.nsym - 1 :=
  (mergeLoop_leaves s.cfg s.ft hne (hft.capacity.trans (maxSyms_le_of_wf hwf))).2.1

theorem isTree_mergedTree {s : State} (hwf : s.cfg.wf = true) (hft : FtInv s) (hne : s.ft ≠ []) :
    IsTree s.mergedTree.nodes s.mergedTree.root :=
  isTree_merged hne (hft.capacity.trans (maxSyms_le_of_wf hwf)) hft.ascending

theorem ctInv_built {s : State} (hwf : s.cfg.wf = true) (hft : FtInv s) (hne : s.ft ≠ []) :
    CtInv (assignCodes s.mergedTree) := by
  refine ctInv_assignCodes rfl (isTree_mergedTree hwf hft hne) ?_
  rw [length_mergedTree hwf hft hne]
  have : s.nsym ≤ s.cfg.maxSyms := hft.capacity
  show _ ≤ 2 * s.cfg.maxSyms - 1
  omega

theorem ctInv_loaded {s : State} (hwf : s.cfg.wf = true) {h : ByteSeq} {nodes : List Node}
    (hd : deserialize s.cfg h = .present nodes) :
    CtInv (assignCodes { treeClear s with tstate := .present, nodes := nodes }) := by
  have hmax := maxSyms_le_of_wf hwf
  obtain ⟨ht, hcap⟩ := isTree_of_deserialize (by rw [Config.nodeCap]; omega) hd
  exact ctInv_assignCodes rfl ht hcap

/-- An update of other fields than FT, the tree and CT. -/
theorem TablesInv.same {s t : State} (h : TablesInv s) (ht : t.treePart = s.treePart := by rfl)
    (hft : t.ft = s.ft := by rfl) (htotal : t.total = s.total := by rfl) : TablesInv t :=
  have hcfg : t.cfg = s.cfg := (congrArg State.cfg ht :)
  ⟨hcfg ▸ h.wf, h.ft.same hcfg hft htotal, h.ct.same ht⟩

theorem tablesInv_closed : MemoryClosed TablesInv where
  part _ := ⟨fun h => h.same, fun h => h.same⟩
  push _ _ _ h := h.same
  pop _ _ _ _ h := h.same
  hostPush _ _ _ h := h.same
  hostPop _ h := h.same
  empty _ h := h.same
  pend _ _ _ h := h.same
  clearFt _ h := ⟨h.wf, ftInv_of_empty rfl rfl, h.ct.same⟩
  ftWrite _ _ hv ht hroom h := ⟨h.wf, h.ft.count hv ht hroom, h.ct.same⟩
  clearTree _ h := ⟨h.wf, h.ft.same, ctInv_of_empty rfl TState.noConfusion⟩
  absent _ h := ⟨h.wf, h.ft.same, ctInv_of_empty rfl TState.noConfusion⟩
  built _ hne h := ⟨(assignCodes_tree _).2.2 ▸ h.wf, h.ft.same.assignCodes, ctInv_built h.wf h.ft hne⟩
  loaded _ _ _ hd h := ⟨(assignCodes_tree _).2.2 ▸ h.wf, h.ft.same.assignCodes, ctInv_loaded h.wf hd⟩
  clearBp _ h := h.same
  append _ _ _ _ h := h.same
  keep _ h := h.same
  close _ h := h.same

/-- Settles O58: CT is written by the clears and by the code assignment, which codes the one tree that `build()` merges
and the one that `deserialize` parses. -/
theorem ctStaysPrefixFree : Obligations.CtStaysPrefixFree := fun _ _ hwf hft hct h =>
  (step_keeps tablesInv_closed.stepClosed ⟨hwf, hft, hct⟩ h).ct

/-! ### The codes of a built tree (spec/41_tree_builder.md R206, R209) -/

/-- The code assignment changes no frequency. -/
theorem assignCodes_freq {s : State} (h : s.tstate = .present) (ht : IsTree s.nodes s.root) (i : NodeIdx) :
    ((assignCodes s).node i).freq = (s.node i).freq := by
  obtain ⟨is, -, -, hc⟩ := assignCodes_coded h ht
  exact hc.freq i

/-- The LEAF of a key of FT is at the key's place. -/
theorem leaf_of_key {s : State} {sym : Sym} (h : s.ftRead sym ≠ 0#32) (hlen : s.nsym ≤ 2 ^ 16) :
    ∃ i : NodeIdx, i.toNat < s.mergedTree.nodes.length ∧ (s.mergedTree.node i).body = .leaf sym ∧
      (s.mergedTree.node i).freq = s.ftRead sym := by
  cases hl : symLookup s.ft sym with
  | none => exact absurd (by rw [State.ftRead, hl]; rfl) h
  | some v =>
    obtain ⟨j, hj⟩ := List.mem_iff_getElem?.1 (mem_of_symLookup hl)
    have hjlt : j < 2 ^ 16 := Nat.lt_of_lt_of_le (List.getElem?_eq_some_iff.1 hj).1 hlen
    have hidx : (BitVec.ofNat 16 j).toNat = j := Nat.mod_eq_of_lt hjlt
    have hat : s.mergedTree.nodes[(BitVec.ofNat 16 j).toNat]? = some { freq := v, body := .leaf sym, code := [] } := by
      rw [hidx]
      exact merged_of_key hj
    have hnode : s.mergedTree.node (BitVec.ofNat 16 j) = { freq := v, body := .leaf sym, code := [] } := by
      rw [State.node, nodeAt, hat]
      rfl
    refine ⟨BitVec.ofNat 16 j, (List.getElem?_eq_some_iff.1 hat).1, ?_, ?_⟩ <;> rw [hnode]
    rw [State.ftRead, hl]
    rfl

/-- A LEAF's symbol is a key of FT. -/
theorem ftRead_ne_zero_of_leaf {s : State} (h : FtInv s) {i : NodeIdx} {sym : Sym}
    (hi : i.toNat < s.mergedTree.nodes.length) (hb : (s.mergedTree.node i).body = .leaf sym) : s.ftRead sym ≠ 0#32 := by
  have hl := symLookup_of_mem h.ascending (List.mem_of_getElem? (key_of_merged_leaf (getElem?_eq_nodeAt hi) hb))
  intro h0
  rw [(symLookup_eq_none_iff sym h.canonical).2 h0] at hl
  cases hl

/-- Settles O21: the coded tree's leaves are the keys of FT, and a tree of 2N - 1 nodes has no path of N bits. -/
theorem tbBuildCodesEveryKey : Obligations.TbBuildCodesEveryKey := by
  intro s t hwf hft hphase h sym
  obtain rfl : complete (build s) = t := by
    rw [exec, execTbBuild, execute_of_mem _ hphase] at h
    exact Host.Outcome.next.inj h
  show (_ → (build s).ctRead sym = none) ∧ (_ → ∃ e, (build s).ctRead sym = some e ∧ _)
  by_cases hne : s.ft = []
  · have h0 : s.ftRead sym = 0#32 := by rw [State.ftRead, hne]; rfl
    rw [build_of_ft_nil hne]
    exact ⟨fun _ => rfl, fun h => absurd h0 h⟩
  · rw [build_eq_mergedTree hne]
    have ht := isTree_mergedTree hwf hft hne
    constructor
    · intro h0
      cases hr : (assignCodes s.mergedTree).ctRead sym with
      | none => rfl
      | some e =>
        obtain ⟨i, hi, hb, -⟩ := (assignCodes_ctRead rfl ht sym e).1 hr
        exact absurd h0 (ftRead_ne_zero_of_leaf hft hi hb)
    · intro h0
      have hmax := hft.capacity.trans (maxSyms_le_of_wf hwf)
      obtain ⟨i, hi, hb, hfreq⟩ := leaf_of_key h0 (by omega)
      obtain ⟨hne', hle⟩ := assignCodes_code_bounds rfl ht (length_mergedTree hwf hft hne).le hi hb
      exact ⟨_, (assignCodes_ctRead rfl ht sym _).2 ⟨i, hi, hb, rfl⟩, (assignCodes_freq rfl ht i).trans hfreq,
        List.length_pos_iff.2 hne', hle⟩

end Sys2Proof.Machine
end

section
/-! What each command runs in a legal phase, said once: its pseudocode of spec/41 to spec/46. -/

namespace Sys2Proof.Machine

/-- The pseudocode of a command, run where its phase is legal (spec/46_control.md R453). -/
def commandBody : Instr → State → Flow
  | .ftClear, s => .done (ftClear s)
  | .ftCount sym, s => ftCount sym s
  | .ftRead sym, s => .done (result (s.ftRead sym) (BitVec.ofNat 32 s.nsym) s.total s)
  | .tbBuild, s => .done (build s)
  | .ctRead sym, s => .done (ctResult (s.ctRead sym) s.cmdArg.toNat s)
  | .nodeRead idx, s =>
      if s.ncount ≤ idx.toNat then .done (result 0#32 0#32 0#32 s)
      else .done (result (nodeKindWord (s.node idx)) (s.node idx).freq (nodeBodyWord (s.node idx)) s)
  | .treeInfo, s =>
      .done (result (s.tstate.code.zeroExtend 32) (if s.tstate = .present then s.root.zeroExtend 32 else 0#32)
        (BitVec.ofNat 32 s.ncount) s)
  | .tsSerialize, s => if s.tstate = .noTree then raise .noTree 0#32 s else emitHeader s
  | .tsDeserialize, s => runTodo [.hdrLo] s
  | .bpClear, s => .done (bpClear s)
  | .bpAppendBit bit, s => appendBits [bit] s
  | .bpAppendBits len val, s => appendBits (valBits len val) s
  | .bpSize, s => .done (result (BitVec.ofNat 32 s.bp.length) (s.tvb.zeroExtend 32) (bitWord s.sealed) s)
  | .bpTvb, s => .done (result (s.tvb.zeroExtend 32) (BitVec.ofNat 32 s.bp.length) (bitWord s.sealed) s)
  | .bpDrainReady, s => runTodo (drainReady s) s
  | .bpDrainAll, s => runTodo (drainAll s) s
  | .encBegin, s => .done { clearSession s with phase := .eCount }
  | .encHeader, s => (emitHeader (build s)).andThen (runTodo [.setPhase .eEmit]) [.setPhase .eEmit]
  | .encSym sym, s =>
      match s.ctRead sym with
      | none => raise .unknownSymbol (sym.zeroExtend 32) s
      | some e => (appendBits e.code s).andThen (fun s => flushIfFull (countSym s)) []
  | .encFinish, s => runTodo (drainAll s ++ [.push [s.tvb.zeroExtend 8], .setPhase .eDone]) s
  | .decBegin, s => .done { clearSession s with phase := .dLen0 }
  | .decChunk idx, s => runTodo [.chunk idx.toNat] s
  | .decEnd, s => decEnd s
  | .nop, s => .done s
  | .abort, s => .done (abortClear s)

/-- Every command checks its phase and then runs its pseudocode. -/
theorem exec_eq_execute (i : Instr) (s : State) : exec i s = execute i s (commandBody i) := by
  cases i <;> rfl

/-- A command raises SEQUENCE, or it ends as its pseudocode does. -/
theorem exec_next_cases {i : Instr} {s t : State} (h : exec i s = .next t) :
    (legal i s.phase = false ∧ t = errorEntry .sequence (s.phase.code.zeroExtend 32) s) ∨
      (legal i s.phase = true ∧ t = finish (commandBody i s)) := by
  rw [exec_eq_execute] at h
  cases hl : legal i s.phase with
  | true =>
    rw [execute_legal _ hl] at h
    exact .inr ⟨rfl, (Host.Outcome.next.inj h).symm⟩
  | false =>
    rw [execute_illegal _ hl] at h
    exact .inl ⟨rfl, (Host.Outcome.next.inj h).symm⟩

end Sys2Proof.Machine
end

section
/-! The bit packer's invariant (spec/43_bit_packer.md R309) and that of an encode session (spec/44_stream_encoder.md
R353). -/

namespace Sys2Proof.Machine

/-! ### Trailing valid bits (R301) -/

theorem tvbNext_toNat {t : BitVec 4} (h : t.toNat ≤ 8) :
    1 ≤ (tvbNext t).toNat ∧ (tvbNext t).toNat ≤ 8 ∧ (tvbNext t).toNat % 8 = (t.toNat + 1) % 8 := by
  unfold tvbNext
  split
  · rename_i h8
    subst h8
    decide
  · rename_i h8
    have hne : t.toNat ≠ 8 := fun he => h8 (BitVec.eq_of_toNat_eq he)
    have : (t + 1#4).toNat = t.toNat + 1 := by
      rw [BitVec.toNat_add]
      exact Nat.mod_eq_of_lt (by simp only [BitVec.toNat_ofNat]; omega)
    omega

theorem tvbAfter_toNat {t : BitVec 4} (h : t.toNat ≤ 8) (n : Nat) :
    (tvbAfter t n).toNat ≤ 8 ∧ (tvbAfter t n).toNat % 8 = (t.toNat + n) % 8 ∧
      (0 < n → 1 ≤ (tvbAfter t n).toNat) := by
  induction n generalizing t with
  | zero => exact ⟨h, rfl, fun h0 => absurd h0 (Nat.lt_irrefl 0)⟩
  | succ n ih =>
    obtain ⟨h1, h2, h3⟩ := tvbNext_toNat h
    obtain ⟨i1, i2, i3⟩ := ih h2
    rw [tvbAfter]
    refine ⟨i1, by omega, fun _ => ?_⟩
    rcases Nat.eq_zero_or_pos n with rfl | hn
    · exact h1
    · exact i3 hn

theorem length_partialBits (s : BitSeq) : (partialBits s).length = s.length % 8 := by
  rw [partialBits, List.length_drop]
  omega

/-! ### The packer's invariant -/

/-- The packer's invariant is one of the packer and the build. -/
theorem PackerInv.same {s t : State} (h : PackerInv s) (hcfg : t.cfg = s.cfg := by rfl) (hbp : t.bp = s.bp := by rfl)
    (htvb : t.tvb = s.tvb := by rfl) (hsealed : t.sealed = s.sealed := by rfl) : PackerInv t where
  tvbRange := htvb ▸ h.tvbRange
  capacity := by rw [hbp, hcfg]; exact h.capacity
  unsealed := by rw [hsealed, hbp, htvb]; exact h.unsealed
  sealedOut := by rw [hsealed, hbp]; exact h.sealedOut
  fresh := by rw [htvb, hbp]; exact h.fresh

theorem PackerInv.assignCodes {s : State} (h : PackerInv s) : PackerInv (assignCodes s) := by
  rw [assignCodes_frame]
  exact h.same

theorem PackerInv.append {s : State} (h : PackerInv s) {seq : BitSeq} (hs : s.sealed = false)
    (hcap : s.bp.length + seq.length ≤ s.cfg.bpCapBits) :
    PackerInv { s with bp := s.bp ++ seq, tvb := tvbAfter s.tvb seq.length } := by
  obtain ⟨hle, hmod, hpos⟩ := tvbAfter_toNat h.tvbRange seq.length
  have hu := h.unsealed hs
  refine ⟨hle, ?_, fun _ => ?_, fun hc => absurd (hs.symm.trans hc) Bool.false_ne_true, fun h0 => ?_⟩
  · rwa [List.length_append]
  · rw [List.length_append]
    show (s.bp.length + seq.length) % 8 = (tvbAfter s.tvb seq.length).toNat % 8
    omega
  · change tvbAfter s.tvb seq.length = 0#4 at h0
    rw [h0] at hpos
    have hseq : seq = [] := List.length_eq_zero_iff.1 (Nat.eq_zero_of_not_pos fun hn => absurd (hpos hn) (by decide))
    subst hseq
    rw [List.append_nil]
    exact h.fresh h0

theorem PackerInv.keepPartial {s : State} (h : PackerInv s) : PackerInv { s with bp := partialBits s.bp } where
  tvbRange := h.tvbRange
  capacity := by
    rw [length_partialBits]
    exact (Nat.mod_le _ _).trans h.capacity
  unsealed hs := by
    rw [length_partialBits, Nat.mod_mod]
    exact h.unsealed hs
  sealedOut hs := by
    show partialBits s.bp = []
    rw [h.sealedOut hs]
    rfl
  fresh h0 := by
    show partialBits s.bp = []
    rw [h.fresh h0]
    rfl

theorem packerInv_closed : MemoryClosed PackerInv where
  part _ := ⟨fun h => h.same, fun h => h.same⟩
  push _ _ _ h := h.same
  pop _ _ _ _ h := h.same
  hostPush _ _ _ h := h.same
  hostPop _ h := h.same
  empty _ h := h.same
  pend _ _ _ h := h.same
  clearFt _ h := h.same
  ftWrite _ _ _ _ _ h := h.same
  clearTree _ h := h.same
  absent _ h := h.same
  built _ _ h := h.same.assignCodes
  loaded _ _ _ _ h := h.same.assignCodes
  clearBp _ _ := ⟨Nat.zero_le _, Nat.zero_le _, fun _ => rfl, fun _ => rfl, fun _ => rfl⟩
  append _ _ hs hcap h := h.append hs hcap
  keep _ h := h.keepPartial
  close _ h := ⟨h.tvbRange, Nat.zero_le _, (nomatch ·), fun _ => rfl, fun _ => rfl⟩

/-! ### Between two commands of an encode session -/

/-- What the two passes require of the packer while no command is in flight (R353). -/
structure PassInv (s : State) : Prop where
  firstPass  : s.phase = .eCount → s.bp = [] ∧ s.sealed = false
  secondPass : s.phase = .eEmit → s.sealed = false ∧ s.bp.length < s.cfg.flushBits

/-- The phases of neither pass. -/
def Phase.offPass (p : Phase) : Prop := p ≠ .eCount ∧ p ≠ .eEmit

theorem offPass_of_quiescent {p : Phase} (h : p.quiescent = true) : p.offPass := by
  constructor <;> rintro rfl <;> cases h

theorem offPass_of_decoding {p : Phase} (h : p.decoding = true) : p.offPass := by
  constructor <;> rintro rfl <;> cases h

/-- The session's invariant is one of the phase, the command in flight and the packer. -/
theorem SessionInv.same {s t : State} (h : SessionInv s) (hcfg : t.cfg = s.cfg := by rfl)
    (hphase : t.phase = s.phase := by rfl) (hbusy : t.busy = s.busy := by rfl) (htodo : t.todo = s.todo := by rfl)
    (hbp : t.bp = s.bp := by rfl) (hsealed : t.sealed = s.sealed := by rfl) : SessionInv t where
  firstPass := by rw [hphase, hbp, hsealed]; exact h.firstPass
  headerNext := by rw [hphase, hbusy, htodo]; exact h.headerNext
  secondPass := by rw [hphase, hbusy, hsealed, hbp, hcfg]; exact h.secondPass
  drainNext := by rw [hphase, hbusy, hsealed, htodo]; exact h.drainNext
  elsewhere := by rw [hphase, hbusy, htodo]; exact h.elsewhere

theorem SessionInv.passInv {s : State} (h : SessionInv s) (hb : s.busy = false) : PassInv s :=
  ⟨h.firstPass, fun hp => h.secondPass hp hb⟩

theorem PassInv.sessionInv {s : State} (h : PassInv s) (hb : s.busy = false) : SessionInv s where
  firstPass := h.firstPass
  headerNext _ hb' := absurd (hb.symm.trans hb') Bool.false_ne_true
  secondPass hp _ := h.secondPass hp
  drainNext _ hb' := absurd (hb.symm.trans hb') Bool.false_ne_true
  elsewhere _ _ hb' := absurd (hb.symm.trans hb') Bool.false_ne_true

theorem sessionInv_of_offPass {s : State} (h : s.phase.offPass) (ht : ∀ p, .setPhase p ∉ s.todo) : SessionInv s where
  firstPass hp := absurd hp h.1
  headerNext hp := absurd hp h.1
  secondPass hp := absurd hp h.2
  drainNext hp := absurd hp h.2
  elsewhere _ _ _ := ht

/-- A packer that is as empty as after a clear is right in every phase. -/
theorem passInv_of_cleared {s : State} (hwf : s.cfg.wf = true) (hbp : s.bp = []) (hs : s.sealed = false) :
    PassInv s where
  firstPass _ := ⟨hbp, hs⟩
  secondPass _ := by
    have := (bounds_of_wf hwf).1
    rw [hbp]
    exact ⟨hs, by rw [List.length_nil]; omega⟩

theorem PassInv.same {s t : State} (h : PassInv s) (hcfg : t.cfg = s.cfg := by rfl)
    (hphase : t.phase = s.phase := by rfl) (hbp : t.bp = s.bp := by rfl) (hsealed : t.sealed = s.sealed := by rfl) :
    PassInv t where
  firstPass := by rw [hphase, hbp, hsealed]; exact h.firstPass
  secondPass := by rw [hphase, hbp, hsealed, hcfg]; exact h.secondPass

theorem PassInv.build {s : State} (h : PassInv s) : PassInv (build s) := by
  rw [build_frame]
  exact h.same

/-! ### Commands outside the two passes -/

/-- A command leaves the phase outside the two passes, and has no move of the phase left to do where it waits. -/
def Flow.OffPass : Flow → Prop
  | .done s => s.phase.offPass
  | .wait s rest => s.phase.offPass ∧ ∀ p, .setPhase p ∉ rest
  | .raised s => s.phase.offPass ∧ s.todo = []

theorem Flow.OffPass.sessionInv {f : Flow} (h : f.OffPass) : SessionInv (finish f) := by
  cases f with
  | done s => exact sessionInv_of_offPass (s := complete s) h fun _ => List.not_mem_nil
  | wait s rest => exact sessionInv_of_offPass (s := { s with todo := rest }) h.1 h.2
  | raised s => exact sessionInv_of_offPass (s := s) h.1 fun _ => by rw [h.2]; exact List.not_mem_nil

theorem Flow.OffPass.andThen {f : Flow} {k : State → Flow} {r : List Micro} (hf : f.OffPass)
    (hk : ∀ s, s.phase.offPass → (k s).OffPass) (hr : ∀ p, .setPhase p ∉ r) : (f.andThen k r).OffPass := by
  cases f with
  | done s => exact hk s hf
  | wait s q => exact ⟨hf.1, fun p hp => (List.mem_append.1 hp).elim (hf.2 p) (hr p)⟩
  | raised s => exact hf

theorem offPass_raise (c : Cause) (info : Word) {s : State} (h : s.phase.offPass) : (raise c info s).OffPass := ⟨h, rfl⟩

theorem pushAll_offPass (bytes : ByteSeq) {s : State} (h : s.phase.offPass) : (pushAll bytes s).OffPass := by
  induction bytes generalizing s with
  | nil => exact h
  | cons b bs ih =>
    rw [pushAll]
    split
    · exact ih (s := pushed b s) h
    · exact ⟨h, by simp⟩

theorem walkBits_offPass (bits : BitSeq) (off : Word) {s : State} (h : s.phase.offPass) :
    (walkBits bits off s).OffPass := by
  have hemit (sym : Sym) {s : State} (h : s.phase.offPass) : (emit sym s).OffPass :=
    (pushAll_offPass _ h).andThen (fun _ ht => ht) (by simp)
  induction bits generalizing s with
  | nil => exact h
  | cons bit bits ih =>
    cases hroot : (s.node s.root).body with
    | leaf sym =>
      rw [walkBits_root_leaf hroot]
      split
      · exact offPass_raise _ _ h
      · exact (hemit sym h).andThen (fun _ => ih) (by simp)
    | internal l r =>
      cases hnode : (s.node (walkDown bit s).cur).body with
      | internal l' r' =>
        rw [walkBits_to_internal hroot hnode]
        exact ih (s := walkDown bit s) h
      | leaf sym =>
        rw [walkBits_to_leaf hroot hnode]
        exact (hemit sym (s := walkDown bit s) h).andThen (fun t ht => ih (s := curToRoot t) ht) (by simp)

theorem loadTree_offPass (hdr : ByteSeq) {s : State} (h : s.phase.offPass) : (loadTree hdr s).OffPass := by
  obtain ⟨sub, pos, -, hl⟩ | ⟨-, hl⟩ | ⟨nodes, -, hl⟩ := loadTree_cases hdr s <;> rw [hl]
  · exact offPass_raise _ _ (s := treeClear s) h
  · exact h
  · rw [assignCodes_frame]
    exact h

theorem headerDone_offPass {s : State} (h : s.phase.offPass) : (headerDone s).OffPass :=
  (loadTree_offPass _ h).andThen (fun _ _ => ⟨Phase.noConfusion, Phase.noConfusion⟩) (by simp)

theorem feed_offPass (b : Byte) {s : State} (h : s.phase.offPass) : (feed b s).OffPass := by
  unfold feed
  split
  · exact ⟨Phase.noConfusion, Phase.noConfusion⟩
  · dsimp only
    split
    · exact headerDone_offPass h
    · exact ⟨Phase.noConfusion, Phase.noConfusion⟩
  · dsimp only
    split
    · exact headerDone_offPass h
    · exact h
  · dsimp only
    split
    · unfold confirm
      split
      · exact walkBits_offPass _ _ h
      · exact offPass_raise _ _ h
      · exact offPass_raise _ _ h
    · exact h
    · exact h
  all_goals exact h

theorem chunkLoop_offPass (n : Nat) {s : State} (h : s.phase.offPass) : (chunkLoop n s).OffPass := by
  induction n generalizing s with
  | zero => exact h
  | succ n ih =>
    rw [chunkLoop]
    split
    · exact ⟨h, by simp⟩
    · rename_i b t hpop
      obtain ⟨rest, -, -, rfl⟩ := popIn_some hpop
      exact (feed_offPass b (s := { s.spend with inFifo := rest }) h).andThen (fun _ => ih) (by simp)

theorem hdrBody_offPass (n : Nat) {s : State} (h : s.phase.offPass) : (hdrBody n s).OffPass := by
  induction n generalizing s with
  | zero => exact loadTree_offPass _ h
  | succ n ih =>
    rw [hdrBody]
    split
    · exact ⟨h, by simp⟩
    · rename_i b t hpop
      obtain ⟨rest, -, -, rfl⟩ := popIn_some hpop
      exact ih h

theorem hdrHi_offPass (lo : Byte) {s : State} (h : s.phase.offPass) : (hdrHi lo s).OffPass := by
  rw [hdrHi]
  split
  · exact ⟨h, by simp⟩
  · rename_i b t hpop
    obtain ⟨rest, -, -, rfl⟩ := popIn_some hpop
    exact hdrBody_offPass _ h

theorem hdrLo_offPass {s : State} (h : s.phase.offPass) : (hdrLo s).OffPass := by
  rw [hdrLo]
  split
  · exact ⟨h, by simp⟩
  · rename_i b t hpop
    obtain ⟨rest, -, -, rfl⟩ := popIn_some hpop
    exact hdrHi_offPass _ h

theorem decTail_offPass {s : State} (h : s.phase.offPass) : (decTail s).OffPass := by
  unfold decTail
  split
  · exact offPass_raise _ _ h
  · exact ⟨Phase.noConfusion, Phase.noConfusion⟩

theorem runMicro_offPass {m : Micro} (hm : ∀ p, m ≠ .setPhase p) {s : State} (h : s.phase.offPass) :
    (runMicro m s).OffPass := by
  cases m with
  | push bytes => exact pushAll_offPass bytes h
  | setPhase p => exact absurd rfl (hm p)
  | walk bits off => exact walkBits_offPass bits off h
  | chunk n => exact chunkLoop_offPass n h
  | hdrLo => exact hdrLo_offPass h
  | hdrHi lo => exact hdrHi_offPass lo h
  | hdrBody n => exact hdrBody_offPass n h
  | decTail => exact decTail_offPass h
  | keepPartial | sealPacker | countSym | curToRoot => exact h

theorem runTodo_offPass {ms : List Micro} (hms : ∀ p, .setPhase p ∉ ms) {s : State} (h : s.phase.offPass) :
    (runTodo ms s).OffPass := by
  induction ms generalizing s with
  | nil => exact h
  | cons m ms ih =>
    have hrest (p : Phase) : .setPhase p ∉ ms := fun hp => hms p (List.mem_cons_of_mem _ hp)
    exact (runMicro_offPass (fun p hm => hms p (hm ▸ List.mem_cons_self)) h).andThen (fun _ => ih hrest) hrest

theorem decEnd_offPass {s : State} (h : s.phase.offPass) : (decEnd s).OffPass := by
  have habsent : (decEndAbsent s).OffPass := by
    unfold decEndAbsent
    split
    · exact offPass_raise _ _ h
    · split
      · exact offPass_raise _ _ h
      · exact ⟨Phase.noConfusion, Phase.noConfusion⟩
    · exact offPass_raise _ _ h
  have hpresent : (decEndPresent s).OffPass := by
    unfold decEndPresent
    split
    · exact offPass_raise _ _ h
    · exact offPass_raise _ _ h
    · split
      · exact offPass_raise _ _ h
      · exact (walkBits_offPass _ _ h).andThen (fun _ => decTail_offPass) (by simp)
  unfold decEnd
  cases s.phase with
  | dLen0 | dLen1 | dHdr => exact offPass_raise _ _ h
  | _ =>
    cases s.tstate with
    | absent => exact habsent
    | _ => exact hpresent

theorem emitHeader_offPass {s : State} (h : s.phase.offPass) : (emitHeader s).OffPass := by
  unfold emitHeader
  dsimp only
  split
  · exact offPass_raise _ _ h
  · exact pushAll_offPass _ h

theorem appendBits_offPass (seq : BitSeq) {s : State} (h : s.phase.offPass) : (appendBits seq s).OffPass := by
  unfold appendBits
  split
  · exact offPass_raise _ _ h
  · split
    · exact offPass_raise _ _ h
    · exact h

/-! ### Commands of the two passes -/

/-- The session's fields are the same in both states. -/
structure SameSession (s t : State) : Prop where
  cfg    : t.cfg = s.cfg
  phase  : t.phase = s.phase
  busy   : t.busy = s.busy
  bp     : t.bp = s.bp
  sealed : t.sealed = s.sealed

/-- A push ends, or waits with some of its bytes left, and changes nothing of the session. -/
theorem pushAll_session (bytes : ByteSeq) (s : State) :
    ∃ t, SameSession s t ∧ (pushAll bytes s = .done t ∨ ∃ left, pushAll bytes s = .wait t [.push left]) := by
  have hkeeps : (pushAll bytes s).Holds (SameSession s) :=
    pushAll_holds ⟨fun _ _ _ ht => ⟨ht.cfg, ht.phase, ht.busy, ht.bp, ht.sealed⟩⟩ bytes ⟨rfl, rfl, rfl, rfl, rfl⟩
  obtain ⟨t, ht⟩ | ⟨t, b, left, ht, -⟩ := pushAll_cases bytes s
  · rw [ht] at hkeeps
    exact ⟨t, hkeeps, .inl ht⟩
  · rw [ht] at hkeeps
    exact ⟨t, hkeeps, .inr ⟨_, ht⟩⟩

theorem sameSession_build (s : State) : SameSession s (build s) := by
  rw [build_frame]
  exact ⟨rfl, rfl, rfl, rfl, rfl⟩

/-- The end of ENC_HEADER leaves E_EMIT with an empty packer, or it waits in E_COUNT. -/
theorem header_session {s : State} (bytes : ByteSeq) (hwf : s.cfg.wf = true) (hp : s.phase = .eCount)
    (hbp : s.bp = []) (hs : s.sealed = false) :
    SessionInv (finish ((pushAll bytes s).andThen (runTodo [.setPhase .eEmit]) [.setPhase .eEmit])) := by
  obtain ⟨t, ⟨hcfg, hphase, -, htbp, hts⟩, hdone | ⟨left, hwait⟩⟩ := pushAll_session bytes s
  · rw [hdone]
    exact (passInv_of_cleared (s := complete { t with phase := .eEmit }) (hcfg ▸ hwf) (htbp.trans hbp)
      (hts.trans hs)).sessionInv rfl
  · rw [hwait]
    have hcount : t.phase = .eCount := hphase.trans hp
    exact {
      firstPass := fun _ => ⟨htbp.trans hbp, hts.trans hs⟩
      headerNext := fun _ _ => ⟨left, rfl⟩
      secondPass := fun h => nomatch hcount.symm.trans h
      drainNext := fun h => nomatch hcount.symm.trans h
      elsewhere := fun h => absurd hcount h }

/-- The flush of ENC_SYM leaves a partial byte, or it waits (R352). -/
theorem flush_session {s : State} (bytes : ByteSeq) (hwf : s.cfg.wf = true) (hp : s.phase = .eEmit)
    (hb : s.busy = true) (hs : s.sealed = false) : SessionInv (finish (runTodo [.push bytes, .keepPartial] s)) := by
  rw [runTodo_cons]
  obtain ⟨t, ⟨hcfg, hphase, hbusy, -, hts⟩, hdone | ⟨left, hwait⟩⟩ := pushAll_session bytes s
  · rw [runMicro, hdone]
    have hflush := (bounds_of_wf hwf).1
    have hemit : t.phase = .eEmit := hphase.trans hp
    refine PassInv.sessionInv (s := complete { t with bp := partialBits t.bp })
      ⟨fun h => (nomatch hemit.symm.trans h), fun _ => ⟨hts.trans hs, ?_⟩⟩ rfl
    show (partialBits t.bp).length < t.cfg.flushBits
    rw [length_partialBits, hcfg]
    omega
  · rw [runMicro, hwait]
    have hemit : t.phase = .eEmit := hphase.trans hp
    exact {
      firstPass := fun h => nomatch hemit.symm.trans h
      headerNext := fun h => nomatch hemit.symm.trans h
      secondPass := fun _ h => absurd ((hbusy.trans hb).symm.trans h) Bool.false_ne_true.symm
      drainNext := fun _ _ => .inl ⟨hts.trans hs, left, rfl⟩
      elsewhere := fun _ h => absurd hemit h }

theorem sessionInv_of_drains {s : State} {drains : List Micro} (hp : s.phase = .eEmit) (hb : s.busy = true)
    (hd : ∀ m ∈ drains, m.isDrain = true) : SessionInv { s with todo := drains ++ [.setPhase .eDone] } where
  firstPass h := nomatch hp.symm.trans h
  headerNext h := nomatch hp.symm.trans h
  secondPass _ h := absurd (hb.symm.trans h) Bool.false_ne_true.symm
  drainNext _ _ := .inr ⟨drains, rfl, hd⟩
  elsewhere _ h := absurd hp h

/-- ENC_FINISH leaves E_DONE, or it waits with drains left to do. -/
theorem drains_session {drains : List Micro} (hd : ∀ m ∈ drains, m.isDrain = true) {s : State}
    (hp : s.phase = .eEmit) (hb : s.busy = true) :
    SessionInv (finish (runTodo (drains ++ [.setPhase .eDone]) s)) := by
  induction drains generalizing s with
  | nil =>
    exact sessionInv_of_offPass (s := complete { s with phase := .eDone }) ⟨Phase.noConfusion, Phase.noConfusion⟩
      fun _ => List.not_mem_nil
  | cons m drains ih =>
    have hrest (m' : Micro) (hm' : m' ∈ drains) : m'.isDrain = true := hd m' (List.mem_cons_of_mem _ hm')
    rw [List.cons_append, runTodo_cons]
    cases m with
    | push bytes =>
      obtain ⟨t, ⟨-, hphase, hbusy, -, -⟩, hdone | ⟨left, hwait⟩⟩ := pushAll_session bytes s
      · rw [runMicro, hdone]
        exact ih hrest (hphase.trans hp) (hbusy.trans hb)
      · rw [runMicro, hwait]
        exact sessionInv_of_drains (drains := .push left :: drains) (hphase.trans hp) (hbusy.trans hb)
          (List.forall_mem_cons.2 ⟨rfl, hrest⟩)
    | keepPartial => exact ih hrest (s := { s with bp := partialBits s.bp }) hp hb
    | sealPacker => exact ih hrest (s := { s with bp := [], sealed := true }) hp hb
    | _ => exact absurd (hd _ List.mem_cons_self) Bool.false_ne_true

/-! ### Every step keeps the session's invariant -/

theorem resume_session {s : State} (hwf : s.cfg.wf = true) (h : SessionInv s) : SessionInv (resume s) := by
  cases hb : s.busy with
  | false =>
    rw [resume_of_idle hb]
    exact h
  | true =>
    rw [resume_of_busy hb]
    by_cases hcount : s.phase = .eCount
    · obtain ⟨bytes, htodo⟩ := h.headerNext hcount hb
      obtain ⟨hbp, hs⟩ := h.firstPass hcount
      rw [htodo]
      exact header_session bytes hwf hcount hbp hs
    · by_cases hemit : s.phase = .eEmit
      · obtain ⟨hs, bytes, htodo⟩ | ⟨drains, htodo, hd⟩ := h.drainNext hemit hb <;> rw [htodo]
        · exact flush_session bytes hwf hemit hb hs
        · exact drains_session hd hemit hb
      · exact (runTodo_offPass (h.elsewhere hcount hemit hb) ⟨hcount, hemit⟩).sessionInv

/-- A command that ends with the packer in order. -/
theorem done_session {s : State} (h : PassInv s) : SessionInv (finish (.done s)) :=
  PassInv.sessionInv (s := complete s) h.same rfl

theorem raise_session (c : Cause) (info : Word) {s : State} (h : PassInv s) : SessionInv (finish (raise c info s)) :=
  PassInv.sessionInv (s := errorEntry c info s) h.same rfl

theorem encHeader_session {s : State} (hwf : s.cfg.wf = true) (h : PassInv s) (hp : s.phase = .eCount) :
    SessionInv (finish ((emitHeader (build s)).andThen (runTodo [.setPhase .eEmit]) [.setPhase .eEmit])) := by
  obtain ⟨hcfg, hphase, -, hbp, hs⟩ := sameSession_build s
  obtain ⟨hbp', hs'⟩ := h.firstPass hp
  unfold emitHeader
  dsimp only
  split
  · exact raise_session _ _ h.build
  · exact header_session _ (hcfg ▸ hwf) (hphase.trans hp) (hbp.trans hbp') (hs.trans hs')

theorem encSym_session {s : State} (hwf : s.cfg.wf = true) (h : PassInv s) (hp : s.phase = .eEmit) (hb : s.busy = true)
    (code : BitSeq) : SessionInv (finish ((appendBits code s).andThen (fun s => flushIfFull (countSym s)) [])) := by
  obtain ⟨hs, -⟩ := h.secondPass hp
  unfold appendBits
  split
  · exact raise_session _ _ h
  · split
    · exact raise_session _ _ h
    · rw [Flow.andThen_done]
      unfold flushIfFull
      split
      · exact flush_session _ hwf hp hb hs
      · rename_i hlt
        exact done_session ⟨fun hc => (nomatch hp.symm.trans hc), fun _ => ⟨hs, Nat.lt_of_not_le hlt⟩⟩

theorem encFinish_session {s : State} (hp : s.phase = .eEmit) (hb : s.busy = true) :
    SessionInv (finish (runTodo (drainAll s ++ [.push [s.tvb.zeroExtend 8], .setPhase .eDone]) s)) := by
  have := drains_session (drains := drainAll s ++ [.push [s.tvb.zeroExtend 8]]) (s := s)
    (by simp [drainAll, drainReady, Micro.isDrain]) hp hb
  rwa [List.append_assoc] at this

theorem ftCount_session (sym : Sym) {s : State} (h : PassInv s) : SessionInv (finish (ftCount sym s)) := by
  unfold ftCount
  split
  · exact raise_session _ _ h
  · split
    · exact raise_session _ _ h
    · exact done_session h.same

theorem exec_session {i : Instr} {s t : State} (hwf : s.cfg.wf = true) (hb : s.busy = true) (h : PassInv s)
    (he : exec i s = .next t) : SessionInv t := by
  obtain ⟨-, rfl⟩ | ⟨hl, rfl⟩ := exec_next_cases he
  · exact raise_session _ _ h
  cases i <;> rw [commandBody]
  case ftCount sym => exact ftCount_session sym h
  case ftClear | ftRead | treeInfo | bpSize | bpTvb | nop => exact done_session h.same
  case tbBuild => exact done_session h.build
  case ctRead sym =>
    cases s.ctRead sym <;> exact done_session h.same
  case nodeRead idx =>
    split <;> exact done_session h.same
  case bpClear | encBegin | decBegin | abort =>
    refine done_session (passInv_of_cleared ?_ rfl rfl)
    exact hwf
  case tsSerialize =>
    split
    · exact raise_session _ _ h
    · exact (emitHeader_offPass (offPass_of_quiescent hl)).sessionInv
  case tsDeserialize | bpDrainReady | bpDrainAll =>
    exact (runTodo_offPass (by simp [drainReady, drainAll]) (offPass_of_quiescent hl)).sessionInv
  case bpAppendBit | bpAppendBits => exact (appendBits_offPass _ (offPass_of_quiescent hl)).sessionInv
  case encHeader => exact encHeader_session hwf h (beq_iff_eq.1 hl)
  case encSym sym =>
    split
    · exact raise_session _ _ h
    · exact encSym_session hwf h (beq_iff_eq.1 hl) hb _
  case encFinish => exact encFinish_session (beq_iff_eq.1 hl) hb
  case decChunk idx => exact (runTodo_offPass (by simp) (offPass_of_decoding hl)).sessionInv
  case decEnd => exact (decEnd_offPass (offPass_of_decoding hl)).sessionInv

theorem offerCommand_session {w : Word} {s t : State} (hwf : s.cfg.wf = true) (h : SessionInv s)
    (he : offerCommand w s = .next t) : SessionInv t := by
  unfold offerCommand at he
  split at he
  · cases he
    exact resume_session (s := { s with cmdOvr := true }) hwf h.same
  · rename_i hidle
    split at he
    · cases he
      exact h
    · have hpass : PassInv (accept w s) := (h.passInv (Bool.eq_false_of_not_eq_true hidle)).same
      unfold executeWord at he
      split at he
      · exact exec_session (s := accept w s) hwf rfl hpass he
      · cases he
        exact raise_session _ _ hpass

theorem hostWrite_session (off : BitVec 8) (v : Word) {s : State} (hwf : s.cfg.wf = true) (h : SessionInv s) :
    SessionInv (hostWrite off v s) := by
  unfold hostWrite
  split
  · split
    · exact (passInv_of_cleared (s := hardwareReset s) hwf rfl rfl).sessionInv rfl
    · exact h
  · split <;> exact h.same
  · exact h.same
  · unfold pushIn
    split <;> exact h.same
  · exact h.same
  · exact h

theorem hostAccess_session {a : HostAccess} {s t : State} (hwf : s.cfg.wf = true) (h : SessionInv s)
    (he : hostAccess a s = .next t) : SessionInv t := by
  cases a with
  | idle => cases he; exact resume_session hwf h
  | rst => cases he; exact (passInv_of_cleared (s := hardwareReset s) hwf rfl rfl).sessionInv rfl
  | read off => cases he; exact resume_session (s := hostRead off s) hwf h.same
  | write off v =>
    simp only [hostAccess] at he
    split at he
    · exact offerCommand_session hwf h he
    · cases he
      exact resume_session ((cfg_closed s.cfg).hostWrite off v rfl ▸ hwf) (hostWrite_session off v hwf h)

theorem step_session {s t : State} (hwf : s.cfg.wf = true) (h : SessionInv s) (he : step s = .next t) :
    SessionInv t := by
  unfold step at he
  split at he
  · cases he
    exact resume_session (s := { s with credit := none }) hwf h.same
  · rename_i hd rest _
    exact hostAccess_session (s := takeStep hd rest s) hwf h.same he

/-- Settles O59: the packer is written by appends, drains and clears; and in a session each command in flight is on its
way to the phase that its operations left to do say. -/
theorem packerInvariantKept : Obligations.PackerInvariantKept :=
  ⟨fun _ _ h he => step_keeps packerInv_closed.stepClosed h he, fun _ _ hwf h he => step_session hwf h he⟩

/-! ### The reset state (R68) -/

theorem flagsInv_reset (c : Config) : FlagsInv (State.resetWith c) where
  notBoth h := nomatch h.1
  errRegs _ := ⟨rfl, rfl, rfl⟩
  busyFlags h := nomatch h
  idleNoTodo _ := rfl

/-- Settles O60: every memory and FIFO is empty, and no command is in flight. -/
theorem resetMeetsTheInvariants : Obligations.ResetMeetsTheInvariants := fun c hwf =>
  { flags := flagsInv_reset c
    blocking := fun h => nomatch h
    fifos := ⟨Nat.zero_le _, Nat.zero_le _⟩
    ft := ftInv_of_empty rfl rfl
    noTree := fun _ => ⟨rfl, rfl, rfl⟩
    ct := ctInv_of_empty rfl TState.noConfusion
    packer := ⟨Nat.zero_le _, Nat.zero_le _, fun _ => rfl, fun _ => rfl, fun _ => rfl⟩
    session := (passInv_of_cleared (s := State.resetWith c) hwf rfl rfl).sessionInv rfl
    pend := Nat.zero_le _ }

end Sys2Proof.Machine
end

section
/-! What a command leaves unchanged (spec/10_state.md R36, R39, R46; spec/20_memory.md R112), by the tables of the
commands that write each group of registers, memory and FIFO. -/

namespace Sys2Proof.Machine

/-- `t` comes from `s` by writes that the command `i` may make. -/
structure Kept (i : Instr) (s t : State) : Prop where
  host    : t.arg = s.arg ∧ t.doneIe = s.doneIe ∧ t.errIe = s.errIe ∧ t.cmdWord = s.cmdWord ∧ t.cmdArg = s.cmdArg ∧
    t.cfg = s.cfg ∧ t.script = s.script ∧ t.reads = s.reads
  results : isQuery i = true ∨ (t.result0 = s.result0 ∧ t.result1 = s.result1 ∧ t.result2 = s.result2)
  ft      : writesFt i = true ∨ (t.ft = s.ft ∧ t.total = s.total)
  tree    : writesTree i = true ∨ (t.tstate = s.tstate ∧ t.nodes = s.nodes ∧ t.root = s.root ∧ t.ct = s.ct)
  packer  : writesPacker i = true ∨ (t.bp = s.bp ∧ t.tvb = s.tvb ∧ t.sealed = s.sealed)
  decoder : writesDecoder i = true ∨ (t.hlen = s.hlen ∧ t.dpos = s.dpos ∧ t.pend = s.pend ∧ t.cur = s.cur)
  hbuf    : writesDecoder i = true ∨ i = .tsDeserialize ∨ t.hbuf = s.hbuf
  inFifo  : writesIn i = true ∨ t.inFifo = s.inFifo
  outFifo : writesOut i = true ∨ t.outFifo = s.outFifo
  overrun : i = .abort ∨ (t.cmdOvr = s.cmdOvr ∧ t.inOvr = s.inOvr)

variable {i : Instr} {s t : State}

theorem Kept.refl (i : Instr) (s : State) : Kept i s s :=
  ⟨⟨rfl, rfl, rfl, rfl, rfl, rfl, rfl, rfl⟩, .inr ⟨rfl, rfl, rfl⟩, .inr ⟨rfl, rfl⟩, .inr ⟨rfl, rfl, rfl, rfl⟩,
    .inr ⟨rfl, rfl, rfl⟩, .inr ⟨rfl, rfl, rfl, rfl⟩, .inr (.inr rfl), .inr rfl, .inr rfl, .inr ⟨rfl, rfl⟩⟩

/-- A further write, of groups that `i` may write or that keep their values. -/
theorem Kept.trans {u : State} (h : Kept i s t) (h' : Kept i t u) : Kept i s u := by
  obtain ⟨⟨a1, a2, a3, a4, a5, a6, a7, a8⟩, hres, hft, htree, hpk, hdec, hbuf, hin, hout, hovr⟩ := h
  obtain ⟨⟨b1, b2, b3, b4, b5, b6, b7, b8⟩, hres', hft', htree', hpk', hdec', hbuf', hin', hout', hovr'⟩ := h'
  refine ⟨⟨b1.trans a1, b2.trans a2, b3.trans a3, b4.trans a4, b5.trans a5, b6.trans a6, b7.trans a7, b8.trans a8⟩,
    ?_, ?_, ?_, ?_, ?_, ?_, ?_, ?_, ?_⟩
  · exact hres.elim .inl fun ⟨e1, e2, e3⟩ => hres'.imp_right fun ⟨d1, d2, d3⟩ =>
      ⟨d1.trans e1, d2.trans e2, d3.trans e3⟩
  · exact hft.elim .inl fun ⟨e1, e2⟩ => hft'.imp_right fun ⟨d1, d2⟩ => ⟨d1.trans e1, d2.trans e2⟩
  · exact htree.elim .inl fun ⟨e1, e2, e3, e4⟩ => htree'.imp_right fun ⟨d1, d2, d3, d4⟩ =>
      ⟨d1.trans e1, d2.trans e2, d3.trans e3, d4.trans e4⟩
  · exact hpk.elim .inl fun ⟨e1, e2, e3⟩ => hpk'.imp_right fun ⟨d1, d2, d3⟩ =>
      ⟨d1.trans e1, d2.trans e2, d3.trans e3⟩
  · exact hdec.elim .inl fun ⟨e1, e2, e3, e4⟩ => hdec'.imp_right fun ⟨d1, d2, d3, d4⟩ =>
      ⟨d1.trans e1, d2.trans e2, d3.trans e3, d4.trans e4⟩
  · exact hbuf.elim .inl fun e => e.elim (fun hi => .inr (.inl hi)) fun e => hbuf'.imp_right fun d =>
      d.imp_right fun d => d.trans e
  · exact hin.elim .inl fun e => hin'.imp_right fun d => d.trans e
  · exact hout.elim .inl fun e => hout'.imp_right fun d => d.trans e
  · exact hovr.elim .inl fun ⟨e1, e2⟩ => hovr'.imp_right fun ⟨d1, d2⟩ => ⟨d1.trans e1, d2.trans e2⟩

/-- One write: the groups that it changes are named with `i`'s permission, the others keep their values. -/
theorem Kept.write {u : State} (h : Kept i s t)
    (host : u.arg = t.arg ∧ u.doneIe = t.doneIe ∧ u.errIe = t.errIe ∧ u.cmdWord = t.cmdWord ∧ u.cmdArg = t.cmdArg ∧
      u.cfg = t.cfg ∧ u.script = t.script ∧ u.reads = t.reads := by exact ⟨rfl, rfl, rfl, rfl, rfl, rfl, rfl, rfl⟩)
    (results : isQuery i = true ∨ (u.result0 = t.result0 ∧ u.result1 = t.result1 ∧ u.result2 = t.result2) := by
      exact .inr ⟨rfl, rfl, rfl⟩)
    (ft : writesFt i = true ∨ (u.ft = t.ft ∧ u.total = t.total) := by exact .inr ⟨rfl, rfl⟩)
    (tree : writesTree i = true ∨ (u.tstate = t.tstate ∧ u.nodes = t.nodes ∧ u.root = t.root ∧ u.ct = t.ct) := by
      exact .inr ⟨rfl, rfl, rfl, rfl⟩)
    (packer : writesPacker i = true ∨ (u.bp = t.bp ∧ u.tvb = t.tvb ∧ u.sealed = t.sealed) := by
      exact .inr ⟨rfl, rfl, rfl⟩)
    (decoder : writesDecoder i = true ∨ (u.hlen = t.hlen ∧ u.dpos = t.dpos ∧ u.pend = t.pend ∧ u.cur = t.cur) := by
      exact .inr ⟨rfl, rfl, rfl, rfl⟩)
    (hbuf : writesDecoder i = true ∨ i = .tsDeserialize ∨ u.hbuf = t.hbuf := by exact .inr (.inr rfl))
    (inFifo : writesIn i = true ∨ u.inFifo = t.inFifo := by exact .inr rfl)
    (outFifo : writesOut i = true ∨ u.outFifo = t.outFifo := by exact .inr rfl)
    (overrun : i = .abort ∨ (u.cmdOvr = t.cmdOvr ∧ u.inOvr = t.inOvr) := by exact .inr ⟨rfl, rfl⟩) : Kept i s u :=
  h.trans ⟨host, results, ft, tree, packer, decoder, hbuf, inFifo, outFifo, overrun⟩

/-! ### The shared operations -/

theorem Kept.finish {f : Flow} (h : f.Holds (Kept i s)) : Kept i s (finish f) := by
  cases f with
  | done t => exact Kept.write (t := t) h
  | wait t rest => exact Kept.write (t := t) h
  | raised t => exact h

theorem Kept.raise (h : Kept i s t) (c : Cause) (info : Word) : (raise c info t).Holds (Kept i s) := h.write

theorem kept_pushClosed (hout : writesOut i = true) : PushClosed (Kept i s) where
  push _ _ _ h := h.write (outFifo := .inl hout)

theorem kept_walkClosed (hout : writesOut i = true) (hdec : writesDecoder i = true) : WalkClosed (Kept i s) where
  push := (kept_pushClosed hout).push
  count _ h := h.write
  cur _ _ h := h.write (decoder := .inl hdec)
  error _ _ _ h := h.write

theorem Kept.load (htree : writesTree i = true) (hdr : ByteSeq) (h : Kept i s t) :
    (loadTree hdr t).Holds (Kept i s) := by
  obtain ⟨sub, pos, -, hl⟩ | ⟨-, hl⟩ | ⟨nodes, -, hl⟩ := loadTree_cases hdr t <;> rw [hl]
  · exact h.write (u := errorEntry .malformedTree (malformedInfo sub pos) (treeClear t)) (tree := .inl htree)
  · exact h.write (u := { treeClear t with tstate := .absent }) (tree := .inl htree)
  · rw [assignCodes_frame]
    exact h.write (tree := .inl htree)

theorem kept_feedClosed (hout : writesOut i = true) (hdec : writesDecoder i = true) (htree : writesTree i = true) :
    FeedClosed (Kept i s) where
  toWalkClosed := kept_walkClosed hout hdec
  load hdr _ h := h.load htree hdr
  phase _ _ h := h.write
  dpos _ _ h := h.write (decoder := .inl hdec)
  hlen _ _ h := h.write (decoder := .inl hdec)
  hbuf _ _ h := h.write (hbuf := .inl hdec)
  pend _ _ _ h := h.write (decoder := .inl hdec)

theorem Kept.build (htree : writesTree i = true) (h : Kept i s t) : Kept i s (build t) := by
  rw [build_frame]
  exact h.write (tree := .inl htree)

theorem Kept.emitHeader (hout : writesOut i = true) (h : Kept i s t) : (emitHeader t).Holds (Kept i s) := by
  unfold Machine.emitHeader
  dsimp only
  split
  · exact h.raise _ _
  · exact pushAll_holds (kept_pushClosed hout) _ h

theorem Kept.appendBits (hpk : writesPacker i = true) (h : Kept i s t) (seq : BitSeq) :
    (appendBits seq t).Holds (Kept i s) := by
  unfold Machine.appendBits
  split
  · exact h.raise _ _
  · split
    · exact h.raise _ _
    · exact h.write (u := { t with bp := t.bp ++ seq, tvb := tvbAfter t.tvb seq.length }) (packer := .inl hpk)

theorem Kept.ftCount (hft : writesFt i = true) (h : Kept i s t) (sym : Sym) : (ftCount sym t).Holds (Kept i s) := by
  unfold Machine.ftCount
  split
  · exact h.raise _ _
  · split
    · exact h.raise _ _
    · exact h.write (u := { t with ft := symInsert t.ft sym (t.ftRead sym + 1#32), total := t.total + 1#32 })
        (ft := .inl hft)

/-- The operations of a drain. -/
theorem Kept.drains (hout : writesOut i = true) (hpk : writesPacker i = true) {ms : List Micro}
    (hms : ∀ m ∈ ms, m.isDrain = true ∨ ∃ p, m = .setPhase p) (h : Kept i s t) : (runTodo ms t).Holds (Kept i s) := by
  induction ms generalizing t with
  | nil => exact h
  | cons m ms ih =>
    have hrest : ∀ u, Kept i s u → (runTodo ms u).Holds (Kept i s) :=
      fun u hu => ih (fun m' hm' => hms m' (List.mem_cons_of_mem _ hm')) hu
    refine Flow.holds_andThen ?_ hrest
    obtain hm | ⟨p, rfl⟩ := hms m List.mem_cons_self
    · cases m with
      | push bytes => exact pushAll_holds (kept_pushClosed hout) _ h
      | keepPartial => exact h.write (u := { t with bp := partialBits t.bp }) (packer := .inl hpk)
      | sealPacker => exact h.write (u := { t with bp := [], sealed := true }) (packer := .inl hpk)
      | _ => cases hm
    · exact h.write (u := { t with phase := p })

theorem Kept.pop (hin : writesIn i = true) (h : Kept i s t) (rest : ByteSeq) :
    Kept i s { t.spend with inFifo := rest } := h.write (inFifo := .inl hin)

theorem Kept.chunkLoop (hf : FeedClosed (Kept i s)) (hin : writesIn i = true) (n : Nat) (h : Kept i s t) :
    (chunkLoop n t).Holds (Kept i s) := by
  induction n generalizing t with
  | zero => exact h
  | succ n ih =>
    rw [Machine.chunkLoop]
    split
    · exact h
    · rename_i b u hpop
      obtain ⟨rest, -, -, rfl⟩ := popIn_some hpop
      exact Flow.holds_andThen (feed_holds hf b (h.pop hin rest)) fun _ hu => ih hu

/-- TS_DESERIALIZE's reads. -/
theorem kept_hdrBody (n : Nat) (h : Kept .tsDeserialize s t) : (hdrBody n t).Holds (Kept .tsDeserialize s) := by
  induction n generalizing t with
  | zero => exact h.load rfl _
  | succ n ih =>
    rw [hdrBody]
    split
    · exact h
    · rename_i b u hpop
      obtain ⟨rest, -, -, rfl⟩ := popIn_some hpop
      exact ih ((h.pop rfl rest).write (hbuf := .inr (.inl rfl)))

theorem kept_hdrHi (lo : Byte) (h : Kept .tsDeserialize s t) : (hdrHi lo t).Holds (Kept .tsDeserialize s) := by
  rw [hdrHi]
  split
  · exact h
  · rename_i b u hpop
    obtain ⟨rest, -, -, rfl⟩ := popIn_some hpop
    exact kept_hdrBody _ ((h.pop rfl rest).write (hbuf := .inr (.inl rfl)))

theorem kept_hdrLo (h : Kept .tsDeserialize s t) : (hdrLo t).Holds (Kept .tsDeserialize s) := by
  rw [hdrLo]
  split
  · exact h
  · rename_i b u hpop
    obtain ⟨rest, -, -, rfl⟩ := popIn_some hpop
    exact kept_hdrHi _ (h.pop rfl rest)

theorem kept_decTail (h : Kept .decEnd s t) : (decTail t).Holds (Kept .decEnd s) := by
  unfold decTail
  split
  · exact h.raise _ _
  · exact h.write (u := { t with phase := .dDone })

theorem kept_decEnd (s : State) : (decEnd s).Holds (Kept .decEnd s) := by
  have h := Kept.refl .decEnd s
  have hdone : Kept .decEnd s { s with phase := .dDone } := h.write
  have habsent : (decEndAbsent s).Holds (Kept .decEnd s) := by
    unfold decEndAbsent
    split
    · exact h.raise _ _
    · split
      · exact h.raise _ _
      · exact hdone
    · exact h.raise _ _
  have hpresent : (decEndPresent s).Holds (Kept .decEnd s) := by
    unfold decEndPresent
    split
    · exact h.raise _ _
    · exact h.raise _ _
    · split
      · exact h.raise _ _
      · exact Flow.holds_andThen (walkBits_holds (kept_walkClosed rfl rfl) _ _ h) fun _ => kept_decTail
  unfold decEnd
  cases s.phase with
  | dLen0 | dLen1 | dHdr => exact h.raise _ _
  | _ =>
    cases s.tstate with
    | absent => exact habsent
    | _ => exact hpresent

/-! ### Every command -/

/-- Every command's pseudocode writes what the tables name for it. -/
theorem commandBody_kept (i : Instr) (s : State) : (commandBody i s).Holds (Kept i s) := by
  have h := Kept.refl i s
  cases i <;> rw [commandBody]
  case ftClear => exact h.write (u := ftClear s) (ft := .inl rfl)
  case ftCount sym => exact h.ftCount rfl sym
  case ftRead | treeInfo | bpSize | bpTvb => exact Flow.holds_done.2 (h.write (results := .inl rfl))
  case tbBuild => exact h.build rfl
  case ctRead sym => cases s.ctRead sym <;> exact Flow.holds_done.2 (h.write (results := .inl rfl))
  case nodeRead idx => split <;> exact Flow.holds_done.2 (h.write (results := .inl rfl))
  case tsSerialize =>
    split
    · exact h.raise _ _
    · exact h.emitHeader rfl
  case tsDeserialize =>
    rw [runTodo_singleton]
    exact kept_hdrLo h
  case bpClear => exact h.write (u := bpClear s) (packer := .inl rfl)
  case bpAppendBit | bpAppendBits => exact h.appendBits rfl _
  case bpDrainReady | bpDrainAll => exact h.drains rfl rfl (by simp [drainReady, drainAll, Micro.isDrain])
  case encBegin =>
    exact h.write (u := { clearSession s with phase := .eCount }) (ft := .inl rfl) (tree := .inl rfl)
      (packer := .inl rfl) (decoder := .inl rfl) (hbuf := .inl rfl)
  case encHeader =>
    exact Flow.holds_andThen ((h.build rfl).emitHeader rfl) fun t ht => ht.write (u := { t with phase := .eEmit })
  case encSym sym =>
    split
    · exact h.raise _ _
    · refine Flow.holds_andThen (h.appendBits rfl _) fun t ht => ?_
      unfold flushIfFull
      split
      · exact Kept.drains rfl rfl (by simp [drainReady, Micro.isDrain]) (t := countSym t) ht.write
      · exact ht.write (u := countSym t)
  case encFinish => exact h.drains rfl rfl (by simp [drainReady, drainAll, Micro.isDrain])
  case decBegin =>
    exact h.write (u := { clearSession s with phase := .dLen0 }) (ft := .inl rfl) (tree := .inl rfl)
      (packer := .inl rfl) (decoder := .inl rfl) (hbuf := .inl rfl)
  case decChunk idx =>
    rw [runTodo_singleton]
    exact h.chunkLoop (kept_feedClosed rfl rfl rfl) rfl _
  case decEnd => exact kept_decEnd s
  case nop => exact h
  case abort =>
    exact h.write (u := abortClear s) (ft := .inl rfl) (tree := .inl rfl) (packer := .inl rfl) (decoder := .inl rfl)
      (hbuf := .inl rfl) (inFifo := .inl rfl) (outFifo := .inl rfl) (overrun := .inl rfl)

/-- A command that ends, waits or raises has written what the tables name for it. -/
theorem exec_kept (h : exec i s = .next t) : Kept i s t := by
  obtain ⟨-, rfl⟩ | ⟨-, rfl⟩ := exec_next_cases h
  · exact (Kept.refl i s).raise _ _
  · exact Kept.finish (commandBody_kept i s)

/-- Settles O51: no command has a permission to write the host's registers, the latched word or the build. -/
theorem whatNoCommandWrites : Obligations.WhatNoCommandWrites :=
  ⟨fun _ _ _ h => (exec_kept h).host, fun _ _ h => step_cfg h⟩

/-- A group that the command has no permission to write. -/
theorem eq_of_not_written {w : Bool} {p : Prop} (h : w = true ∨ p) (hw : w = false) : p :=
  h.resolve_left (by rw [hw]; exact Bool.false_ne_true)

/-- Settles O52: each command's writes are within the tables' permissions. -/
theorem eachMemoryHasItsWriters : Obligations.EachMemoryHasItsWriters := by
  intro i s t h
  obtain ⟨-, hres, hft, htree, hpk, hdec, hbuf, hin, hout, hovr⟩ := exec_kept h
  exact ⟨eq_of_not_written hres, eq_of_not_written hft, eq_of_not_written htree, eq_of_not_written hpk,
    eq_of_not_written hdec, fun hw hi => (eq_of_not_written hbuf hw).resolve_left hi, eq_of_not_written hin,
    eq_of_not_written hout, hovr.resolve_left⟩

end Sys2Proof.Machine
end

section
/-! The register window (spec/10_state.md R30 to R51; spec/20_memory.md R101 to R107): the fields of its composed words,
and what one host access does. -/

namespace Sys2Proof.Machine

/-! ### Composed words -/

theorem toNat_append_eq {n m : Nat} (x : BitVec n) (y : BitVec m) : (x ++ y).toNat = 2 ^ m * x.toNat + y.toNat := by
  rw [BitVec.toNat_append, ← Nat.shiftLeft_add_eq_or_of_lt y.isLt, Nat.shiftLeft_eq, Nat.mul_comm]

theorem toNat_ofBool_eq (b : Bool) : (BitVec.ofBool b).toNat = bitNat b := by cases b <;> rfl

theorem phase_code_toNat (p : Phase) : p.code.toNat = allPhases.idxOf p := by cases p <;> rfl

theorem outEmpty_eq (s : State) : s.outEmpty = decide (s.outFifo.length = 0) := by
  rw [State.outEmpty]
  cases s.outFifo <;> rfl

/-- The fields of STATUS as a number (R34). -/
theorem status_toNat {s : State} (h : s.pend.length ≤ 2) :
    s.status.toNat =
      bitNat s.busy + 2 * bitNat s.err + 4 * bitNat s.done + 8 * bitNat s.cmdOvr + 16 * bitNat s.inOvr +
      32 * bitNat s.inFull + 64 * bitNat s.outEmpty + 128 * bitNat s.waitIn + 256 * bitNat s.waitOut +
      4096 * s.phase.code.toNat + 65536 * s.tstate.code.toNat + 262144 * s.pend.length +
      1048576 * bitNat s.sealed := by
  have hpend : s.pendCount.toNat = s.pend.length := Nat.mod_eq_of_lt (by omega)
  simp only [State.status, toNat_append_eq, toNat_ofBool_eq, hpend, BitVec.toNat_ofNat]
  omega

theorem getLsbD_append_ofBool_zero {n : Nat} (x : BitVec n) (b : Bool) : (x ++ BitVec.ofBool b).getLsbD 0 = b := by
  rw [BitVec.getLsbD_append]
  simp

theorem getLsbD_append_ofBool_succ {n : Nat} (x : BitVec n) (b : Bool) (k : Nat) :
    (x ++ BitVec.ofBool b).getLsbD (k + 1) = x.getLsbD k := by
  simp [BitVec.getLsbD_append]

/-- The bits of STATUS that `irq` depends on. -/
theorem status_err (s : State) : s.status.getLsbD 1 = s.err :=
  (getLsbD_append_ofBool_succ _ _ 0).trans (getLsbD_append_ofBool_zero _ _)

theorem status_done (s : State) : s.status.getLsbD 2 = s.done :=
  (getLsbD_append_ofBool_succ _ _ 1).trans
    ((getLsbD_append_ofBool_succ _ _ 0).trans (getLsbD_append_ofBool_zero _ _))

theorem irqEn_doneIe (s : State) : s.irqEn.getLsbD 0 = s.doneIe := getLsbD_append_ofBool_zero _ _

theorem irqEn_errIe (s : State) : s.irqEn.getLsbD 1 = s.errIe :=
  (getLsbD_append_ofBool_succ _ _ 0).trans (getLsbD_append_ofBool_zero _ _)

/-- Settles O46: STATUS is its fields one after another, and a phase's number is its place in R55's table. -/
theorem statusShowsItsFields : Obligations.StatusShowsItsFields := by
  intro s h
  change s.status.toNat = _ ∧
    s.irq = ((s.status.getLsbD 2 && s.irqEn.getLsbD 0) || (s.status.getLsbD 1 && s.irqEn.getLsbD 1))
  constructor
  · rw [status_toNat h, outEmpty_eq, phase_code_toNat]
    cases s.tstate <;> rfl
  · rw [status_done, status_err, irqEn_doneIe, irqEn_errIe, State.irq]

theorem param_toNat {s : State} (h : s.cfg.maxSyms ≤ 2 ^ 16) :
    s.param.toNat = (if s.cfg.codec = .utf8 then 1 else 0) + 65536 * (s.cfg.maxSyms - 1) := by
  have hmax : (BitVec.ofNat 16 (s.cfg.maxSyms - 1)).toNat = s.cfg.maxSyms - 1 := Nat.mod_eq_of_lt (by omega)
  simp only [State.param, toNat_append_eq, toNat_ofBool_eq, hmax, BitVec.toNat_ofNat, bitNat, beq_iff_eq]
  omega

theorem fifoDepth_toNat {s : State} (hi : s.cfg.inDepth ≤ 65535) (ho : s.cfg.outDepth ≤ 65535) :
    s.fifoDepth.toNat = s.cfg.inDepth + 65536 * s.cfg.outDepth := by
  have h1 : (BitVec.ofNat 16 s.cfg.inDepth).toNat = s.cfg.inDepth := Nat.mod_eq_of_lt (by omega)
  have h2 : (BitVec.ofNat 16 s.cfg.outDepth).toNat = s.cfg.outDepth := Nat.mod_eq_of_lt (by omega)
  simp only [State.fifoDepth, toNat_append_eq, h1, h2]
  omega

/-- IRQ_EN as a number (R46). -/
theorem irqEn_eq (s : State) : s.irqEn = BitVec.ofNat 32 (bitNat s.doneIe + 2 * bitNat s.errIe) := by
  rw [State.irqEn]
  cases s.doneIe <;> cases s.errIe <;> rfl

/-- PARAM in two halves (R32). -/
theorem param_eq (s : State) :
    s.param = BitVec.ofNat 16 (s.cfg.maxSyms - 1) ++ (if s.cfg.codec = .utf8 then 1#16 else 0#16) := by
  refine BitVec.eq_of_toNat_eq ?_
  simp only [State.param, toNat_append_eq, toNat_ofBool_eq, bitNat, beq_iff_eq]
  split <;> simp only [BitVec.toNat_ofNat] <;> omega

/-! ### After reset -/

/-- Bits 1:0 of an offset do not matter (R104): a slot's register is read at the slot's first offset. -/
theorem readReg_of_slot {off : BitVec 8} {n : Nat} (h : off.toNat / 4 = n) (s : State) :
    readReg off s = readReg (BitVec.ofNat 8 (4 * n)) s := by
  have hlt := off.isLt
  have hn : regIndex (BitVec.ofNat 8 (4 * n)) = regIndex off := by
    rw [regIndex, regIndex, BitVec.toNat_ofNat, Nat.mod_eq_of_lt (by omega), h]
    omega
  rw [readReg, readReg, hn]

/-- A reserved slot above the registers reads 0 (R102). -/
theorem readReg_of_reserved {off : BitVec 8} (h : 21 ≤ off.toNat / 4) (s : State) : readReg off s = 0#32 := by
  unfold readReg regIndex
  split
  case h_19 => rfl
  all_goals omega

theorem status_reset {c : Config} (h : 1 ≤ c.inDepth) : (State.resetWith c).status.toNat = 0x40 := by
  have hfull : (State.resetWith c).inFull = false := beq_eq_false_iff_ne.2 (Nat.ne_of_lt h)
  rw [status_toNat (s := State.resetWith c) (Nat.zero_le 2), hfull]
  rfl

/-- Settles O50: each register's value in the reset state, and 0 in every slot without a readable register. -/
theorem windowAfterReset : Obligations.WindowAfterReset := by
  intro c hwf s
  obtain ⟨-, hflush, hcap, hin1, hin, hout⟩ := bounds_of_wf hwf
  have hmax := maxSyms_le_of_wf hwf
  refine ⟨status_reset hin1, rfl, rfl, fun off hoff => ?_,
    param_toNat (s := State.resetWith c) (hmax.trans (by decide)),
    fifoDepth_toNat hin hout, Nat.mod_eq_of_lt (show c.flushBits < 2 ^ 32 by omega),
    Nat.mod_eq_of_lt (show c.bpCapBits < 2 ^ 32 by omega)⟩
  rcases hoff with hoff | hoff
  · have hlevels : s.levels = 0#32 := by
      show BitVec.ofNat 16 0 ++ BitVec.ofNat 16 0 = 0#32
      decide
    have hirqEn : s.irqEn = 0#32 := irqEn_eq s
    have hzero : ∀ n ∈ [2, 4, 5, 6, 7, 8, 9, 10, 11, 12, 13, 14, 15, 16, 17],
        readReg (BitVec.ofNat 8 (4 * n)) s = 0#32 := by
      simp only [List.forall_mem_cons, List.not_mem_nil, false_implies, implies_true, and_true]
      exact ⟨rfl, rfl, rfl, rfl, rfl, rfl, rfl, rfl, rfl, rfl, rfl, hlevels, hirqEn, rfl, rfl⟩
    exact (readReg_of_slot rfl s).trans (hzero _ hoff)
  · exact readReg_of_reserved hoff s

/-! ### One access -/

theorem step_of_script {s : State} {h : HostStep} {rest : List HostStep} (hs : s.script = h :: rest) :
    step s = hostAccess h.access (takeStep h rest s) := by
  rw [step, hs]

/-- A command in flight goes on; an idle core does nothing. -/
theorem resume_cases (s : State) {o : Host.Outcome State Fault Refusal} (h : o = .next (resume s)) :
    (s.busy = false → o = .next s) ∧ (s.busy = true → o = .next (resume s)) :=
  ⟨fun hb => by rw [h, resume_of_idle hb], fun _ => h⟩

/-- What a read returns does not depend on the host's program. -/
theorem readReg_takeStep (off : BitVec 8) (h : HostStep) (rest : List HostStep) (s : State) :
    readReg off (takeStep h rest s) = readReg off s := rfl

/-- Settles O47: the read's value is `readReg` of its slot. -/
theorem readsOfTheWindow : Obligations.ReadsOfTheWindow := by
  intro s off k rest slot hs hslot
  have hstep : step s = .next (resume (hostRead off (takeStep { access := .read off, credit := k } rest s))) :=
    step_of_script hs
  have hafter : hostRead off (takeStep { access := .read off, credit := k } rest s) =
      { s with script := rest, credit := k, reads := s.reads ++ [(off, readReg off s)]
               statusSeen := s.statusSeen || (decide (slot = 3) && !s.busy)
               outFifo := if slot = 13 then s.outFifo.drop 1 else s.outFifo } := by
    rw [hostRead, readReg_takeStep, regIndex, hslot]
    rfl
  rw [hafter] at hstep
  obtain ⟨hidle, hbusy⟩ := resume_cases _ hstep
  refine ⟨readReg off s, hidle, hbusy, ?_⟩
  have hread (n : Nat) (h : slot = n) : readReg off s = readReg (BitVec.ofNat 8 (4 * n)) s :=
    readReg_of_slot (hslot.trans h) s
  refine ⟨hread 13, hread 0, hread 5, hread 6, fun h => (hread 1 h).trans (param_eq s), hread 7, hread 8, hread 9,
    hread 10, hread 11, hread 16, hread 17, hread 3, hread 14, fun h => (hread 15 h).trans (irqEn_eq s), hread 18,
    hread 19, hread 20, ?_⟩
  rintro (h | h)
  · simp only [List.mem_cons, List.not_mem_nil, or_false] at h
    rcases h with h | h | h
    · exact hread 2 h
    · exact hread 4 h
    · exact hread 12 h
  · exact readReg_of_reserved (hslot.symm ▸ h) s

/-- A write to another register than CMD acts, and then a command in flight goes on. -/
theorem step_of_write {s : State} {off : BitVec 8} {v : Word} {k : Option Nat} {rest : List HostStep}
    (hs : s.script = { access := .write off v, credit := k } :: rest) (hoff : off.toNat / 4 ≠ 4) :
    step s = .next (resume (hostWrite off v { s with script := rest, credit := k })) := by
  rw [step_of_script hs]
  exact if_neg hoff

/-! ### What a write does, register by register -/

section
variable {off : BitVec 8}

theorem hostWrite_arg (h : off.toNat / 4 = 5) (v : Word) (s : State) : hostWrite off v s = { s with arg := v } := by
  rw [hostWrite, regIndex, h]
  rfl

theorem hostWrite_irqEn (h : off.toNat / 4 = 15) (v : Word) (s : State) :
    hostWrite off v s = { s with doneIe := v.getLsbD 0, errIe := v.getLsbD 1 } := by
  rw [hostWrite, regIndex, h]
  rfl

theorem hostWrite_status (h : off.toNat / 4 = 3) (v : Word) (s : State) :
    hostWrite off v s = { s with done := s.done && !v.getLsbD 2 } := by
  rw [hostWrite, regIndex, h]
  cases v.getLsbD 2 <;> simp

theorem hostWrite_dataIn (h : off.toNat / 4 = 12) (v : Word) (s : State) :
    hostWrite off v s = pushIn (v.extractLsb' 0 8) s := by
  rw [hostWrite, regIndex, h]
  rfl

theorem hostWrite_ctrl (h : off.toNat / 4 = 2) {v : Word} (hv : v.getLsbD 0 = false) (s : State) :
    hostWrite off v s = s := by
  rw [hostWrite, regIndex, h, hv]
  rfl

/-- A write to a read-only or a reserved slot is ignored (R102). -/
theorem hostWrite_ignored (h : off.toNat / 4 ∉ [2, 3, 5, 12, 15]) (v : Word) (s : State) : hostWrite off v s = s := by
  unfold hostWrite regIndex
  split
  case h_6 => rfl
  all_goals rename_i hslot; rw [hslot] at h; exact absurd (by decide) h

end

/-- Settles O48: the write's effect is `hostWrite` of its slot. -/
theorem writesOfTheWindow : Obligations.WritesOfTheWindow := by
  intro s off v k rest slot hs hslot s1 goesOn
  subst hslot
  have hgo {t : State} (h4 : off.toNat / 4 ≠ 4) (ht : hostWrite off v s1 = t) (hb : t.busy = s.busy) : goesOn t := by
    obtain ⟨hidle, hbusy⟩ := resume_cases t (ht ▸ step_of_write hs h4)
    exact ⟨fun h => hidle (hb.trans h), fun h => hbusy (hb.trans h)⟩
  refine ⟨fun h hroom => ?_, fun h hfull => ?_, fun h => hgo (by omega) (hostWrite_arg h v s1) rfl,
    fun h => hgo (by omega) (hostWrite_irqEn h v s1) rfl, fun h => hgo (by omega) (hostWrite_status h v s1) rfl,
    fun h hv => hgo (by omega) (hostWrite_ctrl h hv s1) rfl, fun h => ?_⟩
  · exact hgo (by omega) ((hostWrite_dataIn h v s1).trans (if_pos hroom)) rfl
  · exact hgo (by omega) ((hostWrite_dataIn h v s1).trans (if_neg (Nat.not_lt.2 hfull))) rfl
  · simp only [List.mem_cons, List.not_mem_nil, or_false] at h
    refine hgo (by omega) (hostWrite_ignored ?_ v s1) rfl
    simp only [List.mem_cons, List.not_mem_nil, or_false]
    omega

end Sys2Proof.Machine
end

section
/-! Encoding and decoding (spec/30_encoding.md R140 to R151): the fields of a word as numbers, a word read back from its
fields in its format, the opcodes of each format, and which words the decoder refuses with which subcode. -/

namespace Sys2Proof

/-! ### The fields of a word as numbers (R140 to R146) -/

theorem toNat_opcField (w : Word) : (opcField w).toNat = w.toNat / 2 ^ 24 := by
  rw [opcField, BitVec.extractLsb'_toNat, Nat.shiftRight_eq_div_pow]
  omega

theorem toNat_symField (w : Word) : (symField w).toNat = w.toNat % 2 ^ 21 := by
  rw [symField, BitVec.extractLsb'_toNat, Nat.shiftRight_zero]

theorem toNat_lenField (w : Word) : (lenField w).toNat = w.toNat / 2 ^ 16 % 2 ^ 5 := by
  rw [lenField, BitVec.extractLsb'_toNat, Nat.shiftRight_eq_div_pow]

theorem toNat_valField (w : Word) : (valField w).toNat = w.toNat % 2 ^ 16 := by
  rw [valField, BitVec.extractLsb'_toNat, Nat.shiftRight_zero]

theorem toNat_idxField (w : Word) : (idxField w).toNat = w.toNat % 2 ^ 16 := by
  rw [idxField, BitVec.extractLsb'_toNat, Nat.shiftRight_zero]

theorem toNat_bitField (w : Word) : (BitVec.ofBool (bitField w)).toNat = w.toNat % 2 := by
  rw [bitField, BitVec.toNat_ofBool, BitVec.getLsbD, Nat.testBit_zero]
  rcases Nat.mod_two_eq_zero_or_one w.toNat with h | h <;> rw [h] <;> rfl

/-- The reserved bits of a word in a format, as a number (R149). -/
def reservedBits (w : Word) : Format → Nat
  | .n => w.toNat % 2 ^ 24
  | .s => w.toNat / 2 ^ 21 % 2 ^ 3
  | .l => w.toNat / 2 ^ 21 % 2 ^ 3
  | .b => w.toNat / 2 % 2 ^ 23
  | .i => w.toNat / 2 ^ 16 % 2 ^ 8

theorem reservedClear_iff (f : Format) (w : Word) : reservedClear f w = true ↔ reservedBits w f = 0 := by
  cases f <;>
    simp only [reservedClear, reservedBits, beq_iff_eq, ← BitVec.toNat_inj, BitVec.extractLsb'_toNat,
      Nat.shiftRight_eq_div_pow, BitVec.toNat_ofNat, Nat.zero_mod, pow_zero, pow_one, Nat.div_one]

/-! ### A word is made of its fields -/

/-- The word that a format makes of the fields of `w`. -/
def Format.rebuild (w : Word) : Format → Word
  | .n => encodeN (opcField w)
  | .s => encodeS (opcField w) (symField w)
  | .b => encodeB (opcField w) (bitField w)
  | .l => encodeL (opcField w) (lenField w) (valField w)
  | .i => encodeI (opcField w) (idxField w)

/-- A word whose reserved bits are 0 is the word of its fields. -/
theorem Format.rebuild_eq {f : Format} {w : Word} (h : reservedClear f w = true) : f.rebuild w = w := by
  rw [reservedClear_iff] at h
  apply BitVec.eq_of_toNat_eq
  cases f <;>
    simp only [Format.rebuild, encodeN, encodeS, encodeB, encodeL, encodeI, Machine.toNat_append_eq, toNat_opcField,
      toNat_symField, toNat_bitField, toNat_lenField, toNat_valField, toNat_idxField, BitVec.toNat_ofNat, reservedBits]
      at h ⊢ <;>
    omega

/-- The command of a word's row has the word that the row's format makes of the fields. -/
theorem encode_eq_rebuild {w : Word} {f : Format} {i : Instr} (h : opcodeRow w = some (f, i)) :
    encode i = f.rebuild w := by
  have ho : opcField w = BitVec.ofNat 8 (opcField w).toNat := by simp
  unfold opcodeRow at h
  split at h <;> cases h <;> rename_i hopc <;> rw [hopc] at ho <;> simp only [encode, Format.rebuild, ho]

/-! ### The opcodes of each format (R147) -/

/-- The opcodes whose rows have a format. -/
def Format.opcodes : Format → List Nat
  | .n => [0x10, 0x18, 0x1B, 0x20, 0x21, 0x28, 0x2B, 0x2C, 0x2D, 0x2E, 0x30, 0x31, 0x33, 0x38, 0x3A, 0x00, 0x01]
  | .s => [0x11, 0x12, 0x19, 0x32]
  | .b => [0x29]
  | .l => [0x2A]
  | .i => [0x1A, 0x39]

theorem exists_format {p : Format → Prop} : (∃ f, p f) ↔ p .n ∨ p .s ∨ p .b ∨ p .l ∨ p .i := by
  constructor
  · rintro ⟨f, hf⟩
    cases f <;> simp [hf]
  · rintro (h | h | h | h | h) <;> exact ⟨_, h⟩

/-- A word has a row of a format exactly where its opcode is one of that format's. -/
theorem exists_opcodeRow_iff {w : Word} {f : Format} :
    (∃ i, opcodeRow w = some (f, i)) ↔ (opcField w).toNat ∈ f.opcodes := by
  unfold opcodeRow
  split
  case h_26 =>
    simp only [imp_false] at *
    cases f <;> simp [Format.opcodes, *]
  all_goals
    rename_i hopc
    rw [hopc]
    cases f <;> simp [Format.opcodes]

/-- The words without a row are those of R148's opcodes. -/
theorem opcodeRow_eq_none_iff {w : Word} {opc : Nat} (hopc : (opcField w).toNat = opc) :
    opcodeRow w = none ↔
      (0x02 ≤ opc ∧ opc ≤ 0x0F) ∨ (0x13 ≤ opc ∧ opc ≤ 0x17) ∨ (0x1C ≤ opc ∧ opc ≤ 0x1F) ∨
      (0x22 ≤ opc ∧ opc ≤ 0x27) ∨ opc = 0x2F ∨ (0x34 ≤ opc ∧ opc ≤ 0x37) ∨ (0x3B ≤ opc ∧ opc ≤ 0xFF) := by
  have hlt : opc < 2 ^ 8 := hopc ▸ (opcField w).isLt
  have hnone : opcodeRow w = none ↔ ¬∃ f : Format, opc ∈ f.opcodes := by
    simp only [← hopc, ← exists_opcodeRow_iff, Option.eq_none_iff_forall_ne_some, Prod.forall, not_exists, ne_eq]
  simp only [hnone, exists_format, Format.opcodes, List.mem_cons, List.not_mem_nil, or_false]
  omega

/-! ### What the decoder answers (R151) -/

theorem decode_of_no_row {c : Config} {w : Word} (h : opcodeRow w = none) :
    decode c w = .illegal .unassignedOpcode := by
  rw [decode, h]

theorem decode_of_reserved {c : Config} {w : Word} {f : Format} {i : Instr} (h : opcodeRow w = some (f, i))
    (hr : reservedClear f w = false) : decode c w = .illegal .reservedBits := by
  rw [decode, h]
  simp [hr]

/-- A word of a row with no reserved bit set is answered by the operand checks of R150. -/
theorem decode_of_clear {c : Config} {w : Word} {f : Format} {i : Instr} (h : opcodeRow w = some (f, i))
    (hr : reservedClear f w = true) : decode c w = (checkOperands c f w).elim (.command i) .illegal := by
  rw [decode, h]
  simp only [hr]
  cases checkOperands c f w <;> rfl

theorem decode_eq_command_iff {c : Config} {w : Word} {i : Instr} :
    decode c w = .command i ↔
      ∃ f, opcodeRow w = some (f, i) ∧ reservedClear f w = true ∧ checkOperands c f w = none := by
  constructor
  · intro h
    rcases hrow : opcodeRow w with _ | ⟨f, j⟩
    · simp [decode_of_no_row hrow] at h
    · cases hr : reservedClear f w with
      | false => simp [decode_of_reserved hrow hr] at h
      | true =>
        rw [decode_of_clear hrow hr] at h
        cases hc : checkOperands c f w with
        | some e => simp [hc] at h
        | none =>
          obtain rfl : j = i := by simpa [hc] using h
          exact ⟨f, rfl, hr, hc⟩
  · rintro ⟨f, hrow, hr, hc⟩
    rw [decode_of_clear hrow hr, hc]
    rfl

/-- What is wrong with the operands of a word in a format (R150). -/
def OperandFault (c : Config) (w : Word) : Illegal → Format → Prop
  | .symbolNotValid, .s => c.validSym (symField w) = false
  | .lengthOutOfRange, .l => (lenField w).toNat = 0 ∨ 16 < (lenField w).toNat
  | .valueBitsAboveLength, .l =>
      1 ≤ (lenField w).toNat ∧ (lenField w).toNat < 16 ∧ (valField w).toNat / 2 ^ (lenField w).toNat ≠ 0
  | _, _ => False

theorem checkOperands_eq_some_iff {c : Config} {w : Word} {f : Format} {e : Illegal} :
    checkOperands c f w = some e ↔ OperandFault c w e f := by
  cases f with
  | n | b | i => cases e <;> simp [checkOperands, OperandFault]
  | s => cases e <;> cases hv : c.validSym (symField w) <;> simp [checkOperands, OperandFault, hv]
  | l =>
    have hhigh : valField w >>> (lenField w).toNat = 0#16 ↔ (valField w).toNat / 2 ^ (lenField w).toNat = 0 := by
      rw [shiftRight_eq_zero_iff, Nat.div_eq_zero_iff_lt (Nat.two_pow_pos _)]
    generalize hn : (valField w).toNat / 2 ^ (lenField w).toNat = high at hhigh
    cases e <;> simp only [checkOperands, OperandFault, ne_eq, hhigh, hn]
    all_goals split_ifs <;> simp <;> omega

/-- Which words are illegal, by the check that fails. -/
def IllegalWord (c : Config) (w : Word) : Illegal → Prop
  | .unassignedOpcode => opcodeRow w = none
  | .reservedBits => ∃ f : Format, (opcField w).toNat ∈ f.opcodes ∧ reservedBits w f ≠ 0
  | e => ∃ f : Format, (opcField w).toNat ∈ f.opcodes ∧ reservedBits w f = 0 ∧ OperandFault c w e f

theorem decode_eq_illegal_iff {c : Config} {w : Word} {e : Illegal} :
    decode c w = .illegal e ↔ IllegalWord c w e := by
  rcases hrow : opcodeRow w with _ | ⟨f, i⟩
  · rw [decode_of_no_row hrow]
    cases e <;> simp [IllegalWord, hrow, ← exists_opcodeRow_iff]
  · have hf : ∀ g : Format, (opcField w).toNat ∈ g.opcodes ↔ f = g := by simp [← exists_opcodeRow_iff, hrow]
    cases hr : reservedClear f w with
    | false =>
      have hbits : reservedBits w f ≠ 0 := by simp [← reservedClear_iff, hr]
      rw [decode_of_reserved hrow hr]
      cases e <;> simp [IllegalWord, hrow, hf, hbits]
    | true =>
      have hbits : reservedBits w f = 0 := (reservedClear_iff f w).1 hr
      have hans : decode c w = .illegal e ↔ OperandFault c w e f := by
        rw [decode_of_clear hrow hr, ← checkOperands_eq_some_iff]
        cases checkOperands c f w <;> simp
      rw [hans]
      cases e <;> simp [IllegalWord, hrow, hf, hbits, OperandFault]

/-- The symbols that a build has not (R9). -/
theorem validSym_eq_false_iff {c : Config} {s : Sym} :
    c.validSym s = false ↔
      (c.codec = .byte ∧ 0xFF < s.toNat) ∨
        (c.codec = .utf8 ∧ (0x10FFFF < s.toNat ∨ (0xD800 ≤ s.toNat ∧ s.toNat ≤ 0xDFFF))) := by
  unfold Config.validSym
  cases c.codec with
  | byte => simp
  | utf8 =>
    simp
    omega

/-! ### The obligations -/

/-- The word of a command selects the command's own row, and its reserved bits are 0. -/
theorem encode_selects_row : ∀ i : Instr, Laws.RowOfEncoding.Statement i
  | .ftClear => Laws.RowOfEncoding.ftClear
  | .ftCount sym => Laws.RowOfEncoding.ftCount sym
  | .ftRead sym => Laws.RowOfEncoding.ftRead sym
  | .tbBuild => Laws.RowOfEncoding.tbBuild
  | .ctRead sym => Laws.RowOfEncoding.ctRead sym
  | .nodeRead idx => Laws.RowOfEncoding.nodeRead idx
  | .treeInfo => Laws.RowOfEncoding.treeInfo
  | .tsSerialize => Laws.RowOfEncoding.tsSerialize
  | .tsDeserialize => Laws.RowOfEncoding.tsDeserialize
  | .bpClear => Laws.RowOfEncoding.bpClear
  | .bpAppendBit bit => Laws.RowOfEncoding.bpAppendBit bit
  | .bpAppendBits len val => Laws.RowOfEncoding.bpAppendBits len val
  | .bpSize => Laws.RowOfEncoding.bpSize
  | .bpTvb => Laws.RowOfEncoding.bpTvb
  | .bpDrainReady => Laws.RowOfEncoding.bpDrainReady
  | .bpDrainAll => Laws.RowOfEncoding.bpDrainAll
  | .encBegin => Laws.RowOfEncoding.encBegin
  | .encHeader => Laws.RowOfEncoding.encHeader
  | .encSym sym => Laws.RowOfEncoding.encSym sym
  | .encFinish => Laws.RowOfEncoding.encFinish
  | .decBegin => Laws.RowOfEncoding.decBegin
  | .decChunk idx => Laws.RowOfEncoding.decChunk idx
  | .decEnd => Laws.RowOfEncoding.decEnd
  | .nop => Laws.RowOfEncoding.nop
  | .abort => Laws.RowOfEncoding.abort

/-- Settles O1: a command's word selects its row with no reserved bit set, and its operands pass the checks exactly
where the command is well formed. -/
theorem decodeOfEncode : Obligations.DecodeOfEncode := by
  intro c i hwf
  obtain ⟨f, hrow, hclear⟩ := encode_selects_row i
  exact decode_eq_command_iff.2 ⟨f, hrow, hclear, (opcodeRow_wf hrow).2 hwf⟩

/-- Settles O2: an accepted word is what its format makes of its fields, and its operands passed the checks. -/
theorem encodeOfDecode : Obligations.EncodeOfDecode := by
  intro c w i h
  obtain ⟨f, hrow, hclear, -⟩ := decode_eq_command_iff.1 h
  exact ⟨(encode_eq_rebuild hrow).trans (Format.rebuild_eq hclear), decode_wf h⟩

/-- Settles O3: the check of R151 that fails, with the fields and the opcodes of the formats as numbers. -/
theorem illegalWordsAndTheirSubcodes : Obligations.IllegalWordsAndTheirSubcodes := by
  intro c w opc sym len val clear
  have hopc : (opcField w).toNat = opc := toNat_opcField w
  have hsym : (symField w).toNat = sym := toNat_symField w
  have hlen : (lenField w).toNat = len := toNat_lenField w
  have hval : (valField w).toNat = val := toNat_valField w
  simp only [decode_eq_illegal_iff, IllegalWord, opcodeRow_eq_none_iff hopc, exists_format, OperandFault,
    validSym_eq_false_iff, hopc, hsym, hlen, hval, and_false, false_or, or_false, reservedBits, Format.opcodes,
    List.mem_singleton, true_and]
  refine ⟨?_, and_left_comm, and_left_comm, and_left_comm⟩
  have hsl : opc ∈ [0x11, 0x12, 0x19, 0x32, 0x2A] ↔ opc ∈ [0x11, 0x12, 0x19, 0x32] ∨ opc = 0x2A := by
    simp [or_assoc]
  rw [hsl, or_and_right, or_assoc (a := opc ∈ _ ∧ _)]
  exact or_congr_right (or_congr_right or_left_comm)

/-- Settles O4: each of the words is the word of its command, which is well formed. -/
theorem wordsOfEveryFormatDecode : Obligations.WordsOfEveryFormatDecode :=
  ⟨decodeOfEncode _ .tbBuild rfl, decodeOfEncode _ (.ftCount 0x41#21) rfl, decodeOfEncode _ (.bpAppendBit true) rfl,
    decodeOfEncode _ (.bpAppendBits 3#5 5#16) rfl, decodeOfEncode _ (.decChunk 13#16) rfl,
    decodeOfEncode _ (.encSym 0x10FFFF#21) rfl⟩

end Sys2Proof
end

section
/-! The commands of the tree builder but TB_BUILD, and the queries of the bit packer (spec/41_tree_builder.md R201, R202,
R212, R222 to R226; spec/43_bit_packer.md R302, R313, R314): what each leaves, as a whole next state. -/

namespace Sys2Proof.Machine

/-- In a phase of its row a command ends as its pseudocode does. -/
theorem exec_of_mem {i : Instr} {s : State} (h : s.phase ∈ phaseTable i) :
    exec i s = .next (finish (commandBody i s)) := by
  rw [exec_eq_execute, execute_of_mem _ h]

theorem mem_allPhases (p : Phase) : p ∈ allPhases := by cases p <;> decide

theorem phaseTable_of_isQuery {i : Instr} (h : isQuery i = true) : phaseTable i = allPhases := by
  cases i
  case ftRead | ctRead | nodeRead | treeInfo | bpSize | bpTvb => rfl
  all_goals exact absurd h Bool.false_ne_true

/-- A query runs in every phase (R455). -/
theorem exec_of_isQuery {i : Instr} (h : isQuery i = true) (s : State) :
    exec i s = .next (finish (commandBody i s)) :=
  exec_of_mem (phaseTable_of_isQuery h ▸ mem_allPhases s.phase)

/-- Settles O16: both run in the quiescent phases, and each is its clear and completion. -/
theorem clearCommands : Obligations.ClearCommands := fun _ h =>
  ⟨exec_of_mem (i := .ftClear) h, exec_of_mem (i := .bpClear) h⟩

/-! ### Queries -/

theorem tstate_code_eq (t : TState) :
    t.code.zeroExtend 32 =
      match t with
      | .noTree => 0#32
      | .absent => 1#32
      | .present => 2#32 := by
  cases t <;> rfl

/-- Settles O18: each query is its results and completion. -/
theorem queriesOfTotals : Obligations.QueriesOfTotals := by
  intro s
  refine ⟨fun sym => exec_of_isQuery (i := .ftRead sym) rfl s, ?_, exec_of_isQuery (i := .bpSize) rfl s,
    exec_of_isQuery (i := .bpTvb) rfl s⟩
  rw [exec_of_isQuery (i := .treeInfo) rfl s, commandBody, tstate_code_eq]
  rfl

/-- Settles O23: an index below the node count is a node's place. -/
theorem nodeReadResult : Obligations.NodeReadResult := by
  intro s idx
  rw [exec_of_isQuery (i := .nodeRead idx) rfl s, commandBody]
  cases hn : s.nodes[idx.toNat]? with
  | none =>
    have hle : s.ncount ≤ idx.toNat := List.getElem?_eq_none_iff.1 hn
    rw [if_pos hle]
    rfl
  | some n =>
    have hlt : idx.toNat < s.ncount := (List.getElem?_eq_some_iff.1 hn).1
    have hnode : s.node idx = n := by rw [State.node, nodeAt, hn, Option.getD_some]
    rw [if_neg (Nat.not_le.2 hlt), hnode]
    obtain ⟨f, body, code⟩ := n
    cases body <;> rfl

/-! ### Code words -/

/-- Bit `k` of 32 bits is bit `31 - k` of their word. -/
theorem getLsbD_wordOfBits {s : BitSeq} (hs : s.length = 32) {k : Nat} (hk : k < 32) :
    (wordOfBits s).getLsbD (31 - k) = s.getD k false := by
  rw [wordOfBits, BitVec.getLsbD_ofNat, testBit_foldl_bitNat, decide_eq_true (by omega), Bool.true_and,
    List.getD_eq_getElem?_getD, List.getElem?_reverse (by omega), hs, List.getD_eq_getElem?_getD,
    show 32 - 1 - (31 - k) = k by omega]

/-- Bit `31 - k` of word `w` of a code is code bit `32w + k`, 0 past its end. -/
theorem getLsbD_codeWord (code : BitSeq) (w : Nat) {k : Nat} (hk : k < 32) :
    (codeWord code w).getLsbD (31 - k) = code.getD (32 * w + k) false := by
  rw [codeWord, getLsbD_wordOfBits (by simp) hk]
  simp [hk]

/-- Settles O22: the entry's results, its word bit by bit. -/
theorem ctReadResult : Obligations.CtReadResult := by
  intro s sym
  rw [exec_of_isQuery (i := .ctRead sym) rfl s, commandBody]
  refine ⟨fun h => by rw [h]; rfl, fun e h => ⟨codeWord e.code s.cmdArg.toNat, by rw [h]; rfl, fun k hk => ?_⟩⟩
  exact getLsbD_codeWord e.code s.cmdArg.toNat hk

/-! ### Counting -/

theorem toNat_add_one_of_ne_max {v : Word} (h : v ≠ 0xFFFFFFFF#32) : (v + 1#32).toNat = v.toNat + 1 := by
  have hne : v.toNat ≠ 4294967295 := fun he => h (BitVec.eq_of_toNat_eq he)
  rw [BitVec.toNat_add, BitVec.toNat_ofNat]
  omega

/-- A count that has no room for one more leaves no room in the total. -/
theorem ftRead_ne_max {s : State} (h : FtInv s) (htotal : s.total ≠ 0xFFFFFFFF#32) (sym : Sym) :
    s.ftRead sym ≠ 0xFFFFFFFF#32 := by
  intro he
  have hle := ftRead_le_total h sym
  rw [he] at hle
  exact htotal (BitVec.eq_of_toNat_eq (Nat.le_antisymm (Nat.le_of_lt_succ s.total.isLt) hle))

/-- A write adds a key exactly where the symbol's count was 0. -/
theorem length_symInsert_ft {s : State} (h : FtInv s) (sym : Sym) (v : Word) :
    (symInsert s.ft sym v).length = s.nsym + if s.ftRead sym = 0#32 then 1 else 0 := by
  rw [length_symInsert sym v h.ascending, State.nsym, State.ftRead]
  simp only [symLookup_eq_none_iff sym h.canonical]

/-- Settles O17: the checks of R202 in their order, and the write where neither raises. -/
theorem ftCountCountsOneSymbol : Obligations.FtCountCountsOneSymbol := by
  intro s sym hphase hft
  have hexec : exec (.ftCount sym) s = .next (finish (ftCount sym s)) := exec_of_mem hphase
  rw [hexec, ftCount]
  refine ⟨fun hmax => ?_, fun hmax hnew hfull => ?_, fun hmax hroom => ?_⟩
  · rw [if_pos hmax]
    rfl
  · rw [if_neg hmax, if_pos ⟨hnew, hfull⟩]
    rfl
  · rw [if_neg hmax, if_neg hroom]
    refine ⟨_, rfl, rfl, toNat_add_one_of_ne_max hmax, ?_, fun other hne => ?_, length_symInsert_ft hft sym _⟩
    · show ((symLookup (symInsert s.ft sym _) sym).getD 0#32).toNat = _
      rw [symLookup_symInsert_same]
      exact toNat_add_one_of_ne_max (ftRead_ne_max hft hmax sym)
    · exact congrArg (·.getD 0#32) (symLookup_symInsert_other s.ft _ hne)

end Sys2Proof.Machine
end

section
/-! The greedy merge (spec/41_tree_builder.md R203 to R206): the working collection gives up its smallest key, and every
merged node has the two smallest earlier nodes that are no child yet as its children. -/

namespace Sys2Proof.Machine

/-! ### The order of keys (R204) -/

/-- A key as a number, its frequency above its index: keys are ordered as their ranks are. -/
def Key.rank (k : Key) : Nat := 2 ^ 16 * k.freq.toNat + k.idx.toNat

theorem Key.rank_lt_iff {a b : Key} :
    a.rank < b.rank ↔ a.freq.toNat < b.freq.toNat ∨ (a.freq = b.freq ∧ a.idx.toNat < b.idx.toNat) := by
  have ha := a.idx.isLt
  have hb := b.idx.isLt
  rw [Key.rank, Key.rank, BitVec.toNat_eq]
  omega

theorem Key.rank_le_iff {a b : Key} :
    a.rank ≤ b.rank ↔ a.freq.toNat < b.freq.toNat ∨ (a.freq = b.freq ∧ a.idx.toNat ≤ b.idx.toNat) := by
  have ha := a.idx.isLt
  have hb := b.idx.isLt
  rw [Key.rank, Key.rank, BitVec.toNat_eq]
  omega

theorem Key.rank_injective : Function.Injective Key.rank := by
  rintro ⟨f, i⟩ ⟨f', i'⟩ h
  have hi := i.isLt
  have hi' := i'.isLt
  simp only [Key.rank] at h
  simp only [Key.mk.injEq, BitVec.toNat_eq]
  omega

theorem Key.lt_iff_rank {a b : Key} : a.lt b = true ↔ a.rank < b.rank := by
  simp [Key.lt, Key.rank_lt_iff]

theorem Key.rank_min (a b : Key) : (Key.min a b).rank = Nat.min a.rank b.rank := by
  unfold Key.min
  split
  · rename_i h
    exact (Nat.min_eq_right (Key.lt_iff_rank.1 h).le).symm
  · rename_i h
    exact (Nat.min_eq_left (Nat.not_lt.1 fun hlt => h (Key.lt_iff_rank.2 hlt))).symm

theorem rank_foldl_min_le (l : List Key) (a : Key) : ∀ k ∈ a :: l, (l.foldl Key.min a).rank ≤ k.rank := by
  induction l generalizing a with
  | nil =>
    intro k hk
    rw [List.mem_singleton.1 hk]
    exact le_rfl
  | cons b l ih =>
    intro k hk
    rw [List.foldl_cons]
    have hmin := ih (Key.min a b) _ List.mem_cons_self
    rw [Key.rank_min] at hmin
    rcases List.mem_cons.1 hk with rfl | hk
    · exact hmin.trans (Nat.min_le_left _ _)
    · rcases List.mem_cons.1 hk with rfl | hk
      · exact hmin.trans (Nat.min_le_right _ _)
      · exact ih _ k (List.mem_cons_of_mem _ hk)

/-- `popMin` takes an element with the smallest key and keeps the others. -/
theorem popMin_smallest {w : List Key} (h : w ≠ []) :
    ∃ m ∈ w, popMin w = some (m, w.erase m) ∧ ∀ k ∈ w, m.rank ≤ k.rank := by
  obtain ⟨m, hm, hpop⟩ := popMin_some h
  refine ⟨m, hm, hpop, ?_⟩
  cases w with
  | nil => exact absurd rfl h
  | cons k rest =>
    obtain rfl : rest.foldl Key.min k = m := congrArg Prod.fst (Option.some.inj hpop)
    exact rank_foldl_min_le rest k

/-- Settles O19: the smaller of two keys at each element leaves the smallest, which is erased once. -/
theorem mergeTakesASmallestKey : Obligations.MergeTakesASmallestKey := by
  intro w hw
  obtain ⟨m, hm, hpop, hmin⟩ := popMin_smallest hw
  exact ⟨m, w.erase m, hpop, hm, rfl, fun k hk => Key.rank_le_iff.1 (hmin k hk)⟩

/-! ### Nodes that are no child yet -/

/-- Node `k` is before place `j`, and no merged node from place `n` to there has it as a child. -/
def Childless (nodes : List Node) (n j : Nat) (k : NodeIdx) : Prop :=
  k.toNat < j ∧ ∀ p l r : NodeIdx, n ≤ p.toNat → p.toNat < j → (nodeAt nodes p).body = .internal l r → k ≠ l ∧ k ≠ r

/-- The key of a node (R204). -/
def keyAt (nodes : List Node) (i : NodeIdx) : Key := { freq := (nodeAt nodes i).freq, idx := i }

theorem toNat_ofNat_of_lt {i : Nat} (h : i < 2 ^ 16) : (BitVec.ofNat 16 i : NodeIdx).toNat = i := Nat.mod_eq_of_lt h

theorem nodeAt_append_length {nodes : List Node} (h : nodes.length < 2 ^ 16) (n : Node) :
    nodeAt (nodes ++ [n]) (BitVec.ofNat 16 nodes.length) = n := by
  simp [nodeAt, toNat_ofNat_of_lt h]

theorem keyAt_append {nodes : List Node} {i : NodeIdx} (more : List Node) (h : i.toNat < nodes.length) :
    keyAt (nodes ++ more) i = keyAt nodes i := by
  rw [keyAt, keyAt, nodeAt_append more h]

/-- An index of a list with one more node is an earlier one or that node's. -/
theorem idx_cases {nodes : List Node} {i : NodeIdx} (n : Node) (h : i.toNat < (nodes ++ [n]).length) :
    i.toNat < nodes.length ∨ i = BitVec.ofNat 16 nodes.length := by
  rw [List.length_append, List.length_singleton] at h
  rcases Nat.lt_succ_iff_lt_or_eq.1 h with h | h
  · exact .inl h
  · exact .inr (by rw [← h, BitVec.ofNat_toNat, BitVec.setWidth_eq])

/-- Node `j` is the merge of the two smallest nodes before it that are no child yet (R205). -/
def MergedAt (nodes : List Node) (n : Nat) (j : NodeIdx) : Prop :=
  ∃ l r : NodeIdx, (nodeAt nodes j).body = .internal l r ∧ Childless nodes n j.toNat l ∧ Childless nodes n j.toNat r ∧
    (keyAt nodes l).rank < (keyAt nodes r).rank ∧
    (∀ k, Childless nodes n j.toNat k → k ≠ l → k ≠ r → (keyAt nodes r).rank < (keyAt nodes k).rank) ∧
    (nodeAt nodes j).freq.toNat = (nodeAt nodes l).freq.toNat + (nodeAt nodes r).freq.toNat

section
variable {nodes nodes' : List Node} {n : Nat}

theorem childless_congr {j : Nat} (h : ∀ p : NodeIdx, p.toNat < j → (nodeAt nodes' p).body = (nodeAt nodes p).body)
    (k : NodeIdx) : Childless nodes' n j k ↔ Childless nodes n j k := by
  refine and_congr_right fun _ => forall₃_congr fun p l r => forall₂_congr fun _ hp => ?_
  rw [h p hp]

/-- A merge is read from the kinds and the frequencies of the nodes up to its own. -/
theorem MergedAt.congr {j : NodeIdx} (h : MergedAt nodes n j)
    (hbody : ∀ p : NodeIdx, p.toNat ≤ j.toNat → (nodeAt nodes' p).body = (nodeAt nodes p).body)
    (hfreq : ∀ p : NodeIdx, p.toNat ≤ j.toNat → (nodeAt nodes' p).freq = (nodeAt nodes p).freq) :
    MergedAt nodes' n j := by
  have hc := childless_congr (n := n) fun p (hp : p.toNat < j.toNat) => hbody p hp.le
  have hk {k : NodeIdx} (hk : Childless nodes n j.toNat k) : keyAt nodes' k = keyAt nodes k := by
    rw [keyAt, keyAt, hfreq k hk.1.le]
  obtain ⟨l, r, hb, hl, hr, hlr, hmin, hsum⟩ := h
  refine ⟨l, r, (hbody j le_rfl).trans hb, (hc l).2 hl, (hc r).2 hr, ?_, fun k hkc hkl hkr => ?_, ?_⟩
  · rw [hk hl, hk hr]
    exact hlr
  · rw [hk hr, hk ((hc k).1 hkc)]
    exact hmin k ((hc k).1 hkc) hkl hkr
  · rw [hfreq j le_rfl, hfreq l hl.1.le, hfreq r hr.1.le]
    exact hsum

end

/-- Both children of a merge are before it. -/
theorem MergedAt.children_lt {nodes : List Node} {n : Nat} {j l r : NodeIdx} (h : MergedAt nodes n j)
    (hb : (nodeAt nodes j).body = .internal l r) : l.toNat < j.toNat ∧ r.toNat < j.toNat := by
  obtain ⟨l', r', hb', hl, hr, -⟩ := h
  obtain ⟨rfl, rfl⟩ := NodeBody.internal.inj (hb.symm.trans hb')
  exact ⟨hl.1, hr.1⟩

/-! ### The merge -/

/-- The node that merges two keys (R205). -/
def mergeNode (a b : Key) : Node := { freq := a.freq + b.freq, body := .internal a.idx b.idx, code := [] }

/-- The frequencies of a collection, two of its keys apart. -/
theorem sum_freq_erase {w : List Key} {a b : Key} (ha : a ∈ w) (hb : b ∈ w.erase a) :
    (w.map fun k => k.freq.toNat).sum =
      a.freq.toNat + b.freq.toNat + (((w.erase a).erase b).map fun k => k.freq.toNat).sum := by
  have hperm : w.Perm (a :: b :: (w.erase a).erase b) :=
    (List.perm_cons_erase ha).trans ((List.perm_cons_erase hb).cons a)
  rw [(hperm.map _).sum_eq, List.map_cons, List.map_cons, List.sum_cons, List.sum_cons, Nat.add_assoc]

/-- The working collection holds the nodes that are no child yet with their keys, each once; their frequencies together
fit in a word; and every node from place `n` on is a merge. -/
structure Merging (n : Nat) (nodes : List Node) (w : List Key) : Prop where
  nodup  : w.Nodup
  mem    : ∀ k, k ∈ w ↔ Childless nodes n nodes.length k.idx ∧ k = keyAt nodes k.idx
  bound  : (w.map fun k => k.freq.toNat).sum < 2 ^ 32
  merged : ∀ j : NodeIdx, n ≤ j.toNat → j.toNat < nodes.length → MergedAt nodes n j

/-- A list of nodes before any merge, each with its key (R203). -/
theorem merging_keysOf {nodes : List Node} (hlen : nodes.length ≤ 2 ^ 16)
    (hsum : (nodes.map fun n => n.freq.toNat).sum < 2 ^ 32) : Merging nodes.length nodes (keysOf nodes) := by
  have hidx {i : Nat} (hi : i < nodes.length) : (BitVec.ofNat 16 i : NodeIdx).toNat = i :=
    toNat_ofNat_of_lt (by omega)
  have hkey {i : Nat} (hi : i < nodes.length) :
      ({ freq := nodes[i].freq, idx := BitVec.ofNat 16 i } : Key) = keyAt nodes (BitVec.ofNat 16 i) := by
    simp [keyAt, nodeAt, hidx hi, hi]
  have hrange : (keysOf nodes).map (fun k => k.idx.toNat) = List.range nodes.length :=
    List.ext_getElem (by simp [keysOf]) fun i h₁ h₂ => by
      simpa [keysOf] using hidx (List.length_range (n := nodes.length) ▸ h₂)
  have hfreq : (keysOf nodes).map (fun k => k.freq.toNat) = nodes.map fun n => n.freq.toNat :=
    List.ext_getElem (by simp [keysOf]) fun i h₁ h₂ => by simp [keysOf]
  refine ⟨.of_map _ (hrange ▸ List.nodup_range), fun k => ⟨fun hk => ?_, fun ⟨hk, he⟩ => ?_⟩, hfreq ▸ hsum,
    fun j hj hjlt => absurd hj (Nat.not_le.2 hjlt)⟩
  · obtain ⟨i, hi, rfl⟩ := List.mem_mapIdx.1 hk
    exact ⟨⟨keysOf_idx hlen hk, fun p l r hp hplt => absurd hp (Nat.not_le.2 hplt)⟩, hkey hi⟩
  · refine List.mem_mapIdx.2 ⟨k.idx.toNat, hk.1, ?_⟩
    rw [hkey hk.1, BitVec.ofNat_toNat, BitVec.setWidth_eq]
    exact he.symm

namespace Merging

section
variable {n : Nat} {nodes : List Node} {w : List Key} (h : Merging n nodes w)
include h

theorem idx_lt {k : Key} (hk : k ∈ w) : k.idx.toNat < nodes.length := ((h.mem k).1 hk).1.1

theorem eq_keyAt {k : Key} (hk : k ∈ w) : k = keyAt nodes k.idx := ((h.mem k).1 hk).2

theorem eq_of_idx_eq {a b : Key} (ha : a ∈ w) (hb : b ∈ w) (hab : a.idx = b.idx) : a = b := by
  rw [h.eq_keyAt ha, h.eq_keyAt hb, hab]

/-- Of the nodes that were no child yet, a merged node takes its two children away, and it is no child itself. -/
theorem childless_append (hn : n ≤ nodes.length) (hlen : nodes.length < 2 ^ 16) {l r : NodeIdx} {node : Node}
    (hb : node.body = .internal l r) (hl : l.toNat < nodes.length) (hr : r.toNat < nodes.length) (k : NodeIdx) :
    Childless (nodes ++ [node]) n (nodes ++ [node]).length k ↔
      (Childless nodes n nodes.length k ∧ k ≠ l ∧ k ≠ r) ∨ k = BitVec.ofNat 16 nodes.length := by
  have hnew : (BitVec.ofNat 16 nodes.length : NodeIdx).toNat = nodes.length := toNat_ofNat_of_lt hlen
  have hbody := nodeAt_append_length hlen node
  have hlast : nodes.length < (nodes ++ [node]).length := by simp
  constructor
  · rintro ⟨hk, hp⟩
    refine (idx_cases node hk).imp_left fun hk => ⟨⟨hk, fun p l r hnp hplt hpb => ?_⟩, ?_⟩
    · exact hp p l r hnp (hplt.trans hlast) (by rwa [nodeAt_append _ hplt])
    · exact hp (BitVec.ofNat 16 nodes.length) l r (hn.trans hnew.ge) (hnew.trans_lt hlast) (by rw [hbody, hb])
  · rintro (⟨⟨hk, hp⟩, hkl, hkr⟩ | rfl)
    · refine ⟨hk.trans hlast, fun p l' r' hnp hplt hpb => ?_⟩
      rcases idx_cases node hplt with hplt | rfl
      · exact hp p l' r' hnp hplt (by rwa [nodeAt_append _ hplt] at hpb)
      · rw [hbody, hb] at hpb
        obtain ⟨rfl, rfl⟩ := NodeBody.internal.inj hpb
        exact ⟨hkl, hkr⟩
    · refine ⟨hnew.trans_lt hlast, fun p l' r' hnp hplt hpb => ?_⟩
      have hlt : l'.toNat < nodes.length ∧ r'.toNat < nodes.length := by
        rcases idx_cases node hplt with hplt | rfl
        · rw [nodeAt_append _ hplt] at hpb
          exact ((h.merged p hnp hplt).children_lt hpb).imp (·.trans hplt) (·.trans hplt)
        · rw [hbody, hb] at hpb
          obtain ⟨rfl, rfl⟩ := NodeBody.internal.inj hpb
          exact ⟨hl, hr⟩
      exact ⟨fun he => hlt.1.ne (he ▸ hnew), fun he => hlt.2.ne (he ▸ hnew)⟩

variable {a b : Key} (ha : a ∈ w) (hb : b ∈ w.erase a)
include ha hb

theorem toNat_freq_add : (a.freq + b.freq).toNat = a.freq.toNat + b.freq.toNat := by
  have hbound := h.bound
  rw [sum_freq_erase ha hb] at hbound
  rw [BitVec.toNat_add]
  exact Nat.mod_eq_of_lt (by omega)

/-- What stays in the collection when the merge takes two of its keys. -/
theorem mem_rest (k : Key) :
    k ∈ (w.erase a).erase b ↔
      (Childless nodes n nodes.length k.idx ∧ k.idx ≠ a.idx ∧ k.idx ≠ b.idx) ∧ k = keyAt nodes k.idx := by
  rw [(h.nodup.erase a).mem_erase_iff, h.nodup.mem_erase_iff]
  constructor
  · rintro ⟨hkb, hka, hk⟩
    exact ⟨⟨((h.mem k).1 hk).1, fun he => hka (h.eq_of_idx_eq hk ha he),
      fun he => hkb (h.eq_of_idx_eq hk (List.mem_of_mem_erase hb) he)⟩, h.eq_keyAt hk⟩
  · rintro ⟨⟨hc, hka, hkb⟩, he⟩
    exact ⟨fun he => hkb (congrArg Key.idx he), fun he => hka (congrArg Key.idx he), (h.mem k).2 ⟨hc, he⟩⟩

/-- The merge of the two smallest keys is the merge of the two smallest nodes that are no child yet. -/
theorem mergedAt_new (hlen : nodes.length < 2 ^ 16) (hamin : ∀ k ∈ w, a.rank ≤ k.rank)
    (hbmin : ∀ k ∈ w.erase a, b.rank ≤ k.rank) :
    MergedAt (nodes ++ [mergeNode a b]) n (BitVec.ofNat 16 nodes.length) := by
  have hbw := List.mem_of_mem_erase hb
  have hnew : (BitVec.ofNat 16 nodes.length : NodeIdx).toNat = nodes.length := toNat_ofNat_of_lt hlen
  have hat := nodeAt_append_length hlen (mergeNode a b)
  have hkey {k : Key} (hk : k ∈ w) : keyAt (nodes ++ [mergeNode a b]) k.idx = k := by
    rw [keyAt_append _ (h.idx_lt hk), ← h.eq_keyAt hk]
  have hmem {i : NodeIdx} (hi : Childless nodes n nodes.length i) : keyAt nodes i ∈ w := (h.mem _).2 ⟨hi, rfl⟩
  have hlt {k m : Key} (hle : m.rank ≤ k.rank) (hne : k ≠ m) : m.rank < k.rank :=
    lt_of_le_of_ne hle fun he => hne (Key.rank_injective he).symm
  have hc := childless_congr (n := n) fun p (hp : p.toNat < nodes.length) =>
    congrArg Node.body (nodeAt_append [mergeNode a b] hp)
  rw [MergedAt, hnew, hat]
  refine ⟨a.idx, b.idx, rfl, (hc _).2 ((h.mem a).1 ha).1, (hc _).2 ((h.mem b).1 hbw).1, ?_, fun k hk hka hkb => ?_, ?_⟩
  · rw [hkey ha, hkey hbw]
    exact hlt (hamin b hbw) (h.nodup.mem_erase_iff.1 hb).1
  · have hk := (hc k).1 hk
    rw [hkey hbw, keyAt_append _ hk.1]
    have hne : keyAt nodes k ≠ a := fun he => hka (congrArg Key.idx he)
    exact hlt (hbmin _ (h.nodup.mem_erase_iff.2 ⟨hne, hmem hk⟩)) fun he => hkb (congrArg Key.idx he)
  · have hfreq {k : Key} (hk : k ∈ w) : (nodeAt (nodes ++ [mergeNode a b]) k.idx).freq = k.freq :=
      congrArg Key.freq (hkey hk)
    rw [hfreq ha, hfreq hbw]
    exact h.toNat_freq_add ha hb

/-- A round of R205: the two smallest keys leave the collection, and the key of their merge enters it. -/
theorem round (hn : n ≤ nodes.length) (hlen : nodes.length < 2 ^ 16) (hamin : ∀ k ∈ w, a.rank ≤ k.rank)
    (hbmin : ∀ k ∈ w.erase a, b.rank ≤ k.rank) :
    Merging n (nodes ++ [mergeNode a b])
      ((w.erase a).erase b ++ [{ freq := a.freq + b.freq, idx := BitVec.ofNat 16 nodes.length }]) := by
  have hbw := List.mem_of_mem_erase hb
  have hkey : ({ freq := a.freq + b.freq, idx := BitVec.ofNat 16 nodes.length } : Key) =
      keyAt (nodes ++ [mergeNode a b]) (BitVec.ofNat 16 nodes.length) := by
    rw [keyAt, nodeAt_append_length hlen]
    rfl
  refine ⟨?_, fun k => ?_, ?_, fun j hj hjlt => ?_⟩
  · refine List.nodup_append.2 ⟨(h.nodup.erase a).erase b, List.nodup_singleton _, fun k hk m hm he => ?_⟩
    have hlt := h.idx_lt (List.mem_of_mem_erase (List.mem_of_mem_erase hk))
    rw [he, List.mem_singleton.1 hm, toNat_ofNat_of_lt hlen] at hlt
    exact Nat.lt_irrefl _ hlt
  · rw [List.mem_append, List.mem_singleton, h.mem_rest ha hb,
      h.childless_append hn hlen (node := mergeNode a b) rfl (h.idx_lt ha) (h.idx_lt hbw), or_and_right]
    refine or_congr (and_congr_right fun hk => ?_) ⟨?_, ?_⟩
    · rw [keyAt_append _ hk.1.1]
    · rintro rfl
      exact ⟨rfl, hkey⟩
    · rintro ⟨he, hk⟩
      rw [hk, he, hkey]
  · have hbound := h.bound
    rw [sum_freq_erase ha hb] at hbound
    rw [List.map_append, List.sum_append, List.map_singleton, List.sum_singleton, h.toNat_freq_add ha hb]
    omega
  · rcases idx_cases _ hjlt with hjlt | rfl
    · refine (h.merged j hj hjlt).congr (fun p hp => ?_) fun p hp => ?_ <;>
        rw [nodeAt_append _ (hp.trans_lt hjlt)]
    · exact h.mergedAt_new ha hb hlen hamin hbmin

end

/-- The last node is no child: the children of a merge are before it. -/
theorem childless_last {n : Nat} {nodes : List Node} {w : List Key} (h : Merging n nodes w) {i : NodeIdx}
    (hi : i.toNat + 1 = nodes.length) : Childless nodes n nodes.length i := by
  refine ⟨by omega, fun p l r hp hplt hb => ?_⟩
  obtain ⟨hl, hr⟩ := (h.merged p hp hplt).children_lt hb
  exact ⟨fun he => by rw [he] at hi; omega, fun he => by rw [he] at hi; omega⟩

end Merging

/-- The merge goes on until one key is left, which is the root's. -/
theorem mergeLoop_merging {n : Nat} :
    ∀ (m fuel : Nat) (w : List Key) (nodes : List Node), w.length = m + 1 → m < fuel → n ≤ nodes.length →
      nodes.length + m ≤ 2 ^ 16 → Merging n nodes w →
      ∃ k, Merging n (mergeLoop fuel w nodes).2 [k] ∧ (mergeLoop fuel w nodes).1 = k.idx := by
  intro m
  induction m with
  | zero =>
    intro fuel w nodes hw hf _ _ h
    obtain ⟨fuel, rfl⟩ : ∃ g, fuel = g + 1 := ⟨fuel - 1, by omega⟩
    obtain ⟨k, rfl⟩ := List.length_eq_one_iff.1 hw
    exact ⟨k, by simpa [mergeLoop, popMin] using h⟩
  | succ m ih =>
    intro fuel w nodes hw hf hn hlen h
    obtain ⟨fuel, rfl⟩ : ∃ g, fuel = g + 1 := ⟨fuel - 1, by omega⟩
    obtain ⟨a, ha, ea, hamin⟩ := popMin_smallest (w := w) (by rintro rfl; simp at hw)
    have hl₁ : (w.erase a).length = m + 1 := by rw [List.length_erase_of_mem ha, hw, Nat.add_sub_cancel]
    obtain ⟨b, hb, eb, hbmin⟩ := popMin_smallest (w := w.erase a) (by intro h; rw [h] at hl₁; simp at hl₁)
    have hl₂ : ((w.erase a).erase b).length = m := by rw [List.length_erase_of_mem hb, hl₁, Nat.add_sub_cancel]
    rw [mergeLoop_step ea eb]
    exact ih fuel _ _ (by simp [hl₂]) (by omega) (by simp; omega) (by simp; omega)
      (h.round ha hb hn (by omega) hamin hbmin)

/-! ### The tree of a frequency table -/

/-- The tree of a table whose counts fit in a word (R205). -/
theorem merging_merged {ft : SymMap Word} (hne : ft ≠ []) (hlen : ft.length ≤ 2 ^ 15) (hsum : ftSum ft < 2 ^ 32) :
    ∃ k, Merging ft.length (merged ft).2 [k] ∧ (merged ft).1 = k.idx := by
  have hl : (leavesOf ft).length = ft.length := List.length_map _
  have hpos : 0 < ft.length := List.length_pos_iff.2 hne
  have hfreq : (leavesOf ft).map (fun n => n.freq.toNat) = ft.map fun e => e.2.toNat := by simp [leavesOf]
  have h := merging_keysOf (nodes := leavesOf ft) (by omega) (by rw [hfreq]; exact hsum)
  rw [hl] at h
  exact mergeLoop_merging (ft.length - 1) _ _ _ (by rw [length_keysOf]; omega) (by omega) hl.ge (by omega) h

section
variable {s : State} (hwf : s.cfg.wf = true) (hft : FtInv s) (hne : s.ft ≠ [])
include hwf hft hne

theorem merging_mergedTree : ∃ k, Merging s.nsym s.mergedTree.nodes [k] ∧ s.mergedTree.root = k.idx :=
  merging_merged hne (hft.capacity.trans (maxSyms_le_of_wf hwf)) (hft.sum ▸ s.total.isLt)

/-- The root is the last node (R206). -/
theorem root_mergedTree : s.mergedTree.root.toNat = 2 * s.nsym - 2 := by
  obtain ⟨k, hk, hroot⟩ := merging_mergedTree hwf hft hne
  have hlen := length_mergedTree hwf hft hne
  have hpos : 0 < s.nsym := List.length_pos_iff.2 hne
  have hmax := hft.capacity.trans (maxSyms_le_of_wf hwf)
  have hidx : (BitVec.ofNat 16 (2 * s.nsym - 2) : NodeIdx).toNat = 2 * s.nsym - 2 := toNat_ofNat_of_lt (by omega)
  have hlast := (hk.mem (keyAt _ (BitVec.ofNat 16 (2 * s.nsym - 2)))).2
    ⟨hk.childless_last (show _ + 1 = _ by rw [keyAt, hidx]; omega), rfl⟩
  rw [hroot, ← List.mem_singleton.1 hlast]
  exact hidx

theorem mergedAt_mergedTree {j : NodeIdx} (hj : s.nsym ≤ j.toNat) (hjlt : j.toNat < s.mergedTree.nodes.length) :
    MergedAt s.mergedTree.nodes s.nsym j :=
  (merging_mergedTree hwf hft hne).elim fun _ hk => hk.1.merged j hj hjlt

end

/-- The code assignment changes no merge. -/
theorem MergedAt.assignCodes {s : State} (h : s.tstate = .present) (ht : IsTree s.nodes s.root) {n : Nat} {j : NodeIdx}
    (hj : MergedAt s.nodes n j) : MergedAt (assignCodes s).nodes n j :=
  hj.congr (fun p _ => assignCodes_body s p) fun p _ => assignCodes_freq h ht p

theorem node_mergedTree_of_key {s : State} {j : NodeIdx} {e : Sym × Word} (he : s.ft[j.toNat]? = some e) :
    s.mergedTree.node j = { freq := e.2, body := .leaf e.1, code := [] } := by
  have hat : s.mergedTree.nodes[j.toNat]? = _ := merged_of_key he
  rw [State.node, nodeAt, hat, Option.getD_some]

/-- Settles O20: the merge keeps the keys of the nodes that are no child yet in its collection, and the code assignment
writes nothing but codes. -/
theorem tbBuildMergesGreedily : Obligations.TbBuildMergesGreedily := by
  intro s hphase
  have hexec : exec .tbBuild s = .next (complete (build s)) := exec_of_mem (i := .tbBuild) hphase
  rw [hexec]
  refine ⟨fun hnil => by rw [build_of_ft_nil hnil]; rfl, fun hne hwf hft => ?_⟩
  rw [build_eq_mergedTree hne]
  have ht := isTree_mergedTree hwf hft hne
  have hlen := length_mergedTree hwf hft hne
  have hcount : (assignCodes s.mergedTree).ncount = 2 * s.nsym - 1 := (assignCodes_ncount _).trans hlen
  refine ⟨_, rfl, ?_, hcount, ?_, fun j e he => ?_, ?_⟩
  · rw [assignCodes_frame]
    rfl
  · rw [complete_root, (assignCodes_tree _).2.1]
    exact root_mergedTree hwf hft hne
  · have hnode := node_mergedTree_of_key he
    exact ⟨(assignCodes_body _ j).trans (congrArg Node.body hnode),
      (assignCodes_freq rfl ht j).trans (congrArg Node.freq hnode)⟩
  · intro before noChildYet j hj hjlt
    have hmerged := (mergedAt_mergedTree hwf hft hne hj (hlen ▸ hcount ▸ hjlt)).assignCodes rfl ht
    simp only [MergedAt, Key.rank_lt_iff] at hmerged
    exact hmerged

end Sys2Proof.Machine
end

section
/-! The commands of the tree serializer (spec/42_tree_serializer.md R253, R258, R260, R261): what each leaves, as a
whole next state. -/

namespace Sys2Proof.Machine

theorem length_lengthPrefixed (h : ByteSeq) : (lengthPrefixed h).length = 2 + h.length := by
  rw [lengthPrefixed, List.length_cons, List.length_cons]
  omega

theorem emitHeader_of_long {s : State} (h : Config.hdrMax < (serialize s).length) :
    emitHeader s = raise .headerTooLong (BitVec.ofNat 32 (serialize s).length) s :=
  if_pos h

theorem emitHeader_of_room {s : State} (h : (serialize s).length ≤ Config.hdrMax)
    (hroom : RoomFor (2 + (serialize s).length) s) :
    emitHeader s = .done (pushedAll (lengthPrefixed (serialize s)) s) := by
  obtain ⟨hcredit, hroom⟩ := hroom
  exact (if_neg (Nat.not_lt.2 h)).trans (pushAll_room hcredit (length_lengthPrefixed _ ▸ hroom))

theorem commandBody_tsSerialize {s : State} (h : s.tstate ≠ .noTree) : commandBody .tsSerialize s = emitHeader s :=
  if_neg h

/-- Settles O24: the two checks come before the first push, and then the header's bytes find room. -/
theorem tsSerializePushesTheHeader : Obligations.TsSerializePushesTheHeader := by
  intro s hphase
  rw [exec_of_mem (i := .tsSerialize) hphase]
  refine ⟨fun hnone => ?_, fun htree hlong => ?_, fun htree hfits hroom => ?_⟩
  · rw [commandBody, if_pos hnone]
    rfl
  · rw [commandBody_tsSerialize htree, emitHeader_of_long hlong]
    rfl
  · rw [commandBody_tsSerialize htree, emitHeader_of_room hfits hroom]
    rfl

/-! ### Reading a header from IN -/

theorem popIn_of_no_limit {s : State} {b : Byte} {rest : ByteSeq} (hc : s.credit = none) (hi : s.inFifo = b :: rest) :
    popIn s = some (b, { s with inFifo := rest }) := by
  rw [popIn_of_cons (by rw [State.mayPass, hc]; rfl) hi, State.spend, hc, Option.map_none, ← hc]

theorem hdrBody_of_bytes {s : State} {h rest : ByteSeq} (hc : s.credit = none) (hi : s.inFifo = h ++ rest) :
    hdrBody h.length s = loadTree (s.hbuf ++ h) { s with inFifo := rest, hbuf := s.hbuf ++ h } := by
  induction h generalizing s with
  | nil =>
    obtain rfl : s.inFifo = rest := hi
    rw [List.append_nil]
    rfl
  | cons b h ih =>
    rw [List.length_cons, hdrBody, popIn_of_no_limit hc hi]
    dsimp only
    rw [ih (by exact hc) rfl]
    simp only [List.append_assoc, List.singleton_append]

theorem hdrLo_of_bytes {s : State} {lo hi : Byte} {h rest : ByteSeq} (hc : s.credit = none)
    (hin : s.inFifo = lo :: hi :: (h ++ rest)) (hlen : h.length = lo.toNat + 256 * hi.toNat) :
    hdrLo s = loadTree h { s with inFifo := rest, hbuf := h } := by
  rw [hdrLo, popIn_of_no_limit hc hin]
  dsimp only
  rw [hdrHi, popIn_of_no_limit (by exact hc) rfl]
  dsimp only
  rw [← hlen, hdrBody_of_bytes (by exact hc) rfl]
  rfl

/-- `load_tree` as the end of a command. -/
theorem finish_loadTree (h : ByteSeq) (s : State) : finish (loadTree h s) = loadResult (deserialize s.cfg h) id s := by
  obtain ⟨sub, pos, hd, hl⟩ | ⟨hd, hl⟩ | ⟨nodes, hd, hl⟩ := loadTree_cases h s <;> rw [hd, hl] <;> rfl

/-- Settles O25: the bytes are popped one after another, and `load_tree` ends the command. -/
theorem tsDeserializeLoadsTheHeader : Obligations.TsDeserializeLoadsTheHeader := by
  intro s lo hi h rest hphase hc hin hlen
  rw [exec_of_mem (i := .tsDeserialize) hphase, commandBody, runTodo_singleton, runMicro, hdrLo_of_bytes hc hin hlen,
    finish_loadTree]

end Sys2Proof.Machine
end

section
/-! Reading symbol texts (spec/30_encoding.md R173 to R175; spec/42_tree_serializer.md R256, `read_sym`): a text is a
first byte and a byte for each of the ranges that it selects, and the reader stops where the bytes leave these. -/

namespace Sys2Proof.Machine

/-! ### The ranges of a text -/

/-- A byte is in an inclusive range. -/
def InRange (r : Nat × Nat) (b : Byte) : Prop := r.1 ≤ b.toNat ∧ b.toNat ≤ r.2

/-- The ranges of the bytes after a text's first byte: none with BYTE, R175's row with UTF8. -/
def textRows (c : Config) (b : Byte) : Option (List (Nat × Nat)) :=
  match c.codec with
  | .byte => some []
  | .utf8 => utf8Row b

/-- The bits gathered with one more continuation byte. -/
def contBits (acc : Sym) (b : Byte) : Sym := (acc <<< 6) ||| (b.extractLsb' 0 6).zeroExtend 21

theorem toNat_contBits {acc : Sym} (h : acc.toNat < 2 ^ 15) (b : Byte) :
    (contBits acc b).toNat = acc.toNat * 64 + b.toNat % 64 := by
  have hlow : ((b.extractLsb' 0 6).zeroExtend 21).toNat = b.toNat % 64 := by
    simp
    omega
  have hhigh : (acc <<< 6).toNat = acc.toNat <<< 6 := by
    rw [BitVec.toNat_shiftLeft, Nat.shiftLeft_eq]
    exact Nat.mod_eq_of_lt (by omega)
  rw [contBits, BitVec.toNat_or, hlow, hhigh, ← Nat.shiftLeft_add_eq_or_of_lt (by omega), Nat.shiftLeft_eq]

theorem toNat_leadBits_zero (b : Byte) : (leadBits 0 b).toNat = b.toNat := by
  simp [leadBits]
  omega

theorem toNat_leadBits_one (b : Byte) : (leadBits 1 b).toNat = b.toNat % 32 := by
  simp [leadBits]
  omega

theorem toNat_leadBits_two (b : Byte) : (leadBits 2 b).toNat = b.toNat % 16 := by
  simp [leadBits]
  omega

theorem toNat_leadBits_three (b : Byte) : (leadBits 3 b).toNat = b.toNat % 8 := by
  simp [leadBits]
  omega

/-- The range of the second byte of a three-byte text (R175). -/
def threeRange (b : Byte) : Nat × Nat :=
  (if b.toNat = 0xE0 then 0xA0 else 0x80, if b.toNat = 0xED then 0x9F else 0xBF)

/-- The range of the second byte of a four-byte text (R175). -/
def fourRange (b : Byte) : Nat × Nat :=
  (if b.toNat = 0xF0 then 0x90 else 0x80, if b.toNat = 0xF4 then 0x8F else 0xBF)

theorem inRange_threeRange_iff {b x : Byte} :
    InRange (threeRange b) x ↔
      0x80 ≤ x.toNat ∧ x.toNat ≤ 0xBF ∧ (b.toNat = 0xE0 → 0xA0 ≤ x.toNat) ∧ (b.toNat = 0xED → x.toNat ≤ 0x9F) := by
  unfold InRange threeRange
  split_ifs <;> omega

theorem inRange_fourRange_iff {b x : Byte} :
    InRange (fourRange b) x ↔
      0x80 ≤ x.toNat ∧ x.toNat ≤ 0xBF ∧ (b.toNat = 0xF0 → 0x90 ≤ x.toNat) ∧ (b.toNat = 0xF4 → x.toNat ≤ 0x8F) := by
  unfold InRange fourRange
  split_ifs <;> omega

/-- The rows of R175, by the number of continuation bytes. -/
theorem utf8Row_eq_some_iff {b : Byte} {rows : List (Nat × Nat)} :
    utf8Row b = some rows ↔
      (b.toNat ≤ 0x7F ∧ rows = []) ∨
      (0xC2 ≤ b.toNat ∧ b.toNat ≤ 0xDF ∧ rows = [(0x80, 0xBF)]) ∨
      (0xE0 ≤ b.toNat ∧ b.toNat ≤ 0xEF ∧ rows = [threeRange b, (0x80, 0xBF)]) ∨
      (0xF0 ≤ b.toNat ∧ b.toNat ≤ 0xF4 ∧ rows = [fourRange b, (0x80, 0xBF), (0x80, 0xBF)]) := by
  unfold utf8Row threeRange fourRange
  dsimp only
  split_ifs <;> simp only [Option.some.injEq, eq_comm (a := rows)] <;> grind

/-- What the bytes of a text stand for. -/
def textSym (rows : List (Nat × Nat)) (b : Byte) (conts : ByteSeq) : Sym :=
  conts.foldl contBits (leadBits rows.length b)

theorem ofNat_eq_of_toNat {n : Nat} {b : Byte} (h : n = b.toNat) : BitVec.ofNat 8 n = b := by
  rw [h, BitVec.ofNat_toNat, BitVec.setWidth_eq]

theorem toNat_textSym_two (b x : Byte) (r : Nat × Nat) :
    (textSym [r] b [x]).toNat = b.toNat % 32 * 64 + x.toNat % 64 := by
  have h := toNat_leadBits_one b
  show (contBits (leadBits 1 b) x).toNat = _
  rw [toNat_contBits (by omega), h]

theorem toNat_textSym_three (b x y : Byte) (r r' : Nat × Nat) :
    (textSym [r, r'] b [x, y]).toNat = b.toNat % 16 * 4096 + x.toNat % 64 * 64 + y.toNat % 64 := by
  have h := toNat_leadBits_two b
  have h' := toNat_contBits (acc := leadBits 2 b) (by omega) x
  show (contBits (contBits (leadBits 2 b) x) y).toNat = _
  rw [toNat_contBits (by omega), h', h]
  omega

theorem toNat_textSym_four (b x y z : Byte) (r r' r'' : Nat × Nat) :
    (textSym [r, r', r''] b [x, y, z]).toNat =
      b.toNat % 8 * 262144 + x.toNat % 64 * 4096 + y.toNat % 64 * 64 + z.toNat % 64 := by
  have h := toNat_leadBits_three b
  have h' := toNat_contBits (acc := leadBits 3 b) (by omega) x
  have h'' := toNat_contBits (acc := contBits (leadBits 3 b) x) (by omega) y
  show (contBits (contBits (contBits (leadBits 3 b) x) y) z).toNat = _
  rw [toNat_contBits (by omega), h'', h', h]
  omega

theorem validSym_utf8_iff {c : Config} (hc : c.codec = .utf8) {s : Sym} :
    c.validSym s = true ↔ s.toNat ≤ 0x10FFFF ∧ ¬ (0xD800 ≤ s.toNat ∧ s.toNat ≤ 0xDFFF) := by
  simp only [Config.validSym, hc, Bool.and_eq_true, Bool.not_eq_true', ← Bool.not_eq_true, decide_eq_true_eq]

theorem validSym_byte_iff {c : Config} (hc : c.codec = .byte) {s : Sym} : c.validSym s = true ↔ s.toNat ≤ 0xFF := by
  simp [Config.validSym, hc]

/-- Bytes within the ranges are the text of a valid symbol, with UTF8 (R174, R175). -/
theorem utf8Text_of_fits {c : Config} (hc : c.codec = .utf8) {b : Byte} {rows : List (Nat × Nat)} {conts : ByteSeq}
    (hrows : utf8Row b = some rows) (hf : List.Forall₂ InRange rows conts) :
    c.validSym (textSym rows b conts) = true ∧ utf8Text (textSym rows b conts) = b :: conts := by
  rw [validSym_utf8_iff hc]
  obtain ⟨hb, rfl⟩ | ⟨hb, hb', rfl⟩ | ⟨hb, hb', rfl⟩ | ⟨hb, hb', rfl⟩ := utf8Row_eq_some_iff.1 hrows
  · obtain rfl := List.forall₂_nil_left_iff.1 hf
    have hs : (textSym [] b []).toNat = b.toNat := toNat_leadBits_zero b
    refine ⟨by omega, ?_⟩
    rw [utf8Text_one (by omega), ofNat_eq_of_toNat hs]
  · obtain _ | @⟨_, x, _, _, ⟨hx, hx'⟩, ⟨⟩⟩ := hf
    have hs := toNat_textSym_two b x (0x80, 0xBF)
    dsimp only at hx hx'
    refine ⟨by omega, ?_⟩
    rw [utf8Text_two (by omega) (by omega), ofNat_eq_of_toNat (b := b) (by omega),
      ofNat_eq_of_toNat (b := x) (by omega)]
  · obtain _ | @⟨_, x, _, _, hx, _ | @⟨_, y, _, _, ⟨hy, hy'⟩, ⟨⟩⟩⟩ := hf
    have hs := toNat_textSym_three b x y (threeRange b) (0x80, 0xBF)
    rw [inRange_threeRange_iff] at hx
    dsimp only at hy hy'
    refine ⟨by omega, ?_⟩
    rw [utf8Text_three (by omega) (by omega), ofNat_eq_of_toNat (b := b) (by omega),
      ofNat_eq_of_toNat (b := x) (by omega), ofNat_eq_of_toNat (b := y) (by omega)]
  · obtain _ | @⟨_, x, _, _, hx, _ | @⟨_, y, _, _, ⟨hy, hy'⟩, _ | @⟨_, z, _, _, ⟨hz, hz'⟩, ⟨⟩⟩⟩⟩ := hf
    have hs := toNat_textSym_four b x y z (fourRange b) (0x80, 0xBF) (0x80, 0xBF)
    rw [inRange_fourRange_iff] at hx
    dsimp only at hy hy' hz hz'
    refine ⟨by omega, ?_⟩
    rw [utf8Text_four (by omega), ofNat_eq_of_toNat (b := b) (by omega),
      ofNat_eq_of_toNat (b := x) (by omega), ofNat_eq_of_toNat (b := y) (by omega),
      ofNat_eq_of_toNat (b := z) (by omega)]

/-- Bytes within the ranges are the text of a valid symbol. -/
theorem symText_of_fits {c : Config} {b : Byte} {rows : List (Nat × Nat)} {conts : ByteSeq}
    (hrows : textRows c b = some rows) (hf : List.Forall₂ InRange rows conts) :
    c.validSym (textSym rows b conts) = true ∧ symText c (textSym rows b conts) = b :: conts := by
  cases hc : c.codec with
  | byte =>
    obtain rfl : [] = rows := by simpa [textRows, hc] using hrows
    obtain rfl := List.forall₂_nil_left_iff.1 hf
    have hs : (textSym [] b []).toNat = b.toNat := toNat_leadBits_zero b
    rw [validSym_byte_iff hc, symText_byte hc, ofNat_eq_of_toNat hs]
    exact ⟨by omega, rfl⟩
  | utf8 =>
    rw [symText_utf8 hc]
    exact utf8Text_of_fits hc (by simpa [textRows, hc] using hrows) hf

theorem toNat_ofNat_byte {n : Nat} (h : n < 256) : (BitVec.ofNat 8 n : Byte).toNat = n := Nat.mod_eq_of_lt h

/-- The text of a valid symbol is a first byte and bytes within its ranges, with UTF8 (R174, R175). -/
theorem fits_utf8Text {c : Config} (hc : c.codec = .utf8) {s : Sym} (hs : c.validSym s = true) :
    ∃ b conts rows, utf8Text s = b :: conts ∧ utf8Row b = some rows ∧ List.Forall₂ InRange rows conts ∧
      textSym rows b conts = s := by
  rw [validSym_utf8_iff hc] at hs
  have hcont (n : Nat) : InRange (0x80, 0xBF) (BitVec.ofNat 8 (0x80 + n % 64)) := by
    rw [InRange, toNat_ofNat_byte (by omega)]
    dsimp only
    omega
  have hlow (n : Nat) : (BitVec.ofNat 8 (0x80 + n % 64) : Byte).toNat % 64 = n % 64 := by
    rw [toNat_ofNat_byte (by omega)]
    omega
  rcases Nat.lt_or_ge 0x7F s.toNat with h1 | h1
  · rcases Nat.lt_or_ge 0x7FF s.toNat with h2 | h2
    · rcases Nat.lt_or_ge 0xFFFF s.toNat with h3 | h3
      · have hb := toNat_ofNat_byte (n := 0xF0 + s.toNat / 262144) (by omega)
        have hx := toNat_ofNat_byte (n := 0x80 + s.toNat / 4096 % 64) (by omega)
        refine ⟨_, _, _, utf8Text_four h3, utf8Row_eq_some_iff.2 (.inr (.inr (.inr ⟨by omega, by omega, rfl⟩))),
          .cons (inRange_fourRange_iff.2 (by omega)) (.cons (hcont _) (.cons (hcont _) .nil)), BitVec.eq_of_toNat_eq ?_⟩
        rw [toNat_textSym_four, hlow, hlow, hlow]
        omega
      · have hb := toNat_ofNat_byte (n := 0xE0 + s.toNat / 4096) (by omega)
        have hx := toNat_ofNat_byte (n := 0x80 + s.toNat / 64 % 64) (by omega)
        refine ⟨_, _, _, utf8Text_three h2 h3, utf8Row_eq_some_iff.2 (.inr (.inr (.inl ⟨by omega, by omega, rfl⟩))),
          .cons (inRange_threeRange_iff.2 (by omega)) (.cons (hcont _) .nil), BitVec.eq_of_toNat_eq ?_⟩
        rw [toNat_textSym_three, hlow, hlow]
        omega
    · have hb := toNat_ofNat_byte (n := 0xC0 + s.toNat / 64) (by omega)
      refine ⟨_, _, _, utf8Text_two h1 h2, utf8Row_eq_some_iff.2 (.inr (.inl ⟨by omega, by omega, rfl⟩)),
        .cons (hcont _) .nil, BitVec.eq_of_toNat_eq ?_⟩
      rw [toNat_textSym_two, hlow]
      omega
  · have hb := toNat_ofNat_byte (n := s.toNat) (by omega)
    refine ⟨_, _, _, utf8Text_one h1, utf8Row_eq_some_iff.2 (.inl ⟨by omega, rfl⟩), .nil, BitVec.eq_of_toNat_eq ?_⟩
    exact (toNat_leadBits_zero _).trans hb

/-- The text of a valid symbol is a first byte and bytes within its ranges. -/
theorem fits_symText {c : Config} {s : Sym} (hs : c.validSym s = true) :
    ∃ b conts rows, symText c s = b :: conts ∧ textRows c b = some rows ∧ List.Forall₂ InRange rows conts ∧
      textSym rows b conts = s := by
  cases hc : c.codec with
  | byte =>
    refine ⟨BitVec.ofNat 8 s.toNat, [], [], symText_byte hc s, by rw [textRows, hc], .nil, BitVec.eq_of_toNat_eq ?_⟩
    have := (validSym_byte_iff hc).1 hs
    exact (toNat_leadBits_zero _).trans (toNat_ofNat_byte (by omega))
  | utf8 => simpa only [symText_utf8 hc, textRows, hc] using fits_utf8Text hc hs

/-! ### The reader -/

theorem readSym_of_rows {c : Config} {b : Byte} {rows : List (Nat × Nat)} (h : textRows c b = some rows)
    (rest : ByteSeq) : readSym c (b :: rest) = readCont rows rest 1 (leadBits rows.length b) := by
  cases hc : c.codec <;> simp only [textRows, hc] at h
  · obtain rfl := Option.some.inj h
    simp only [readSym, hc]
    rfl
  · simp only [readSym, hc, h]

theorem readSym_of_no_rows {c : Config} {b : Byte} (h : textRows c b = none) (rest : ByteSeq) :
    readSym c (b :: rest) = .badUtf8 0 := by
  cases hc : c.codec <;> simp only [textRows, hc] at h
  · cases h
  · simp only [readSym, hc, h]

/-- How bytes meet the ranges: all of these are met, the bytes end first, or a byte is outside its range. -/
theorem fits_cases (rows : List (Nat × Nat)) (bytes : ByteSeq) :
    (∃ conts x, bytes = conts ++ x ∧ List.Forall₂ InRange rows conts) ∨
    (∃ rows₁ r rows₂, rows = rows₁ ++ r :: rows₂ ∧ List.Forall₂ InRange rows₁ bytes) ∨
    (∃ rows₁ r rows₂ conts b x, rows = rows₁ ++ r :: rows₂ ∧ bytes = conts ++ b :: x ∧
      List.Forall₂ InRange rows₁ conts ∧ ¬ InRange r b) := by
  induction rows generalizing bytes with
  | nil => exact .inl ⟨[], bytes, rfl, .nil⟩
  | cons r rows ih =>
    cases bytes with
    | nil => exact .inr (.inl ⟨[], r, rows, rfl, .nil⟩)
    | cons b bytes =>
      by_cases hb : InRange r b
      · obtain ⟨conts, x, rfl, hf⟩ | ⟨rows₁, r', rows₂, rfl, hf⟩ |
          ⟨rows₁, r', rows₂, conts, b', x, rfl, rfl, hf, hb'⟩ := ih bytes
        · exact .inl ⟨b :: conts, x, rfl, .cons hb hf⟩
        · exact .inr (.inl ⟨r :: rows₁, r', rows₂, rfl, .cons hb hf⟩)
        · exact .inr (.inr ⟨r :: rows₁, r', rows₂, b :: conts, b', x, rfl, rfl, .cons hb hf, hb'⟩)
      · exact .inr (.inr ⟨[], r, rows, [], b, bytes, rfl, rfl, .nil, hb⟩)

/-- Bytes within their ranges are read. -/
theorem readCont_of_fits {rows₁ : List (Nat × Nat)} {conts : ByteSeq} (h : List.Forall₂ InRange rows₁ conts)
    (rows₂ : List (Nat × Nat)) (x : ByteSeq) (k : Nat) (acc : Sym) :
    readCont (rows₁ ++ rows₂) (conts ++ x) k acc = readCont rows₂ x (k + rows₁.length) (conts.foldl contBits acc) := by
  induction h generalizing k acc with
  | nil => rfl
  | @cons r b rows₁ conts hb _ ih =>
    obtain ⟨lo, hi⟩ := r
    rw [List.cons_append, List.cons_append, readCont, if_pos (by exact hb), List.length_cons, Nat.add_comm rows₁.length,
      ← Nat.add_assoc]
    exact ih _ _

section
variable {c : Config} {b : Byte} {rows rows₁ rows₂ : List (Nat × Nat)} {r : Nat × Nat} {conts : ByteSeq}

theorem readSym_of_fits (hrows : textRows c b = some rows) (hf : List.Forall₂ InRange rows conts) (x : ByteSeq) :
    readSym c (b :: (conts ++ x)) = .sym (textSym rows b conts) (conts.length + 1) := by
  have h := readCont_of_fits hf [] x 1 (leadBits rows.length b)
  rw [List.append_nil] at h
  rw [readSym_of_rows hrows, h, ← hf.length_eq, Nat.add_comm]
  rfl

theorem readSym_of_short (hrows : textRows c b = some (rows₁ ++ r :: rows₂)) (hf : List.Forall₂ InRange rows₁ conts) :
    readSym c (b :: conts) = .headerEnd := by
  have h := readCont_of_fits hf (r :: rows₂) [] 1 (leadBits (rows₁ ++ r :: rows₂).length b)
  rw [List.append_nil] at h
  rw [readSym_of_rows hrows, h]
  rfl

theorem readSym_of_outside (hrows : textRows c b = some (rows₁ ++ r :: rows₂)) (hf : List.Forall₂ InRange rows₁ conts)
    {b' : Byte} (hb : ¬ InRange r b') (x : ByteSeq) :
    readSym c (b :: (conts ++ b' :: x)) = .badUtf8 (conts.length + 1) := by
  obtain ⟨lo, hi⟩ := r
  rw [readSym_of_rows hrows, readCont_of_fits hf, readCont, if_neg (by exact hb), hf.length_eq, Nat.add_comm]

end

/-- What the reader finds in bytes: a valid symbol's text first, their end within a text, or a byte that no text has at
its place. -/
inductive TextRead (c : Config) : ByteSeq → SymRead → Prop
  | sym {s : Sym} (x : ByteSeq) : c.validSym s = true → TextRead c (symText c s ++ x) (.sym s (symText c s).length)
  | empty : TextRead c [] .headerEnd
  | short {b : Byte} {rows₁ rows₂ : List (Nat × Nat)} {r : Nat × Nat} {conts : ByteSeq} :
      textRows c b = some (rows₁ ++ r :: rows₂) → List.Forall₂ InRange rows₁ conts → TextRead c (b :: conts) .headerEnd
  | noRow {b : Byte} (rest : ByteSeq) : textRows c b = none → TextRead c (b :: rest) (.badUtf8 0)
  | outside {b b' : Byte} {rows₁ rows₂ : List (Nat × Nat)} {r : Nat × Nat} {conts : ByteSeq} (x : ByteSeq) :
      textRows c b = some (rows₁ ++ r :: rows₂) → List.Forall₂ InRange rows₁ conts → ¬ InRange r b' →
      TextRead c (b :: (conts ++ b' :: x)) (.badUtf8 (conts.length + 1))

theorem textRead_readSym (c : Config) (bytes : ByteSeq) : TextRead c bytes (readSym c bytes) := by
  cases bytes with
  | nil => exact .empty
  | cons b rest =>
    cases hrows : textRows c b with
    | none => exact readSym_of_no_rows hrows rest ▸ .noRow rest hrows
    | some rows =>
      obtain ⟨conts, x, rfl, hf⟩ | ⟨rows₁, r, rows₂, rfl, hf⟩ | ⟨rows₁, r, rows₂, conts, b', x, rfl, rfl, hf, hb⟩ :=
        fits_cases rows rest
      · obtain ⟨hs, ht⟩ := symText_of_fits hrows hf
        simpa [readSym_of_fits hrows hf, ht] using TextRead.sym x hs
      · exact readSym_of_short hrows hf ▸ .short hrows hf
      · exact readSym_of_outside hrows hf hb x ▸ .outside x hrows hf hb

/-- A valid symbol's text is read as that symbol, whatever follows it. -/
theorem readSym_symText {c : Config} {s : Sym} (hs : c.validSym s = true) (x : ByteSeq) :
    readSym c (symText c s ++ x) = .sym s (symText c s).length := by
  obtain ⟨b, conts, rows, ht, hrows, hf, hv⟩ := fits_symText hs
  rw [ht, List.cons_append, readSym_of_fits hrows hf, hv]
  rfl

/-- What is read is a valid symbol's text. -/
theorem symText_of_readSym {c : Config} {bytes : ByteSeq} {s : Sym} {k : Nat} (h : readSym c bytes = .sym s k) :
    c.validSym s = true ∧ k = (symText c s).length ∧ ∃ x, bytes = symText c s ++ x := by
  have hread := textRead_readSym c bytes
  rw [h] at hread
  cases hread with
  | sym x hs => exact ⟨hs, rfl, x, rfl⟩

/-- Every range has a byte. -/
theorem exists_inRange {c : Config} {b : Byte} {rows : List (Nat × Nat)} (h : textRows c b = some rows) :
    ∀ r ∈ rows, ∃ x, InRange r x := by
  have hcont : ∃ x, InRange (0x80, 0xBF) x := ⟨0x80#8, by decide, by decide⟩
  have hthree : ∃ x, InRange (threeRange b) x := by
    by_cases hb : b.toNat = 0xE0
    · exact ⟨0xA0#8, inRange_threeRange_iff.2 (by simp [hb])⟩
    · exact ⟨0x80#8, inRange_threeRange_iff.2 (by simp [hb])⟩
  have hfour : ∃ x, InRange (fourRange b) x := by
    by_cases hb : b.toNat = 0xF0
    · exact ⟨0x90#8, inRange_fourRange_iff.2 (by simp [hb])⟩
    · exact ⟨0x80#8, inRange_fourRange_iff.2 (by simp [hb])⟩
  cases hc : c.codec <;> simp only [textRows, hc] at h
  · obtain rfl := Option.some.inj h
    simp
  · obtain ⟨-, rfl⟩ | ⟨-, -, rfl⟩ | ⟨-, -, rfl⟩ | ⟨-, -, rfl⟩ := utf8Row_eq_some_iff.1 h <;>
      simp [hcont, hthree, hfour]

theorem exists_fits {rows : List (Nat × Nat)} (h : ∀ r ∈ rows, ∃ x, InRange r x) :
    ∃ conts, List.Forall₂ InRange rows conts := by
  induction rows with
  | nil => exact ⟨[], .nil⟩
  | cons r rows ih =>
    obtain ⟨x, hx⟩ := h r List.mem_cons_self
    obtain ⟨conts, hf⟩ := ih fun r' hr => h r' (List.mem_cons_of_mem _ hr)
    exact ⟨x :: conts, .cons hx hf⟩

/-- Bytes within the first ranges begin a valid symbol's text. -/
theorem exists_symText_of_short {c : Config} {b : Byte} {rows₁ rows₂ : List (Nat × Nat)} {r : Nat × Nat}
    {conts : ByteSeq} (hrows : textRows c b = some (rows₁ ++ r :: rows₂)) (hf : List.Forall₂ InRange rows₁ conts) :
    ∃ s, c.validSym s = true ∧ ∃ y ≠ [], symText c s = b :: (conts ++ y) := by
  obtain ⟨y, hy⟩ := exists_fits fun r' hr => exists_inRange hrows r' (List.mem_append_right _ hr)
  obtain ⟨hs, ht⟩ := symText_of_fits hrows (List.rel_append hf hy)
  refine ⟨_, hs, y, ?_, ht⟩
  rintro rfl
  cases hy

theorem symText_ne_nil {c : Config} {s : Sym} (hs : c.validSym s = true) : symText c s ≠ [] := by
  obtain ⟨b, conts, rows, ht, -⟩ := fits_symText hs
  rw [ht]
  exact List.cons_ne_nil _ _

theorem validSym_zero (c : Config) : c.validSym 0#21 = true := by
  cases hc : c.codec <;> simp [Config.validSym, hc]

/-- Where the bytes end in a text, they are the beginning of a valid symbol's. -/
theorem begins_of_readSym_headerEnd {c : Config} {bytes : ByteSeq} (h : readSym c bytes = .headerEnd) :
    ∃ s, c.validSym s = true ∧ bytes <+: symText c s ∧ bytes ≠ symText c s := by
  have hread := textRead_readSym c bytes
  rw [h] at hread
  cases hread with
  | empty => exact ⟨0#21, validSym_zero c, List.nil_prefix, (symText_ne_nil (validSym_zero c)).symm⟩
  | short hrows hf =>
    obtain ⟨s, hs, y, hy, ht⟩ := exists_symText_of_short hrows hf
    exact ⟨s, hs, ⟨y, ht.symm⟩, by rw [ht]; simpa using hy⟩

/-- Bytes that no text goes on with: whatever follows them, the reader finds no symbol. -/
theorem not_prefix_symText {c : Config} {bytes : ByteSeq} (h : ∀ x s k, readSym c (bytes ++ x) ≠ .sym s k) {s : Sym}
    (hs : c.validSym s = true) : ¬ bytes <+: symText c s := by
  rintro ⟨x, hx⟩
  refine h x s (symText c s).length ?_
  rw [hx, ← List.append_nil (symText c s)]
  simpa using readSym_symText hs []

/-- With BYTE every byte is a text. -/
theorem codec_of_textRows {c : Config} {b : Byte} {rows : Option (List (Nat × Nat))} (h : textRows c b = rows)
    (hne : rows ≠ some []) : c.codec = .utf8 := by
  cases hc : c.codec with
  | byte => exact absurd (by rw [← h, textRows, hc]) hne
  | utf8 => rfl

/-- The byte that breaks a text: the bytes before it are the beginning of a valid symbol's text, and with it they are
the beginning of none. -/
theorem breaks_of_readSym_badUtf8 {c : Config} {bytes : ByteSeq} {k : Nat} (h : readSym c bytes = .badUtf8 k) :
    c.codec = .utf8 ∧ k < bytes.length ∧ (∃ s, c.validSym s = true ∧ bytes.take k <+: symText c s) ∧
      ∀ s, c.validSym s = true → ¬ bytes.take (k + 1) <+: symText c s := by
  have hread := textRead_readSym c bytes
  rw [h] at hread
  cases hread with
  | noRow rest hrows =>
    refine ⟨codec_of_textRows hrows (by simp), Nat.succ_pos _,
      ⟨0#21, validSym_zero c, List.nil_prefix⟩, fun s => not_prefix_symText fun x s' k' => ?_⟩
    rw [List.take_succ_cons, List.cons_append, readSym_of_no_rows hrows]
    exact SymRead.noConfusion
  | outside x hrows hf hb =>
    obtain ⟨s, hs, y, -, ht⟩ := exists_symText_of_short hrows hf
    refine ⟨codec_of_textRows hrows (by simp), by simp, ⟨s, hs, y, ?_⟩,
      fun s => not_prefix_symText fun y s' k' => ?_⟩
    · rw [List.take_succ_cons, List.take_left, ht]
      rfl
    · rw [List.take_succ_cons, List.take_length_add_append, List.take_succ_cons, List.take_zero, List.cons_append,
        List.append_assoc, List.singleton_append, readSym_of_outside hrows hf hb]
      exact SymRead.noConfusion

end Sys2Proof.Machine
end

section
/-! The parse of a header as a sequence of marks (spec/42_tree_serializer.md R256): what the loop has read is the bytes
of the marks before its position, whatever follows them, and its state is that of placing their nodes. -/

namespace Sys2Proof.Machine

/-! ### Marks -/

/-- A marker of a node with what belongs to it: `0`, or `1` and a symbol. -/
inductive Mark where
  | node
  | leaf (sym : Sym)

/-- The symbol of a leaf's mark. -/
def Mark.sym? : Mark → Option Sym
  | .node => none
  | .leaf sym => some sym

/-- The header bytes of a mark (R250). -/
def Mark.bytes (c : Config) : Mark → ByteSeq
  | .node => [markInternal]
  | .leaf sym => markLeaf :: symText c sym

/-- The header bytes of a sequence of marks. -/
def marksBytes (c : Config) (ms : List Mark) : ByteSeq := ms.flatMap (Mark.bytes c)

/-- The symbols of a sequence of marks, the last first, as the parser gathers them. -/
def marksSeen (ms : List Mark) : List Sym := (ms.filterMap Mark.sym?).reverse

@[simp] theorem marksBytes_nil (c : Config) : marksBytes c [] = [] := rfl

@[simp] theorem marksBytes_cons (c : Config) (m : Mark) (ms : List Mark) :
    marksBytes c (m :: ms) = m.bytes c ++ marksBytes c ms := List.flatMap_cons

@[simp] theorem marksBytes_append (c : Config) (ms ms' : List Mark) :
    marksBytes c (ms ++ ms') = marksBytes c ms ++ marksBytes c ms' := List.flatMap_append

@[simp] theorem marksSeen_concat_node (ms : List Mark) : marksSeen (ms ++ [.node]) = marksSeen ms := by
  simp [marksSeen, Mark.sym?]

@[simp] theorem marksSeen_concat_leaf (ms : List Mark) (sym : Sym) :
    marksSeen (ms ++ [.leaf sym]) = sym :: marksSeen ms := by
  simp [marksSeen, Mark.sym?]

theorem mem_marksSeen {ms : List Mark} {sym : Sym} : sym ∈ marksSeen ms ↔ Mark.leaf sym ∈ ms := by
  rw [marksSeen, List.mem_reverse, List.mem_filterMap]
  constructor
  · rintro ⟨_ | _, hm, he⟩
    · cases he
    · exact Option.some.inj he ▸ hm
  · exact fun h => ⟨_, h, rfl⟩

/-- A mark begins with its marker, which is not `#`. -/
theorem Mark.bytes_head (c : Config) (m : Mark) : ∃ b rest, m.bytes c = b :: rest ∧ b ≠ markAbsent := by
  cases m
  · exact ⟨_, _, rfl, by decide⟩
  · exact ⟨_, _, rfl, by decide⟩

theorem Mark.bytes_length_pos (c : Config) (m : Mark) : 0 < (m.bytes c).length := by
  cases m <;> exact Nat.succ_pos _

/-! ### One way to read marks -/

/-- The symbols of a sequence of marks are valid. -/
def ValidMarks (c : Config) (ms : List Mark) : Prop := ∀ sym, .leaf sym ∈ ms → c.validSym sym = true

theorem ValidMarks.tail {c : Config} {m : Mark} {ms : List Mark} (h : ValidMarks c (m :: ms)) : ValidMarks c ms :=
  fun sym hs => h sym (List.mem_cons_of_mem _ hs)

/-- No valid symbol's text goes on as another's. -/
theorem sym_eq_of_text_append {c : Config} {a b : Sym} (ha : c.validSym a = true) (hb : c.validSym b = true)
    {x y : ByteSeq} (h : symText c a ++ x = symText c b ++ y) : a = b ∧ x = y := by
  have hr := (readSym_symText ha x).symm.trans ((congrArg (readSym c) h).trans (readSym_symText hb y))
  obtain ⟨rfl, -⟩ := SymRead.sym.inj hr
  exact ⟨rfl, List.append_cancel_left h⟩

theorem Mark.bytes_inj {c : Config} {m m' : Mark} {x y : ByteSeq} (hm : ∀ sym, m = .leaf sym → c.validSym sym = true)
    (hm' : ∀ sym, m' = .leaf sym → c.validSym sym = true) (h : m.bytes c ++ x = m'.bytes c ++ y) : m = m' ∧ x = y := by
  cases m with
  | node =>
    cases m' with
    | node => exact ⟨rfl, List.append_cancel_left h⟩
    | leaf b => exact absurd (List.cons.inj h).1 (by decide)
  | leaf a =>
    cases m' with
    | node => exact absurd (List.cons.inj h).1 (by decide)
    | leaf b =>
      obtain ⟨rfl, rfl⟩ := sym_eq_of_text_append (hm a rfl) (hm' b rfl) (List.cons.inj h).2
      exact ⟨rfl, rfl⟩

/-- Where the bytes of marks begin those of others, the marks begin the others. -/
theorem marks_prefix_of_bytes {c : Config} {ms ms' : List Mark} (h : ValidMarks c ms) (h' : ValidMarks c ms')
    (hp : marksBytes c ms <+: marksBytes c ms') : ms <+: ms' := by
  induction ms generalizing ms' with
  | nil => exact List.nil_prefix
  | cons m ms ih =>
    obtain ⟨y, hy⟩ := hp
    cases ms' with
    | nil =>
      obtain ⟨b, rest, hb, -⟩ := m.bytes_head c
      rw [marksBytes_cons, hb] at hy
      cases hy
    | cons m' ms' =>
      rw [marksBytes_cons, marksBytes_cons, List.append_assoc] at hy
      obtain ⟨rfl, he⟩ := Mark.bytes_inj (fun s hs => h s (hs ▸ List.mem_cons_self))
        (fun s hs => h' s (hs ▸ List.mem_cons_self)) hy
      exact (List.prefix_cons_inj _).2 (ih h.tail h'.tail ⟨y, he⟩)

/-! ### The open parse -/

/-- The loop has read these marks, and its nodes and its stack are these: every mark found a place, and the tree is not
complete yet. -/
inductive Reads (c : Config) : List Mark → List Node → List OpenNode → Prop
  | nil : Reads c [] [] []
  | node {ms : List Mark} {nodes : List Node} {stack : List OpenNode} : Reads c ms nodes stack →
      nodes.length ≠ c.nodeCap →
      Reads c (ms ++ [.node]) (placeNode nodes stack (.internal 0#16 0#16) true).1
        (placeNode nodes stack (.internal 0#16 0#16) true).2
  | leaf {ms : List Mark} {nodes : List Node} {stack : List OpenNode} {sym : Sym} : Reads c ms nodes stack →
      nodes.length ≠ c.nodeCap → c.validSym sym = true → sym ∉ marksSeen ms →
      (placeNode nodes stack (.leaf sym) false).2 ≠ [] →
      Reads c (ms ++ [.leaf sym]) (placeNode nodes stack (.leaf sym) false).1
        (placeNode nodes stack (.leaf sym) false).2

/-- The loop of R256 after these marks, on the bytes that follow them, with as many rounds as it can need. -/
def parseRest (c : Config) (len : Nat) (ms : List Mark) (nodes : List Node) (stack : List OpenNode) (tail : ByteSeq) :
    Parsed :=
  parseLoop c len tail.length tail (marksBytes c ms).length nodes stack (marksSeen ms)

/-- How the loop stops at the marker after these marks, on the bytes that follow them (R255, R256). -/
inductive Stops (c : Config) (len : Nat) (ms : List Mark) (nodes : List Node) (stack : List OpenNode) :
    ByteSeq → Parsed → Prop
  | markerEnd : Stops c len ms nodes stack [] (.malformed .headerEnd len)
  | absentSub (rest : ByteSeq) :
      Stops c len ms nodes stack (markAbsent :: rest) (.malformed .absentSub (marksBytes c ms).length)
  | badChar {b : Byte} (rest : ByteSeq) : b ≠ markInternal → b ≠ markLeaf → b ≠ markAbsent →
      Stops c len ms nodes stack (b :: rest) (.malformed .badChar (marksBytes c ms).length)
  | tooMany {b : Byte} (rest : ByteSeq) : b = markInternal ∨ b = markLeaf → nodes.length = c.nodeCap →
      Stops c len ms nodes stack (b :: rest) (.malformed .tooMany (marksBytes c ms).length)
  | textEnd {rest : ByteSeq} : nodes.length ≠ c.nodeCap → readSym c rest = .headerEnd →
      Stops c len ms nodes stack (markLeaf :: rest) (.malformed .headerEnd len)
  | badUtf8 {rest : ByteSeq} {k : Nat} : nodes.length ≠ c.nodeCap → readSym c rest = .badUtf8 k →
      Stops c len ms nodes stack (markLeaf :: rest) (.malformed .badUtf8 ((marksBytes c ms).length + 1 + k))
  | dup {sym : Sym} (x : ByteSeq) : nodes.length ≠ c.nodeCap → c.validSym sym = true → sym ∈ marksSeen ms →
      Stops c len ms nodes stack (markLeaf :: (symText c sym ++ x)) (.malformed .dup (marksBytes c ms).length)
  | present {sym : Sym} : nodes.length ≠ c.nodeCap → c.validSym sym = true → sym ∉ marksSeen ms →
      (placeNode nodes stack (.leaf sym) false).2 = [] →
      Stops c len ms nodes stack (markLeaf :: symText c sym) (.present (placeNode nodes stack (.leaf sym) false).1)
  | trailing {sym : Sym} {x : ByteSeq} : nodes.length ≠ c.nodeCap → c.validSym sym = true → sym ∉ marksSeen ms →
      (placeNode nodes stack (.leaf sym) false).2 = [] → x ≠ [] →
      Stops c len ms nodes stack (markLeaf :: (symText c sym ++ x))
        (.malformed .trailing ((marksBytes c ms).length + 1 + (symText c sym).length))

/-- Two numbers of rounds that are enough for the bytes give the same result. -/
theorem parseLoop_fuel_congr (c : Config) (len f g : Nat) {bytes : ByteSeq} (hf : bytes.length ≤ f)
    (hg : bytes.length ≤ g) (pos : Nat) (nodes : List Node) (stack : List OpenNode) (seen : List Sym) :
    parseLoop c len f bytes pos nodes stack seen = parseLoop c len g bytes pos nodes stack seen := by
  induction f generalizing g bytes pos nodes stack seen with
  | zero =>
    obtain rfl := List.length_eq_zero_iff.1 (Nat.le_zero.1 hf)
    cases g <;> rfl
  | succ f ih =>
    cases bytes with
    | nil => cases g <;> rfl
    | cons m rest =>
      cases g with
      | zero => cases hg
      | succ g =>
        have hf' : rest.length ≤ f := Nat.le_of_succ_le_succ hf
        have hg' : rest.length ≤ g := Nat.le_of_succ_le_succ hg
        have hdrop (k : Nat) : (rest.drop k).length ≤ rest.length := by rw [List.length_drop]; exact Nat.sub_le _ _
        have hrest := ih g hf' hg'
        have htext (k : Nat) := ih g ((hdrop k).trans hf') ((hdrop k).trans hg')
        simp only [parseLoop, hrest, htext]

/-- More rounds than the bytes need change nothing. -/
theorem parseLoop_fuel (c : Config) (len : Nat) {fuel : Nat} {bytes : ByteSeq} (h : bytes.length ≤ fuel) (pos : Nat)
    (nodes : List Node) (stack : List OpenNode) (seen : List Sym) :
    parseLoop c len fuel bytes pos nodes stack seen = parseLoop c len bytes.length bytes pos nodes stack seen :=
  parseLoop_fuel_congr c len _ _ h le_rfl pos nodes stack seen

section
variable {c : Config} {len : Nat} {ms : List Mark} {nodes : List Node} {stack : List OpenNode}

/-- A round at the marker of an INTERNAL node. -/
theorem parseRest_node (hn : nodes.length ≠ c.nodeCap) (rest : ByteSeq) :
    parseRest c len ms nodes stack (markInternal :: rest) =
      parseRest c len (ms ++ [.node]) (placeNode nodes stack (.internal 0#16 0#16) true).1
        (placeNode nodes stack (.internal 0#16 0#16) true).2 rest := by
  have h1 : markInternal ≠ markAbsent := by decide
  have h2 : markInternal ≠ markLeaf := by decide
  simp [parseRest, parseLoop, h1, h2, hn, Mark.bytes]

/-- A round at the marker of a leaf, whose symbol is new. -/
theorem parseRest_leaf {sym : Sym} (hn : nodes.length ≠ c.nodeCap) (hs : c.validSym sym = true)
    (hnew : sym ∉ marksSeen ms) (x : ByteSeq) :
    parseRest c len ms nodes stack (markLeaf :: (symText c sym ++ x)) =
      if (placeNode nodes stack (.leaf sym) false).2 = [] then
        if x = [] then .present (placeNode nodes stack (.leaf sym) false).1
        else .malformed .trailing ((marksBytes c ms).length + 1 + (symText c sym).length)
      else parseRest c len (ms ++ [.leaf sym]) (placeNode nodes stack (.leaf sym) false).1
        (placeNode nodes stack (.leaf sym) false).2 x := by
  have h1 : markLeaf ≠ markAbsent := by decide
  have hfuel := parseLoop_fuel c len (fuel := (symText c sym).length + x.length) (bytes := x) (by omega)
  have hpos : (marksBytes c (ms ++ [.leaf sym])).length = (marksBytes c ms).length + 1 + (symText c sym).length := by
    simp [Mark.bytes]
    omega
  simp [parseRest, parseLoop, h1, hn, readSym_symText hs, hnew, hfuel, hpos, -marksBytes_append]

theorem Stops.parseRest_eq {tail : ByteSeq} {r : Parsed} (h : Stops c len ms nodes stack tail r) :
    parseRest c len ms nodes stack tail = r := by
  have h1 : markLeaf ≠ markAbsent := by decide
  cases h with
  | markerEnd => rfl
  | absentSub rest => simp [parseRest, parseLoop]
  | badChar rest hi hl ha => simp [parseRest, parseLoop, hi, hl, ha]
  | tooMany rest hb hn =>
    have h2 : markInternal ≠ markAbsent := by decide
    rcases hb with rfl | rfl
    · simp [parseRest, parseLoop, h2, hn]
    · simp [parseRest, parseLoop, h1, hn]
  | textEnd hn hr => simp [parseRest, parseLoop, h1, hn, hr]
  | badUtf8 hn hr => simp [parseRest, parseLoop, h1, hn, hr]
  | dup x hn hs hseen => simp [parseRest, parseLoop, h1, hn, readSym_symText hs, hseen]
  | present hn hs hnew hfull =>
    have := parseRest_leaf (len := len) (stack := stack) hn hs hnew []
    rwa [List.append_nil, if_pos hfull, if_pos rfl] at this
  | trailing hn hs hnew hfull hx => rw [parseRest_leaf hn hs hnew, if_pos hfull, if_neg hx]

end

/-- The loop reads marks until it stops, and answers what it stops with. -/
def ParseEnds (c : Config) (len : Nat) (h : ByteSeq) (r : Parsed) : Prop :=
  ∃ ms nodes stack tail, Reads c ms nodes stack ∧ h = marksBytes c ms ++ tail ∧ Stops c len ms nodes stack tail r

theorem Stops.parseEnds {c : Config} {len : Nat} {ms : List Mark} {nodes : List Node} {stack : List OpenNode}
    {tail : ByteSeq} {r : Parsed} (hs : Stops c len ms nodes stack tail r) (h : Reads c ms nodes stack) :
    ParseEnds c len (marksBytes c ms ++ tail) (parseRest c len ms nodes stack tail) :=
  ⟨ms, nodes, stack, tail, h, rfl, hs.parseRest_eq.symm ▸ hs⟩

/-- By induction on the bytes left, which every round makes fewer. -/
theorem parseRest_ends (c : Config) (len : Nat) :
    ∀ (n : Nat) (tail : ByteSeq), tail.length ≤ n → ∀ {ms : List Mark} {nodes : List Node} {stack : List OpenNode},
      Reads c ms nodes stack → ParseEnds c len (marksBytes c ms ++ tail) (parseRest c len ms nodes stack tail) := by
  intro n
  induction n with
  | zero =>
    intro tail hlen ms nodes stack h
    obtain rfl := List.length_eq_zero_iff.1 (Nat.le_zero.1 hlen)
    exact Stops.markerEnd.parseEnds h
  | succ n ih =>
    intro tail hlen ms nodes stack h
    cases tail with
    | nil => exact Stops.markerEnd.parseEnds h
    | cons b rest =>
      have hrest : rest.length ≤ n := Nat.le_of_succ_le_succ hlen
      by_cases ha : b = markAbsent
      · exact ha ▸ (Stops.absentSub rest).parseEnds h
      by_cases hi : b = markInternal
      · by_cases hn : nodes.length = c.nodeCap
        · exact (Stops.tooMany rest (.inl hi) hn).parseEnds h
        · rw [hi, parseRest_node hn]
          simpa [Mark.bytes] using ih rest hrest (h.node hn)
      by_cases hl : b = markLeaf
      · by_cases hn : nodes.length = c.nodeCap
        · exact (Stops.tooMany rest (.inr hl) hn).parseEnds h
        subst hl
        cases hr : readSym c rest with
        | headerEnd => exact (Stops.textEnd hn hr).parseEnds h
        | badUtf8 k => exact (Stops.badUtf8 hn hr).parseEnds h
        | sym sym k =>
          obtain ⟨hs, -, x, rfl⟩ := symText_of_readSym hr
          by_cases hseen : sym ∈ marksSeen ms
          · exact (Stops.dup x hn hs hseen).parseEnds h
          by_cases hfull : (placeNode nodes stack (.leaf sym) false).2 = []
          · by_cases hx : x = []
            · rw [hx, List.append_nil]
              exact (Stops.present hn hs hseen hfull).parseEnds h
            · exact (Stops.trailing hn hs hseen hfull hx).parseEnds h
          · rw [parseRest_leaf hn hs hseen, if_neg hfull]
            simpa [Mark.bytes] using ih x (by rw [List.length_append] at hrest; omega) (h.leaf hn hs hseen hfull)
      · exact (Stops.badChar rest hi hl ha).parseEnds h

/-- A header that does not begin with `#` is parsed by the loop (R256). -/
theorem deserialize_eq_parseRest {c : Config} {h : ByteSeq} (hh : h.head? ≠ some markAbsent) :
    deserialize c h = parseRest c h.length [] [] [] h := by
  cases h with
  | nil => rfl
  | cons b rest => exact if_neg fun hb => hh (congrArg some hb)

/-- A header that begins with `#` (R256). -/
theorem deserialize_absent (c : Config) (rest : ByteSeq) :
    deserialize c (markAbsent :: rest) = if rest = [] then .absent else .malformed .trailing 1 := by
  cases rest <;> rfl

/-- Of another header the parse reads marks until it stops. -/
theorem deserialize_ends {c : Config} {h : ByteSeq} (hh : h.head? ≠ some markAbsent) :
    ParseEnds c h.length h (deserialize c h) := by
  rw [deserialize_eq_parseRest hh]
  exact parseRest_ends c _ h.length h le_rfl .nil

/-- After the marks that it has read, the parse goes on with the bytes that follow them. -/
theorem Reads.parse {c : Config} {ms : List Mark} {nodes : List Node} {stack : List OpenNode}
    (h : Reads c ms nodes stack) (len : Nat) (tail : ByteSeq) :
    parseRest c len [] [] [] (marksBytes c ms ++ tail) = parseRest c len ms nodes stack tail := by
  induction h generalizing tail with
  | nil => rfl
  | node _ hn ih =>
    rw [marksBytes_append, List.append_assoc, ih]
    exact parseRest_node hn tail
  | @leaf ms nodes stack sym _ hn hs hnew hopen ih =>
    have hround := parseRest_leaf (len := len) (stack := stack) hn hs hnew tail
    rw [if_neg hopen] at hround
    rw [marksBytes_append, List.append_assoc, ih, ← hround, marksBytes_cons, marksBytes_nil, List.append_nil]
    rfl

theorem marksBytes_head {c : Config} {ms : List Mark} {tail : ByteSeq} (ht : ms = [] → tail.head? ≠ some markAbsent) :
    (marksBytes c ms ++ tail).head? ≠ some markAbsent := by
  cases ms with
  | nil => exact ht rfl
  | cons m ms =>
    obtain ⟨b, rest, hb, hne⟩ := m.bytes_head c
    simpa [hb] using hne

/-- What a header is parsed to, if the parse stops after these marks. -/
theorem deserialize_of_stops {c : Config} {ms : List Mark} {nodes : List Node} {stack : List OpenNode} {tail : ByteSeq}
    {r : Parsed} (h : Reads c ms nodes stack) (ht : ms = [] → tail.head? ≠ some markAbsent)
    (hs : Stops c (marksBytes c ms ++ tail).length ms nodes stack tail r) :
    deserialize c (marksBytes c ms ++ tail) = r := by
  rw [deserialize_eq_parseRest (marksBytes_head ht), h.parse, hs.parseRest_eq]

end Sys2Proof.Machine
end

section
/-! Where a malformed header fails (spec/42_tree_serializer.md R254 to R256): the positions at which a marker is read
are the ends of the marks read before, and each subcode names the byte at which the parse stops. -/

namespace Sys2Proof.Machine

section
variable {c : Config} {ms ms' : List Mark} {nodes : List Node} {stack : List OpenNode}

theorem placeNode_fst (nodes : List Node) (stack : List OpenNode) (body : NodeBody) (opens : Bool) :
    (placeNode nodes stack body opens).1 = placedNodes nodes stack body := by
  cases opens
  · rw [placeNode_leaf]
  · rw [placeNode_internal]

theorem Reads.length_nodes (h : Reads c ms nodes stack) : nodes.length = ms.length := by
  induction h with
  | nil => rfl
  | node _ _ ih => rw [placeNode_fst, length_placedNodes, List.length_append, ih, List.length_singleton]
  | leaf _ _ _ _ _ ih => rw [placeNode_fst, length_placedNodes, List.length_append, ih, List.length_singleton]

theorem validMarks_concat {m : Mark} (h : ValidMarks c ms) (hm : ∀ sym, m = .leaf sym → c.validSym sym = true) :
    ValidMarks c (ms ++ [m]) := by
  intro sym hs
  rcases List.mem_append.1 hs with hs | hs
  · exact h sym hs
  · exact hm sym (List.mem_singleton.1 hs).symm

theorem Reads.validMarks (h : Reads c ms nodes stack) : ValidMarks c ms := by
  induction h with
  | nil => exact fun _ hs => nomatch hs
  | node _ _ ih => exact validMarks_concat ih fun _ => Mark.noConfusion
  | leaf _ _ hs _ _ ih => exact validMarks_concat ih fun _ he => Mark.leaf.inj he ▸ hs

/-- What is read, is read mark by mark. -/
theorem Reads.of_prefix (h : Reads c ms nodes stack) (hp : ms' <+: ms) :
    ∃ nodes' stack', Reads c ms' nodes' stack' := by
  induction h with
  | nil => exact List.prefix_nil.1 hp ▸ ⟨_, _, .nil⟩
  | node h hn ih =>
    rcases List.prefix_concat_iff.1 hp with rfl | hp
    · exact ⟨_, _, h.node hn⟩
    · exact ih hp
  | leaf h hn hs hnew hopen ih =>
    rcases List.prefix_concat_iff.1 hp with rfl | hp
    · exact ⟨_, _, h.leaf hn hs hnew hopen⟩
    · exact ih hp

/-! ### The positions of markers -/

/-- A marker is read after marks that are read. -/
theorem Reads.markerAt (h : Reads c ms nodes stack) (tail : ByteSeq) :
    MarkerAt c (marksBytes c ms ++ tail) (marksBytes c ms).length := by
  rw [MarkerAt, List.take_left]
  exact deserialize_of_stops h (fun _ => by decide) (.badChar [] (by decide) (by decide) (by decide))

/-- A marker is read nowhere else. -/
theorem exists_reads_of_markerAt {h : ByteSeq} {m : Nat} (hm : MarkerAt c h m) :
    ∃ ms nodes stack, Reads c ms nodes stack ∧ marksBytes c ms = h.take m ∧ (marksBytes c ms).length = m := by
  have hh : (h.take m ++ [0x41#8]).head? ≠ some markAbsent := by
    intro hh
    obtain ⟨rest, hrest⟩ := List.head?_eq_some_iff.1 hh
    rw [MarkerAt, hrest, deserialize_absent] at hm
    split at hm <;> cases hm
  obtain ⟨ms, nodes, stack, tail, hr, he, hs⟩ := deserialize_ends hh
  rw [hm] at hs
  cases hs with
  | badChar rest =>
    have hlen := congrArg List.length he
    simp only [List.length_append, List.length_take, List.length_cons, List.length_nil] at hlen
    exact ⟨ms, nodes, stack, hr, (List.append_inj_left he (by rw [List.length_take]; omega)).symm, rfl⟩

/-- No marker is read within a mark. -/
theorem Reads.not_markerAt_within {m : Mark} (h : Reads c (ms ++ [m]) nodes stack) {tail : ByteSeq} {j : Nat}
    (hj : 0 < j) (hlt : j < (m.bytes c).length) :
    ¬ MarkerAt c (marksBytes c (ms ++ [m]) ++ tail) ((marksBytes c ms).length + j) := by
  intro hm
  obtain ⟨ms', nodes', stack', hr, he, hlen⟩ := exists_reads_of_markerAt hm
  have hbytes : marksBytes c (ms ++ [m]) = marksBytes c ms ++ m.bytes c := by simp
  have hp : marksBytes c ms' <+: marksBytes c (ms ++ [m]) := by
    rw [he, List.take_append_of_le_length (by rw [hbytes, List.length_append]; omega)]
    exact List.take_prefix _ _
  rcases List.prefix_concat_iff.1 (marks_prefix_of_bytes hr.validMarks h.validMarks hp) with rfl | ⟨ms'', rfl⟩
  · rw [hbytes, List.length_append] at hlen
    omega
  · rw [marksBytes_append, List.length_append] at hlen
    omega

theorem markersBefore_add (h : ByteSeq) (a b : Nat) :
    markersBefore c h (a + b) =
      markersBefore c h a + (List.range b).countP fun j => decide (MarkerAt c h (a + j)) := by
  rw [markersBefore, markersBefore, List.range_add, List.countP_append, List.countP_map]
  rfl

/-- Where a marker is read at a place and not at the next ones, it is read once there. -/
theorem countP_markerAt_eq_one {h : ByteSeq} {a w : Nat} (hfirst : MarkerAt c h a)
    (hothers : ∀ j, 0 < j → j < w + 1 → ¬ MarkerAt c h (a + j)) :
    ((List.range (w + 1)).countP fun j => decide (MarkerAt c h (a + j))) = 1 := by
  have hzero : ((List.range w).map Nat.succ).countP (fun j => decide (MarkerAt c h (a + j))) = 0 := by
    refine List.countP_eq_zero.2 fun j hj => ?_
    obtain ⟨i, hi, rfl⟩ := List.mem_map.1 hj
    simpa using hothers (i + 1) (Nat.succ_pos i) (Nat.succ_lt_succ (List.mem_range.1 hi))
  rw [List.range_succ_eq_map, List.countP_cons_of_pos (by exact decide_eq_true hfirst), hzero]

/-- Each mark before a position has one marker. -/
theorem Reads.markersBefore (h : Reads c ms nodes stack) (tail : ByteSeq) :
    markersBefore c (marksBytes c ms ++ tail) (marksBytes c ms).length = ms.length := by
  induction ms using List.reverseRecOn generalizing nodes stack tail with
  | nil => rfl
  | append_singleton ms m ih =>
    obtain ⟨nodes', stack', hms⟩ := h.of_prefix (List.prefix_append ms [m])
    obtain ⟨w, hw⟩ : ∃ w, (m.bytes c).length = w + 1 := Nat.exists_eq_add_one.2 (m.bytes_length_pos c)
    have hbytes : marksBytes c (ms ++ [m]) ++ tail = marksBytes c ms ++ (m.bytes c ++ tail) := by simp
    have hlen : (marksBytes c (ms ++ [m])).length = (marksBytes c ms).length + (w + 1) := by simp [hw]
    rw [hlen, markersBefore_add, List.length_append, List.length_singleton, countP_markerAt_eq_one (w := w)]
    · rw [hbytes, ih hms]
    · rw [hbytes]
      exact hms.markerAt _
    · exact fun j hj hlt => h.not_markerAt_within hj (hw ▸ hlt)

/-- A symbol that is seen is a leaf's, whose marker is before. -/
theorem Reads.exists_leaf (h : Reads c ms nodes stack) {sym : Sym} (hs : sym ∈ marksSeen ms) (tail : ByteSeq) :
    ∃ m x, m < (marksBytes c ms).length ∧ MarkerAt c (marksBytes c ms ++ tail) m ∧
      (marksBytes c ms ++ tail).drop m = markLeaf :: (symText c sym ++ x) := by
  obtain ⟨ms₁, ms₂, rfl⟩ := List.append_of_mem (mem_marksSeen.1 hs)
  obtain ⟨nodes', stack', h₁⟩ := h.of_prefix (List.prefix_append ms₁ _)
  have hbytes : marksBytes c (ms₁ ++ .leaf sym :: ms₂) ++ tail =
      marksBytes c ms₁ ++ (markLeaf :: (symText c sym ++ (marksBytes c ms₂ ++ tail))) := by simp [Mark.bytes]
  rw [hbytes]
  exact ⟨_, _, by simp [Mark.bytes], h₁.markerAt _, List.drop_left⟩

end

theorem drop_succ_of_drop {h rest : ByteSeq} {m : Nat} {b : Byte} (hd : h.drop m = b :: rest) :
    h[m]? = some b ∧ h.drop (m + 1) = rest := by
  rw [← List.head?_drop, ← List.tail_drop, hd]
  exact ⟨rfl, rfl⟩

theorem head_markLeaf (rest : ByteSeq) : (markLeaf :: rest).head? ≠ some markAbsent :=
  fun h => absurd (Option.some.inj h) (by decide)

/-- Settles O26: the parse stops after the marks that it has read, and the stop says which byte is there. -/
theorem malformedPositionsNameTheByte : Obligations.MalformedPositionsNameTheByte := by
  intro c h sub pos hd
  by_cases hh : h.head? = some markAbsent
  · obtain ⟨rest, rfl⟩ := List.head?_eq_some_iff.1 hh
    rw [deserialize_absent] at hd
    split at hd <;> cases hd
    rename_i hrest
    exact ⟨by simpa [Nat.pos_iff_ne_zero] using hrest, .inl rfl⟩
  obtain ⟨ms, nodes, stack, tail, hr, rfl, hs⟩ := deserialize_ends (c := c) hh
  have hmark := hr.markerAt tail
  have hat := List.drop_left (l₁ := marksBytes c ms) (l₂ := tail)
  rw [hd] at hs
  cases hs with
  | markerEnd => exact ⟨rfl, .inl (by simpa using hmark)⟩
  | absentSub rest =>
    refine ⟨hmark, ?_, (drop_succ_of_drop hat).1⟩
    cases ms with
    | nil => exact absurd rfl hh
    | cons m ms =>
      have := m.bytes_length_pos c
      simp
      omega
  | badChar rest hi hl ha => exact ⟨hmark, _, (drop_succ_of_drop hat).1, hi, hl, ha⟩
  | tooMany rest hb hn =>
    refine ⟨hmark, ?_, ?_⟩
    · rw [(drop_succ_of_drop hat).1]
      exact hb.imp (congrArg some) (congrArg some)
    · rw [hr.markersBefore, ← hr.length_nodes, hn]
  | textEnd hn hread =>
    obtain ⟨hmarker, htext⟩ := drop_succ_of_drop hat
    obtain ⟨sym, hsym, hp, hne⟩ := begins_of_readSym_headerEnd hread
    exact ⟨rfl, .inr ⟨_, hmark, hmarker, sym, hsym, by rwa [htext], by rwa [htext]⟩⟩
  | badUtf8 hn hread =>
    obtain ⟨hmarker, htext⟩ := drop_succ_of_drop hat
    obtain ⟨hc, hk, hbegin, hbreak⟩ := breaks_of_readSym_badUtf8 hread
    refine ⟨hc, ?_, _, by omega, hmark, hmarker, ?_, ?_⟩
    · rw [List.length_append, List.length_cons]
      omega
    · rwa [List.drop_take, htext, Nat.add_sub_cancel_left]
    · rwa [List.drop_take, htext, Nat.add_assoc, Nat.add_sub_cancel_left]
  | dup x hn hsym hseen =>
    obtain ⟨hmarker, htext⟩ := drop_succ_of_drop hat
    obtain ⟨m, y, hlt, hm, hdrop⟩ := hr.exists_leaf hseen (markLeaf :: (symText c _ ++ x))
    obtain ⟨hmarker', htext'⟩ := drop_succ_of_drop hdrop
    exact ⟨hmark, hmarker, m, _, hlt, hm, hmarker', hsym, ⟨y, htext'.symm⟩, ⟨x, htext.symm⟩⟩
  | @trailing sym x hn hsym hnew hfull hx =>
    have htake : (marksBytes c ms ++ markLeaf :: (symText c sym ++ x)).take
        ((marksBytes c ms).length + 1 + (symText c sym).length) = marksBytes c ms ++ markLeaf :: symText c sym := by
      rw [Nat.add_assoc, List.take_length_add_append, Nat.add_comm 1, List.take_succ_cons, List.take_left]
    refine ⟨?_, .inr ⟨_, htake ▸ deserialize_of_stops hr (fun _ => head_markLeaf _) (.present hn hsym hnew hfull)⟩⟩
    have := List.length_pos_iff.2 hx
    simp
    omega

end Sys2Proof.Machine
end

section
/-! A parsed tree (spec/42_tree_serializer.md R250, R256, R257): its nodes are those of the header's marks in order,
which is the tree's pre-order, so that serializing it gives the header back. -/

namespace Sys2Proof.Machine

/-! ### The shape of a tree -/

/-- A tree without its node indices, frequencies and codes. -/
inductive Shape where
  | leaf (sym : Sym)
  | node (left right : Shape)

/-- The marks of a tree in pre-order. -/
def Shape.marks : Shape → List Mark
  | .leaf sym => [.leaf sym]
  | .node l r => .node :: (l.marks ++ r.marks)

/-- Node memory holds a tree of this shape at node `i`. -/
def Shape.At (nodes : List Node) : Shape → Nat → Prop
  | .leaf sym, i => bodyAt nodes i = some (.leaf sym)
  | .node l r, i => ∃ a b : NodeIdx, bodyAt nodes i = some (.internal a b) ∧ l.At nodes a.toNat ∧ r.At nodes b.toNat

/-- The mark of a node. -/
def NodeBody.mark : NodeBody → Mark
  | .leaf sym => .leaf sym
  | .internal _ _ => .node

/-- The marks of these nodes. -/
def marksOf (nodes : List Node) (is : List Nat) : List Mark := is.filterMap fun i => (bodyAt nodes i).map NodeBody.mark

theorem marksOf_range (nodes : List Node) :
    marksOf nodes (List.range nodes.length) = nodes.map fun n => n.body.mark := by
  have h : (List.range nodes.length).map (fun i => (bodyAt nodes i).map NodeBody.mark) =
      nodes.map fun n => some n.body.mark :=
    List.ext_getElem (by simp) fun i h₁ h₂ => by
      have hi : i < nodes.length := by simpa using h₁
      simp [bodyAt, hi]
  have hid : marksOf nodes (List.range nodes.length) =
      ((List.range nodes.length).map fun i => (bodyAt nodes i).map NodeBody.mark).filterMap id := by
    rw [List.filterMap_map]
    rfl
  rw [hid, h, List.filterMap_map]
  exact congrFun List.filterMap_eq_map nodes

/-- A subtree has a shape, whose marks are its nodes' in pre-order. -/
theorem Subtree.exists_shape {nodes : List Node} {i : Nat} {is : List Nat} (h : Subtree nodes i is) :
    ∃ t : Shape, t.At nodes i ∧ t.marks = marksOf nodes is ∧ t.marks.length = is.length := by
  induction h with
  | @leaf i sym hi => exact ⟨.leaf sym, hi, by simp [marksOf, hi, Shape.marks, NodeBody.mark], rfl⟩
  | @internal i l r ls rs hi _ _ ihl ihr =>
    obtain ⟨tl, hl, hml, hlenl⟩ := ihl
    obtain ⟨tr, hr, hmr, hlenr⟩ := ihr
    refine ⟨.node tl tr, ⟨l, r, hi, hl, hr⟩, ?_, by simp [Shape.marks, hlenl, hlenr]⟩
    rw [Shape.marks, hml, hmr]
    simp [marksOf, hi, NodeBody.mark]

/-- The marks of a shape are the beginning of no other's (R256). -/
theorem Shape.marks_inj {t t' : Shape} {x x' : List Mark} (h : t.marks ++ x = t'.marks ++ x') : t = t' ∧ x = x' := by
  induction t generalizing t' x x' with
  | leaf sym =>
    cases t' with
    | leaf sym' =>
      obtain ⟨hm, hx⟩ := List.cons.inj h
      exact ⟨congrArg Shape.leaf (Mark.leaf.inj hm), hx⟩
    | node => exact absurd (List.cons.inj h).1 Mark.noConfusion
  | node l r ihl ihr =>
    cases t' with
    | leaf => exact absurd (List.cons.inj h).1 Mark.noConfusion
    | node l' r' =>
      have htail : l.marks ++ r.marks ++ x = l'.marks ++ r'.marks ++ x' := (List.cons.inj h).2
      rw [List.append_assoc, List.append_assoc] at htail
      obtain ⟨rfl, hright⟩ := ihl htail
      obtain ⟨rfl, hx⟩ := ihr hright
      exact ⟨rfl, hx⟩

/-- The traversal of R250 writes the marks of the tree. -/
theorem Shape.At.visit {nodes : List Node} {t : Shape} (c : Config) {i : NodeIdx} (h : t.At nodes i.toNat) {fuel : Nat}
    (hf : t.marks.length ≤ fuel) : visit c nodes fuel i = marksBytes c t.marks := by
  induction t generalizing i fuel with
  | leaf sym =>
    obtain ⟨fuel, rfl⟩ : ∃ g, fuel = g + 1 := ⟨fuel - 1, by simp [Shape.marks] at hf; omega⟩
    simp [Machine.visit, body_nodeAt h, Shape.marks, Mark.bytes]
  | node l r ihl ihr =>
    obtain ⟨a, b, hb, hl, hr⟩ := h
    obtain ⟨fuel, rfl⟩ : ∃ g, fuel = g + 1 := ⟨fuel - 1, by simp [Shape.marks] at hf; omega⟩
    simp only [Shape.marks, List.length_cons, List.length_append] at hf
    simp [Machine.visit, body_nodeAt hb, Shape.marks, Mark.bytes, ihl hl (fuel := fuel) (by omega),
      ihr hr (fuel := fuel) (by omega)]

/-! ### What placing a node keeps -/

/-- Setting a child changes nothing of a node but its children. -/
theorem map_setChild {α : Type} {g : Node → α} (hg : ∀ f l r l' r' code,
      g { freq := f, body := .internal l r, code := code } = g { freq := f, body := .internal l' r', code := code })
    (nodes : List Node) (p : OpenNode) (i : Nat) : (setChild nodes p i).map g = nodes.map g := by
  refine List.ext_getElem? fun j => ?_
  rw [List.getElem?_map, List.getElem?_map, setChild, List.getElem?_modify]
  split
  · cases nodes[j]? with
    | none => rfl
    | some n =>
      obtain ⟨f, b, code⟩ := n
      cases b with
      | leaf sym => rfl
      | internal l r =>
        refine congrArg some ?_
        dsimp only
        split <;> exact hg _ _ _ _ _ _
  · simp

theorem map_placedNodes {α : Type} {g : Node → α} (hg : ∀ f l r l' r' code,
      g { freq := f, body := .internal l r, code := code } = g { freq := f, body := .internal l' r', code := code })
    (nodes : List Node) (stack : List OpenNode) (body : NodeBody) :
    (placedNodes nodes stack body).map g = nodes.map g ++ [g { freq := 0#32, body := body, code := [] }] := by
  cases stack with
  | nil => simp [placedNodes]
  | cons p rest => simp [placedNodes, map_setChild hg]

section
variable {c : Config} {ms : List Mark} {nodes : List Node} {stack : List OpenNode}

theorem Reads.marks (h : Reads c ms nodes stack) : (nodes.map fun n => n.body.mark) = ms := by
  induction h with
  | nil => rfl
  | node _ _ ih => rw [placeNode_fst, map_placedNodes (fun _ _ _ _ _ _ => rfl), ih]; rfl
  | leaf _ _ _ _ _ ih => rw [placeNode_fst, map_placedNodes (fun _ _ _ _ _ _ => rfl), ih]; rfl

theorem Reads.freqs (h : Reads c ms nodes stack) : (nodes.map Node.freq) = List.replicate ms.length 0#32 := by
  induction h with
  | nil => rfl
  | node _ _ ih =>
    rw [placeNode_fst, map_placedNodes (fun _ _ _ _ _ _ => rfl), ih, List.length_append]
    exact List.replicate_succ'.symm
  | leaf _ _ _ _ _ ih =>
    rw [placeNode_fst, map_placedNodes (fun _ _ _ _ _ _ => rfl), ih, List.length_append]
    exact List.replicate_succ'.symm

theorem Reads.parsing (h : Reads c ms nodes stack) (hc : c.nodeCap < 2 ^ 16) :
    Parsing c nodes stack (marksSeen ms) := by
  induction h with
  | nil => exact parsing_nil c
  | node _ hn ih =>
    rw [marksSeen_concat_node]
    exact ih.internal hc hn
  | leaf _ hn _ hnew hopen ih =>
    rw [marksSeen_concat_leaf]
    exact (ih.leaf hc hn hnew).2 hopen

end

/-- A header that loads is the bytes of its nodes' marks; the nodes are in pre-order and have frequency 0 (R257). -/
structure ParsedTree (c : Config) (h : ByteSeq) (nodes : List Node) : Prop where
  header   : marksBytes c (nodes.map fun n => n.body.mark) = h
  valid    : ValidMarks c (nodes.map fun n => n.body.mark)
  preOrder : Subtree nodes 0 (List.range nodes.length)
  freq     : ∀ n ∈ nodes, n.freq = 0#32

theorem parsedTree_of_deserialize {c : Config} (hc : c.nodeCap < 2 ^ 16) {h : ByteSeq} {nodes : List Node}
    (he : deserialize c h = .present nodes) : ParsedTree c h nodes := by
  have hh : h.head? ≠ some markAbsent := by
    intro hh
    obtain ⟨rest, rfl⟩ := List.head?_eq_some_iff.1 hh
    rw [deserialize_absent] at he
    split at he <;> cases he
  obtain ⟨ms, nodes₀, stack, tail, hr, rfl, hs⟩ := deserialize_ends (c := c) hh
  rw [he] at hs
  cases hs with
  | @present sym hn hsym hnew hfull =>
    have hcap := (hr.parsing hc).capacity
    have hmarks : ((placedNodes nodes₀ stack (.leaf sym)).map fun n => n.body.mark) = ms ++ [.leaf sym] := by
      rw [map_placedNodes (fun _ _ _ _ _ _ => rfl), hr.marks]
      rfl
    rw [placeNode_fst]
    refine ⟨?_, ?_, ?_, ?_⟩
    · rw [hmarks]
      simp [Mark.bytes]
    · rw [hmarks]
      exact validMarks_concat hr.validMarks fun _ he => Mark.leaf.inj he ▸ hsym
    · rw [placeNode_leaf] at hfull
      obtain ⟨hatt, hbody⟩ := (hr.parsing hc).awaits.placed (by omega) (.leaf sym)
      have := (hatt.close (m := nodes₀.length + 1) (by rw [List.Ico.succ_singleton]; exact .leaf hbody)
        (Nat.lt_succ_self _)).1 hfull
      rwa [List.Ico.zero_bot, ← length_placedNodes nodes₀ stack (.leaf sym)] at this
    · have hfreqs := map_placedNodes (g := Node.freq) (fun _ _ _ _ _ _ => rfl) nodes₀ stack (.leaf sym)
      intro n hmem
      have := List.mem_map_of_mem (f := Node.freq) hmem
      rw [hfreqs, hr.freqs] at this
      rcases List.mem_append.1 this with h | h
      · exact List.eq_of_mem_replicate h
      · exact List.mem_singleton.1 h

/-! ### The children in a pre-order numbering -/

theorem Subtree.head {nodes : List Node} {i : Nat} {is : List Nat} (h : Subtree nodes i is) : is.head? = some i := by
  cases h <;> rfl

/-- A subtree's first node in pre-order is its own. -/
theorem Subtree.eq_of_range' {nodes : List Node} {i s n : Nat} (h : Subtree nodes i (List.range' s n)) :
    i = s ∧ 0 < n := by
  cases n with
  | zero => exact absurd h.head_mem List.not_mem_nil
  | succ n => exact ⟨(Option.some.inj h.head).symm, Nat.succ_pos n⟩

/-- Where the pre-order of a subtree numbers its nodes, a left child comes next and a right child after it. -/
theorem Subtree.children {nodes : List Node} {i n : Nat} (h : Subtree nodes i (List.range' i n)) {j : Nat}
    (hj : j ∈ List.range' i n) {l r : NodeIdx} (hb : bodyAt nodes j = some (.internal l r)) :
    l.toNat = j + 1 ∧ l.toNat < r.toNat ∧ r.toNat < i + n := by
  generalize his : List.range' i n = is at h hj
  induction h generalizing n with
  | leaf hi =>
    obtain rfl := List.mem_singleton.1 hj
    rw [hi] at hb
    cases hb
  | @internal i a b ls rs hi hl hr ihl ihr =>
    obtain ⟨n, rfl⟩ : ∃ m, n = m + 1 := ⟨n - 1, by cases n with | zero => cases his | succ n => rfl⟩
    rw [List.range'_succ, List.cons.injEq] at his
    obtain ⟨k, hk, rfl, rfl⟩ := List.range'_eq_append_iff.1 his.2
    obtain ⟨ha, hk0⟩ := hl.eq_of_range'
    obtain ⟨hb', hnk⟩ := hr.eq_of_range'
    rcases List.mem_cons.1 hj with rfl | hj
    · rw [hi] at hb
      cases hb
      omega
    · rcases List.mem_append.1 hj with hj | hj
      · have := ihl (n := k) (by rw [ha]) hj
        omega
      · have := ihr (n := n - k) (by rw [hb']) hj
        omega

theorem preOrder_of_subtree {nodes : List Node} {k : Nat} {is : List Nat} (h : Subtree nodes k is) :
    ∀ (fuel : Nat) (i : NodeIdx), i.toNat = k → is.length ≤ fuel → preOrder nodes fuel i = is := by
  induction h with
  | leaf hi =>
    rintro (_ | fuel) i rfl hf
    · cases hf
    · rw [preOrder, body_nodeAt hi]
  | @internal k l r ls rs hi _ _ ihl ihr =>
    rintro (_ | fuel) i rfl hf
    · cases hf
    · simp only [List.length_cons, List.length_append] at hf
      rw [preOrder, body_nodeAt hi]
      dsimp only
      rw [ihl fuel l rfl (by omega), ihr fuel r rfl (by omega)]

theorem nodeCap_lt_of_wf {c : Config} (h : c.wf = true) : c.nodeCap < 2 ^ 16 := by
  have := maxSyms_le_of_wf h
  rw [Config.nodeCap]
  omega

/-- Settles O27: the nodes are numbered in the order of their marks, which is the tree's pre-order. -/
theorem parsedNodesArePreOrder : Obligations.ParsedNodesArePreOrder := by
  intro c h nodes hwf he
  have hp := parsedTree_of_deserialize (nodeCap_lt_of_wf hwf) he
  have hroot : 0 < nodes.length := hp.preOrder.lt 0 hp.preOrder.head_mem
  refine ⟨hroot, (isTree_of_deserialize (nodeCap_lt_of_wf hwf) he).2,
    preOrder_of_subtree hp.preOrder _ _ rfl List.length_range.le,
    fun j n hj => ⟨hp.freq n (List.mem_of_getElem? hj), fun l r hb => ?_⟩⟩
  have hsub := hp.preOrder
  rw [List.range_eq_range'] at hsub
  have hjlt := (List.getElem?_eq_some_iff.1 hj).1
  simpa using hsub.children (j := j) (by simpa using hjlt) (l := l) (r := r) (by rw [bodyAt, hj, ← hb]; rfl)

theorem eq_of_deserialize_absent {c : Config} {h : ByteSeq} (he : deserialize c h = .absent) : h = [markAbsent] := by
  by_cases hh : h.head? = some markAbsent
  · obtain ⟨rest, rfl⟩ := List.head?_eq_some_iff.1 hh
    rw [deserialize_absent] at he
    split at he
    · rename_i hrest
      rw [hrest]
    · cases he
  · obtain ⟨_, _, _, _, -, -, hs⟩ := deserialize_ends (c := c) hh
    rw [he] at hs
    cases hs

/-- Settles O28: the traversal from the root writes the marks of the nodes in order. -/
theorem loadedHeaderSerializesBack : Obligations.LoadedHeaderSerializesBack := by
  intro h s t hwf hl
  obtain ⟨_, _, -, he⟩ | ⟨hd, he⟩ | ⟨nodes, hd, he⟩ := loadTree_cases h s <;> rw [he] at hl <;> cases hl
  · exact (eq_of_deserialize_absent hd).symm
  · have hp := parsedTree_of_deserialize (nodeCap_lt_of_wf hwf) hd
    obtain ⟨t, ht, hm, hlen⟩ := hp.preOrder.exists_shape
    rw [marksOf_range] at hm
    rw [serialize_assignCodes _ rfl]
    exact (ht.visit s.cfg (i := 0#16) (hlen.trans List.length_range).le).trans (hm ▸ hp.header)

end Sys2Proof.Machine
end

section
/-! The round trip of a built tree's header (spec/42_tree_serializer.md R259): the header's marks are those of the
tree's shape, the parse of a shape's marks completes with that shape, and a tree's codes are those of its shape. -/

namespace Sys2Proof.Machine

/-! ### Parsing the marks of a shape -/

/-- What the parser asks of the marks of a tree: valid symbols, no two alike, and at most NODE_CAP marks. -/
structure Readable (c : Config) (ms : List Mark) : Prop where
  valid    : ValidMarks c ms
  distinct : (marksSeen ms).Nodup
  capacity : ms.length ≤ c.nodeCap

theorem Readable.of_prefix {c : Config} {ms ms' : List Mark} (h : Readable c ms) (hp : ms' <+: ms) :
    Readable c ms' where
  valid sym hs := h.valid sym (hp.subset hs)
  distinct := List.nodup_reverse.2 ((List.nodup_reverse.1 h.distinct).sublist (hp.sublist.filterMap _))
  capacity := hp.length_le.trans h.capacity

section
variable {c : Config} {ms : List Mark} {nodes : List Node} {stack : List OpenNode}

theorem Reads.length_ne (h : Reads c ms nodes stack) {m : Mark} (hm : Readable c (ms ++ [m])) :
    nodes.length ≠ c.nodeCap := by
  have := hm.capacity
  rw [List.length_append, List.length_singleton] at this
  rw [h.length_nodes]
  omega

theorem Readable.new_leaf {sym : Sym} (hm : Readable c (ms ++ [.leaf sym])) :
    c.validSym sym = true ∧ sym ∉ marksSeen ms := by
  have := hm.distinct
  rw [marksSeen_concat_leaf] at this
  exact ⟨hm.valid sym (by simp), (List.nodup_cons.1 this).1⟩

/-- The stack after a whole subtree is read: the open nodes that it completes are closed. -/
def closedStack (stack : List OpenNode) : List OpenNode := (attachedStack stack).dropWhile fun p => p.filled == 2

/-- The marks of a shape are read up to its last leaf, and that leaf closes it. -/
theorem Reads.shape (t : Shape) (h : Reads c ms nodes stack) (hm : Readable c (ms ++ t.marks)) :
    ∃ init sym nodes' stack', t.marks = init ++ [.leaf sym] ∧ Reads c (ms ++ init) nodes' stack' ∧
      (placeNode nodes' stack' (.leaf sym) false).2 = closedStack stack := by
  induction t generalizing ms nodes stack with
  | leaf sym => exact ⟨[], sym, nodes, stack, rfl, by rwa [List.append_nil], by rw [placeNode_leaf, closedStack]⟩
  | node l r ihl ihr =>
    have hmarks : ms ++ (Shape.node l r).marks = ms ++ [.node] ++ l.marks ++ r.marks := by simp [Shape.marks]
    rw [hmarks] at hm
    have hml : Readable c (ms ++ [.node] ++ l.marks) := hm.of_prefix (List.prefix_append _ _)
    have hroot := h.node (h.length_ne (hml.of_prefix (List.prefix_append _ _)))
    obtain ⟨initl, syml, nodesl, stackl, hl, hreads, hclosed⟩ := ihl hroot hml
    have hleft : closedStack (placeNode nodes stack (.internal 0#16 0#16) true).2 =
        { idx := nodes.length, filled := 1 } :: attachedStack stack := by
      rw [placeNode_internal]
      rfl
    rw [hleft] at hclosed
    rw [hl, ← List.append_assoc] at hml hm
    obtain ⟨hsym, hnew⟩ := hml.new_leaf
    have hright := hreads.leaf (hreads.length_ne hml) hsym hnew (hclosed ▸ List.cons_ne_nil _ _)
    obtain ⟨initr, symr, nodesr, stackr, hr, hreads, hclosedr⟩ := ihr hright hm
    refine ⟨.node :: (l.marks ++ initr), symr, nodesr, stackr, ?_, ?_, ?_⟩
    · simp [Shape.marks, hr]
    · simpa [hl] using hreads
    · rw [hclosedr, hclosed]
      rfl

end

/-- The marks of a shape are parsed to a tree. -/
theorem deserialize_marks {c : Config} {t : Shape} (h : Readable c t.marks) :
    ∃ nodes, deserialize c (marksBytes c t.marks) = .present nodes := by
  obtain ⟨init, sym, nodes, stack, hm, hr, hclosed⟩ := Reads.nil.shape t h
  rw [hm] at h
  rw [List.nil_append] at hr
  obtain ⟨hsym, hnew⟩ := h.new_leaf
  have hbytes : marksBytes c t.marks = marksBytes c init ++ markLeaf :: symText c sym := by simp [hm, Mark.bytes]
  rw [hbytes]
  exact ⟨_, deserialize_of_stops hr (fun _ => head_markLeaf _) (.present (hr.length_ne h) hsym hnew hclosed)⟩

/-! ### The codes of a shape -/

/-- An entry with frequency 0. -/
def CtEntry.uncounted (e : CtEntry) : CtEntry := { e with freq := 0#32 }

/-- A code table with every frequency 0. -/
def uncounted (ct : SymMap CtEntry) : SymMap CtEntry := ct.map fun e => (e.1, e.2.uncounted)

theorem symLookup_uncounted (ct : SymMap CtEntry) (sym : Sym) :
    symLookup (uncounted ct) sym = (symLookup ct sym).map CtEntry.uncounted := by
  induction ct with
  | nil => rfl
  | cons e ct ih =>
    obtain ⟨k, e⟩ := e
    show (if k = sym then some e.uncounted else symLookup (uncounted ct) sym) = _
    rw [symLookup]
    split
    · rfl
    · exact ih

theorem uncounted_symInsert (ct : SymMap CtEntry) (sym : Sym) (e : CtEntry) :
    uncounted (symInsert ct sym e) = symInsert (uncounted ct) sym e.uncounted := by
  induction ct with
  | nil => rfl
  | cons e' ct ih =>
    obtain ⟨k, e'⟩ := e'
    show _ = symInsert ((k, e'.uncounted) :: uncounted ct) sym e.uncounted
    rw [symInsert, symInsert]
    split
    · rfl
    split
    · rfl
    · exact congrArg ((k, e'.uncounted) :: ·) ih

/-- The code table with the codes of a tree's leaves, the tree's own code being `code` (R208). -/
def Shape.codes : Shape → BitSeq → SymMap CtEntry → SymMap CtEntry
  | .leaf sym, code, ct => symInsert ct sym { code := code, freq := 0#32 }
  | .node l r, code, ct => r.codes (code ++ [true]) (l.codes (code ++ [false]) ct)

/-- The code of a root (R207). -/
def Shape.rootCode : Shape → BitSeq
  | .leaf _ => [false]
  | .node _ _ => []

/-- The traversal of R208 writes the codes of the tree's shape, and frequencies beside them. -/
theorem Shape.At.assignFrom {nodes : List Node} {t : Shape} {i : NodeIdx} (h : t.At nodes i.toNat) :
    ∀ (fuel : Nat) (code : BitSeq) (ns : List Node) (ct : SymMap CtEntry), t.marks.length ≤ fuel →
      (∀ j, bodyAt ns j = bodyAt nodes j) →
      uncounted (assignFrom fuel i code (ns, ct)).2 = t.codes code (uncounted ct) := by
  induction t generalizing i with
  | leaf sym =>
    rintro (_ | fuel) code ns ct hf hns
    · simp [Shape.marks] at hf
    · have hat : (nodeAt (setCode ns i code) i).body = _ :=
        body_nodeAt ((bodyAt_setCode _ _ _ _).trans ((hns _).trans h))
      simp only [Machine.assignFrom, hat]
      exact uncounted_symInsert _ _ _
  | node l r ihl ihr =>
    obtain ⟨a, b, hb, hl, hr⟩ := h
    rintro (_ | fuel) code ns ct hf hns
    · simp [Shape.marks] at hf
    · have hat : (nodeAt (setCode ns i code) i).body = _ :=
        body_nodeAt ((bodyAt_setCode _ _ _ _).trans ((hns _).trans hb))
      have hns₁ (j : Nat) : bodyAt (setCode ns i code) j = bodyAt nodes j := (bodyAt_setCode _ _ _ _).trans (hns j)
      simp only [Shape.marks, List.length_cons, List.length_append] at hf
      simp only [Machine.assignFrom, hat, Shape.codes]
      rw [← ihl hl fuel _ _ ct (by omega) hns₁]
      exact ihr hr fuel _ _ _ (by omega) fun j => (bodyAt_assignFrom _ _ _ _ _ _).trans (hns₁ j)

/-- A tree's codes are those of its shape. -/
theorem ctRead_assignCodes {s : State} (h : s.tstate = .present) {t : Shape} (ht : t.At s.nodes s.root.toNat)
    (hlen : t.marks.length ≤ s.nodes.length) (sym : Sym) :
    ((assignCodes s).ctRead sym).map CtEntry.uncounted = symLookup (t.codes t.rootCode []) sym := by
  have hroot : Machine.rootCode (s.node s.root).body = t.rootCode := by
    cases t with
    | leaf sym => rw [State.node, body_nodeAt ht]; rfl
    | node l r =>
      obtain ⟨a, b, hb, -⟩ := ht
      rw [State.node, body_nodeAt hb]
      rfl
  rw [State.ctRead, ← symLookup_uncounted, assignCodes_of_present h, hroot]
  exact congrArg (symLookup · sym) (ht.assignFrom s.ncount t.rootCode s.nodes [] hlen fun _ => rfl)

/-! ### The shape of a tree with distinct leaves -/

theorem leaf_mem_marksOf {nodes : List Node} {is : List Nat} {sym : Sym} :
    Mark.leaf sym ∈ marksOf nodes is ↔ ∃ i ∈ is, bodyAt nodes i = some (.leaf sym) := by
  rw [marksOf, List.mem_filterMap]
  refine exists_congr fun i => and_congr_right fun _ => ?_
  cases bodyAt nodes i with
  | none => simp
  | some b => cases b <;> simp [NodeBody.mark]

theorem nodup_marksOf {nodes : List Node} {is : List Nat} (hd : DistinctLeaves nodes) (hlen : nodes.length ≤ 2 ^ 16)
    (hn : is.Nodup) : (marksSeen (marksOf nodes is)).Nodup := by
  have hleaf {i : Nat} {sym : Sym} (h : ((bodyAt nodes i).map NodeBody.mark).bind Mark.sym? = some sym) :
      bodyAt nodes i = some (.leaf sym) := by
    cases hb : bodyAt nodes i with
    | none => rw [hb] at h; cases h
    | some b =>
      rw [hb] at h
      cases b <;> cases h
      rfl
  have hidx {i : Nat} {sym : Sym} (h : bodyAt nodes i = some (.leaf sym)) :
      i < 2 ^ 16 ∧ (BitVec.ofNat 16 i).toNat < nodes.length ∧ (nodeAt nodes (BitVec.ofNat 16 i)).body = .leaf sym := by
    have hi := bodyAt_lt h
    have he := toNat_ofNat_of_lt (i := i) (by omega)
    exact ⟨by omega, by rwa [he], body_nodeAt (by rwa [he])⟩
  rw [marksSeen, List.nodup_reverse, marksOf, List.filterMap_filterMap]
  refine hn.filterMap fun i j sym hi hj => ?_
  obtain ⟨hi16, hilt, hib⟩ := hidx (hleaf hi)
  obtain ⟨hj16, hjlt, hjb⟩ := hidx (hleaf hj)
  have := congrArg BitVec.toNat (hd _ _ _ hilt hjlt hib hjb)
  rwa [toNat_ofNat_of_lt hi16, toNat_ofNat_of_lt hj16] at this

/-- Where the bytes of marks are the same, so are the marks. -/
theorem marks_eq_of_bytes {c : Config} {ms ms' : List Mark} (h : ValidMarks c ms) (h' : ValidMarks c ms')
    (he : marksBytes c ms = marksBytes c ms') : ms = ms' :=
  (marks_prefix_of_bytes h h' (he ▸ List.prefix_rfl)).eq_of_length_le
    (marks_prefix_of_bytes h' h (he ▸ List.prefix_rfl)).length_le

/-- A loaded tree's codes have frequency 0. -/
theorem ctRead_loaded {s : State} (h : s.tstate = .present) (ht : IsTree s.nodes s.root)
    (hf : ∀ n ∈ s.nodes, n.freq = 0#32) (sym : Sym) :
    ((assignCodes s).ctRead sym).map CtEntry.uncounted = (assignCodes s).ctRead sym := by
  cases hr : (assignCodes s).ctRead sym with
  | none => rfl
  | some e =>
    obtain ⟨i, hi, -, rfl⟩ := (assignCodes_ctRead h ht sym e).1 hr
    have hfreq : ((assignCodes s).node i).freq = 0#32 :=
      (assignCodes_freq h ht i).trans (hf _ (List.mem_of_getElem? (getElem?_eq_nodeAt hi)))
    rw [hfreq]
    rfl

/-- The header of a tree within NODE_CAP, its leaves valid symbols, is parsed to a tree of the same shape. -/
theorem deserialize_serialize {s : State} (h : s.tstate = .present) (hc : s.cfg.nodeCap < 2 ^ 16)
    (ht : IsTree s.nodes s.root) (hcap : s.nodes.length ≤ s.cfg.nodeCap)
    (hv : ∀ i sym, bodyAt s.nodes i = some (.leaf sym) → s.cfg.validSym sym = true) :
    ∃ (nodes : List Node) (t : Shape), deserialize s.cfg (serialize (assignCodes s)) = .present nodes ∧
      t.At s.nodes s.root.toNat ∧ t.marks.length = s.nodes.length ∧ t.At nodes 0 ∧ t.marks.length = nodes.length := by
  obtain ⟨is, hsub, hperm⟩ := ht.span
  obtain ⟨t, hat, hmarks, hlen⟩ := hsub.exists_shape
  rw [hperm.length_eq, List.length_range] at hlen
  have hreadable : Readable s.cfg t.marks := by
    refine ⟨fun sym hs => ?_, ?_, hlen.trans_le hcap⟩
    · obtain ⟨i, -, hb⟩ := leaf_mem_marksOf.1 (hmarks ▸ hs)
      exact hv i sym hb
    · rw [hmarks]
      exact nodup_marksOf ht.distinct (by omega) (hperm.nodup_iff.2 List.nodup_range)
  obtain ⟨nodes, hd⟩ := deserialize_marks hreadable
  have hp := parsedTree_of_deserialize hc hd
  obtain ⟨t', hat', hmarks', hlen'⟩ := hp.preOrder.exists_shape
  rw [marksOf_range, marks_eq_of_bytes hp.valid hreadable.valid hp.header] at hmarks'
  obtain rfl : t' = t := (Shape.marks_inj (congrArg (· ++ []) hmarks')).1
  refine ⟨nodes, t', ?_, hat, hlen, hat', hlen'.trans List.length_range⟩
  rw [serialize_assignCodes s h, hat.visit s.cfg hlen.le, hd]

theorem validSym_of_merged_leaf {s : State} (hft : FtInv s) {i : Nat} {sym : Sym}
    (hb : bodyAt s.mergedTree.nodes i = some (.leaf sym)) : s.cfg.validSym sym = true := by
  obtain ⟨n, hn, hb⟩ := Option.map_eq_some_iff.1 hb
  exact hft.validKeys _ (List.mem_of_getElem? (key_of_merged_leaf hn hb))

/-- Settles O29: the header of the built tree is parsed to a tree of its shape, and the shape gives the codes. -/
theorem builtTreeReloadsWithItsCodes : Obligations.BuiltTreeReloadsWithItsCodes := by
  intro s hwf hft hne
  have hc := nodeCap_lt_of_wf hwf
  have hcap : s.mergedTree.nodes.length ≤ s.cfg.nodeCap := by
    have := hft.capacity
    rw [length_mergedTree hwf hft hne, Config.nodeCap]
    omega
  rw [build_eq_mergedTree hne]
  obtain ⟨nodes, t, hd, hat, hlen, hat', hlen'⟩ := deserialize_serialize (s := s.mergedTree) rfl hc
    (isTree_mergedTree hwf hft hne) hcap fun _ _ => validSym_of_merged_leaf hft
  have hcfg : (assignCodes s.mergedTree).cfg = s.cfg := (assignCodes_tree _).2.2
  obtain ⟨_, _, he, -⟩ | ⟨he, -⟩ | ⟨nodes', he, hl⟩ :=
    loadTree_cases (serialize (assignCodes s.mergedTree)) (assignCodes s.mergedTree)
  all_goals rw [hcfg] at he; cases hd.symm.trans he
  refine ⟨_, hl, (assignCodes_tree _).1, fun sym => ?_⟩
  rw [← ctRead_loaded rfl (isTree_of_deserialize hc hd).1 (parsedTree_of_deserialize hc hd).freq sym,
    ctRead_assignCodes rfl hat' hlen'.le]
  exact (ctRead_assignCodes (s := s.mergedTree) rfl hat hlen.le sym).symm

end Sys2Proof.Machine
end

section
/-! The commands of the bit packer (spec/43_bit_packer.md R301, R303, R305 to R307, R311, R312, R315, R316): what each
leaves, as a whole next state, and what a run of them pushes. -/

namespace Sys2Proof.Machine

/-! ### Trailing valid bits (R301) -/

theorem eq_tvbOf_iff {v n : Nat} : v = tvbOf n ↔ v ≤ 8 ∧ v % 8 = n % 8 ∧ (v = 0 ↔ n = 0) := by
  unfold tvbOf
  split
  · omega
  · split <;> omega

/-- Settles O31: `tvb` stays congruent to the number of appended bits, and is 0 only where that is. -/
theorem tvbCountsAppendedBits : Obligations.TvbCountsAppendedBits := by
  intro t n m ht
  obtain ⟨hle, hmod, hzero⟩ := eq_tvbOf_iff.1 ht
  obtain ⟨hle', hmod', hpos⟩ := tvbAfter_toNat hle m
  rw [eq_tvbOf_iff]
  rcases Nat.eq_zero_or_pos m with rfl | hm
  · exact ⟨hle, hmod, hzero⟩
  · have := hpos hm
    omega

theorem tvbAfter_tvbAfter (t : BitVec 4) (m n : Nat) : tvbAfter (tvbAfter t m) n = tvbAfter t (m + n) := by
  induction m generalizing t with
  | zero => rw [Nat.zero_add, tvbAfter]
  | succ m ih => rw [Nat.succ_add, tvbAfter, tvbAfter, ih]

theorem tvbAfter_length_eq_foldl (t : BitVec 4) (bits : BitSeq) :
    tvbAfter t bits.length = bits.foldl (fun v _ => tvbNext v) t := by
  induction bits generalizing t with
  | nil => rfl
  | cons b bits ih => exact ih (tvbNext t)

/-! ### Appends (R303, R311, R312) -/

theorem appendBits_of_sealed {s : State} (h : s.sealed = true) (bits : BitSeq) :
    appendBits bits s = raise .bpSealed 0#32 s := if_pos h

section
variable {s : State} {bits : BitSeq} (h : s.sealed = false)
include h

theorem appendBits_of_overflow (hcap : s.cfg.bpCapBits < s.bp.length + bits.length) :
    appendBits bits s = raise .bpOverflow (BitVec.ofNat 32 s.bp.length) s := by
  rw [appendBits, h, if_neg Bool.false_ne_true, if_pos hcap]

theorem appendBits_of_fits (hcap : ¬s.cfg.bpCapBits < s.bp.length + bits.length) :
    appendBits bits s = .done { s with bp := s.bp ++ bits, tvb := tvbAfter s.tvb bits.length } := by
  rw [appendBits, h, if_neg Bool.false_ne_true, if_neg hcap]

end

/-- An append command runs `append_bits` in the quiescent phases. -/
theorem exec_of_appendedBits {i : Instr} {bits : BitSeq} (hi : appendedBits i = some bits) {s : State}
    (h : s.phase ∈ quiescentPhases) : exec i s = .next (finish (appendBits bits s)) := by
  cases i
  case bpAppendBit | bpAppendBits =>
    obtain rfl := Option.some.inj hi
    exact exec_of_mem h
  all_goals cases hi

/-- Settles O30: the two checks in their order, and the append where neither raises. -/
theorem appendIsAllOrNothing : Obligations.AppendIsAllOrNothing := by
  intro s i bits hi hphase
  rw [exec_of_appendedBits hi hphase]
  by_cases hs : s.sealed = true
  · rw [appendBits_of_sealed hs, if_pos hs]
    rfl
  · rw [if_neg hs]
    rw [Bool.not_eq_true] at hs
    by_cases hcap : s.cfg.bpCapBits < s.bp.length + bits.length
    · rw [appendBits_of_overflow hs hcap, if_pos hcap]
      rfl
    · rw [appendBits_of_fits hs hcap, if_neg hcap, tvbAfter_length_eq_foldl]
      rfl

/-! ### Pushes that end, or wait for room -/

/-- What pushing `n` bytes from `s` on can come to, with no credit limit: it ends in `t`, or the command, still in
flight, waits because OUT lacks room for them (spec/00_scope.md R16). -/
inductive PushesOrWaits (n : Nat) (s t : State) : Flow → Prop
  | ends : PushesOrWaits n s t (.done t)
  | waits (u : State) (rest : List Micro) (hbusy : u.busy = s.busy) (hfull : s.cfg.outDepth < s.outFifo.length + n) :
      PushesOrWaits n s t (.wait u rest)

section
variable {n m : Nat} {s t u : State} {f : Flow}

theorem PushesOrWaits.of_room (h : PushesOrWaits n s t f) (hroom : s.outFifo.length + n ≤ s.cfg.outDepth) :
    f = .done t := by
  cases h with
  | ends => rfl
  | waits _ _ _ hfull => exact absurd hroom (Nat.not_le.2 hfull)

theorem PushesOrWaits.of_not_busy (h : PushesOrWaits n s t f) (hs : s.busy = true) (hf : (finish f).busy = false) :
    finish f = complete t := by
  cases h with
  | ends => rfl
  | waits _ _ hbusy _ => exact absurd (hf.symm.trans (hbusy.trans hs)) Bool.false_ne_true

/-- Pushing `n` bytes, and `m` more from the state after them. -/
theorem PushesOrWaits.andThen (h : PushesOrWaits n s t f) {k : State → Flow} {r : List Micro}
    (hk : PushesOrWaits m t u (k t)) (hbusy : t.busy = s.busy) (hcfg : t.cfg = s.cfg)
    (hout : t.outFifo.length = s.outFifo.length + n) : PushesOrWaits (n + m) s u (f.andThen k r) := by
  cases h with
  | waits v rest hv hfull => exact .waits v _ hv (by omega)
  | ends =>
    rw [Flow.andThen_done]
    generalize k t = g at hk ⊢
    cases hk with
    | ends => exact .ends
    | waits v rest hv hfull =>
      rw [hcfg, hout] at hfull
      exact .waits v rest (hv.trans hbusy) (by omega)

end

theorem pushedAll_pushed {s : State} (hc : s.credit = none) (b : Byte) (bs : ByteSeq) :
    pushedAll bs (pushed b s) = pushedAll (b :: bs) s := by
  simp only [pushedAll, pushed, State.spend, hc, Option.map_none, List.append_assoc, List.singleton_append,
    List.length_cons, BitVec.add_assoc, Nat.add_comm bs.length 1, BitVec.ofNat_add]

theorem eq_pushedAll_of_done {bs : ByteSeq} {s t : State} (hc : s.credit = none) (h : pushAll bs s = .done t) :
    t = pushedAll bs s := by
  induction bs generalizing s with
  | nil =>
    obtain rfl : s = t := Flow.done.inj h
    simp [pushedAll]
  | cons b bs ih =>
    rw [← pushedAll_pushed hc]
    rw [pushAll] at h
    split at h
    · exact ih (by simp [hc]) h
    · cases h

theorem pushAll_pushesOrWaits {s : State} (hc : s.credit = none) (bs : ByteSeq) :
    PushesOrWaits bs.length s (pushedAll bs s) (pushAll bs s) := by
  obtain ⟨t, hsame, hdone | ⟨left, hwait⟩⟩ := pushAll_session bs s
  · rw [hdone, eq_pushedAll_of_done hc hdone]
    exact .ends
  · rw [hwait]
    refine .waits t _ hsame.busy (Nat.lt_of_not_le fun hroom => ?_)
    rw [pushAll_room hc hroom] at hwait
    cases hwait

/-! ### Drains (R305, R306) -/

/-- The state that `drain_ready()` leaves (R305). -/
def State.drainedReady (s : State) : State := { pushedAll (fullBytes s.bp) s with bp := partialBits s.bp }

/-- The state that `drain_all()` leaves (R306). -/
def State.drainedAll (s : State) : State := { pushedAll (bitsToBytes s.bp) s with bp := [], sealed := true }

theorem drainReady_pushesOrWaits {s : State} (hc : s.credit = none) :
    PushesOrWaits (s.bp.length / 8) s s.drainedReady (runTodo (drainReady s) s) := by
  rw [← length_fullBytes]
  exact (pushAll_pushesOrWaits hc _).andThen (m := 0) .ends rfl rfl List.length_append

/-- The padded byte pushed after `drain_ready()`, and the seal. -/
theorem seal_drainedReady (s : State) :
    runTodo [.sealPacker] (pushedAll (paddedByte (partialBits s.bp)) s.drainedReady) = .done s.drainedAll := by
  simp only [runTodo_singleton, runMicro, State.drainedReady, State.drainedAll, pushedAll, bitsToBytes,
    List.append_assoc, List.length_append, BitVec.add_assoc, BitVec.ofNat_add]

theorem drainAll_pushesOrWaits {s : State} (hc : s.credit = none) :
    PushesOrWaits ((s.bp.length + 7) / 8) s s.drainedAll (runTodo (drainAll s) s) := by
  have hpad : PushesOrWaits (paddedByte (partialBits s.bp)).length s.drainedReady s.drainedAll
      (runTodo [.push (paddedByte (partialBits s.bp)), .sealPacker] s.drainedReady) :=
    (pushAll_pushesOrWaits (s := s.drainedReady) hc _).andThen (m := 0) (k := runTodo [.sealPacker])
      (by rw [seal_drainedReady]; exact .ends) rfl rfl List.length_append
  rw [← length_bitsToBytes, bitsToBytes, List.length_append, length_fullBytes, drainAll, runTodo_append]
  exact (drainReady_pushesOrWaits hc).andThen hpad rfl rfl (by rw [← length_fullBytes]; exact List.length_append)

/-- Settles O32: with room for its bytes a drain runs to its end. -/
theorem bpDrainsPushTheBytes : Obligations.BpDrainsPushTheBytes := by
  refine fun s hphase => ⟨fun ⟨hc, hroom⟩ => ?_, fun ⟨hc, hroom⟩ => ?_⟩
  · rw [exec_of_mem (i := .bpDrainReady) hphase, commandBody, (drainReady_pushesOrWaits hc).of_room hroom]
    rfl
  · rw [exec_of_mem (i := .bpDrainAll) hphase, commandBody, (drainAll_pushesOrWaits hc).of_room hroom]
    rfl

/-! ### Commands one after another -/

/-- The state in which a run of commands starts its next one. -/
def State.started (s : State) : State := { s with busy := true, done := false, todo := [] }

theorem runCommands_cons {i : Instr} {is : List Instr} {s t : State} (h : runCommands (i :: is) s = some t) :
    ∃ u, exec i s.started = .next u ∧ u.done = true ∧ u.busy = false ∧ runCommands is u = some t := by
  simp only [runCommands] at h
  split at h
  · rename_i u hu
    split at h
    · rename_i hended
      obtain ⟨hdone, hbusy⟩ := (Bool.and_eq_true _ _).mp hended
      exact ⟨u, hu, hdone, Bool.not_eq_true' _ ▸ hbusy, h⟩
    · cases h
  · cases h
  · cases h

/-! ### Packing through any mix of drains (R307) -/

/-- A drain of the full bytes does not change what is pushed in the end. -/
theorem fullBytes_append_bitsToBytes (s rest : BitSeq) :
    fullBytes s ++ bitsToBytes (partialBits s ++ rest) = bitsToBytes (s ++ rest) := by
  induction s using byteInduction with
  | short s h => rw [fullBytes_of_short h, partialBits_of_short h, List.nil_append]
  | byte b s h ih =>
    rw [fullBytes_byte_append h, partialBits_byte_append h, List.append_assoc, bitsToBytes_byte_append h,
      List.cons_append, ih]

/-- The bits that a run of commands appends. -/
def bitsOf (cmds : List Instr) : BitSeq := (cmds.filterMap appendedBits).flatten

theorem bitsOf_cons_append {i : Instr} {bits : BitSeq} (h : appendedBits i = some bits) (cmds : List Instr) :
    bitsOf (i :: cmds) = bits ++ bitsOf cmds := by
  rw [bitsOf, List.filterMap_cons_some h, List.flatten_cons, bitsOf]

theorem bitsOf_cons_drainReady (cmds : List Instr) : bitsOf (.bpDrainReady :: cmds) = bitsOf cmds := rfl

section
variable {i : Instr} {s u : State} (hphase : s.phase ∈ quiescentPhases)
include hphase

/-- An append that completes has appended its bits. -/
theorem completed_append {bits : BitSeq} (hi : appendedBits i = some bits) (hs : s.sealed = false)
    (h : exec i s.started = .next u) (hdone : u.done = true) :
    u = complete { s.started with bp := s.bp ++ bits, tvb := tvbAfter s.tvb bits.length } := by
  rw [exec_of_appendedBits hi (by exact hphase)] at h
  obtain rfl := Host.Outcome.next.inj h
  by_cases hcap : s.cfg.bpCapBits < s.bp.length + bits.length
  · rw [appendBits_of_overflow (by exact hs) (by exact hcap)] at hdone
    cases hdone
  · rw [appendBits_of_fits (by exact hs) (by exact hcap)]
    rfl

variable (hc : s.credit = none) (hbusy : u.busy = false)
include hc hbusy

/-- A BP_DRAIN_READY that completes has drained. -/
theorem completed_drainReady (h : exec .bpDrainReady s.started = .next u) : u = complete s.started.drainedReady := by
  rw [exec_of_mem (i := .bpDrainReady) (s := s.started) hphase] at h
  obtain rfl := Host.Outcome.next.inj h
  exact (drainReady_pushesOrWaits (s := s.started) hc).of_not_busy rfl hbusy

/-- A BP_DRAIN_ALL that completes has drained. -/
theorem completed_drainAll (h : exec .bpDrainAll s.started = .next u) : u = complete s.started.drainedAll := by
  rw [exec_of_mem (i := .bpDrainAll) (s := s.started) hphase] at h
  obtain rfl := Host.Outcome.next.inj h
  exact (drainAll_pushesOrWaits (s := s.started) hc).of_not_busy rfl hbusy

end

/-- From `s` to `t` the packer was given these bits, and everything was drained. -/
structure Packed (bits : BitSeq) (s t : State) : Prop where
  out    : t.outFifo = s.outFifo ++ bitsToBytes (s.bp ++ bits)
  tvb    : t.tvb = tvbAfter s.tvb bits.length
  bp     : t.bp = []
  sealed : t.sealed = true

/-- The law of R307 from any open packer: an append and a BP_DRAIN_READY at the front of the run change the packer and
OUT, and not what is pushed in the end. -/
theorem runCommands_packed {cmds : List Instr} {s t : State}
    (hcmds : ∀ i ∈ cmds, i = .bpDrainReady ∨ (appendedBits i).isSome = true) (hphase : s.phase ∈ quiescentPhases)
    (hc : s.credit = none) (hs : s.sealed = false) (h : runCommands (cmds ++ [.bpDrainAll]) s = some t) :
    Packed (bitsOf cmds) s t := by
  induction cmds generalizing s with
  | nil =>
    obtain ⟨u, hexec, -, hbusy, hend⟩ := runCommands_cons h
    obtain rfl := completed_drainAll hphase hc hbusy hexec
    obtain rfl := Option.some.inj hend
    exact ⟨by rw [bitsOf, List.filterMap_nil, List.flatten_nil, List.append_nil]; rfl, rfl, rfl, rfl⟩
  | cons i cmds ih =>
    obtain ⟨u, hexec, hdone, hbusy, hrest⟩ := runCommands_cons h
    have ih := ih (s := u) (fun j hj => hcmds j (List.mem_cons_of_mem _ hj))
    rcases hcmds i List.mem_cons_self with rfl | hi
    · obtain rfl := completed_drainReady hphase hc hbusy hexec
      obtain ⟨hout, htvb, hbp, hsealed⟩ := ih hphase hc hs hrest
      refine ⟨?_, htvb, hbp, hsealed⟩
      rw [hout, bitsOf_cons_drainReady, ← fullBytes_append_bitsToBytes s.bp, ← List.append_assoc]
      rfl
    · obtain ⟨bits, hbits⟩ := Option.isSome_iff_exists.1 hi
      obtain rfl := completed_append hphase hbits hs hexec hdone
      obtain ⟨hout, htvb, hbp, hsealed⟩ := ih hphase hc hs hrest
      rw [bitsOf_cons_append hbits]
      refine ⟨?_, ?_, hbp, hsealed⟩
      · rw [hout, ← List.append_assoc]
        rfl
      · rw [htvb, List.length_append, ← tvbAfter_tvbAfter]
        rfl

/-- Settles O33: the law of R307 from an empty packer, whose `tvb` is that of no bits. -/
theorem packerOutputLaw : Obligations.PackerOutputLaw := by
  intro s t cmds hcmds hphase hc hbp htvb hs h
  obtain ⟨hout, htvb', hbp', hsealed⟩ := runCommands_packed hcmds hphase hc hs h
  rw [hbp, List.nil_append] at hout
  refine ⟨hout, length_bitsToBytes _, ?_, hbp', hsealed⟩
  rw [htvb', htvb, tvbCountsAppendedBits 0#4 0 _ rfl, Nat.zero_add]
  rfl

end Sys2Proof.Machine
end

section
/-! The commands of the stream encoder, and DEC_BEGIN (spec/44_stream_encoder.md R350 to R363; spec/45_stream_decoder.md
R430): what each leaves, as a whole next state, and what the second pass pushes. -/

namespace Sys2Proof.Machine

/-- Settles O15: both begin in every phase, and each is `clear_session()` and its first phase. -/
theorem beginCommandsOpenASession : Obligations.BeginCommandsOpenASession := by
  rintro s i p (h | h) <;> obtain ⟨rfl, rfl⟩ := Prod.mk.inj h
  · exact exec_of_mem (i := .encBegin) (mem_allPhases s.phase)
  · exact exec_of_mem (i := .decBegin) (mem_allPhases s.phase)

/-! ### ENC_HEADER (R361) -/

theorem roomFor_build {n : Nat} {s : State} (h : RoomFor n s) : RoomFor n (build s) := by
  rw [build_frame]
  exact h

/-- Settles O34: the check comes before the first push, and then the header's bytes find room. -/
theorem encHeaderBuildsAndPushes : Obligations.EncHeaderBuildsAndPushes := by
  intro s hphase b
  rw [exec_of_mem (i := .encHeader) (List.mem_singleton.2 hphase), commandBody]
  refine ⟨fun hlong => ?_, fun hfits hroom => ?_⟩
  · rw [emitHeader_of_long hlong]
    rfl
  · rw [emitHeader_of_room hfits (roomFor_build hroom)]
    rfl

/-! ### ENC_SYM (R352, R353, R355, R362) -/

/-- The state that an accepted symbol's code leaves before the periodic flush. -/
def State.codeAppended (code : BitSeq) (s : State) : State :=
  countSym { s with bp := s.bp ++ code, tvb := tvbAfter s.tvb code.length }

theorem exec_encSym {s : State} (sym : Sym) (h : s.phase = .eEmit) :
    exec (.encSym sym) s = .next (finish (commandBody (.encSym sym) s)) :=
  exec_of_mem (i := .encSym sym) (List.mem_singleton.2 h)

theorem commandBody_encSym_of_none {s : State} {sym : Sym} (h : s.ctRead sym = none) :
    commandBody (.encSym sym) s = raise .unknownSymbol (sym.zeroExtend 32) s := by
  rw [commandBody, h]

theorem commandBody_encSym_of_some {s : State} {sym : Sym} {e : CtEntry} (h : s.ctRead sym = some e) :
    commandBody (.encSym sym) s = (appendBits e.code s).andThen (fun s => flushIfFull (countSym s)) [] := by
  rw [commandBody, h]

/-- A code that fits an open packer is appended, and then the full bytes are flushed at FLUSH_BITS bits. -/
theorem commandBody_encSym_of_fits {s : State} {sym : Sym} {e : CtEntry} (he : s.ctRead sym = some e)
    (hs : s.sealed = false) (hcap : s.bp.length + e.code.length ≤ s.cfg.bpCapBits) :
    commandBody (.encSym sym) s = flushIfFull (s.codeAppended e.code) := by
  rw [commandBody_encSym_of_some he, appendBits_of_fits hs (Nat.not_lt.2 hcap)]
  rfl

theorem flushIfFull_of_lt {s : State} (h : s.bp.length < s.cfg.flushBits) : flushIfFull s = .done s :=
  if_neg (Nat.not_le.2 h)

theorem flushIfFull_of_le {s : State} (h : s.cfg.flushBits ≤ s.bp.length) :
    flushIfFull s = runTodo (drainReady s) s :=
  if_pos h

/-- The lower bound of BP_CAP_BITS in a legal build (R8). -/
theorem flushBits_add_maxCodeLen_le_of_wf {c : Config} (h : c.wf = true) :
    c.flushBits + c.maxCodeLen - 1 ≤ c.bpCapBits := by
  simp only [Config.wf, Bool.and_eq_true, decide_eq_true_eq] at h
  obtain ⟨⟨⟨⟨⟨⟨-, hcap⟩, -⟩, -⟩, -⟩, -⟩, -⟩ := h
  exact hcap

/-- Settles O35: no entry raises; below FLUSH_BITS a code of at most MAX_CODE_LEN bits fits by R8's bound; and the two
outcomes of the append are those of the periodic flush. -/
theorem encSymAppendsTheCode : Obligations.EncSymAppendsTheCode := by
  refine ⟨fun s sym hphase hnone => ?_, fun s sym e hwf hct he hlt => ?_, fun s sym e hphase he hs hcap => ?_⟩
  · rw [exec_encSym sym hphase, commandBody_encSym_of_none hnone]
    rfl
  · have hbound := flushBits_add_maxCodeLen_le_of_wf hwf
    have hlen := hct.codeLen sym e he
    omega
  · rw [exec_encSym sym hphase, commandBody_encSym_of_fits he hs hcap]
    refine ⟨fun hlt => ?_, fun hle ⟨hc, hroom⟩ => ?_⟩
    · rw [flushIfFull_of_lt (s := s.codeAppended e.code) hlt]
      rfl
    · rw [flushIfFull_of_le (s := s.codeAppended e.code) hle,
        (drainReady_pushesOrWaits (s := s.codeAppended e.code) hc).of_room hroom]
      rfl

/-! ### ENC_FINISH (R363) -/

theorem pushedAll_pushedAll (a b : ByteSeq) (s : State) : pushedAll b (pushedAll a s) = pushedAll (a ++ b) s := by
  simp only [pushedAll, List.append_assoc, List.length_append, BitVec.ofNat_add, BitVec.add_assoc]

/-- The bytes that ENC_FINISH pushes: what the packer holds, and the marker. -/
def State.finalBytes (s : State) : ByteSeq := bitsToBytes s.bp ++ [s.tvb.zeroExtend 8]

/-- The state that ENC_FINISH leaves, but for its completion. -/
def State.finished (s : State) : State :=
  { pushedAll s.finalBytes s with bp := [], sealed := true, phase := .eDone }

/-- The marker pushed after `drain_all()`, and the phase. -/
theorem setPhase_drainedAll (s : State) :
    runTodo [.setPhase .eDone] (pushedAll [s.tvb.zeroExtend 8] s.drainedAll) = .done s.finished := by
  rw [State.finished, State.finalBytes, ← pushedAll_pushedAll]
  rfl

theorem encFinish_pushesOrWaits {s : State} (hc : s.credit = none) :
    PushesOrWaits ((s.bp.length + 7) / 8 + 1) s s.finished (commandBody .encFinish s) := by
  have hmarker : PushesOrWaits 1 s.drainedAll s.finished
      (runTodo [.push [s.tvb.zeroExtend 8], .setPhase .eDone] s.drainedAll) :=
    (pushAll_pushesOrWaits (s := s.drainedAll) hc [s.tvb.zeroExtend 8]).andThen (m := 0)
      (k := runTodo [.setPhase .eDone]) (by rw [setPhase_drainedAll]; exact .ends) rfl rfl List.length_append
  rw [commandBody, runTodo_append]
  exact (drainAll_pushesOrWaits hc).andThen hmarker rfl rfl (by rw [← length_bitsToBytes]; exact List.length_append)

theorem exec_encFinish {s : State} (h : s.phase = .eEmit) :
    exec .encFinish s = .next (finish (commandBody .encFinish s)) :=
  exec_of_mem (i := .encFinish) (List.mem_singleton.2 h)

/-- Settles O36: with room for its bytes the command runs to its end. -/
theorem encFinishPushesTheMarker : Obligations.EncFinishPushesTheMarker := by
  intro s hphase ⟨hc, hroom⟩
  rw [exec_encFinish hphase, (encFinish_pushesOrWaits hc).of_room hroom]
  rfl

/-! ### The second pass (R354) -/

/-- From `s` to `u` the encoder has taken this code into the packer and counted a symbol; a flush has moved full bytes
from the packer to OUT, or not, which does not change what is pushed in the end. -/
structure CodeSent (code : BitSeq) (s u : State) : Prop where
  phase    : u.phase = s.phase
  credit   : u.credit = s.credit
  sealed   : u.sealed = s.sealed
  ct       : u.ct = s.ct
  tvb      : u.tvb = tvbAfter s.tvb code.length
  statSyms : u.statSyms = s.statSyms + 1#32
  out      : ∀ bits, u.outFifo ++ bitsToBytes (u.bp ++ bits) = s.outFifo ++ bitsToBytes (s.bp ++ code ++ bits)

theorem codeSent_codeAppended (code : BitSeq) (s : State) : CodeSent code s (s.codeAppended code) :=
  ⟨rfl, rfl, rfl, rfl, rfl, rfl, fun _ => rfl⟩

theorem CodeSent.drainedReady {code : BitSeq} {s u : State} (h : CodeSent code s u) :
    CodeSent code s u.drainedReady where
  phase := h.phase
  credit := h.credit
  sealed := h.sealed
  ct := h.ct
  tvb := h.tvb
  statSyms := h.statSyms
  out bits := by
    rw [← h.out, ← fullBytes_append_bitsToBytes u.bp, ← List.append_assoc]
    rfl

theorem CodeSent.complete {code : BitSeq} {s u : State} (h : CodeSent code s u) : CodeSent code s (complete u) :=
  ⟨h.phase, h.credit, h.sealed, h.ct, h.tvb, h.statSyms, h.out⟩

/-- A periodic flush that runs to its end leaves the code sent. -/
theorem CodeSent.flushIfFull {code : BitSeq} {s u : State} (h : CodeSent code s u) (hc : u.credit = none)
    (hstart : u.busy = true) (hend : (finish (flushIfFull u)).busy = false) :
    CodeSent code s (finish (flushIfFull u)) := by
  rcases Nat.lt_or_ge u.bp.length u.cfg.flushBits with hlt | hle
  · rw [flushIfFull_of_lt hlt]
    exact h.complete
  · rw [flushIfFull_of_le hle] at hend ⊢
    rw [(drainReady_pushesOrWaits hc).of_not_busy hstart hend]
    exact h.drainedReady.complete

section
variable {s u : State} (hphase : s.phase = .eEmit) (hc : s.credit = none) (hbusy : u.busy = false)
include hphase hc hbusy

/-- An ENC_SYM that completes has sent its symbol's code. -/
theorem completed_encSym {sym : Sym} (hs : s.sealed = false) (h : exec (.encSym sym) s.started = .next u)
    (hdone : u.done = true) : ∃ e, s.ctRead sym = some e ∧ CodeSent e.code s.started u := by
  rw [exec_encSym (s := s.started) sym hphase] at h
  obtain rfl := Host.Outcome.next.inj h
  cases he : s.ctRead sym with
  | none =>
    rw [commandBody_encSym_of_none (s := s.started) he] at hdone
    cases hdone
  | some e =>
    refine ⟨e, rfl, ?_⟩
    by_cases hcap : s.cfg.bpCapBits < s.bp.length + e.code.length
    · rw [commandBody_encSym_of_some (s := s.started) he, appendBits_of_overflow (s := s.started) hs hcap] at hdone
      cases hdone
    · rw [commandBody_encSym_of_fits (s := s.started) he hs (Nat.not_lt.1 hcap)] at hbusy ⊢
      exact (codeSent_codeAppended e.code s.started).flushIfFull hc rfl hbusy

/-- An ENC_FINISH that completes has pushed everything and the marker. -/
theorem completed_encFinish (h : exec .encFinish s.started = .next u) : u = complete s.started.finished := by
  rw [exec_encFinish (s := s.started) hphase] at h
  obtain rfl := Host.Outcome.next.inj h
  exact (encFinish_pushesOrWaits (s := s.started) hc).of_not_busy rfl hbusy

end

/-- Codes depend on CT alone. -/
theorem codesOf_congr {s u : State} (h : u.ct = s.ct) (syms : List Sym) : codesOf u syms = codesOf s syms := by
  induction syms with
  | nil => rfl
  | cons sym syms ih => rw [codesOf, codesOf, ih, State.ctRead, h, State.ctRead]

theorem codesOf_cons {s : State} {sym : Sym} {e : CtEntry} {syms : List Sym} {bits : BitSeq}
    (he : s.ctRead sym = some e) (hbits : codesOf s syms = some bits) :
    codesOf s (sym :: syms) = some (e.code ++ bits) := by
  rw [codesOf, he, hbits]

/-- From `s` to `t` the second pass has encoded these symbols, whose codes are these bits, and has ended. -/
structure Encoded (syms : List Sym) (bits : BitSeq) (s t : State) : Prop where
  codes    : codesOf s syms = some bits
  out      : t.outFifo = s.outFifo ++ bitsToBytes (s.bp ++ bits) ++ [(tvbAfter s.tvb bits.length).zeroExtend 8]
  statSyms : t.statSyms = s.statSyms + BitVec.ofNat 32 syms.length
  phase    : t.phase = .eDone

/-- Acceptance changes nothing that is encoded. -/
theorem Encoded.of_started {syms : List Sym} {bits : BitSeq} {s t : State} (h : Encoded syms bits s.started t) :
    Encoded syms bits s t :=
  ⟨(codesOf_congr (s := s) (u := s.started) rfl syms).symm.trans h.codes, h.out, h.statSyms, h.phase⟩

theorem encoded_nil (s : State) : Encoded [] [] s (complete s.finished) where
  codes := rfl
  out := by
    rw [List.append_nil, List.append_assoc]
    rfl
  statSyms := (BitVec.add_zero _).symm
  phase := rfl

theorem CodeSent.encoded {e : CtEntry} {sym : Sym} {syms : List Sym} {bits : BitSeq} {s u t : State}
    (h : CodeSent e.code s u) (he : s.ctRead sym = some e) (hrest : Encoded syms bits u t) :
    Encoded (sym :: syms) (e.code ++ bits) s t where
  codes := codesOf_cons he (codesOf_congr h.ct syms ▸ hrest.codes)
  out := by rw [hrest.out, h.out, h.tvb, tvbAfter_tvbAfter, List.length_append, List.append_assoc s.bp]
  statSyms := by
    rw [hrest.statSyms, h.statSyms, BitVec.add_assoc, List.length_cons, Nat.add_comm syms.length, BitVec.ofNat_add]
  phase := hrest.phase

/-- The law of R354 from any open packer, symbol by symbol. -/
theorem runCommands_encoded {syms : List Sym} {s t : State} (hphase : s.phase = .eEmit) (hc : s.credit = none)
    (hs : s.sealed = false) (h : runCommands (syms.map .encSym ++ [.encFinish]) s = some t) :
    ∃ bits, Encoded syms bits s t := by
  induction syms generalizing s with
  | nil =>
    obtain ⟨u, hexec, -, hbusy, hend⟩ := runCommands_cons h
    obtain rfl := completed_encFinish hphase hc hbusy hexec
    obtain rfl := Option.some.inj hend
    exact ⟨[], (encoded_nil s.started).of_started⟩
  | cons sym syms ih =>
    obtain ⟨u, hexec, hdone, hbusy, hrest⟩ := runCommands_cons h
    obtain ⟨e, he, hsent⟩ := completed_encSym hphase hc hbusy hs hexec hdone
    obtain ⟨bits, henc⟩ := ih (hsent.phase.trans hphase) (hsent.credit.trans hc) (hsent.sealed.trans hs) hrest
    exact ⟨e.code ++ bits, (hsent.encoded he henc).of_started⟩

/-- A cleared packer's `tvb` after so many bits, as the marker byte (R177). -/
theorem marker_eq_tvbOf (n : Nat) : (tvbAfter 0#4 n).zeroExtend 8 = BitVec.ofNat 8 (tvbOf n) := by
  have htvb : (tvbAfter 0#4 n).toNat = tvbOf n := by
    rw [tvbCountsAppendedBits 0#4 0 n rfl, Nat.zero_add]
  rw [← htvb, BitVec.ofNat_toNat]

/-- Settles O37: the law of R354 from a cleared packer. -/
theorem encodedPayloadLaw : Obligations.EncodedPayloadLaw := by
  intro s t syms hphase hc hbp htvb hs h
  obtain ⟨bits, hcodes, hout, hstat, hend⟩ := runCommands_encoded hphase hc hs h
  rw [hbp, List.nil_append, htvb, marker_eq_tvbOf] at hout
  exact ⟨bits, hcodes, hout, hstat, hend⟩

end Sys2Proof.Machine
end

section
/-! The tree walk (spec/45_stream_decoder.md R406 to R408): its result as a pure function of the tree, what the core
does with it where OUT has room for the texts, and the walk of the codes of a symbol sequence. -/

namespace Sys2Proof.Machine

/-! ### The result of a walk -/

theorem symTexts_nil (c : Config) : symTexts c [] = [] := rfl

theorem symTexts_cons (c : Config) (sym : Sym) (syms : List Sym) :
    symTexts c (sym :: syms) = symText c sym ++ symTexts c syms := by
  rw [symTexts, List.map_cons, List.flatten_cons, symTexts]

theorem symTexts_append (c : Config) (a b : List Sym) : symTexts c (a ++ b) = symTexts c a ++ symTexts c b := by
  rw [symTexts, List.map_append, List.flatten_append, symTexts, symTexts]

/-- A symbol decoded before the others of a walk. -/
def Walked.cons (sym : Sym) (w : Walked) : Walked := { w with syms := sym :: w.syms }

/-- One walk, and another from where it ends. -/
def Walked.append (w w' : Walked) : Walked := { w' with syms := w.syms ++ w'.syms }

theorem walkResult_nil (s : State) (cur : NodeIdx) :
    walkResult s [] cur = { syms := [], cur := cur, bad := false } := rfl

section
variable {s : State} {bit : Bool} {cur : NodeIdx} (bits : BitSeq)

theorem walkResult_root_leaf_true {sym : Sym} (hroot : (s.node s.root).body = .leaf sym) :
    walkResult s (true :: bits) cur = { syms := [], cur := cur, bad := true } := by
  rw [walkResult, hroot]
  rfl

theorem walkResult_root_leaf_false {sym : Sym} (hroot : (s.node s.root).body = .leaf sym) :
    walkResult s (false :: bits) cur = (walkResult s bits cur).cons sym := by
  rw [walkResult, hroot]
  rfl

theorem walkResult_to_internal {l r l' r' : NodeIdx} (hroot : (s.node s.root).body = .internal l r)
    (hnode : (s.node (childOf (s.node cur) cur bit)).body = .internal l' r') :
    walkResult s (bit :: bits) cur = walkResult s bits (childOf (s.node cur) cur bit) := by
  rw [walkResult, hroot]
  dsimp only
  rw [hnode]

theorem walkResult_to_leaf {l r : NodeIdx} {sym : Sym} (hroot : (s.node s.root).body = .internal l r)
    (hnode : (s.node (childOf (s.node cur) cur bit)).body = .leaf sym) :
    walkResult s (bit :: bits) cur = (walkResult s bits s.root).cons sym := by
  rw [walkResult, hroot]
  dsimp only
  rw [hnode]
  rfl

end

/-- The result depends on the tree alone. -/
theorem walkResult_congr (s t : State) (hnodes : t.nodes = s.nodes) (hroot : t.root = s.root) (bits : BitSeq)
    (cur : NodeIdx) : walkResult t bits cur = walkResult s bits cur := by
  induction bits generalizing cur with
  | nil => rfl
  | cons bit bits ih => simp only [walkResult, State.node, hnodes, hroot, ih]

/-- A walk that stops at a bad bit, or the walk of the bits after it from where it ends. -/
theorem walkResult_append (s : State) (bits bits' : BitSeq) (cur : NodeIdx) :
    walkResult s (bits ++ bits') cur =
      if (walkResult s bits cur).bad then walkResult s bits cur
      else (walkResult s bits cur).append (walkResult s bits' (walkResult s bits cur).cur) := by
  induction bits generalizing cur with
  | nil => rfl
  | cons bit bits ih =>
    have hcons (sym : Sym) (c : NodeIdx) :
        (walkResult s (bits ++ bits') c).cons sym =
          if ((walkResult s bits c).cons sym).bad then (walkResult s bits c).cons sym
          else ((walkResult s bits c).cons sym).append (walkResult s bits' ((walkResult s bits c).cons sym).cur) := by
      rw [ih]
      exact apply_ite (Walked.cons sym) _ _ _
    rw [List.cons_append]
    cases hroot : (s.node s.root).body with
    | leaf sym =>
      cases bit with
      | true => rw [walkResult_root_leaf_true _ hroot, walkResult_root_leaf_true _ hroot, if_pos rfl]
      | false => rw [walkResult_root_leaf_false _ hroot, walkResult_root_leaf_false _ hroot, hcons]
    | internal l r =>
      cases hnode : (s.node (childOf (s.node cur) cur bit)).body with
      | internal l' r' => rw [walkResult_to_internal _ hroot hnode, walkResult_to_internal _ hroot hnode, ih]
      | leaf sym => rw [walkResult_to_leaf _ hroot hnode, walkResult_to_leaf _ hroot hnode, hcons]

/-- In a walk without a bad bit the first bits have none, and the others are walked from where they end. -/
theorem walkResult_append_of_good {s : State} {bits bits' : BitSeq} {cur : NodeIdx}
    (h : (walkResult s (bits ++ bits') cur).bad = false) :
    (walkResult s bits cur).bad = false ∧ walkResult s (bits ++ bits') cur =
      (walkResult s bits cur).append (walkResult s bits' (walkResult s bits cur).cur) := by
  rw [walkResult_append] at h ⊢
  split at h
  · rename_i hbad
    rw [hbad] at h
    cases h
  · rename_i hgood
    exact ⟨Bool.eq_false_of_not_eq_true hgood, if_neg hgood⟩

/-! ### The walk of a code -/

/-- A path that leads to a LEAF is walked to its symbol, and the walk goes on from the root. -/
theorem walkResult_of_descend {s : State} {l r i j : NodeIdx} {sym : Sym}
    (hroot : (s.node s.root).body = .internal l r) {path : BitSeq} (hpath : path ≠ [])
    (hdesc : descend s.nodes i path = some j) (hleaf : (s.node j).body = .leaf sym) (bits : BitSeq) :
    walkResult s (path ++ bits) i = (walkResult s bits s.root).cons sym := by
  induction path generalizing i with
  | nil => exact absurd rfl hpath
  | cons b path ih =>
    cases hi : (nodeAt s.nodes i).body with
    | leaf _ =>
      rw [descend_leaf hi] at hdesc
      cases hdesc
    | internal l' r' =>
      rw [descend_internal hi] at hdesc
      have hchild : childOf (s.node i) i b = if b then r' else l' := by rw [childOf, State.node, hi]
      rw [← hchild] at hdesc
      rw [List.cons_append]
      cases hpath : path with
      | nil =>
        rw [hpath] at hdesc
        obtain rfl := Option.some.inj hdesc
        exact walkResult_to_leaf _ hroot hleaf
      | cons b' path' =>
        rw [hpath] at ih hdesc
        cases hnext : (s.node (childOf (s.node i) i b)).body with
        | leaf _ =>
          rw [descend_leaf hnext] at hdesc
          cases hdesc
        | internal _ _ =>
          rw [walkResult_to_internal _ hroot hnext]
          exact ih (List.cons_ne_nil _ _) hdesc

/-- The code of a symbol is walked from the root to the symbol and back to the root (R207, R209). -/
theorem walkResult_of_code {s : State} (h : CtInv s) {sym : Sym} {e : CtEntry} (he : s.ctRead sym = some e)
    (bits : BitSeq) : walkResult s (e.code ++ bits) s.root = (walkResult s bits s.root).cons sym := by
  obtain ⟨-, i, -, hbody, -, -, hcode⟩ := h.ofLeaf sym e he
  rw [CodeOf] at hcode
  cases hroot : (s.node s.root).body with
  | leaf sym' =>
    rw [hroot] at hcode
    obtain ⟨rfl, hcode⟩ := hcode
    obtain rfl := NodeBody.leaf.inj (hroot.symm.trans hbody)
    rw [hcode]
    exact walkResult_root_leaf_false _ hroot
  | internal l r =>
    rw [hroot] at hcode
    exact walkResult_of_descend hroot (h.nonempty sym e he) hcode hbody bits

/-- Settles O41: the codes are walked one after another, each from the root and back to it. -/
theorem codesDecodeToTheirSymbols : Obligations.CodesDecodeToTheirSymbols := by
  intro s syms bits h hcodes
  induction syms generalizing bits with
  | nil =>
    obtain rfl := Option.some.inj hcodes
    rfl
  | cons sym syms ih =>
    rw [codesOf] at hcodes
    split at hcodes
    · rename_i e rest he hrest
      obtain rfl := Option.some.inj hcodes
      rw [walkResult_of_code h he, ih _ hrest]
      rfl
    · cases hcodes

/-! ### A walk with room for its texts -/

/-- The state after the core has walked bits to this result: the texts pushed, the symbols counted, `cur` moved. -/
def State.walked (w : Walked) (s : State) : State :=
  { s with
    outFifo := s.outFifo ++ symTexts s.cfg w.syms
    statBytes := s.statBytes + BitVec.ofNat 32 (symTexts s.cfg w.syms).length
    cur := w.cur
    statSyms := s.statSyms + BitVec.ofNat 32 w.syms.length }

/-- The state after `emit` (R408), where OUT has room for the text. -/
def State.emitted (sym : Sym) (s : State) : State :=
  { s with
    outFifo := s.outFifo ++ symText s.cfg sym
    statBytes := s.statBytes + BitVec.ofNat 32 (symText s.cfg sym).length
    statSyms := s.statSyms + 1#32 }

theorem walked_of_no_symbol (cur : NodeIdx) (bad : Bool) (s : State) :
    s.walked { syms := [], cur := cur, bad := bad } = { s with cur := cur } := by
  simp [State.walked, symTexts_nil]

theorem walked_walked (w w' : Walked) (s : State) : (s.walked w).walked w' = s.walked (w.append w') := by
  simp only [State.walked, Walked.append, symTexts_append, List.append_assoc, List.length_append,
    BitVec.ofNat_add, BitVec.add_assoc]

theorem walked_emitted (w : Walked) (sym : Sym) (s : State) : (s.emitted sym).walked w = s.walked (w.cons sym) := by
  simp only [State.walked, State.emitted, Walked.cons, symTexts_cons,
    List.append_assoc, List.length_append, List.length_cons, BitVec.ofNat_add, BitVec.add_assoc,
    Nat.add_comm w.syms.length 1]

theorem walkResult_of_cur (c : NodeIdx) (s : State) (bits : BitSeq) (cur : NodeIdx) :
    walkResult { s with cur := c } bits cur = walkResult s bits cur :=
  walkResult_congr s { s with cur := c } rfl rfl bits cur

theorem walkResult_emitted (sym : Sym) (s : State) (bits : BitSeq) (cur : NodeIdx) :
    walkResult (s.emitted sym) bits cur = walkResult s bits cur := walkResult_congr s (s.emitted sym) rfl rfl bits cur

theorem emit_of_room {s : State} {sym : Sym} {rest : List Sym}
    (h : RoomFor (symTexts s.cfg (sym :: rest)).length s) :
    emit sym s = .done (s.emitted sym) ∧ RoomFor (symTexts s.cfg rest).length (s.emitted sym) := by
  obtain ⟨hc, hroom⟩ := h
  rw [symTexts_cons, List.length_append] at hroom
  have hout : (s.emitted sym).outFifo.length = s.outFifo.length + (symText s.cfg sym).length := List.length_append
  refine ⟨?_, hc, ?_⟩
  · rw [emit, pushAll_room hc (by omega)]
    rfl
  · rw [hout]
    exact (Nat.add_assoc _ _ _).trans_le hroom

/-- The core's walk gives the result of the pure one, where OUT has room for the texts. -/
theorem walkBits_of_room {s : State} {w : Walked} {bits : BitSeq} (hw : walkResult s bits s.cur = w)
    (h : RoomFor (symTexts s.cfg w.syms).length s) (off : Word) :
    walkBits bits off s = if w.bad then raise .invalidCode off (s.walked w) else .done (s.walked w) := by
  induction bits generalizing s w with
  | nil =>
    subst hw
    rw [walkResult_nil, walked_of_no_symbol]
    rfl
  | cons bit bits ih =>
    cases hroot : (s.node s.root).body with
    | leaf sym =>
      rw [walkBits_root_leaf hroot]
      cases bit with
      | true =>
        rw [walkResult_root_leaf_true _ hroot] at hw
        subst hw
        rw [walked_of_no_symbol]
        rfl
      | false =>
        rw [walkResult_root_leaf_false _ hroot] at hw
        subst hw
        obtain ⟨hemit, hroom⟩ := emit_of_room h
        rw [if_neg Bool.false_ne_true, hemit, Flow.andThen_done,
          ih (s := s.emitted sym) (walkResult_emitted sym s bits s.cur) hroom, walked_emitted]
        rfl
    | internal l r =>
      cases hnode : (s.node (walkDown bit s).cur).body with
      | internal l' r' =>
        rw [walkBits_to_internal hroot hnode]
        rw [walkResult_to_internal _ hroot hnode] at hw
        exact ih (s := walkDown bit s) ((walkResult_of_cur _ s bits _).trans hw) h
      | leaf sym =>
        rw [walkBits_to_leaf hroot hnode]
        rw [walkResult_to_leaf _ hroot hnode] at hw
        subst hw
        obtain ⟨hemit, hroom⟩ := emit_of_room (s := walkDown bit s) h
        have hrest : walkResult (curToRoot ((walkDown bit s).emitted sym)) bits s.root = walkResult s bits s.root :=
          (walkResult_of_cur _ _ _ _).trans ((walkResult_emitted _ _ _ _).trans (walkResult_of_cur _ _ _ _))
        rw [hemit, Flow.andThen_done, ih (s := curToRoot ((walkDown bit s).emitted sym)) hrest hroom]
        have hwalked : (curToRoot ((walkDown bit s).emitted sym)).walked (walkResult s bits s.root) =
            s.walked ((walkResult s bits s.root).cons sym) := walked_emitted _ sym s
        rw [hwalked]
        rfl

end Sys2Proof.Machine
end

section
/-! The commands of the stream decoder but DEC_BEGIN (spec/45_stream_decoder.md R401 to R413, R422, R431, R432): what
each leaves, as a whole next state, and that a chunk may be split. -/

namespace Sys2Proof.Machine

/-! ### One fed byte (R401, R402) -/

theorem exec_decChunk {s : State} (h : s.phase ∈ decodePhases) (n : BitVec 16) :
    exec (.decChunk n) s = .next (finish (chunkLoop n.toNat s)) := by
  rw [exec_of_mem (i := .decChunk n) h, commandBody, runTodo_singleton, runMicro]

theorem chunkLoop_of_cons {s : State} {b : Byte} {rest : ByteSeq} (hc : s.credit = none) (hi : s.inFifo = b :: rest)
    (n : Nat) : chunkLoop (n + 1) s = (feed b { s with inFifo := rest }).andThen (chunkLoop n) [.chunk n] := by
  rw [chunkLoop, popIn_of_no_limit hc hi]

/-- Where nothing is left to run after a flow that does not wait, it ends the command. -/
theorem finish_andThen_done {f : Flow} (h : ∀ s q, f ≠ .wait s q) (r : List Micro) :
    finish (f.andThen .done r) = finish f := by
  cases f with
  | wait s q => exact absurd rfl (h s q)
  | _ => rfl

/-- DEC_CHUNK 1 with a byte in IN feeds it, where the feed does not wait. -/
theorem exec_decChunk_one {s : State} (h : s.phase ∈ decodePhases) {b : Byte} {rest : ByteSeq} (hc : s.credit = none)
    (hi : s.inFifo = b :: rest) (hends : ∀ t q, feed b { s with inFifo := rest } ≠ .wait t q) :
    exec (.decChunk 1#16) s = .next (finish (feed b { s with inFifo := rest })) := by
  rw [exec_decChunk h, ← finish_andThen_done hends [.chunk 0]]
  exact congrArg (Host.Outcome.next ∘ finish) (chunkLoop_of_cons hc hi 0)

/-- A list of fewer than two elements, or its first two and the others. -/
theorem length_lt_two_or_cons_cons {α : Type} (l : List α) : l.length < 2 ∨ ∃ x y more, l = x :: y :: more :=
  match l with
  | [] => .inl Nat.zero_lt_two
  | [_] => .inl Nat.one_lt_two
  | x :: y :: more => .inr ⟨x, y, more, rfl⟩

section
variable {s : State} (b : Byte)

theorem feed_of_dLen0 (h : s.phase = .dLen0) :
    feed b s = .done { s with dpos := s.dpos + 1#32, hlen := b.zeroExtend 16, phase := .dLen1 } := by
  rw [feed, h]

theorem hlen_eq_ofNat (lo : BitVec 16) (hi : Byte) :
    lo + (hi.zeroExtend 16 <<< 8) = BitVec.ofNat 16 (lo.toNat + 256 * hi.toNat) := by
  have hhi : (hi.zeroExtend 16 <<< 8).toNat = 256 * hi.toNat := by
    rw [BitVec.toNat_shiftLeft, Nat.shiftLeft_eq, BitVec.toNat_setWidth]
    omega
  apply BitVec.eq_of_toNat_eq
  rw [BitVec.toNat_add, hhi, BitVec.toNat_ofNat]

theorem feed_of_dLen1 (h : s.phase = .dLen1) :
    feed b s =
      if BitVec.ofNat 16 (s.hlen.toNat + 256 * b.toNat) = 0#16 then
        headerDone { s with dpos := s.dpos + 1#32, hlen := BitVec.ofNat 16 (s.hlen.toNat + 256 * b.toNat) }
      else
        .done { s with
          dpos := s.dpos + 1#32, hlen := BitVec.ofNat 16 (s.hlen.toNat + 256 * b.toNat), phase := .dHdr } := by
  rw [feed, h]
  dsimp only
  rw [hlen_eq_ofNat]

theorem feed_of_dHdr (h : s.phase = .dHdr) :
    feed b s =
      if (s.hbuf ++ [b]).length = s.hlen.toNat then
        headerDone { s with dpos := s.dpos + 1#32, hbuf := s.hbuf ++ [b] }
      else .done { s with dpos := s.dpos + 1#32, hbuf := s.hbuf ++ [b] } := by
  rw [feed, h]

theorem feed_held_back (h : s.phase = .dPay) (hpend : s.pend.length < 2) :
    feed b s = .done { s with dpos := s.dpos + 1#32, pend := s.pend ++ [(b, s.dpos)] } := by
  rw [feed, h]
  match hp : s.pend with
  | [] => rw [List.nil_append]
  | [p0] => rw [List.singleton_append]
  | p0 :: p1 :: rest =>
    rw [hp, List.length_cons, List.length_cons] at hpend
    omega

theorem feed_confirms (h : s.phase = .dPay) {p0 p1 : Byte × Word} {more : List (Byte × Word)}
    (hpend : s.pend = p0 :: p1 :: more) :
    feed b s = confirm p0.1 p0.2 { s with dpos := s.dpos + 1#32, pend := [p1, (b, s.dpos)] } := by
  rw [feed, h]
  simp only [hpend]

theorem confirm_of_present (off : Word) (h : s.tstate = .present) :
    confirm b off s = walkBits (bitsOfByte b) off s := by
  rw [confirm, h]

theorem confirm_of_no_tree (off : Word) (h : s.tstate ≠ .present) : confirm b off s = raise .noTreePayload off s := by
  unfold confirm
  cases hs : s.tstate with
  | present => exact absurd hs h
  | _ => rfl

end

/-! ### The end of the header (R402) -/

theorem headerDone_ends (s t : State) (q : List Micro) : headerDone s ≠ .wait t q := by
  unfold headerDone
  intro h
  cases hl : loadTree s.hbuf s with
  | wait u r => exact loadTree_ends _ _ _ _ hl
  | _ => rw [hl] at h; cases h

theorem finish_headerDone (s : State) :
    finish (headerDone s) =
      loadResult (deserialize s.cfg s.hbuf) (fun t => { t with cur := 0#16, phase := .dPay }) s := by
  unfold headerDone
  obtain ⟨sub, pos, hd, hl⟩ | ⟨hd, hl⟩ | ⟨nodes, hd, hl⟩ := loadTree_cases s.hbuf s <;> rw [hd, hl]
  · rfl
  · rfl
  · rw [Flow.andThen_done, finish_done, curToRoot, (assignCodes_tree _).2.1]
    rfl

/-- Settles O38: the feed's case of each phase, and the end of the header where its last byte was fed. -/
theorem feedOfAHeaderByte : Obligations.FeedOfAHeaderByte := by
  intro s b rest hc hi s1 pay
  refine ⟨fun hphase => ?_, fun hphase => ?_, fun hphase => ?_⟩
  · have hfeed := feed_of_dLen0 (s := { s with inFifo := rest }) b hphase
    rw [exec_decChunk_one (by rw [hphase]; decide) hc hi (by rw [hfeed]; exact fun _ _ => Flow.noConfusion), hfeed]
    rfl
  · have hfeed := feed_of_dLen1 (s := { s with inFifo := rest }) b hphase
    intro hlen
    by_cases hzero : hlen = 0#16
    · rw [if_pos hzero] at hfeed ⊢
      rw [exec_decChunk_one (by rw [hphase]; decide) hc hi (by rw [hfeed]; exact headerDone_ends _), hfeed,
        finish_headerDone]
    · rw [if_neg hzero] at hfeed ⊢
      rw [exec_decChunk_one (by rw [hphase]; decide) hc hi (by rw [hfeed]; exact fun _ _ => Flow.noConfusion), hfeed]
      rfl
  · have hfeed := feed_of_dHdr (s := { s with inFifo := rest }) b hphase
    intro hbuf
    by_cases hfull : hbuf.length = s.hlen.toNat
    · rw [if_pos hfull] at hfeed ⊢
      rw [exec_decChunk_one (by rw [hphase]; decide) hc hi (by rw [hfeed]; exact headerDone_ends _), hfeed,
        finish_headerDone]
    · rw [if_neg hfull] at hfeed ⊢
      rw [exec_decChunk_one (by rw [hphase]; decide) hc hi (by rw [hfeed]; exact fun _ _ => Flow.noConfusion), hfeed]
      rfl

/-! ### The payload (R403 to R408) -/

/-- Settles O39: the feed appends the byte to the pending ones, and no round of the loop changes nothing. -/
theorem feedHoldsBackTwoBytes : Obligations.FeedHoldsBackTwoBytes := by
  refine ⟨fun s b rest hc hi hphase hpend => ?_, fun s hphase => exec_decChunk hphase 0#16⟩
  have hfeed := feed_held_back (s := { s with inFifo := rest }) b hphase hpend
  rw [exec_decChunk_one (by rw [hphase]; decide) hc hi (by rw [hfeed]; exact fun _ _ => Flow.noConfusion), hfeed]
  rfl

/-- Settles O40: the oldest byte is confirmed, and its eight bits are walked where there is a tree. -/
theorem confirmedByteIsDecoded : Obligations.ConfirmedByteIsDecoded := by
  intro s b p0 o0 p1 rest hc hi hphase hpend s1 w
  have hfeed : feed b { s with inFifo := rest } = confirm p0 o0 s1 :=
    feed_confirms (s := { s with inFifo := rest }) (p0 := (p0, o0)) b hphase hpend
  have hexec (hends : ∀ t q, confirm p0 o0 s1 ≠ .wait t q) :
      exec (.decChunk 1#16) s = .next (finish (confirm p0 o0 s1)) :=
    hfeed ▸ exec_decChunk_one (by rw [hphase]; decide) hc hi (hfeed ▸ hends)
  refine ⟨fun hnone => ?_, fun htree hroom => ?_⟩
  · have hconfirm : confirm p0 o0 s1 = raise .noTreePayload o0 s1 := confirm_of_no_tree p0 o0 hnone
    rw [hexec (by rw [hconfirm]; exact fun _ _ => Flow.noConfusion), hconfirm]
    rfl
  · intro s2
    have hconfirm : confirm p0 o0 s1 = if w.bad then raise .invalidCode o0 s2 else .done s2 :=
      (confirm_of_present (s := s1) p0 o0 htree).trans <|
        walkBits_of_room (s := s1) (walkResult_congr s s1 rfl rfl _ _) hroom o0
    rw [hexec (by rw [hconfirm]; intro t q; split <;> exact Flow.noConfusion), hconfirm]
    exact congrArg Host.Outcome.next (apply_ite finish _ _ _)

/-! ### End of input (R409 to R413) -/

theorem exec_decEnd {s : State} (h : s.phase ∈ decodePhases) : exec .decEnd s = .next (finish (decEnd s)) :=
  exec_of_mem (i := .decEnd) h

theorem decEnd_of_header {s : State} (h : s.phase ∈ [.dLen0, .dLen1, .dHdr]) :
    decEnd s = raise .headerTruncated s.dpos s := by
  unfold decEnd
  simp only [List.mem_cons, List.not_mem_nil, or_false] at h
  rcases h with h | h | h <;> rw [h]

section
variable {s : State} (hphase : s.phase = .dPay)
include hphase

theorem decEnd_of_absent (h : s.tstate = .absent) : decEnd s = decEndAbsent s := by
  rw [decEnd, hphase]
  dsimp only
  rw [h]

theorem decEnd_of_present (h : s.tstate = .present) : decEnd s = decEndPresent s := by
  rw [decEnd, hphase]
  dsimp only
  rw [h]

end

theorem decEndPresent_of_few {s : State} (h : s.pend.length < 2) :
    decEndPresent s = raise .payloadTruncated (BitVec.ofNat 32 s.pend.length) s := by
  unfold decEndPresent
  match hp : s.pend with
  | [] => rfl
  | [_] => rfl
  | _ :: _ :: _ =>
    rw [hp, List.length_cons, List.length_cons] at h
    omega

theorem decEndPresent_of_pair {s : State} {p m : Byte × Word} (h : s.pend = [p, m]) :
    decEndPresent s =
      if m.1.toNat < 1 ∨ 8 < m.1.toNat then raise .badMarker (m.1.zeroExtend 32) s
      else (walkBits ((bitsOfByte p.1).take m.1.toNat) p.2 s).andThen decTail [.decTail] := by
  rw [decEndPresent, h]

theorem decTail_at_root {s : State} (h : s.cur = s.root) : decTail s = .done { s with phase := .dDone } :=
  if_neg (not_not_intro h)

theorem decTail_inside {s : State} (h : s.cur ≠ s.root) :
    decTail s = raise .truncatedCode (s.cur.zeroExtend 32) s :=
  if_pos h

/-- Settles O43: the checks before the walk, by the phase, the tree and the pending bytes. -/
theorem decEndWithoutAWalk : Obligations.DecEndWithoutAWalk := by
  intro s
  have hpay (h : s.phase = .dPay) : s.phase ∈ decodePhases := by rw [h]; decide
  refine ⟨fun hphase => ?_, fun hphase htree hle => ?_, fun hphase htree hlt => ?_,
    fun p m hphase htree hpend hm => ?_⟩
  · rw [exec_decEnd (List.mem_append_left [.dPay] hphase), decEnd_of_header hphase]
    rfl
  · rw [exec_decEnd (hpay hphase), decEnd_of_absent hphase htree, decEndAbsent]
    match s.pend with
    | [] => rfl
    | [(b, _)] =>
      dsimp only
      by_cases hb : b = 0#8
      · rw [if_neg (not_not_intro hb), if_pos hb]
        rfl
      · rw [if_pos hb, if_neg hb]
        rfl
    | _ :: _ :: _ => rfl
  · rw [exec_decEnd (hpay hphase), decEnd_of_present hphase htree, decEndPresent_of_few hlt]
    rfl
  · rw [exec_decEnd (hpay hphase), decEnd_of_present hphase htree, decEndPresent_of_pair hpend, if_pos (by omega)]
    rfl

/-- Settles O44: the first `v` bits of the final byte are walked, and the walk's end is compared with the root. -/
theorem decEndWalksTheValidBits : Obligations.DecEndWalksTheValidBits := by
  intro s p v o o' hphase htree hpend hv1 hv8 w hroom s1
  have hwalk : walkBits ((bitsOfByte p).take v.toNat) o s = if w.bad then raise .invalidCode o s1 else .done s1 :=
    walkBits_of_room rfl hroom o
  rw [exec_decEnd (by rw [hphase]; decide), decEnd_of_present hphase htree, decEndPresent_of_pair hpend,
    if_neg (by dsimp only; omega)]
  dsimp only
  rw [hwalk]
  split
  · rfl
  · by_cases hend : w.cur = s.root
    · rw [if_pos hend, Flow.andThen_done, decTail_at_root (s := s1) hend]
      rfl
    · rw [if_neg hend, Flow.andThen_done, decTail_inside (s := s1) hend]
      rfl

/-! ### Splitting a chunk (R422) -/

/-- A decode session goes on, and no command has completed since the acceptance. -/
structure Decoding (s : State) : Prop where
  phase   : s.phase ∈ decodePhases
  notDone : s.done = false

theorem decoding_walkClosed : WalkClosed Decoding where
  push _ _ _ h := ⟨h.phase, h.notDone⟩
  count _ h := ⟨h.phase, h.notDone⟩
  cur _ _ h := ⟨h.phase, h.notDone⟩
  error _ _ _ h := ⟨h.phase, h.notDone⟩

theorem Decoding.loadTree {s : State} (h : Decoding s) (hdr : ByteSeq) : (loadTree hdr s).Holds Decoding := by
  obtain ⟨_, _, -, hl⟩ | ⟨-, hl⟩ | ⟨nodes, -, hl⟩ := loadTree_cases hdr s <;> rw [hl]
  · exact ⟨h.phase, h.notDone⟩
  · exact ⟨h.phase, h.notDone⟩
  · rw [assignCodes_frame]
    exact ⟨h.phase, h.notDone⟩

theorem Decoding.headerDone {s : State} (h : Decoding s) : (headerDone s).Holds Decoding :=
  Flow.holds_andThen (h.loadTree _) fun _ ht => ⟨(by decide : Phase.dPay ∈ decodePhases), ht.notDone⟩

theorem Decoding.feed {s : State} (h : Decoding s) (b : Byte) : (feed b s).Holds Decoding := by
  obtain ⟨hphase, hdone⟩ := h
  cases hs : s.phase with
  | dLen0 =>
    rw [feed_of_dLen0 b hs]
    exact ⟨(by decide : Phase.dLen1 ∈ decodePhases), hdone⟩
  | dLen1 =>
    rw [feed_of_dLen1 b hs]
    split
    · exact Decoding.headerDone ⟨hphase, hdone⟩
    · exact ⟨(by decide : Phase.dHdr ∈ decodePhases), hdone⟩
  | dHdr =>
    rw [feed_of_dHdr b hs]
    split
    · exact Decoding.headerDone ⟨hphase, hdone⟩
    · exact ⟨hphase, hdone⟩
  | dPay =>
    rcases length_lt_two_or_cons_cons s.pend with hlt | ⟨p0, p1, more, hpend⟩
    · rw [feed_held_back b hs hlt]
      exact ⟨hphase, hdone⟩
    · rw [feed_confirms b hs hpend]
      unfold confirm
      split
      · exact walkBits_holds decoding_walkClosed _ _ ⟨hphase, hdone⟩
      · exact ⟨hphase, hdone⟩
      · exact ⟨hphase, hdone⟩
  | _ =>
    rw [hs] at hphase
    exact absurd hphase (by decide)

theorem Decoding.chunkLoop {s : State} (h : Decoding s) (n : Nat) : (chunkLoop n s).Holds Decoding := by
  induction n generalizing s with
  | zero => exact h
  | succ n ih =>
    rw [Machine.chunkLoop]
    split
    · exact h
    · rename_i b t hpop
      obtain ⟨rest, -, -, rfl⟩ := popIn_some hpop
      exact Flow.holds_andThen (Decoding.feed (s := { s.spend with inFifo := rest }) ⟨h.phase, h.notDone⟩ b)
        fun _ ht => ih ht

theorem andThen_eq_done {f : Flow} {k : State → Flow} {r : List Micro} {t : State} (h : f.andThen k r = .done t) :
    ∃ u, f = .done u ∧ k u = .done t := by
  cases f with
  | done u => exact ⟨u, rfl, h⟩
  | _ => cases h

/-- A chunk whose first bytes are fed to their end goes on with the others. -/
theorem chunkLoop_add {a : Nat} {s t : State} (h : chunkLoop a s = .done t) (b : Nat) :
    chunkLoop (a + b) s = chunkLoop b t := by
  induction a generalizing s with
  | zero =>
    obtain rfl : s = t := Flow.done.inj h
    rw [Nat.zero_add]
  | succ a ih =>
    rw [Nat.succ_add]
    rw [chunkLoop] at h ⊢
    split at h
    · cases h
    · obtain ⟨u, hu, hrest⟩ := andThen_eq_done h
      rw [hu]
      exact ih hrest

/-- The surroundings as they are, with no credit limit and no position latched. -/
def noPosition : EnvMap where
  ok e := e.credit = none
  map := id
  todo _ := []
  pop hc hm hi := ⟨by simp [Env.popped, hc], hm, _, hi, rfl⟩
  push _ hc hp := ⟨by simp [Env.pushed, hc], hp, rfl⟩

/-- How a chunk ends does not depend on the latched position. -/
theorem finish_chunkLoop_of_position {s : State} (hs : s.busy = true) (hc : s.credit = none) (n : Nat) :
    finish (chunkLoop n { s with todo := [] }) = finish (chunkLoop n s) :=
  (EnvMap.chunkLoop_follows (M := noPosition) (c := s.cfg) n ⟨rfl, hs, hc⟩).finish_eq fun _ _ => ⟨id, id⟩

/-- A chunk that ends leaves the command running, with no credit limit. -/
theorem running_of_chunkLoop {s t : State} (hs : s.busy = true) (hc : s.credit = none) {n : Nat}
    (h : chunkLoop n s = .done t) : t.busy = true ∧ t.credit = none := by
  have hf := EnvMap.chunkLoop_follows (M := unlimited) (c := s.cfg) n ⟨rfl, hs, hc⟩
  rw [h] at hf
  generalize chunkLoop n (unlimited.lift s) = f at hf
  cases hf with
  | done ht => exact ⟨ht.busy, ht.ok⟩

/-- Settles O42: the first part completes, so the loop goes on from where it ends; the position that a real second
acceptance clears does not matter. -/
theorem chunksMayBeSplit : Obligations.ChunksMayBeSplit := by
  intro s t a b hab hphase hc hs hd ha ht
  have ha16 : (BitVec.ofNat 16 a).toNat = a := Nat.mod_eq_of_lt (by omega)
  have hb16 : (BitVec.ofNat 16 b).toNat = b := Nat.mod_eq_of_lt (by omega)
  have hab16 : (BitVec.ofNat 16 (a + b)).toNat = a + b := Nat.mod_eq_of_lt (by omega)
  rw [exec_decChunk hphase, ha16] at ha
  obtain rfl := Host.Outcome.next.inj ha
  have hkeeps := Decoding.chunkLoop ⟨hphase, hd⟩ a
  rw [exec_decChunk hphase, hab16]
  cases hloop : chunkLoop a s with
  | wait u rest =>
    rw [hloop] at hkeeps ht
    exact absurd (hkeeps.notDone.symm.trans ht) Bool.false_ne_true
  | raised u =>
    rw [hloop] at hkeeps ht
    exact absurd (hkeeps.notDone.symm.trans ht) Bool.false_ne_true
  | done u =>
    rw [hloop] at hkeeps
    obtain ⟨hu, hcu⟩ := running_of_chunkLoop hs hc hloop
    have hagain : { complete u with busy := true, done := false } = { u with todo := [] } := by
      rw [← hu, ← show u.done = false from hkeeps.notDone]
      rfl
    rw [finish_done, hagain, exec_decChunk (s := { u with todo := [] }) hkeeps.phase, hb16, chunkLoop_add hloop,
      finish_chunkLoop_of_position hu hcu]

end Sys2Proof.Machine
end

section
/-! A stream fed by DEC_CHUNK (spec/45_stream_decoder.md R400 to R411): the header's bytes are gathered and loaded, the
payload's bytes but the last two are walked, and DEC_END walks the valid bits of the last one before the marker. -/

namespace Sys2Proof.Machine

/-! ### The bits of a payload (R410; spec/44_stream_encoder.md R354) -/

theorem bitsOfByte_pack8 {s : BitSeq} (h : s.length = 8) : bitsOfByte (pack8 s) = s := by
  match s, h with
  | [b7, b6, b5, b4, b3, b2, b1, b0], h =>
    simp only [bitsOfByte, getLsbD_pack8 h (j := 0) (by decide), getLsbD_pack8 h (j := 1) (by decide),
      getLsbD_pack8 h (j := 2) (by decide), getLsbD_pack8 h (j := 3) (by decide), getLsbD_pack8 h (j := 4) (by decide),
      getLsbD_pack8 h (j := 5) (by decide), getLsbD_pack8 h (j := 6) (by decide), getLsbD_pack8 h (j := 7) (by decide)]
    rfl

theorem tvbOf_le (n : Nat) : tvbOf n ≤ 8 := (eq_tvbOf_iff.1 rfl).1

theorem tvbOf_pos {n : Nat} (h : n ≠ 0) : 1 ≤ tvbOf n :=
  Nat.one_le_iff_ne_zero.2 fun h0 => h ((eq_tvbOf_iff.1 rfl).2.2.1 h0)

/-- The marker byte of so many bits, read as a number. -/
theorem toNat_marker (n : Nat) : (BitVec.ofNat 8 (tvbOf n)).toNat = tvbOf n :=
  Nat.mod_eq_of_lt ((tvbOf_le n).trans_lt (by decide))

theorem tvbOf_add_eight {n : Nat} (h : n ≠ 0) : tvbOf (8 + n) = tvbOf n := by
  rw [tvbOf, if_neg (by omega), Nat.add_mod_left, tvbOf, if_neg h]

/-- The bits of bytes, one after another. -/
def bitsOfBytes (bytes : ByteSeq) : BitSeq := bytes.flatMap bitsOfByte

/-- The bytes of a bit sequence that is not empty: the bits of all but the last, and the valid ones of the last, are the
sequence. -/
theorem bitsToBytes_valid_bits {bits : BitSeq} (hne : bits ≠ []) :
    ∃ init last, bitsToBytes bits = init ++ [last] ∧
      bitsOfBytes init ++ (bitsOfByte last).take (tvbOf bits.length) = bits := by
  induction bits using byteInduction with
  | short bits h =>
    have hlen : 0 < bits.length := List.length_pos_iff.2 hne
    have htvb : tvbOf bits.length = bits.length := by
      rw [tvbOf, if_neg (by omega), if_neg (by omega), Nat.mod_eq_of_lt h]
    refine ⟨[], _, bitsToBytes_of_short h hne, ?_⟩
    rw [bitsOfByte_pack8 (by rw [List.length_append, List.length_replicate]; omega), htvb, List.take_left]
    rfl
  | byte byte rest h ih =>
    rw [bitsToBytes_byte_append h]
    by_cases hrest : rest = []
    · rw [hrest, List.append_nil, h]
      refine ⟨[], pack8 byte, rfl, ?_⟩
      rw [bitsOfByte_pack8 h]
      exact List.take_of_length_le h.le
    · obtain ⟨init, last, hbytes, hbits⟩ := ih hrest
      have hlen : 0 < rest.length := List.length_pos_iff.2 hrest
      have htvb : tvbOf (byte ++ rest).length = tvbOf rest.length := by
        rw [List.length_append, h]
        exact tvbOf_add_eight hlen.ne'
      refine ⟨pack8 byte :: init, last, by rw [hbytes]; rfl, ?_⟩
      rw [htvb, bitsOfBytes, List.flatMap_cons, bitsOfByte_pack8 h, List.append_assoc]
      exact congrArg (byte ++ ·) hbits

/-! ### Feeding a header (R401, R402) -/

/-- A byte whose feed ends leaves the rest of the chunk. -/
theorem chunkLoop_of_feed {s t : State} {b : Byte} {rest : ByteSeq} (hc : s.credit = none) (hi : s.inFifo = b :: rest)
    (h : feed b { s with inFifo := rest } = .done t) (n : Nat) : chunkLoop (n + 1) s = chunkLoop n t := by
  rw [chunkLoop_of_cons hc hi, h, Flow.andThen_done]

/-- The state with these bytes more of a header read, and `rest` left in IN. -/
def State.gathered (h rest : ByteSeq) (s : State) : State :=
  { s with inFifo := rest, hbuf := s.hbuf ++ h, dpos := s.dpos + BitVec.ofNat 32 h.length }

theorem gathered_gathered (b : Byte) (h rest rest' : ByteSeq) (s : State) :
    (s.gathered [b] rest').gathered h rest = s.gathered (b :: h) rest := by
  simp only [State.gathered, List.append_assoc, List.singleton_append, List.length_cons, List.length_nil,
    BitVec.add_assoc, ← BitVec.ofNat_add, Nat.zero_add, Nat.add_comm 1]

/-- The header's bytes are gathered, and the last of them ends the header. -/
theorem chunkLoop_header {h rest : ByteSeq} {s : State} (hne : h ≠ []) (hphase : s.phase = .dHdr)
    (hc : s.credit = none) (hi : s.inFifo = h ++ rest) (hlen : s.hbuf.length + h.length = s.hlen.toNat) (n : Nat) :
    chunkLoop (h.length + n) s = (headerDone (s.gathered h rest)).andThen (chunkLoop n) [.chunk n] := by
  induction h generalizing s with
  | nil => exact absurd rfl hne
  | cons b h ih =>
    have hfeed : feed b { s with inFifo := h ++ rest } =
        if (s.hbuf ++ [b]).length = s.hlen.toNat then headerDone (s.gathered [b] (h ++ rest))
        else .done (s.gathered [b] (h ++ rest)) := feed_of_dHdr (s := { s with inFifo := h ++ rest }) b hphase
    rw [List.length_append, List.length_singleton] at hfeed
    rw [List.length_cons] at hlen ⊢
    rw [Nat.add_right_comm]
    cases h with
    | nil =>
      rw [if_pos (by exact hlen)] at hfeed
      rw [chunkLoop_of_cons hc hi, List.length_nil, Nat.zero_add]
      exact congrArg (fun f => Flow.andThen f (chunkLoop n) [.chunk n]) hfeed
    | cons b' h =>
      rw [List.length_cons] at hlen
      rw [if_neg (by omega)] at hfeed
      rw [chunkLoop_of_feed hc hi hfeed,
        ih (s := s.gathered [b] (b' :: h ++ rest)) (List.cons_ne_nil _ _) hphase hc rfl, gathered_gathered]
      show (s.hbuf ++ [b]).length + (b' :: h).length = s.hlen.toNat
      rw [List.length_append, List.length_singleton, List.length_cons]
      omega

/-- The length a header starts with, read back. -/
theorem hlen_of_lengthPrefixed {n : Nat} (h : n ≤ 65535) :
    ((BitVec.ofNat 8 (n % 256)).zeroExtend 16).toNat + 256 * (BitVec.ofNat 8 (n / 256)).toNat = n := by
  rw [BitVec.toNat_setWidth, BitVec.toNat_ofNat, BitVec.toNat_ofNat]
  omega

/-- The state with the length `n` of a header read, and `rest` left in IN. -/
def State.lengthRead (n : Nat) (rest : ByteSeq) (s : State) : State :=
  { s with inFifo := rest, dpos := s.dpos + 1#32 + 1#32, hlen := BitVec.ofNat 16 n, phase := .dHdr }

/-- The two bytes of a header's length are fed. -/
theorem chunkLoop_length {n : Nat} {rest : ByteSeq} {s : State} (hpos : 0 < n) (hmax : n ≤ 65535)
    (hphase : s.phase = .dLen0) (hc : s.credit = none)
    (hi : s.inFifo = BitVec.ofNat 8 (n % 256) :: BitVec.ofNat 8 (n / 256) :: rest) (m : Nat) :
    chunkLoop (m + 1 + 1) s = chunkLoop m (s.lengthRead n rest) := by
  have hnz : BitVec.ofNat 16 n ≠ 0#16 := fun h0 => by
    have := congrArg BitVec.toNat h0
    rw [BitVec.toNat_ofNat, BitVec.toNat_ofNat, Nat.mod_eq_of_lt (by omega)] at this
    omega
  rw [chunkLoop_of_feed hc hi (feed_of_dLen0 (s := { s with inFifo := BitVec.ofNat 8 (n / 256) :: rest }) _ hphase)]
  refine chunkLoop_of_feed
    (s := { s with
      inFifo := BitVec.ofNat 8 (n / 256) :: rest, dpos := s.dpos + 1#32
      hlen := (BitVec.ofNat 8 (n % 256)).zeroExtend 16, phase := .dLen1 }) hc rfl ?_ m
  rw [feed_of_dLen1 _ rfl, hlen_of_lengthPrefixed hmax, if_neg hnz]
  rfl

/-- The state in which the header `h` has been read, and `payload` is left in IN. -/
def State.headerRead (h payload : ByteSeq) (s : State) : State :=
  { s with
    inFifo := payload, hlen := BitVec.ofNat 16 h.length, phase := .dHdr, hbuf := s.hbuf ++ h
    dpos := s.dpos + 1#32 + 1#32 + BitVec.ofNat 32 h.length }

/-- The length and the bytes of a header are fed, and the payload is left to feed after the header is loaded. -/
theorem chunkLoop_stream {h payload : ByteSeq} {s : State} (hne : h ≠ []) (hmax : h.length ≤ 65535)
    (hphase : s.phase = .dLen0) (hc : s.credit = none) (hi : s.inFifo = lengthPrefixed h ++ payload)
    (hbuf : s.hbuf = []) :
    chunkLoop (lengthPrefixed h ++ payload).length s =
      (headerDone (s.headerRead h payload)).andThen (chunkLoop payload.length) [.chunk payload.length] := by
  have hlen : (lengthPrefixed h ++ payload).length = h.length + payload.length + 1 + 1 := by
    rw [List.length_append, length_lengthPrefixed]
    omega
  have hgathered : (s.lengthRead h.length (h ++ payload)).hbuf.length + h.length =
      (s.lengthRead h.length (h ++ payload)).hlen.toNat := by
    show s.hbuf.length + h.length = (BitVec.ofNat 16 h.length).toNat
    rw [hbuf, List.length_nil, Nat.zero_add, BitVec.toNat_ofNat, Nat.mod_eq_of_lt (by omega)]
  rw [hlen, chunkLoop_length (List.length_pos_iff.2 hne) hmax hphase hc hi]
  exact chunkLoop_header (s := s.lengthRead h.length (h ++ payload)) hne rfl hc rfl hgathered payload.length

/-! ### The end of a header that loads (R402) -/

/-- The state in which a payload starts after the header of the ABSENT tree. -/
def State.absentBegun (s : State) : State :=
  { s with tstate := .absent, nodes := [], root := 0#16, ct := [], cur := 0#16, phase := .dPay }

/-- The state in which a payload starts after the header of a tree. -/
def State.payloadBegun (nodes : List Node) (s : State) : State :=
  { s.withTree nodes with cur := 0#16, phase := .dPay }

theorem headerDone_of_absent {s : State} (h : deserialize s.cfg s.hbuf = .absent) :
    headerDone s = .done s.absentBegun := by
  obtain ⟨_, _, hd, -⟩ | ⟨-, hl⟩ | ⟨_, hd, -⟩ := loadTree_cases s.hbuf s
  · cases h.symm.trans hd
  · rw [headerDone, hl]
    rfl
  · cases h.symm.trans hd

theorem headerDone_of_present {s : State} {nodes : List Node} (h : deserialize s.cfg s.hbuf = .present nodes) :
    headerDone s = .done (s.payloadBegun nodes) := by
  rw [headerDone, loadTree, h]
  dsimp only
  rw [Flow.andThen_done, curToRoot, (assignCodes_tree _).2.1]
  rfl

theorem withTree_frame (nodes : List Node) (s : State) :
    s.withTree nodes = { s with tstate := .present, root := 0#16, nodes := (s.withTree nodes).nodes,
                                ct := (s.withTree nodes).ct } :=
  assignCodes_frame _

theorem payloadBegun_fields (nodes : List Node) (s : State) :
    (s.payloadBegun nodes).tstate = .present ∧ (s.payloadBegun nodes).cur = (s.payloadBegun nodes).root ∧
      (s.payloadBegun nodes).cfg = s.cfg ∧ (s.payloadBegun nodes).credit = s.credit ∧
      (s.payloadBegun nodes).pend = s.pend ∧ (s.payloadBegun nodes).inFifo = s.inFifo ∧
      (s.payloadBegun nodes).outFifo = s.outFifo ∧ (s.payloadBegun nodes).statSyms = s.statSyms := by
  rw [State.payloadBegun, withTree_frame]
  exact ⟨rfl, rfl, rfl, rfl, rfl, rfl, rfl, rfl⟩

/-! ### Feeding a payload (R403 to R408) -/

theorem bitsOfBytes_cons (b : Byte) (bytes : ByteSeq) : bitsOfBytes (b :: bytes) = bitsOfByte b ++ bitsOfBytes bytes :=
  List.flatMap_cons

/-- Room for the texts of two walks is room for the first, and then for the second. -/
theorem roomFor_append {s : State} {w w' : Walked} (h : RoomFor (symTexts s.cfg (w.append w').syms).length s) :
    RoomFor (symTexts s.cfg w.syms).length s ∧ RoomFor (symTexts s.cfg w'.syms).length (s.walked w) := by
  obtain ⟨hc, hroom⟩ := h
  rw [Walked.append, symTexts_append, List.length_append] at hroom
  have hout : (s.walked w).outFifo.length = s.outFifo.length + (symTexts s.cfg w.syms).length := List.length_append
  refine ⟨⟨hc, by omega⟩, hc, ?_⟩
  rw [hout]
  exact (Nat.add_assoc _ _ _).trans_le hroom

/-- The state after payload bytes are taken from IN: what is left in it, the stream offset and the pending bytes. -/
def State.payloadFed (rest : ByteSeq) (dpos : Word) (pend : List (Byte × Word)) (s : State) : State :=
  { s with inFifo := rest, dpos := dpos, pend := pend }

theorem walkResult_walked (w : Walked) (s : State) (bits : BitSeq) (cur : NodeIdx) :
    walkResult (s.walked w) bits cur = walkResult s bits cur :=
  walkResult_congr s (s.walked w) rfl rfl bits cur

theorem walkResult_payloadFed (rest : ByteSeq) (dpos : Word) (pend : List (Byte × Word)) (s : State) (bits : BitSeq)
    (cur : NodeIdx) : walkResult (s.payloadFed rest dpos pend) bits cur = walkResult s bits cur :=
  walkResult_congr s (s.payloadFed rest dpos pend) rfl rfl bits cur

theorem payloadFed_payloadFed (rest rest' : ByteSeq) (dpos dpos' : Word) (pend pend' : List (Byte × Word))
    (s : State) : (s.payloadFed rest dpos pend).payloadFed rest' dpos' pend' = s.payloadFed rest' dpos' pend' := rfl

theorem walked_payloadFed (rest : ByteSeq) (dpos : Word) (pend : List (Byte × Word)) (w : Walked) (s : State) :
    (s.payloadFed rest dpos pend).walked w = (s.walked w).payloadFed rest dpos pend := rfl

/-- A payload byte with fewer than two pending ones is held back. -/
theorem chunkLoop_held_back {s : State} {b : Byte} {rest : ByteSeq} (hphase : s.phase = .dPay) (hc : s.credit = none)
    (hi : s.inFifo = b :: rest) (hpend : s.pend.length < 2) (n : Nat) :
    chunkLoop (n + 1) s = chunkLoop n (s.payloadFed rest (s.dpos + 1#32) (s.pend ++ [(b, s.dpos)])) :=
  chunkLoop_of_feed hc hi (feed_held_back (s := { s with inFifo := rest }) b hphase hpend) n

/-- A third payload byte confirms the oldest one, where its bits are good and OUT has room for their texts. -/
theorem chunkLoop_confirmed {s : State} {b : Byte} {rest : ByteSeq} {p0 p1 : Byte × Word} {w : Walked}
    (hphase : s.phase = .dPay) (htree : s.tstate = .present) (hi : s.inFifo = b :: rest) (hpend : s.pend = [p0, p1])
    (hw : walkResult s (bitsOfByte p0.1) s.cur = w) (hgood : w.bad = false)
    (hroom : RoomFor (symTexts s.cfg w.syms).length s) (n : Nat) :
    chunkLoop (n + 1) s = chunkLoop n ((s.walked w).payloadFed rest (s.dpos + 1#32) [p1, (b, s.dpos)]) := by
  rw [← walkResult_payloadFed rest (s.dpos + 1#32) [p1, (b, s.dpos)]] at hw
  refine chunkLoop_of_feed hroom.1 hi ?_ n
  calc feed b { s with inFifo := rest }
      = confirm p0.1 p0.2 (s.payloadFed rest (s.dpos + 1#32) [p1, (b, s.dpos)]) :=
        feed_confirms (s := { s with inFifo := rest }) b hphase hpend
    _ = walkBits (bitsOfByte p0.1) p0.2 (s.payloadFed rest (s.dpos + 1#32) [p1, (b, s.dpos)]) :=
        confirm_of_present _ _ htree
    _ = _ := by
        rw [walkBits_of_room hw hroom, hgood]
        rfl

/-- With two bytes pending, each byte confirms the oldest one; the last two stay pending. -/
theorem chunkLoop_confirms {bytes : ByteSeq} {s : State} {p0 p1 : Byte × Word} {w : Walked} (hphase : s.phase = .dPay)
    (htree : s.tstate = .present) (hi : s.inFifo = bytes) (hpend : s.pend = [p0, p1])
    (hw : walkResult s (bitsOfBytes ((p0.1 :: p1.1 :: bytes).take bytes.length)) s.cur = w) (hgood : w.bad = false)
    (hroom : RoomFor (symTexts s.cfg w.syms).length s) :
    ∃ dpos q0 q1, [q0.1, q1.1] = (p0.1 :: p1.1 :: bytes).drop bytes.length ∧
      chunkLoop bytes.length s = .done ((s.walked w).payloadFed [] dpos [q0, q1]) := by
  induction bytes generalizing s p0 p1 w with
  | nil =>
    subst hw
    refine ⟨s.dpos, p0, p1, rfl, ?_⟩
    rw [List.length_nil, List.take_zero, bitsOfBytes, List.flatMap_nil, walkResult_nil, walked_of_no_symbol, ← hi,
      ← hpend]
    rfl
  | cons b bytes ih =>
    rw [List.length_cons, List.take_succ_cons, bitsOfBytes_cons] at hw
    subst hw
    obtain ⟨hgood0, happend⟩ := walkResult_append_of_good hgood
    rw [happend] at hgood hroom ⊢
    obtain ⟨hroom0, hroom1⟩ := roomFor_append hroom
    obtain ⟨dpos, q0, q1, hq, hrest⟩ := ih
      (s := (s.walked (walkResult s (bitsOfByte p0.1) s.cur)).payloadFed bytes (s.dpos + 1#32) [p1, (b, s.dpos)])
      hphase htree rfl rfl ((walkResult_payloadFed _ _ _ _ _ _).trans (walkResult_walked _ _ _ _)) hgood hroom1
    refine ⟨dpos, q0, q1, hq, ?_⟩
    rw [List.length_cons, chunkLoop_confirmed hphase htree hi hpend rfl hgood0 hroom0, hrest, walked_payloadFed,
      payloadFed_payloadFed, walked_walked]
    rfl

/-- From `s` to `z` all of a payload's bytes but the last two have been walked to this result, and those are pending. -/
structure Fed (last marker : Byte) (w : Walked) (s z : State) : Prop where
  phase    : z.phase = s.phase
  credit   : z.credit = s.credit
  cfg      : z.cfg = s.cfg
  tstate   : z.tstate = s.tstate
  root     : z.root = s.root
  nodes    : z.nodes = s.nodes
  cur      : z.cur = w.cur
  inFifo   : z.inFifo = []
  outFifo  : z.outFifo = s.outFifo ++ symTexts s.cfg w.syms
  statSyms : z.statSyms = s.statSyms + BitVec.ofNat 32 w.syms.length
  pend     : ∃ o o', z.pend = [(last, o), (marker, o')]

/-- A payload's bytes are fed: all but the last two are walked, and those stay pending. -/
theorem chunkLoop_payload {s : State} {init : ByteSeq} {last marker : Byte} {w : Walked} (hphase : s.phase = .dPay)
    (htree : s.tstate = .present) (hi : s.inFifo = init ++ [last, marker]) (hpend : s.pend = [])
    (hw : walkResult s (bitsOfBytes init) s.cur = w) (hgood : w.bad = false)
    (hroom : RoomFor (symTexts s.cfg w.syms).length s) :
    ∃ z, chunkLoop (init ++ [last, marker]).length s = .done z ∧ Fed last marker w s z := by
  have htwo : ¬(init ++ [last, marker]).length < 2 := by
    rw [List.length_append]
    exact Nat.not_lt.2 (Nat.le_add_left 2 _)
  obtain ⟨x0, x1, more, hbytes⟩ := (length_lt_two_or_cons_cons _).resolve_left htwo
  have hlen : more.length = init.length := by
    have := congrArg List.length hbytes
    simp only [List.length_append, List.length_cons, List.length_nil] at this
    omega
  have htake : (x0 :: x1 :: more).take more.length = init := by rw [← hbytes, hlen, List.take_left]
  have hdrop : (x0 :: x1 :: more).drop more.length = [last, marker] := by rw [← hbytes, hlen, List.drop_left]
  rw [hbytes] at hi ⊢
  rw [List.length_cons, List.length_cons, chunkLoop_held_back hphase hroom.1 hi (by rw [hpend]; decide), hpend,
    chunkLoop_held_back (s := s.payloadFed (x1 :: more) (s.dpos + 1#32) ([] ++ [(x0, s.dpos)])) hphase hroom.1 rfl
      (by exact Nat.one_lt_two)]
  obtain ⟨dpos, q0, q1, hq, hrest⟩ := chunkLoop_confirms (bytes := more)
    (s := s.payloadFed more (s.dpos + 1#32 + 1#32) [(x0, s.dpos), (x1, s.dpos + 1#32)]) (w := w)
    hphase htree rfl rfl (by rw [htake]; exact (walkResult_payloadFed _ _ _ _ _ _).trans hw) hgood hroom
  rw [hdrop] at hq
  obtain ⟨hq0, hq1⟩ := List.cons.inj hq
  obtain ⟨hq1, -⟩ := List.cons.inj hq1
  refine ⟨(s.walked w).payloadFed [] dpos [q0, q1], hrest, rfl, rfl, rfl, rfl, rfl, rfl, rfl, rfl, rfl, rfl,
    q0.2, q1.2, ?_⟩
  rw [← hq0, ← hq1]
  rfl

/-- The end of a payload whose last walk ends at the root (R409 to R411). -/
theorem decEnd_completes {s : State} {last marker : Byte} {o o' : Word} {w : Walked} (hphase : s.phase = .dPay)
    (htree : s.tstate = .present) (hpend : s.pend = [(last, o), (marker, o')]) (hm : 1 ≤ marker.toNat)
    (hm' : marker.toNat ≤ 8) (hw : walkResult s ((bitsOfByte last).take marker.toNat) s.cur = w)
    (hgood : w.bad = false) (hroot : w.cur = s.root) (hroom : RoomFor (symTexts s.cfg w.syms).length s) :
    exec .decEnd s = .next (complete { s.walked w with phase := .dDone }) := by
  subst hw
  rw [decEndWalksTheValidBits s last marker o o' hphase htree hpend hm hm' hroom, hgood, if_neg Bool.false_ne_true,
    if_pos hroot]
  rfl

/-- What a decode session from `s` on has given in `u`: the symbols' texts, and nothing is left in IN. -/
structure SessionDecoded (syms : List Sym) (s u : State) : Prop where
  out      : u.outFifo = s.outFifo ++ symTexts s.cfg syms
  inFifo   : u.inFifo = []
  phase    : u.phase = .dDone
  statSyms : u.statSyms = s.statSyms + BitVec.ofNat 32 syms.length

/-- After the feed, DEC_END completes the decoding where the walk goes on to the root. -/
theorem Fed.decoded {s z : State} {last marker : Byte} {w w' : Walked} (hz : Fed last marker w s z)
    (hphase : s.phase = .dPay) (htree : s.tstate = .present) (hm : 1 ≤ marker.toNat) (hm' : marker.toNat ≤ 8)
    (hw : walkResult s ((bitsOfByte last).take marker.toNat) w.cur = w') (hgood : w'.bad = false)
    (hroot : w'.cur = s.root) (hroom : RoomFor (symTexts s.cfg w'.syms).length (s.walked w)) :
    ∃ u, exec .decEnd (complete z).started = .next (complete u) ∧ SessionDecoded (w.syms ++ w'.syms) s u := by
  obtain ⟨o, o', hpend⟩ := hz.pend
  have hwalk : walkResult (complete z).started ((bitsOfByte last).take marker.toNat) z.cur = w' := by
    rw [walkResult_congr s (complete z).started hz.nodes hz.root, hz.cur, hw]
  have hroom' : RoomFor (symTexts z.cfg w'.syms).length z :=
    ⟨hz.credit.trans hroom.1, by rw [hz.outFifo, hz.cfg]; exact hroom.2⟩
  refine ⟨{ (complete z).started.walked w' with phase := .dDone },
    decEnd_completes (hz.phase.trans hphase) (hz.tstate.trans htree) hpend hm hm' hwalk hgood
      (hroot.trans hz.root.symm) hroom', ?_, hz.inFifo, rfl, ?_⟩
  · show z.outFifo ++ symTexts z.cfg w'.syms = _
    rw [hz.outFifo, hz.cfg, symTexts_append, List.append_assoc]
  · show z.statSyms + BitVec.ofNat 32 w'.syms.length = _
    rw [hz.statSyms, List.length_append, BitVec.ofNat_add, BitVec.add_assoc]

theorem codesOf_ne_nil {s : State} (h : CtInv s) {syms : List Sym} {bits : BitSeq} (hne : syms ≠ [])
    (hcodes : codesOf s syms = some bits) : bits ≠ [] := by
  cases syms with
  | nil => exact absurd rfl hne
  | cons sym syms =>
    rw [codesOf] at hcodes
    split at hcodes
    · rename_i e rest he hrest
      obtain rfl := Option.some.inj hcodes
      exact List.append_ne_nil_of_left_ne_nil (h.nonempty sym e he) rest
    · cases hcodes

/-- The payload of the codes of symbols is decoded to them: the bytes but the last are walked as they are confirmed, and
DEC_END walks the valid bits of the last one to the root. -/
theorem decoded_payload {s : State} {syms : List Sym} {bits : BitSeq} (hphase : s.phase = .dPay)
    (htree : s.tstate = .present) (hct : CtInv s) (hcur : s.cur = s.root) (hpend : s.pend = [])
    (hcodes : codesOf s syms = some bits) (hne : bits ≠ [])
    (hi : s.inFifo = bitsToBytes bits ++ [BitVec.ofNat 8 (tvbOf bits.length)])
    (hroom : RoomFor (symTexts s.cfg syms).length s) :
    ∃ z u, chunkLoop (bitsToBytes bits ++ [BitVec.ofNat 8 (tvbOf bits.length)]).length s = .done z ∧
      exec .decEnd (complete z).started = .next (complete u) ∧ SessionDecoded syms s u := by
  obtain ⟨init, last, hbytes, hbits⟩ := bitsToBytes_valid_bits hne
  have hwalk := codesDecodeToTheirSymbols s syms bits hct hcodes
  rw [← hbits, ← hcur] at hwalk
  obtain ⟨hgood, happend⟩ := walkResult_append_of_good (congrArg Walked.bad hwalk)
  rw [happend] at hwalk
  generalize hw' : walkResult s ((bitsOfByte last).take (tvbOf bits.length)) _ = w' at hwalk
  obtain rfl := congrArg Walked.syms hwalk
  obtain ⟨hroom, hroom'⟩ := roomFor_append hroom
  rw [hbytes, List.append_assoc, List.singleton_append] at hi ⊢
  obtain ⟨z, hloop, hz⟩ := chunkLoop_payload hphase htree hi hpend rfl hgood hroom
  obtain ⟨u, hexec, hu⟩ := hz.decoded (w' := w') hphase htree
    ((toNat_marker bits.length).symm ▸ tvbOf_pos (List.length_pos_iff.2 hne).ne')
    ((toNat_marker bits.length).symm ▸ tvbOf_le _) (by rw [toNat_marker, hw']) (congrArg Walked.bad hwalk)
    ((congrArg Walked.cur hwalk).trans hcur) hroom'
  exact ⟨z, u, hloop, hexec, hu⟩

end Sys2Proof.Machine
end

section
/-! The round trip of a stream (spec/45_stream_decoder.md R423): the first pass of an encode session leaves the
frequency table of its symbols, its header is loaded by the feed to the same codes, and the payload is decoded to the
symbols. -/

namespace Sys2Proof.Machine

/-! ### Runs of commands -/

/-- A command that completes leaves the rest of a run. -/
theorem runCommands_of_exec {i : Instr} {s t : State} (h : exec i s.started = .next (complete t)) (is : List Instr) :
    runCommands (i :: is) s = runCommands is (complete t) := by
  have hexec : exec i { s with busy := true, done := false, todo := [] } = .next (complete t) := h
  rw [runCommands, hexec]
  rfl

theorem outBound_closed : MemoryClosed fun s => s.outFifo.length ≤ s.cfg.outDepth where
  part _ := Iff.rfl
  push _ _ hroom _ := by rw [List.length_append]; exact hroom
  pop _ _ _ _ h := h
  hostPush _ _ _ h := h
  hostPop _ h := by rw [List.length_drop]; exact (Nat.sub_le _ _).trans h
  empty _ _ := Nat.zero_le _
  pend _ _ _ h := h
  clearFt _ h := h
  ftWrite _ _ _ _ _ h := h
  clearTree _ h := h
  absent _ h := h
  built _ _ h := by rw [assignCodes_frame]; exact h
  loaded _ _ _ _ h := by rw [assignCodes_frame]; exact h
  clearBp _ h := h
  append _ _ _ _ h := h
  keep _ h := h
  close _ h := h

/-- A run of well-formed commands keeps a property that every write to the memories and FIFOs keeps. -/
theorem runCommands_keeps {P : State → Prop} (hP : MemoryClosed P) {cmds : List Instr} {s t : State}
    (hwf : ∀ i ∈ cmds, i.wf s.cfg = true) (hs : P s) (h : runCommands cmds s = some t) : P t ∧ t.cfg = s.cfg := by
  induction cmds generalizing s with
  | nil =>
    obtain rfl := Option.some.inj h
    exact ⟨hs, rfl⟩
  | cons i cmds ih =>
    obtain ⟨u, hexec, -, -, hrest⟩ := runCommands_cons h
    have hi : i.wf s.cfg = true := hwf i List.mem_cons_self
    have hu : P u := exec_keeps hP.stepClosed (s := s.started) hi (hP.update hs) hexec
    have hcfg : u.cfg = s.cfg := exec_keeps (cfg_closed s.cfg).stepClosed (s := s.started) hi rfl hexec
    obtain ⟨ht, htcfg⟩ := ih (fun j hj => hcfg ▸ hwf j (List.mem_cons_of_mem _ hj)) hu hrest
    exact ⟨ht, htcfg.trans hcfg⟩

/-! ### The first pass (spec/44_stream_encoder.md R351) -/

/-- The first pass of an encode session goes on: nothing is pushed or packed. -/
structure FirstPass (s : State) : Prop where
  phase  : s.phase = .eCount
  credit : s.credit = none
  out    : s.outFifo = []
  bp     : s.bp = []
  tvb    : s.tvb = 0#4
  opened : s.sealed = false
  ft     : FtInv s

theorem firstPass_of_begin {s u : State} (hc : s.credit = none) (hout : s.outFifo = [])
    (h : exec .encBegin s.started = .next u) : FirstPass u ∧ u.ft = [] ∧ u.cfg = s.cfg := by
  rw [exec_of_mem (i := .encBegin) (mem_allPhases s.started.phase)] at h
  obtain rfl := Host.Outcome.next.inj h
  exact ⟨⟨rfl, hc, hout, rfl, rfl, rfl, ftInv_of_empty rfl rfl⟩, rfl, rfl⟩

theorem symInsert_ne_nil {α : Type} (m : SymMap α) (sym : Sym) (v : α) : symInsert m sym v ≠ [] := by
  unfold symInsert
  split
  · exact List.cons_ne_nil _ _
  · split
    · exact List.cons_ne_nil _ _
    · split <;> exact List.cons_ne_nil _ _

/-- An FT_COUNT that completes has counted its symbol. -/
theorem FirstPass.count {s u : State} (h : FirstPass s) {sym : Sym} (hv : s.cfg.validSym sym = true)
    (hexec : exec (.ftCount sym) s.started = .next u) (hdone : u.done = true) :
    FirstPass u ∧ u.ft ≠ [] ∧ u.cfg = s.cfg := by
  have hphase : s.started.phase ∈ phaseTable (.ftCount sym) :=
    List.mem_append_right quiescentPhases (List.mem_singleton.2 h.phase)
  rw [exec_of_mem hphase, commandBody, ftCount] at hexec
  obtain rfl := Host.Outcome.next.inj hexec
  split at hdone
  · cases hdone
  · split at hdone
    · cases hdone
    · rename_i hmax hroom
      rw [if_neg hmax, if_neg hroom]
      exact ⟨⟨h.phase, h.credit, h.out, h.bp, h.tvb, h.opened, (h.ft.count hv hmax hroom).same⟩,
        symInsert_ne_nil _ _ _, rfl⟩

/-- The counts of a symbol sequence leave the first pass, with a key in FT exactly where there is a symbol. -/
theorem FirstPass.counts {syms : List Sym} {s t : State} {rest : List Instr} (h : FirstPass s)
    (hv : ∀ sym ∈ syms, s.cfg.validSym sym = true) (hrun : runCommands (syms.map .ftCount ++ rest) s = some t) :
    ∃ u, FirstPass u ∧ u.cfg = s.cfg ∧ (u.ft = [] ↔ s.ft = [] ∧ syms = []) ∧ runCommands rest u = some t := by
  induction syms generalizing s with
  | nil => exact ⟨s, h, rfl, (and_iff_left rfl).symm, hrun⟩
  | cons sym syms ih =>
    obtain ⟨u, hexec, hdone, -, hrest⟩ := runCommands_cons hrun
    obtain ⟨hu, hne, hcfg⟩ := h.count (hv sym List.mem_cons_self) hexec hdone
    obtain ⟨v, hv', hvcfg, hft, hend⟩ := ih hu (fun x hx => hcfg ▸ hv x (List.mem_cons_of_mem _ hx)) hrest
    exact ⟨v, hv', hvcfg.trans hcfg, by simp [hft, hne], hend⟩

/-- The state that ENC_HEADER leaves: the built tree's header pushed, and the second pass begun. -/
def State.headerSent (s : State) : State :=
  complete { pushedAll (lengthPrefixed (serialize (build s))) (build s) with phase := .eEmit }

theorem headerSent_frame (s : State) :
    s.headerSent.phase = .eEmit ∧ s.headerSent.credit = s.credit ∧ s.headerSent.bp = s.bp ∧
      s.headerSent.tvb = s.tvb ∧ s.headerSent.sealed = s.sealed ∧ s.headerSent.ct = (build s).ct ∧
      s.headerSent.outFifo = s.outFifo ++ lengthPrefixed (serialize (build s)) := by
  unfold State.headerSent
  generalize lengthPrefixed (serialize (build s)) = bytes
  rw [build_frame]
  exact ⟨rfl, rfl, rfl, rfl, rfl, rfl, rfl⟩

/-- An ENC_HEADER that completes has pushed the built tree's header and opened the second pass. -/
theorem FirstPass.header {s u : State} (h : FirstPass s) (hexec : exec .encHeader s.started = .next u)
    (hdone : u.done = true) (hbusy : u.busy = false) :
    (serialize (build s.started)).length ≤ Config.hdrMax ∧ u = s.started.headerSent := by
  rw [exec_of_mem (i := .encHeader) (s := s.started) (List.mem_singleton.2 h.phase), commandBody] at hexec
  obtain rfl := Host.Outcome.next.inj hexec
  have hb := build_frame s.started
  rcases Nat.lt_or_ge Config.hdrMax (serialize (build s.started)).length with hlong | hfits
  · rw [emitHeader_of_long hlong, hb] at hdone
    cases hdone
  · refine ⟨hfits, ?_⟩
    have hc : (build s.started).credit = none := by rw [hb]; exact h.credit
    have hstart : (build s.started).busy = true := by rw [hb]; rfl
    rw [emitHeader, if_neg (Nat.not_lt.2 hfits)] at hbusy ⊢
    exact ((pushAll_pushesOrWaits hc _).andThen (m := 0) (k := runTodo [.setPhase .eEmit]) .ends rfl rfl
      List.length_append).of_not_busy hstart hbusy

/-- The commands of an encode session with the same second pass as first (R351). -/
def encodeSession (syms : List Sym) : List Instr :=
  .encBegin :: (syms.map .ftCount ++ .encHeader :: (syms.map .encSym ++ [.encFinish]))

theorem encodeSession_wf {c : Config} {syms : List Sym} (hv : ∀ sym ∈ syms, c.validSym sym = true) :
    ∀ i ∈ encodeSession syms, i.wf c = true := by
  intro i hi
  simp only [encodeSession, List.mem_append, List.mem_cons, List.mem_map, List.not_mem_nil, or_false] at hi
  obtain rfl | ⟨sym, hsym, rfl⟩ | rfl | ⟨sym, hsym, rfl⟩ | rfl := hi
  · rfl
  · exact hv sym hsym
  · rfl
  · exact hv sym hsym
  · rfl

/-- What an encode session of these symbols has pushed: the header of the built tree of a frequency table in which there
is a key exactly where there is a symbol, the packed codes of the symbols, and the marker. -/
structure EncodedStream (c : Config) (syms : List Sym) (stream : ByteSeq) (f : State) (bits : BitSeq) : Prop where
  cfg     : f.cfg = c
  ft      : FtInv f
  empty   : f.ft = [] ↔ syms = []
  fits    : (serialize (build f)).length ≤ Config.hdrMax
  codes   : codesOf (build f) syms = some bits
  stream  : stream = lengthPrefixed (serialize (build f)) ++ (bitsToBytes bits ++ [BitVec.ofNat 8 (tvbOf bits.length)])

theorem encodedStream_of_runCommands {s t : State} {syms : List Sym}
    (hv : ∀ sym ∈ syms, s.cfg.validSym sym = true) (hc : s.credit = none) (hout : s.outFifo = [])
    (h : runCommands (encodeSession syms) s = some t) :
    ∃ f bits, EncodedStream s.cfg syms t.outFifo f bits := by
  obtain ⟨s0, hbegin, -, -, h⟩ := runCommands_cons h
  obtain ⟨hs0, hempty, hcfg0⟩ := firstPass_of_begin hc hout hbegin
  obtain ⟨s1, hs1, hcfg1, hft, h⟩ := hs0.counts (fun x hx => hcfg0 ▸ hv x hx) h
  obtain ⟨s2, hheader, hdone, hbusy, h⟩ := runCommands_cons h
  obtain ⟨hfits, rfl⟩ := hs1.header hheader hdone hbusy
  obtain ⟨hphase, hcredit, hbp, htvb, hsealed, hct, hsent⟩ := headerSent_frame s1.started
  obtain ⟨bits, hcodes, hstream, -, -⟩ := encodedPayloadLaw s1.started.headerSent t syms hphase
    (hcredit.trans hs1.credit) (hbp.trans hs1.bp) (htvb.trans hs1.tvb) (hsealed.trans hs1.opened) h
  have hout1 : s1.started.outFifo = [] := hs1.out
  refine ⟨s1.started, bits, hcfg1.trans hcfg0, hs1.ft.same, ?_, hfits, codesOf_congr hct syms ▸ hcodes, ?_⟩
  · show s1.ft = [] ↔ _
    rw [hft, hempty, eq_self, true_and]
  · rw [hstream, hsent, hout1, List.nil_append, List.append_assoc]

/-! ### The header in the decoder (spec/42_tree_serializer.md R259) -/

/-- Codes depend on the code of each symbol's CT entry alone. -/
theorem codesOf_of_codes {s u : State}
    (h : ∀ sym, (u.ctRead sym).map CtEntry.code = (s.ctRead sym).map CtEntry.code) (syms : List Sym) :
    codesOf u syms = codesOf s syms := by
  induction syms with
  | nil => rfl
  | cons sym syms ih =>
    have hsym := h sym
    rw [codesOf, codesOf, ih]
    cases hs : s.ctRead sym with
    | none =>
      rw [hs] at hsym
      rw [Option.map_eq_none_iff.1 hsym]
    | some e =>
      rw [hs] at hsym
      obtain ⟨e', he', hcode⟩ := Option.map_eq_some_iff.1 hsym
      rw [he']
      cases codesOf s syms with
      | none => rfl
      | some rest => exact congrArg (fun code => some (code ++ rest)) hcode

/-- The header of a built tree is loaded to the tree's codes, in any state. -/
theorem deserialize_built {f : State} (hwf : f.cfg.wf = true) (hft : FtInv f) (hne : f.ft ≠ []) :
    ∃ nodes, deserialize f.cfg (serialize (build f)) = .present nodes ∧
      ∀ (s : State) (syms : List Sym), codesOf (s.withTree nodes) syms = codesOf (build f) syms := by
  obtain ⟨t, hload, htree, hct⟩ := builtTreeReloadsWithItsCodes f hwf hft hne
  have hcfg : (build f).cfg = f.cfg := by rw [build_frame]
  obtain ⟨_, _, -, hl⟩ | ⟨-, hl⟩ | ⟨nodes, hd, hl⟩ := loadTree_cases (serialize (build f)) (build f)
  · rw [hl] at hload
    cases hload
  · obtain rfl := Flow.done.inj (hl.symm.trans hload)
    cases htree
  · obtain rfl := Flow.done.inj (hl.symm.trans hload)
    refine ⟨nodes, hcfg ▸ hd, fun s syms => codesOf_of_codes (fun sym => ?_) syms⟩
    have hsame : (s.withTree nodes).ctRead sym =
        (assignCodes { treeClear (build f) with nodes := nodes, tstate := .present }).ctRead sym := rfl
    rw [hsame, hct, Option.map_map]
    rfl

theorem ctInv_withTree {s : State} (hwf : s.cfg.wf = true) {h : ByteSeq} {nodes : List Node}
    (hd : deserialize s.cfg h = .present nodes) : CtInv (s.withTree nodes) :=
  ctInv_loaded hwf hd

/-! ### A decode session -/

/-- The state in which the DEC_CHUNK after a DEC_BEGIN starts. -/
def State.decodeBegun (s : State) : State :=
  { clearSession s with phase := .dLen0, busy := true, done := false, todo := [] }

theorem decodeBegun_fields (s : State) :
    s.decodeBegun.cfg = s.cfg ∧ s.decodeBegun.credit = s.credit ∧ s.decodeBegun.outFifo = s.outFifo ∧
      s.decodeBegun.pend = [] ∧ s.decodeBegun.statSyms = 0#32 :=
  ⟨rfl, rfl, rfl, rfl, rfl⟩

/-- A decode session whose header loads, and whose payload is fed and ends. -/
theorem runCommands_decode {d y z u : State} {h payload : ByteSeq} (hne : h ≠ []) (hmax : h.length ≤ 65535)
    (hc : d.credit = none) (hi : d.inFifo = lengthPrefixed h ++ payload)
    (hlen : (lengthPrefixed h ++ payload).length ≤ 65535)
    (hheader : headerDone (d.decodeBegun.headerRead h payload) = .done y)
    (hpayload : chunkLoop payload.length y = .done z) (hend : exec .decEnd (complete z).started = .next (complete u)) :
    runCommands [.decBegin, .decChunk (BitVec.ofNat 16 (lengthPrefixed h ++ payload).length), .decEnd] d =
      some (complete u) := by
  have hbegin : exec .decBegin d.started = .next (complete { clearSession d.started with phase := .dLen0 }) :=
    exec_of_mem (i := .decBegin) (mem_allPhases d.started.phase)
  have hchunk : exec (.decChunk (BitVec.ofNat 16 (lengthPrefixed h ++ payload).length)) d.decodeBegun =
      .next (complete z) := by
    rw [exec_decChunk (s := d.decodeBegun) (by exact List.mem_cons_self), BitVec.toNat_ofNat,
      Nat.mod_eq_of_lt (by omega), chunkLoop_stream (s := d.decodeBegun) hne hmax rfl hc hi rfl, hheader,
      Flow.andThen_done, hpayload]
    rfl
  rw [runCommands_of_exec hbegin, runCommands_of_exec hchunk, runCommands_of_exec hend]
  rfl

/-- Where the header read is that of a tree in which the payload's bits are the codes of symbols, what follows decodes
to those symbols. -/
theorem decoded_after_header {s : State} {nodes : List Node} {syms : List Sym} {bits : BitSeq} (hwf : s.cfg.wf = true)
    (hd : deserialize s.cfg s.hbuf = .present nodes) (hcodes : codesOf (s.withTree nodes) syms = some bits)
    (hne : syms ≠ []) (hpend : s.pend = []) (hi : s.inFifo = bitsToBytes bits ++ [BitVec.ofNat 8 (tvbOf bits.length)])
    (hroom : RoomFor (symTexts s.cfg syms).length s) :
    ∃ y z u, headerDone s = .done y ∧
      chunkLoop (bitsToBytes bits ++ [BitVec.ofNat 8 (tvbOf bits.length)]).length y = .done z ∧
      exec .decEnd (complete z).started = .next (complete u) ∧ SessionDecoded syms s u := by
  have hct : CtInv (s.payloadBegun nodes) := (ctInv_withTree hwf hd).same
  have hcodes' : codesOf (s.payloadBegun nodes) syms = some bits :=
    (codesOf_congr (s := s.withTree nodes) (u := s.payloadBegun nodes) rfl syms).trans hcodes
  obtain ⟨htree, hcur, hcfg, hcredit, hpend', hin, hout, hstat⟩ := payloadBegun_fields nodes s
  obtain ⟨z, u, hpayload, hend, hu⟩ := decoded_payload rfl htree hct hcur (hpend'.trans hpend) hcodes'
    (codesOf_ne_nil hct hne hcodes') (hin.trans hi)
    ⟨hcredit.trans hroom.1, by rw [hout, hcfg]; exact hroom.2⟩
  exact ⟨s.payloadBegun nodes, z, u, headerDone_of_present hd, hpayload, hend,
    hout ▸ hcfg ▸ hu.out, hu.inFifo, hu.phase, hstat ▸ hu.statSyms⟩

/-- The end of a payload that is the marker 0 alone, with the ABSENT tree (R412). -/
theorem decEnd_completes_absent {s : State} {o : Word} (hphase : s.phase = .dPay) (htree : s.tstate = .absent)
    (hpend : s.pend = [(0#8, o)]) : exec .decEnd s = .next (complete { s with phase := .dDone }) := by
  rw [exec_decEnd (by rw [hphase]; decide), decEnd_of_absent hphase htree, decEndAbsent, hpend]
  rfl

/-- Where the header read is that of the ABSENT tree, the payload of a marker 0 ends the session with no symbol. -/
theorem decoded_after_absent {s : State} (hd : deserialize s.cfg s.hbuf = .absent) (hc : s.credit = none)
    (hpend : s.pend = []) (hi : s.inFifo = [0#8]) :
    ∃ y z u, headerDone s = .done y ∧ chunkLoop [0#8].length y = .done z ∧
      exec .decEnd (complete z).started = .next (complete u) ∧ SessionDecoded [] s u := by
  have hpayload := chunkLoop_held_back (s := s.absentBegun) rfl hc hi (by exact hpend ▸ Nat.zero_lt_two) 0
  exact ⟨s.absentBegun, s.absentBegun.payloadFed [] (s.dpos + 1#32) (s.pend ++ [(0#8, s.dpos)]), _,
    headerDone_of_absent hd, hpayload, decEnd_completes_absent rfl rfl (congrArg (· ++ [(0#8, s.dpos)]) hpend),
    (List.append_nil _).symm, rfl, rfl, (BitVec.add_zero _).symm⟩

/-- The stream of an encode session of no symbol is decoded to nothing: the tree is ABSENT, and the marker is 0. -/
theorem decoded_empty {d f : State} {bits : BitSeq} {stream : ByteSeq} (henc : EncodedStream d.cfg [] stream f bits)
    (hc : d.credit = none) (hi : d.inFifo = stream) (hlen : stream.length ≤ 65535) :
    ∃ u, runCommands [.decBegin, .decChunk (BitVec.ofNat 16 stream.length), .decEnd] d = some (complete u) ∧
      SessionDecoded [] d.decodeBegun u := by
  obtain ⟨-, -, hempty, -, hcodes, rfl⟩ := henc
  obtain rfl := Option.some.inj hcodes
  have hser : serialize (build f) = [markAbsent] := by rw [build_of_ft_nil (hempty.2 rfl)]; rfl
  rw [hser] at hi hlen ⊢
  obtain ⟨y, z, u, hheader, hpayload, hend, hu⟩ := decoded_after_absent
    (s := d.decodeBegun.headerRead [markAbsent] [0#8]) rfl hc rfl rfl
  exact ⟨u, runCommands_decode (List.cons_ne_nil _ _) (by decide) hc hi hlen hheader hpayload hend, hu.out, hu.inFifo,
    hu.phase, hu.statSyms⟩

/-- The stream of an encode session of symbols is decoded to their texts. -/
theorem decoded_symbols {d f : State} {syms : List Sym} {bits : BitSeq} {stream : ByteSeq} (hwf : d.cfg.wf = true)
    (henc : EncodedStream d.cfg syms stream f bits) (hne : syms ≠ []) (hc : d.credit = none) (hi : d.inFifo = stream)
    (hlen : stream.length ≤ 65535) (hroom : d.outFifo.length + (symTexts d.cfg syms).length ≤ d.cfg.outDepth) :
    ∃ u, runCommands [.decBegin, .decChunk (BitVec.ofNat 16 stream.length), .decEnd] d = some (complete u) ∧
      SessionDecoded syms d.decodeBegun u := by
  obtain ⟨hcfg, hft, hempty, hfits, hcodes, rfl⟩ := henc
  obtain ⟨nodes, hd, hsame⟩ := deserialize_built (hcfg ▸ hwf) hft fun h => hne (hempty.1 h)
  have hhdr : serialize (build f) ≠ [] := fun h => by rw [h] at hd; cases hd
  obtain ⟨hbcfg, hbcredit, hbout, hbpend, -⟩ := decodeBegun_fields d
  have hroom' : RoomFor (symTexts d.decodeBegun.cfg syms).length d.decodeBegun :=
    ⟨hbcredit.trans hc, by rw [hbout, hbcfg]; exact hroom⟩
  rw [← hbcfg] at hwf hcfg
  obtain ⟨y, z, u, hheader, hpayload, hend, hu⟩ := decoded_after_header
    (s := d.decodeBegun.headerRead (serialize (build f)) (bitsToBytes bits ++ [BitVec.ofNat 8 (tvbOf bits.length)]))
    hwf (hcfg ▸ hd) ((hsame _ syms).trans hcodes) hne hbpend rfl hroom'
  exact ⟨u, runCommands_decode hhdr hfits hc hi hlen hheader hpayload hend, hu.out, hu.inFifo, hu.phase, hu.statSyms⟩

/-- The stream is in OUT, so it is short enough for one DEC_CHUNK. -/
theorem length_stream_le {s t : State} {syms : List Sym} (hwf : s.cfg.wf = true)
    (hv : ∀ sym ∈ syms, s.cfg.validSym sym = true) (hout : s.outFifo = [])
    (h : runCommands (encodeSession syms) s = some t) :
    t.outFifo.length ≤ 65535 := by
  obtain ⟨hle, hcfg⟩ := runCommands_keeps outBound_closed (encodeSession_wf hv) (by rw [hout]; exact Nat.zero_le _) h
  obtain ⟨-, -, -, -, -, hdepth⟩ := bounds_of_wf hwf
  rw [hcfg] at hle
  exact hle.trans hdepth

/-- Settles O45: the pushed stream is the header and the packed codes. With no symbol the header is that of the ABSENT
tree and the payload its marker 0; otherwise the header is loaded to the same codes, and the payload is walked. -/
theorem decodeUndoesEncode : Obligations.DecodeUndoesEncode := by
  intro s t d syms hwf hv hc hout hrun hcfg hdc hin hdout hroom
  rw [List.append_assoc, List.cons_append, List.cons_append] at hrun
  obtain ⟨f, bits, henc⟩ := encodedStream_of_runCommands hv hc hout hrun
  have hlen := length_stream_le hwf hv hout hrun
  rw [← hcfg] at henc hroom hwf ⊢
  obtain ⟨u, hrun, hu⟩ : ∃ u, runCommands
      [.decBegin, .decChunk (BitVec.ofNat 16 t.outFifo.length), .decEnd] d = some (complete u) ∧
        SessionDecoded syms d.decodeBegun u := by
    by_cases hsyms : syms = []
    · subst hsyms
      exact decoded_empty henc hdc hin hlen
    · exact decoded_symbols hwf henc hsyms hdc hin hlen (by rw [hdout, List.length_nil, Nat.zero_add]; exact hroom)
  refine ⟨complete u, hrun, ?_, hu.inFifo, hu.phase, hu.statSyms.trans (BitVec.zero_add _)⟩
  exact hu.out.trans (by rw [show d.decodeBegun.outFifo = [] from hdout]; rfl)

end Sys2Proof.Machine
end

section
/-! Acceptance of a command word (spec/46_control.md R450, R452, R453): what a write to CMD does with no command in
flight, and with one that goes on or waits. -/

namespace Sys2Proof.Machine

/-! ### A write to CMD -/

section
variable {s : State} {off : BitVec 8} {w : Word} {k : Option Nat} {rest : List HostStep}

/-- A write to CMD offers its word. -/
theorem step_of_cmd_write (hs : s.script = { access := .write off w, credit := k } :: rest) (hoff : off.toNat / 4 = 4) :
    step s = offerCommand w { s with script := rest, credit := k } := by
  rw [step_of_script hs]
  exact if_pos hoff

theorem offerCommand_of_busy (hb : s.busy = true) :
    offerCommand w s = .next (resume { s with cmdOvr := true }) := if_pos hb

/-- A word is accepted where no command is in flight and ERR is 0, or the word is ABORT's (R450, R521). -/
theorem offerCommand_of_idle (hb : s.busy = false) (herr : s.err = true → w = abortWord) :
    offerCommand w s = executeWord w (accept w s) := by
  rw [offerCommand, hb, if_neg Bool.false_ne_true, if_neg fun h => h.2 (herr h.1)]

theorem executeWord_of_command {i : Instr} (h : decode s.cfg w = .command i) : executeWord w s = exec i s := by
  rw [executeWord, h]

theorem executeWord_of_illegal {e : Illegal} (h : decode s.cfg w = .illegal e) :
    executeWord w s = .next (errorEntry .illegalCommand e.subcode s) := by
  rw [executeWord, h]

/-- An accepted word is executed in the same step, on the state of its acceptance. -/
theorem step_of_accepted_word (hs : s.script = { access := .write off w, credit := k } :: rest)
    (hoff : off.toNat / 4 = 4) (hb : s.busy = false) (herr : s.err = true → w = abortWord) :
    step s = executeWord w (accept w { s with script := rest, credit := k }) :=
  (step_of_cmd_write hs hoff).trans (offerCommand_of_idle (s := { s with script := rest, credit := k }) hb herr)

end

/-- Settles O6: the word is accepted and decodes to its command. -/
theorem stepRunsDecodedCommand : Obligations.StepRunsDecodedCommand := by
  intro s off w k rest i hs hoff hb herr hd
  rw [step_of_accepted_word hs hoff hb herr]
  exact executeWord_of_command (s := accept w { s with script := rest, credit := k }) hd

/-- Settles O7: the word is accepted, and error entry follows with its subcode. -/
theorem illegalWordEntersErrorState : Obligations.IllegalWordEntersErrorState := by
  intro s off w k rest e hs hoff hb herr hd
  rw [step_of_accepted_word hs hoff hb fun h => absurd (herr.symm.trans h) Bool.false_ne_true,
    executeWord_of_illegal (s := accept w { s with script := rest, credit := k }) hd]
  cases e <;> rfl

/-! ### A command that waits -/

/-- WAIT_IN and WAIT_OUT show a command in flight that cannot go on (spec/10_state.md R34). -/
theorem blocked_of_waits {s : State} (h : s.waitIn = true ∨ s.waitOut = true) :
    s.busy = true ∧ Blocked s.todo s := by
  cases htodo : s.todo with
  | nil => simp [State.waitIn, State.waitOut, htodo] at h
  | cons m ms =>
    simp only [State.waitIn, State.waitOut, htodo, List.head?_cons, Option.map_some, Option.getD_some,
      Bool.and_eq_true, beq_iff_eq, Bool.not_eq_true'] at h
    obtain ⟨⟨hb, hempty⟩, hpop⟩ | ⟨⟨hb, hfull⟩, hpush⟩ := h
    · exact ⟨hb, m, ms, rfl, .inl ⟨hpop, .inr hempty⟩⟩
    · exact ⟨hb, m, ms, rfl, .inr ⟨hpush, by rw [hfull, Bool.and_false]⟩⟩

/-- A command that waits keeps its place (R457). -/
theorem resume_of_waits {s : State} (h : s.waitIn = true ∨ s.waitOut = true) : resume s = s := by
  obtain ⟨hb, hblocked⟩ := blocked_of_waits h
  rw [resume_of_busy hb, hblocked.runTodo_eq]
  rfl

/-- Settles O8: the word is dropped, and the command in flight is taken up again where it stands. -/
theorem commandWhileBusyIsDropped : Obligations.CommandWhileBusyIsDropped := by
  intro s off w k rest hs hoff
  have hbusy (hb : s.busy = true) : step s = .next (resume { s with script := rest, credit := k, cmdOvr := true }) :=
    (step_of_cmd_write hs hoff).trans (offerCommand_of_busy (s := { s with script := rest, credit := k }) hb)
  refine ⟨hbusy, fun h => ?_⟩
  rw [hbusy (blocked_of_waits h).1]
  exact congrArg Host.Outcome.next (resume_of_waits h)

end Sys2Proof.Machine
end

section
/-! What every command keeps to: its legal phases (spec/46_control.md R455), the moves of the phase (R456) and the
causes that it may raise; and NOP and ABORT (R460, R461). -/

namespace Sys2Proof.Machine

/-- Settles O13: NOP runs in every phase, and completion is its whole effect. -/
theorem nopOnlyCompletes : Obligations.NopOnlyCompletes := fun s =>
  exec_of_mem (i := .nop) (mem_allPhases s.phase)

/-- Settles O14: ABORT runs in every phase, and it is the way out of the error state, `clear_session()` and
completion. -/
theorem abortDiscardsEverything : Obligations.AbortDiscardsEverything := fun s =>
  exec_of_mem (i := .abort) (mem_allPhases s.phase)

/-! ### The phases and errors a command leads to -/

/-- The phase is one of `ps`, and ERR is 1 only where `e` says so. -/
def State.Within (ps : List Phase) (e : Bool) (s : State) : Prop := s.phase ∈ ps ∧ (s.err = true → e = true)

/-- A command leaves such a state, or it raises in one, by another cause than SEQUENCE. -/
def Flow.Within (ps : List Phase) (e : Bool) : Flow → Prop
  | .done s => s.Within ps e
  | .wait s _ => s.Within ps e
  | .raised s => s.phase ∈ ps ∧ s.errCause ≠ 0x02#8

/-- SEQUENCE's code is no other cause's (spec/60_exceptions.md R501). -/
theorem code_ne_of_ne_sequence {c : Cause} (h : c ≠ .sequence) : c.code ≠ 0x02#8 := by
  cases c
  case sequence => exact absurd rfl h
  all_goals decide

variable {ps : List Phase} {e : Bool} {s : State}

theorem State.Within.raise (h : s.Within ps e) (c : Cause) (info : Word) (hc : c ≠ .sequence := by decide) :
    (raise c info s).Within ps e := ⟨h.1, code_ne_of_ne_sequence hc⟩

theorem Flow.Within.andThen {f : Flow} {k : State → Flow} {r : List Micro} (hf : f.Within ps e)
    (hk : ∀ t : State, t.Within ps e → (k t).Within ps e) : (f.andThen k r).Within ps e := by
  cases f with
  | done t => exact hk t hf
  | wait t q => exact hf
  | raised t => exact hf

theorem Flow.Within.finish {f : Flow} (h : f.Within ps e) :
    (finish f).phase ∈ ps ∧ ((finish f).err = true → e = true ∨ (finish f).errCause ≠ 0x02#8) := by
  cases f with
  | done t => exact ⟨h.1, fun ht => .inl (h.2 ht)⟩
  | wait t q => exact ⟨h.1, fun ht => .inl (h.2 ht)⟩
  | raised t => exact ⟨h.1, fun _ => .inr h.2⟩

/-! ### The shared operations -/

theorem State.Within.pushAll (h : s.Within ps e) (bytes : ByteSeq) : (pushAll bytes s).Within ps e := by
  induction bytes generalizing s with
  | nil => exact h
  | cons b bs ih =>
    rw [Machine.pushAll]
    split
    · exact ih (s := pushed b s) h
    · exact h

theorem State.Within.emit (h : s.Within ps e) (sym : Sym) : (emit sym s).Within ps e :=
  (h.pushAll _).andThen fun _ ht => ht

theorem State.Within.walkBits (h : s.Within ps e) (bits : BitSeq) (off : Word) : (walkBits bits off s).Within ps e := by
  induction bits generalizing s with
  | nil => exact h
  | cons bit bits ih =>
    cases hroot : (s.node s.root).body with
    | leaf sym =>
      rw [walkBits_root_leaf hroot]
      split
      · exact h.raise _ _
      · exact (h.emit sym).andThen fun _ => ih
    | internal l r =>
      cases hnode : (s.node (walkDown bit s).cur).body with
      | internal l' r' =>
        rw [walkBits_to_internal hroot hnode]
        exact ih (s := walkDown bit s) h
      | leaf sym =>
        rw [walkBits_to_leaf hroot hnode]
        exact (State.Within.emit (s := walkDown bit s) h sym).andThen fun t ht => ih (s := curToRoot t) ht

theorem State.Within.confirm (h : s.Within ps e) (b : Byte) (off : Word) : (confirm b off s).Within ps e := by
  by_cases htree : s.tstate = .present
  · rw [confirm_of_present b off htree]
    exact h.walkBits _ _
  · rw [confirm_of_no_tree b off htree]
    exact h.raise _ _

theorem State.Within.loadTree (h : s.Within ps e) (hdr : ByteSeq) : (loadTree hdr s).Within ps e := by
  obtain ⟨sub, pos, -, hl⟩ | ⟨-, hl⟩ | ⟨nodes, -, hl⟩ := loadTree_cases hdr s <;> rw [hl]
  · exact State.Within.raise (s := treeClear s) h _ _
  · exact h
  · rw [assignCodes_frame]
    exact h

theorem State.Within.emitHeader (h : s.Within ps e) : (emitHeader s).Within ps e := by
  unfold Machine.emitHeader
  dsimp only
  split
  · exact h.raise _ _
  · exact h.pushAll _

theorem State.Within.build (h : s.Within ps e) : (build s).Within ps e := by
  rw [build_frame]
  exact h

theorem State.Within.ftCount (h : s.Within ps e) (sym : Sym) : (ftCount sym s).Within ps e := by
  unfold Machine.ftCount
  split
  · exact h.raise _ _
  · split
    · exact h.raise _ _
    · exact h

theorem State.Within.appendBits (h : s.Within ps e) (seq : BitSeq) : (appendBits seq s).Within ps e := by
  unfold Machine.appendBits
  split
  · exact h.raise _ _
  · split
    · exact h.raise _ _
    · exact h

/-- The operations of a drain, and moves to phases that are allowed. -/
theorem State.Within.drains {ms : List Micro} (hms : ∀ m ∈ ms, m.isDrain = true ∨ ∃ p ∈ ps, m = .setPhase p)
    (h : s.Within ps e) : (runTodo ms s).Within ps e := by
  induction ms generalizing s with
  | nil => exact h
  | cons m ms ih =>
    refine Flow.Within.andThen ?_ fun t => ih fun m' hm' => hms m' (List.mem_cons_of_mem _ hm')
    obtain hm | ⟨p, hp, rfl⟩ := hms m List.mem_cons_self
    · cases m with
      | push bytes => exact h.pushAll bytes
      | keepPartial | sealPacker => exact h
      | _ => cases hm
    · exact ⟨hp, h.2⟩

theorem State.Within.flushIfFull (h : s.Within ps e) : (flushIfFull s).Within ps e := by
  unfold Machine.flushIfFull
  split
  · exact h.drains (by simp [drainReady, Micro.isDrain])
  · exact h

/-! ### Operations that begin with a pop -/

/-- TS_DESERIALIZE's reads. -/
theorem State.Within.hdrBody (h : s.Within ps e) (n : Nat) : (hdrBody n s).Within ps e := by
  induction n generalizing s with
  | zero => exact h.loadTree _
  | succ n ih =>
    rw [Machine.hdrBody]
    split
    · exact h
    · rename_i b t hpop
      obtain ⟨rest, -, -, rfl⟩ := popIn_some hpop
      exact ih h

theorem State.Within.hdrHi (h : s.Within ps e) (lo : Byte) : (hdrHi lo s).Within ps e := by
  rw [Machine.hdrHi]
  split
  · exact h
  · rename_i b t hpop
    obtain ⟨rest, -, -, rfl⟩ := popIn_some hpop
    exact State.Within.hdrBody (s := { s.spend with inFifo := rest, hbuf := [] }) h _

theorem State.Within.hdrLo (h : s.Within ps e) : (hdrLo s).Within ps e := by
  rw [Machine.hdrLo]
  split
  · exact h
  · rename_i b t hpop
    obtain ⟨rest, -, -, rfl⟩ := popIn_some hpop
    exact State.Within.hdrHi (s := { s.spend with inFifo := rest }) h _

/-- The phases `ps` are closed under the moves of a fed byte (R456). -/
def FedClosed (ps : List Phase) : Prop := ∀ p ∈ ps, ∀ q ∈ phaseMoves (.decChunk 0) p, q ∈ ps

theorem fedClosed_phaseMoves (n : BitVec 16) (p : Phase) : FedClosed (phaseMoves (.decChunk n) p) := by
  change ∀ q ∈ phaseMoves (.decChunk 0) p, ∀ r ∈ phaseMoves (.decChunk 0) q, r ∈ phaseMoves (.decChunk 0) p
  cases p <;> decide

theorem State.Within.headerDone (h : s.Within ps e) (hpay : .dPay ∈ ps) : (headerDone s).Within ps e :=
  (h.loadTree _).andThen fun _ ht => ⟨hpay, ht.2⟩

theorem State.Within.feed (h : s.Within ps e) (hps : FedClosed ps) (b : Byte) : (feed b s).Within ps e := by
  have hmove {p q : Phase} (hs : s.phase = p) (hq : q ∈ phaseMoves (.decChunk 0) p) : q ∈ ps :=
    hps p (hs ▸ h.1) q hq
  cases hs : s.phase with
  | dLen0 =>
    rw [feed_of_dLen0 b hs]
    exact ⟨hmove hs (q := .dLen1) (by decide), h.2⟩
  | dLen1 =>
    rw [feed_of_dLen1 b hs]
    split
    · refine State.Within.headerDone ?_ (hmove hs (by decide))
      exact h
    · exact ⟨hmove hs (q := .dHdr) (by decide), h.2⟩
  | dHdr =>
    rw [feed_of_dHdr b hs]
    split
    · refine State.Within.headerDone ?_ (hmove hs (by decide))
      exact h
    · exact h
  | dPay =>
    rcases length_lt_two_or_cons_cons s.pend with hlt | ⟨p0, p1, more, hpend⟩
    · rw [feed_held_back b hs hlt]
      exact h
    · rw [feed_confirms b hs hpend]
      refine State.Within.confirm ?_ _ _
      exact h
  | _ =>
    rw [Machine.feed, hs]
    exact ⟨hs ▸ h.1, h.2⟩

theorem State.Within.chunkLoop (h : s.Within ps e) (hps : FedClosed ps) (n : Nat) : (chunkLoop n s).Within ps e := by
  induction n generalizing s with
  | zero => exact h
  | succ n ih =>
    rw [Machine.chunkLoop]
    split
    · exact h
    · rename_i b t hpop
      obtain ⟨rest, -, -, rfl⟩ := popIn_some hpop
      exact (State.Within.feed (s := { s.spend with inFifo := rest }) h hps b).andThen fun _ => ih

/-! ### End of input (R409) -/

theorem State.Within.decTail (h : s.Within ps e) (hdone : .dDone ∈ ps) : (decTail s).Within ps e := by
  unfold Machine.decTail
  split
  · exact h.raise _ _
  · exact ⟨hdone, h.2⟩

/-- With the header read, the input may end the session. -/
theorem State.Within.decEnd_of_payload (h : s.Within ps e) (hphase : s.phase = .dPay) (hdone : .dDone ∈ ps) :
    (decEnd s).Within ps e := by
  have habsent : (decEndAbsent s).Within ps e := by
    unfold decEndAbsent
    split
    · exact h.raise _ _
    · split
      · exact h.raise _ _
      · exact ⟨hdone, h.2⟩
    · exact h.raise _ _
  have hpresent : (decEndPresent s).Within ps e := by
    unfold decEndPresent
    split
    · exact h.raise _ _
    · exact h.raise _ _
    · split
      · exact h.raise _ _
      · exact (h.walkBits _ _).andThen fun _ ht => ht.decTail hdone
  rw [decEnd, hphase]
  dsimp only
  cases s.tstate with
  | absent => exact habsent
  | _ => exact hpresent

theorem decEnd_within (hl : s.phase.decoding = true) (h : s.Within (phaseMoves .decEnd s.phase) e) :
    (decEnd s).Within (phaseMoves .decEnd s.phase) e := by
  cases hs : s.phase with
  | dLen0 | dLen1 | dHdr =>
    rw [hs] at h
    rw [decEnd_of_header (by rw [hs]; decide)]
    exact h.raise _ _
  | dPay =>
    rw [hs] at h
    exact h.decEnd_of_payload hs (by decide)
  | _ =>
    rw [hs] at hl
    cases hl

/-! ### Every command -/

/-- Where a command does not open or abort a session, it may leave the phase as it is (R456). -/
theorem self_mem_phaseMoves {i : Instr} (hi : i ∉ [.encBegin, .decBegin, .abort]) (p : Phase) :
    p ∈ phaseMoves i p := by
  cases i with
  | encBegin | decBegin | abort => exact absurd (by decide) hi
  | encHeader | encFinish | decEnd | decChunk => cases p <;> exact List.mem_cons_self
  | _ => exact List.mem_cons_self

/-- In a legal phase a command moves the phase by the table, and raises no SEQUENCE. -/
theorem commandBody_within {i : Instr} (hl : legal i s.phase = true) :
    (commandBody i s).Within (phaseMoves i s.phase) s.err := by
  by_cases hi : i ∈ [.encBegin, .decBegin, .abort]
  · simp only [List.mem_cons, List.not_mem_nil, or_false] at hi
    rcases hi with rfl | rfl | rfl
    · exact ⟨List.mem_cons_self, id⟩
    · exact ⟨List.mem_cons_self, id⟩
    · exact ⟨List.mem_cons_self, (nomatch ·)⟩
  have h : s.Within (phaseMoves i s.phase) s.err := ⟨self_mem_phaseMoves hi s.phase, id⟩
  cases i with
  | encBegin | decBegin | abort => exact absurd (by decide) hi
  | nop | ftClear | bpClear | ftRead | treeInfo | bpSize | bpTvb => exact h
  | ctRead sym =>
    rw [commandBody]
    cases s.ctRead sym <;> exact h
  | nodeRead idx =>
    rw [commandBody]
    split <;> exact h
  | ftCount sym => exact h.ftCount sym
  | tbBuild => exact h.build
  | bpAppendBit | bpAppendBits => exact h.appendBits _
  | bpDrainReady | bpDrainAll => exact h.drains (by simp [drainReady, drainAll, Micro.isDrain])
  | tsSerialize =>
    rw [commandBody]
    split
    · exact h.raise _ _
    · exact h.emitHeader
  | tsDeserialize =>
    rw [commandBody, runTodo_singleton]
    exact h.hdrLo
  | encHeader =>
    have hemit : .eEmit ∈ phaseMoves .encHeader s.phase := by
      rw [beq_iff_eq.1 hl]
      decide
    exact h.build.emitHeader.andThen fun _ ht => ⟨hemit, ht.2⟩
  | encSym sym =>
    rw [commandBody]
    split
    · exact h.raise _ _
    · exact (h.appendBits _).andThen fun t ht => State.Within.flushIfFull (s := countSym t) ht
  | encFinish =>
    have hdone : .eDone ∈ phaseMoves .encFinish s.phase := by
      rw [beq_iff_eq.1 hl]
      decide
    exact h.drains (by simp [drainReady, drainAll, Micro.isDrain, hdone])
  | decChunk n =>
    rw [commandBody, runTodo_singleton]
    exact h.chunkLoop (fedClosed_phaseMoves n s.phase) _
  | decEnd => exact decEnd_within hl h

/-- Settles O11: an illegal phase stays, and in a legal one the command's pseudocode moves it by the table. -/
theorem phaseMovesOnlyByTheTable : Obligations.PhaseMovesOnlyByTheTable := by
  intro i s t h
  obtain ⟨hl, rfl⟩ | ⟨hl, rfl⟩ := exec_next_cases h
  · have hi : i ∉ [.encBegin, .decBegin, .abort] := by
      simp only [List.mem_cons, List.not_mem_nil, or_false]
      rintro (rfl | rfl | rfl) <;> cases hl
    exact self_mem_phaseMoves hi s.phase
  · obtain ⟨hphase, -⟩ := (commandBody_within hl).finish
    exact hphase

/-- Settles O10: the check against the table comes first, and the pseudocode raises no SEQUENCE. -/
theorem illegalPhaseRaisesSequence : Obligations.IllegalPhaseRaisesSequence := by
  refine ⟨fun i s hphase => ?_, fun i s t hphase hnoErr h herr => ?_⟩
  · have hl : legal i s.phase = false := by
      rw [legal_eq_phaseTable]
      exact decide_eq_false hphase
    rw [exec_eq_execute, execute_illegal _ hl, phase_code_eq_idxOf]
    rfl
  · rw [exec_of_mem hphase] at h
    obtain rfl := Host.Outcome.next.inj h
    obtain ⟨-, hcause⟩ := (commandBody_within (legal_of_mem hphase)).finish
    exact (hcause herr).resolve_left fun he => absurd (hnoErr.symm.trans he) Bool.false_ne_true

end Sys2Proof.Machine
end

section
/-! What a step answers (spec/46_control.md R450; spec/60_exceptions.md R502, R520, R521): every access and every
command has a next state, and in the error state a word other than ABORT's has no effect. -/

namespace Sys2Proof.Machine

theorem exec_answers_next (i : Instr) (s : State) : ∃ t, exec i s = .next t := ⟨_, exec_eq_execute i s⟩

theorem executeWord_answers_next (w : Word) (s : State) : ∃ t, executeWord w s = .next t := by
  cases hd : decode s.cfg w with
  | command i =>
    rw [executeWord_of_command hd]
    exact exec_answers_next i s
  | illegal e => exact ⟨_, executeWord_of_illegal hd⟩

/-- In the error state every word but ABORT's is discarded (R521). -/
theorem offerCommand_of_discarded {w : Word} {s : State} (hb : s.busy = false) (herr : s.err = true)
    (hw : w ≠ abortWord) : offerCommand w s = .next s := by
  rw [offerCommand, hb, if_neg Bool.false_ne_true, if_pos ⟨herr, hw⟩]

/-- A word offered to CMD is dropped, discarded or accepted (R450). -/
theorem offerCommand_cases (w : Word) (s : State) :
    (s.busy = true ∧ offerCommand w s = .next (resume { s with cmdOvr := true })) ∨
      (s.busy = false ∧ offerCommand w s = .next s) ∨
      (s.busy = false ∧ (s.err = true → w = abortWord) ∧ offerCommand w s = executeWord w (accept w s)) := by
  by_cases hb : s.busy = true
  · exact .inl ⟨hb, offerCommand_of_busy hb⟩
  replace hb : s.busy = false := Bool.eq_false_of_not_eq_true hb
  by_cases hdiscard : s.err = true ∧ w ≠ abortWord
  · exact .inr (.inl ⟨hb, offerCommand_of_discarded hb hdiscard.1 hdiscard.2⟩)
  · have haccept (herr : s.err = true) : w = abortWord := not_not.1 fun hw => hdiscard ⟨herr, hw⟩
    exact .inr (.inr ⟨hb, haccept, offerCommand_of_idle hb haccept⟩)

theorem offerCommand_answers_next (w : Word) (s : State) : ∃ t, offerCommand w s = .next t := by
  obtain ⟨-, h⟩ | ⟨-, h⟩ | ⟨-, -, h⟩ := offerCommand_cases w s
  · exact ⟨_, h⟩
  · exact ⟨_, h⟩
  · rw [h]
    exact executeWord_answers_next w (accept w s)

theorem hostAccess_of_cmd_write {off : BitVec 8} (h : regIndex off = 4) (v : Word) (s : State) :
    hostAccess (.write off v) s = offerCommand v s := if_pos h

theorem hostAccess_of_write {off : BitVec 8} (h : regIndex off ≠ 4) (v : Word) (s : State) :
    hostAccess (.write off v) s = .next (resume (hostWrite off v s)) := if_neg h

theorem hostAccess_answers_next (a : HostAccess) (s : State) : ∃ t, hostAccess a s = .next t := by
  cases a with
  | idle | rst | read off => exact ⟨_, rfl⟩
  | write off v =>
    by_cases hoff : regIndex off = 4
    · rw [hostAccess_of_cmd_write hoff]
      exact offerCommand_answers_next v s
    · exact ⟨_, hostAccess_of_write hoff v s⟩

/-- A step is the host's next access, or the core's run where no access is left. -/
theorem step_cases (s : State) :
    (s.script = [] ∧ step s = .next (resume { s with credit := none })) ∨
      ∃ h rest, s.script = h :: rest ∧ step s = hostAccess h.access (takeStep h rest s) := by
  unfold step
  split
  · exact .inl ⟨‹_›, rfl⟩
  · exact .inr ⟨_, _, ‹_›, rfl⟩

/-- Settles O12: a step is the host's access, if one is left, and an access answers a next state whatever command it
starts. -/
theorem everyStepAnswersNext : Obligations.EveryStepAnswersNext := by
  refine ⟨fun s => ?_, exec_answers_next⟩
  obtain ⟨-, h⟩ | ⟨hd, rest, -, h⟩ := step_cases s
  · exact ⟨_, h⟩
  · rw [h]
    exact hostAccess_answers_next hd.access _

/-- Settles O9: the word is offered to CMD in the error state, and it is not ABORT's. -/
theorem errorStateDiscardsCommands : Obligations.ErrorStateDiscardsCommands := by
  intro s off w k rest hs hoff hb herr hw
  rw [step_of_cmd_write hs hoff]
  exact offerCommand_of_discarded hb herr hw

end Sys2Proof.Machine
end

section
/-! DONE, ERR, the ERR_ registers and the position (spec/10_state.md R34, R40 to R42, R56; spec/60_exceptions.md R520,
R526). A command runs with both flags 0; it sets one of them as it ends, and what stops before its end stops at a
blocking point. -/

namespace Sys2Proof.Machine

variable {s t : State} {f : Flow}

/-- The invariant is of the two flags, BUSY, the ERR_ registers and the position. -/
theorem FlagsInv.same (h : FlagsInv s) (hbusy : t.busy = s.busy := by rfl) (herr : t.err = s.err := by rfl)
    (hdone : t.done = s.done := by rfl) (hcause : t.errCause = s.errCause := by rfl)
    (hinfo : t.errInfo = s.errInfo := by rfl) (hcmd : t.errCmd = s.errCmd := by rfl)
    (htodo : t.todo = s.todo := by rfl) : FlagsInv t where
  notBoth := by rw [hdone, herr]; exact h.notBoth
  errRegs := by rw [herr, hcause, hinfo, hcmd]; exact h.errRegs
  busyFlags := by rw [hbusy, herr, hdone]; exact h.busyFlags
  idleNoTodo := by rw [hbusy, htodo]; exact h.idleNoTodo

/-- Error entry leaves DONE as it is, 0 since acceptance (R520). -/
theorem flagsInv_errorEntry (cause : Cause) (info : Word) (h : s.done = false) :
    FlagsInv (errorEntry cause info s) where
  notBoth hboth := Bool.false_ne_true (h.symm.trans hboth.1)
  errRegs hnoErr := nomatch hnoErr
  busyFlags hbusy := nomatch hbusy
  idleNoTodo _ := rfl

/-- Completion with ERR 0 (spec/46_control.md R451). -/
theorem flagsInv_complete (herr : s.err = false) (hregs : s.errCause = 0#8 ∧ s.errInfo = 0#32 ∧ s.errCmd = 0#32) :
    FlagsInv (complete s) where
  notBoth hboth := Bool.false_ne_true (herr.symm.trans hboth.2)
  errRegs _ := hregs
  busyFlags hbusy := nomatch hbusy
  idleNoTodo _ := rfl

theorem FlagsInv.clearDone (h : FlagsInv s) : FlagsInv { s with done := false } where
  notBoth hboth := nomatch hboth.1
  errRegs := h.errRegs
  busyFlags hbusy := ⟨(h.busyFlags hbusy).1, rfl⟩
  idleNoTodo := h.idleNoTodo

theorem flagsInv_hardwareReset (s : State) : FlagsInv (hardwareReset s) := (flagsInv_reset s.cfg).same

theorem atBlockingPoint_of_idle (h : s.busy = false) : AtBlockingPoint s :=
  fun hb => absurd (h.symm.trans hb) Bool.false_ne_true

/-- What cannot go on is at a pop or a push. -/
theorem Blocked.atBlockingPoint (h : Blocked s.todo s) : AtBlockingPoint s := fun _ => by
  obtain ⟨m, ms, htodo, hm⟩ := h
  exact ⟨m, ms, htodo, hm.imp And.left And.left⟩

/-! ### A command on its way -/

/-- A command is in flight, and the flags are as they are to be. -/
structure InFlight (s : State) : Prop where
  flags : FlagsInv s
  busy  : s.busy = true

theorem InFlight.noErr (h : InFlight s) : s.err = false := (h.flags.busyFlags h.busy).1

theorem InFlight.notDone (h : InFlight s) : s.done = false := (h.flags.busyFlags h.busy).2

/-- How a command's pseudocode leaves the flags: it ran to its end or stopped at a blocking point with both 0, or it
raised. -/
def Flow.Flagged : Flow → Prop
  | .done s => InFlight s
  | .wait s rest => InFlight s ∧ Blocked rest s
  | .raised s => FlagsInv s ∧ s.busy = false

/-- However a command ends its part of a step, the invariant holds again, and a command in flight has stopped at a
blocking point. -/
theorem Flow.Flagged.finish (h : f.Flagged) : FlagsInv (finish f) ∧ AtBlockingPoint (finish f) := by
  cases f with
  | done s => exact ⟨flagsInv_complete h.noErr (h.flags.errRegs h.noErr), atBlockingPoint_of_idle rfl⟩
  | wait s rest =>
    obtain ⟨hs, hblocked⟩ := h
    have hidle (hb : s.busy = false) : rest = [] := absurd (hb.symm.trans hs.busy) Bool.false_ne_true
    exact ⟨⟨hs.flags.notBoth, hs.flags.errRegs, hs.flags.busyFlags, hidle⟩,
      Blocked.atBlockingPoint (s := { s with todo := rest }) hblocked⟩
  | raised s => exact ⟨h.1, atBlockingPoint_of_idle h.2⟩

theorem Flow.Flagged.andThen {k : State → Flow} {r : List Micro} (hf : f.Flagged)
    (hk : ∀ t, InFlight t → (k t).Flagged) : (f.andThen k r).Flagged := by
  cases f with
  | done t => exact hk t hf
  | wait t q => exact ⟨hf.1, hf.2.append r⟩
  | raised t => exact hf

theorem InFlight.raise (h : InFlight s) (cause : Cause) (info : Word) : (raise cause info s).Flagged :=
  ⟨flagsInv_errorEntry cause info h.notDone, rfl⟩

/-! ### The operations -/

/-- With DONE 0, no operation left to do touches the flags but by an error entry. -/
theorem flagsInv_notDone_closed : TodoClosed fun s => FlagsInv s ∧ s.done = false where
  push _ _ _ h := ⟨h.1.same, h.2⟩
  count _ h := ⟨h.1.same, h.2⟩
  cur _ _ h := ⟨h.1.same, h.2⟩
  error cause info _ h := ⟨flagsInv_errorEntry cause info h.2, h.2⟩
  load hdr s h := by
    obtain ⟨_, _, -, hl⟩ | ⟨-, hl⟩ | ⟨_, -, hl⟩ := loadTree_cases hdr s <;> rw [hl]
    · exact ⟨flagsInv_errorEntry _ _ h.2, h.2⟩
    · exact ⟨h.1.same, h.2⟩
    · rw [assignCodes_frame]
      exact ⟨h.1.same, h.2⟩
  phase _ _ h := ⟨h.1.same, h.2⟩
  dpos _ _ h := ⟨h.1.same, h.2⟩
  hlen _ _ h := ⟨h.1.same, h.2⟩
  hbuf _ _ h := ⟨h.1.same, h.2⟩
  pend _ _ _ h := ⟨h.1.same, h.2⟩
  pop _ _ _ _ h := ⟨h.1.same, h.2⟩
  keep _ h := ⟨h.1.same, h.2⟩
  close _ h := ⟨h.1.same, h.2⟩

/-- The surroundings as they are: a run that follows itself stops only where it is blocked. -/
def unchangedEnv : EnvMap where
  ok _ := True
  map := id
  pop _ hm hi := ⟨trivial, hm, _, hi, rfl⟩
  push _ _ hp := ⟨trivial, hp, rfl⟩

theorem InFlight.running (h : InFlight s) : unchangedEnv.Running s.cfg s := ⟨rfl, h.busy, trivial⟩

theorem InFlight.flags_notDone (h : InFlight s) : FlagsInv s ∧ s.done = false := ⟨h.flags, h.notDone⟩

/-- A run stops where it is blocked, with the command in flight; what else it does keeps the flags. -/
theorem flagged_of_follows {c : Config} {f' : Flow} (hf : unchangedEnv.Follows c f f')
    (hflags : f.Holds fun s => FlagsInv s ∧ s.done = false) : f.Flagged := by
  cases hf with
  | done hs => exact ⟨hflags.1, hs.busy⟩
  | wait hs hblocked => exact ⟨⟨hflags.1, hs.busy⟩, hblocked⟩
  | raised hc => exact ⟨hflags.1, rfl⟩

theorem InFlight.runTodo (h : InFlight s) (ms : List Micro) : (runTodo ms s).Flagged :=
  flagged_of_follows (EnvMap.runTodo_follows ms h.running) (runTodo_holds flagsInv_notDone_closed ms h.flags_notDone)

theorem InFlight.emitHeader (h : InFlight s) : (emitHeader s).Flagged :=
  flagged_of_follows (EnvMap.emitHeader_follows h.running)
    (emitHeader_holds flagsInv_notDone_closed.toWalkClosed h.flags_notDone)

theorem InFlight.decEnd (h : InFlight s) : (decEnd s).Flagged :=
  flagged_of_follows (EnvMap.decEnd_follows h.running)
    (decEnd_holds flagsInv_notDone_closed.toFeedClosed h.flags_notDone)

theorem InFlight.flushIfFull (h : InFlight s) : (flushIfFull s).Flagged :=
  flagged_of_follows (EnvMap.flushIfFull_follows h.running) (flushIfFull_holds flagsInv_notDone_closed h.flags_notDone)

theorem InFlight.build (h : InFlight s) : InFlight (build s) := by
  rw [build_frame]
  exact ⟨h.flags.same, h.busy⟩

theorem InFlight.ftCount (h : InFlight s) (sym : Sym) : (ftCount sym s).Flagged := by
  unfold Machine.ftCount
  split
  · exact h.raise _ _
  · split
    · exact h.raise _ _
    · exact ⟨h.flags.same, h.busy⟩

theorem InFlight.appendBits (h : InFlight s) (seq : BitSeq) : (appendBits seq s).Flagged := by
  unfold Machine.appendBits
  split
  · exact h.raise _ _
  · split
    · exact h.raise _ _
    · exact ⟨h.flags.same, h.busy⟩

/-! ### Every command -/

/-- ABORT clears ERR before it sets DONE (R526), whatever the flags were. -/
theorem flagsInv_abort (h : exec .abort s = .next t) : FlagsInv t ∧ AtBlockingPoint t := by
  obtain rfl := Host.Outcome.next.inj ((abortDiscardsEverything s).symm.trans h)
  exact ⟨flagsInv_complete (s := abortClear s) rfl ⟨rfl, rfl, rfl⟩, atBlockingPoint_of_idle rfl⟩

/-- The pseudocode of a command but ABORT touches the flags by an error entry only. -/
theorem commandBody_flagged {i : Instr} (hi : i ≠ .abort) (h : InFlight s) : (commandBody i s).Flagged := by
  cases i <;> rw [commandBody]
  case abort => exact absurd rfl hi
  case nop => exact h
  case ftClear | ftRead | treeInfo | bpClear | bpSize | bpTvb | encBegin | decBegin => exact ⟨h.flags.same, h.busy⟩
  case ctRead sym => cases s.ctRead sym <;> exact ⟨h.flags.same, h.busy⟩
  case nodeRead idx => split <;> exact ⟨h.flags.same, h.busy⟩
  case tsDeserialize | bpDrainReady | bpDrainAll | encFinish | decChunk => exact h.runTodo _
  case bpAppendBit | bpAppendBits => exact h.appendBits _
  case ftCount sym => exact h.ftCount sym
  case tbBuild => exact h.build
  case tsSerialize =>
    split
    · exact h.raise _ _
    · exact h.emitHeader
  case encHeader => exact h.build.emitHeader.andThen fun t ht => ht.runTodo _
  case encSym sym =>
    split
    · exact h.raise _ _
    · exact (h.appendBits _).andThen fun t ht => InFlight.flushIfFull (s := countSym t) ⟨ht.flags.same, ht.busy⟩
  case decEnd => exact h.decEnd

theorem exec_flags {i : Instr} (hi : i ≠ .abort) (h : InFlight s) (he : exec i s = .next t) :
    FlagsInv t ∧ AtBlockingPoint t := by
  obtain ⟨-, rfl⟩ | ⟨-, rfl⟩ := exec_next_cases he
  · exact (h.raise .sequence _).finish
  · exact (commandBody_flagged hi h).finish

/-! ### Every step -/

theorem resume_flags (h : FlagsInv s) : FlagsInv (resume s) ∧ AtBlockingPoint (resume s) := by
  cases hb : s.busy with
  | false =>
    rw [resume_of_idle hb]
    exact ⟨h, atBlockingPoint_of_idle hb⟩
  | true =>
    rw [resume_of_busy hb]
    exact (InFlight.runTodo ⟨h, hb⟩ s.todo).finish

/-- Acceptance with ERR 0 clears DONE and sets BUSY. -/
theorem inFlight_accept (h : FlagsInv s) (herr : s.err = false) (w : Word) : InFlight (accept w s) where
  flags := { notBoth := fun hboth => nomatch hboth.1
             errRegs := h.errRegs
             busyFlags := fun _ => ⟨herr, rfl⟩
             idleNoTodo := fun _ => rfl }
  busy := rfl

/-- The word that the error state accepts is ABORT's in every build (R521). -/
theorem decode_abortWord (c : Config) : decode c abortWord = .command .abort := decodeOfEncode c .abort rfl

/-- In the error state the accepted word is ABORT's; any other command is accepted with ERR 0. -/
theorem executeWord_flags {w : Word} (h : FlagsInv s) (haccept : s.err = true → w = abortWord)
    (he : executeWord w (accept w s) = .next t) : FlagsInv t ∧ AtBlockingPoint t := by
  cases hd : decode s.cfg w with
  | illegal e =>
    rw [executeWord_of_illegal (s := accept w s) hd] at he
    obtain rfl := Host.Outcome.next.inj he
    exact ⟨flagsInv_errorEntry _ _ rfl, atBlockingPoint_of_idle rfl⟩
  | command i =>
    rw [executeWord_of_command (s := accept w s) hd] at he
    by_cases hi : i = .abort
    · subst hi
      exact flagsInv_abort he
    · have herr : s.err = false := Bool.eq_false_of_not_eq_true fun herr => by
        rw [haccept herr, decode_abortWord] at hd
        exact hi (Decoded.command.inj hd).symm
      exact exec_flags hi (inFlight_accept h herr w) he

theorem offerCommand_flags {w : Word} (h : FlagsInv s) (he : offerCommand w s = .next t) :
    FlagsInv t ∧ AtBlockingPoint t := by
  obtain ⟨-, ho⟩ | ⟨hb, ho⟩ | ⟨-, haccept, ho⟩ := offerCommand_cases w s <;> rw [ho] at he
  · obtain rfl := Host.Outcome.next.inj he
    exact resume_flags h.same
  · obtain rfl := Host.Outcome.next.inj he
    exact ⟨h, atBlockingPoint_of_idle hb⟩
  · exact executeWord_flags h haccept he

/-- A host write may clear DONE or reset, and touches no flag otherwise. -/
theorem FlagsInv.hostWrite (h : FlagsInv s) (off : BitVec 8) (v : Word) : FlagsInv (hostWrite off v s) := by
  unfold Machine.hostWrite
  split
  · split
    · exact flagsInv_hardwareReset s
    · exact h
  · split
    · exact h.clearDone
    · exact h
  · exact h.same
  · unfold pushIn
    split <;> exact h.same
  · exact h.same
  · exact h

theorem hostAccess_flags {a : HostAccess} (h : FlagsInv s) (he : hostAccess a s = .next t) :
    FlagsInv t ∧ AtBlockingPoint t := by
  cases a with
  | idle =>
    obtain rfl := Host.Outcome.next.inj he
    exact resume_flags h
  | rst =>
    obtain rfl := Host.Outcome.next.inj he
    exact ⟨flagsInv_hardwareReset s, atBlockingPoint_of_idle rfl⟩
  | read off =>
    obtain rfl := Host.Outcome.next.inj he
    exact resume_flags (s := hostRead off s) h.same
  | write off v =>
    by_cases hoff : regIndex off = 4
    · rw [hostAccess_of_cmd_write hoff] at he
      exact offerCommand_flags h he
    · rw [hostAccess_of_write hoff] at he
      obtain rfl := Host.Outcome.next.inj he
      exact resume_flags (h.hostWrite off v)

/-- Settles O55: a command runs with both flags 0 and sets one of them as it ends, where it does not stop at a blocking
point; a host access clears DONE, resets, or leaves the flags. -/
theorem flagsStayConsistent : Obligations.FlagsStayConsistent := by
  intro s t h he
  obtain ⟨-, ho⟩ | ⟨hd, rest, -, ho⟩ := step_cases s <;> rw [ho] at he
  · obtain rfl := Host.Outcome.next.inj he
    exact resume_flags (s := { s with credit := none }) h.same
  · exact hostAccess_flags (s := takeStep hd rest s) h.same he

end Sys2Proof.Machine
end

section
/-! Reset (spec/70_reset_and_hazards.md R550, R551, R553): `rst` and soft reset are one reset of the core, which leaves
it idle, so nothing runs on in the step. -/

namespace Sys2Proof.Machine

theorem hostWrite_softReset {off : BitVec 8} (h : off.toNat / 4 = 2) {v : Word} (hv : v.getLsbD 0 = true) (s : State) :
    hostWrite off v s = hardwareReset s := by
  rw [hostWrite, regIndex, h, hv]
  rfl

/-- No command is in flight after a reset, so the core's run changes nothing. -/
theorem resume_hardwareReset (s : State) : resume (hardwareReset s) = hardwareReset s :=
  resume_of_idle (hardwareReset_busy s)

/-- Settles O49: both accesses are `hardwareReset`, and soft reset's run after it finds an idle core. -/
theorem resetFromEveryState : Obligations.ResetFromEveryState := by
  intro s a k rest hs ha
  rcases ha with rfl | ⟨off, v, rfl, hoff, hv⟩
  · exact step_of_script hs
  · calc step s
        = .next (resume (hostWrite off v { s with script := rest, credit := k })) := step_of_write hs (by omega)
      _ = .next (hardwareReset { s with script := rest, credit := k }) := by
        rw [hostWrite_softReset hoff hv, resume_hardwareReset]

end Sys2Proof.Machine
end
